-- ==== Sys2Proof/Word.lean ====
section
/-! DEFINITION. The word types of the block (10_state R62): bytes, 32-bit register words, the 64-bit counter. -/

namespace Sys2Proof

/-- A byte: one FIFO entry, one frame, one period field (R62). -/
abbrev Byte := BitVec 8

/-- A register word, `REG_BITS` = 32 (00_scope R9). -/
abbrev Word := BitVec 32

/-- A counter value, `CYCLE_BITS` = 64 (R52). -/
abbrev DWord := BitVec 64

end Sys2Proof
end

