-- ==== Sys2Proof/Config.lean ====
section
/-! DEFINITION. What the environment fixes (00_scope R7), the fixed literals of the document (R8), and the free values:
constants with no body, so that no proof can know what they are. -/

namespace Sys2Proof

/-- What `TXCNT` reports (R7 `TXCNT_SENSE`, R40). -/
inductive CountSense where
  | occupancy
  | free
  deriving DecidableEq, Repr

/-- How the 64-bit counter is read (R7 `COUNTER_READ`, R78). -/
inductive CounterRead where
  | atomic64
  | split32
  deriving DecidableEq, Repr

/-- What a failing construction does (R7 `CONSTRUCT_FAIL_POLICY`, R238). -/
inductive FailPolicy where
  | error
  | abort
  deriving DecidableEq, Repr

/-- The agents that may move between two host accesses (R5, R6). -/
inductive Turn where
  | host
  | engine
  | counter
  deriving DecidableEq, Repr, Inhabited

/-- The mode and period values an engine samples at `FRAME_START` (R171, R84). -/
structure Snapshot where
  cpol   : Bool
  cpha   : Bool
  bitord : Bool
  ph0    : Byte
  ph1    : Byte
  idle   : Byte
  deriving DecidableEq, Repr

/-- One record of `FRAMES` (R51): the byte clocked out, the byte clocked in, the snapshot, and whether the received byte
entered the receive FIFO. -/
structure FrameRecord where
  tx     : Byte
  rx     : Byte
  snap   : Snapshot
  stored : Bool
  deriving DecidableEq, Repr

/-- The engine sequencer `ENG` (R48): no frame in flight, or a byte being clocked out with the snapshot of R171. -/
inductive Eng where
  | idle
  | shifting (b : Byte) (snap : Snapshot)
  deriving DecidableEq, Repr

/-! The parameter `LAYOUT` (R7): where each field stands in the words of the register map. -/

/-- The address spaces a field can stand in (20_memory R70). -/
inductive Space where
  | spi
  | counter
  deriving DecidableEq, Repr

/-- The place of one field (R7): its space, the byte offset of its word, its highest and its lowest bit. -/
structure Place where
  space  : Space
  offset : BitVec 8
  hi     : Nat
  lo     : Nat
  deriving DecidableEq, Repr

/-- The fields that stand in a word (10_state R20, 30_encoding R101 to R109). -/
inductive Field where
  | mEn
  | sEn
  | fsize
  | cpol
  | cpha
  | bitord
  | cont
  | role
  | busy
  | ph0
  | ph1
  | idle
  | txclr
  | rxclr
  | txovf
  | txudf
  | rxovf
  | rxudf
  | txcnt
  | rxcnt
  | txd
  | rxd
  | cycleLo
  | cycleHi
  deriving DecidableEq, Repr

/-- Every field. -/
def Field.all : List Field :=
  [.mEn, .sEn, .fsize, .cpol, .cpha, .bitord, .cont, .role, .busy, .ph0, .ph1, .idle, .txclr, .rxclr, .txovf, .txudf,
   .rxovf, .rxudf, .txcnt, .rxcnt, .txd, .rxd, .cycleLo, .cycleHi]

/-- A `LAYOUT` (R7): a place for every field, and the place of the DMA request enables, the one group of unmodelled bits that a
rule names (R105, 60_exceptions R340; log 17). -/
structure Layout where
  mEn     : Place
  sEn     : Place
  fsize   : Place
  cpol    : Place
  cpha    : Place
  bitord  : Place
  cont    : Place
  role    : Place
  busy    : Place
  ph0     : Place
  ph1     : Place
  idle    : Place
  txclr   : Place
  rxclr   : Place
  txovf   : Place
  txudf   : Place
  rxovf   : Place
  rxudf   : Place
  txcnt   : Place
  rxcnt   : Place
  txd     : Place
  rxd     : Place
  cycleLo : Place
  cycleHi : Place
  dma     : Place
  deriving DecidableEq, Repr

/-- The place of a field. -/
def Layout.place (l : Layout) : Field → Place
  | .mEn => l.mEn
  | .sEn => l.sEn
  | .fsize => l.fsize
  | .cpol => l.cpol
  | .cpha => l.cpha
  | .bitord => l.bitord
  | .cont => l.cont
  | .role => l.role
  | .busy => l.busy
  | .ph0 => l.ph0
  | .ph1 => l.ph1
  | .idle => l.idle
  | .txclr => l.txclr
  | .rxclr => l.rxclr
  | .txovf => l.txovf
  | .txudf => l.txudf
  | .rxovf => l.rxovf
  | .rxudf => l.rxudf
  | .txcnt => l.txcnt
  | .rxcnt => l.rxcnt
  | .txd => l.txd
  | .rxd => l.rxd
  | .cycleLo => l.cycleLo
  | .cycleHi => l.cycleHi

/-- The default `LAYOUT`: the offsets of R81 and the bits of R101 to R109. -/
def Layout.default : Layout :=
  { mEn     := ⟨.spi, 0x00, 0, 0⟩,
    sEn     := ⟨.spi, 0x00, 1, 1⟩,
    fsize   := ⟨.spi, 0x00, 3, 2⟩,
    cpol    := ⟨.spi, 0x00, 4, 4⟩,
    cpha    := ⟨.spi, 0x00, 5, 5⟩,
    bitord  := ⟨.spi, 0x00, 6, 6⟩,
    cont    := ⟨.spi, 0x00, 9, 9⟩,
    role    := ⟨.spi, 0x00, 10, 10⟩,
    busy    := ⟨.spi, 0x08, 0, 0⟩,
    ph0     := ⟨.spi, 0x10, 23, 16⟩,
    ph1     := ⟨.spi, 0x10, 31, 24⟩,
    idle    := ⟨.spi, 0x14, 7, 0⟩,
    txclr   := ⟨.spi, 0x80, 2, 2⟩,
    rxclr   := ⟨.spi, 0x80, 3, 3⟩,
    txovf   := ⟨.spi, 0x80, 4, 4⟩,
    txudf   := ⟨.spi, 0x80, 5, 5⟩,
    rxovf   := ⟨.spi, 0x80, 6, 6⟩,
    rxudf   := ⟨.spi, 0x80, 7, 7⟩,
    txcnt   := ⟨.spi, 0x84, 2, 0⟩,
    rxcnt   := ⟨.spi, 0x84, 10, 8⟩,
    txd     := ⟨.spi, 0x88, 7, 0⟩,
    rxd     := ⟨.spi, 0x8C, 7, 0⟩,
    cycleLo := ⟨.counter, 0x00, 31, 0⟩,
    cycleHi := ⟨.counter, 0x04, 31, 0⟩,
    dma     := ⟨.spi, 0x80, 1, 0⟩ }

/-- The record `RESET` (R7, R58): the reset value of each piece of state, and of each one the spec leaves unspecified either a
platform's value or `none`, a draw. `TXCLR`, `RXCLR`, `TXCNT`, `RXCNT` and `BUSY` have no storage, and `FRAMES`, which the model
keeps for itself, is emptied (R360). -/
structure ResetRecord where
  role   : Bool
  mEn    : Bool
  sEn    : Bool
  cpol   : Bool
  cpha   : Bool
  cont   : Bool
  fsize  : BitVec 2
  bitord : Bool
  ph0    : Option Byte
  ph1    : Option Byte
  idle   : Option Byte
  txovf  : Bool
  txudf  : Bool
  rxovf  : Bool
  rxudf  : Bool
  txf    : List Byte
  rxf    : List Byte
  eng    : Eng
  cycle  : Option DWord
  u      : Vector (Option Word) 64
  deriving DecidableEq, Repr

/-- The default `RESET` record, the table of R58. -/
def ResetRecord.default : ResetRecord :=
  { role := false, mEn := false, sEn := false, cpol := false, cpha := false, cont := false, fsize := 0, bitord := false,
    ph0 := none, ph1 := none, idle := none, txovf := false, txudf := false, rxovf := false, rxudf := false,
    txf := [], rxf := [], eng := .idle, cycle := none, u := Vector.replicate 64 none }

/-- The parameters a run is fixed to (R7, R55). DESIGN CHOICE (safe): they stand in State, which every claim quantifies
over, so a claim about all states is a claim about all parameter values (log 5). -/
structure Params where
  fifoDepth   : Nat
  cntBits     : Nat
  txcntSense  : CountSense
  layout      : Layout
  spiBase     : Word
  counterRead : CounterRead
  failPolicy  : FailPolicy
  reset       : ResetRecord
  deriving DecidableEq, Repr

/-- The defaults of R7. -/
def Params.default : Params :=
  { fifoDepth := 4, cntBits := 3, txcntSense := .occupancy, layout := .default, spiBase := 0x4000A200,
    counterRead := .atomic64, failPolicy := .error, reset := .default }

namespace Config

/-- `FILLER`, the byte sent when there is nothing to send (R7, R264). -/
def filler : Byte := 0x00

/-- `LEN_MAX`, the largest half-period length (R7, R112). -/
def lenMax : Nat := 256

/-- The size of the host's address space in bytes. PRESUMED (unsafe): a 32-bit host (log 13). -/
def hostSpace : Nat := 2 ^ 32

/-- What a byte of host memory that nothing has written reads as. DESIGN CHOICE (unsafe): 0x00 (log 13). -/
def unwritten : Byte := 0x00

/-- FREE VALUE: the `draw` of 00_scope R10, one fresh 64-bit value for each number drawn, cut to the width asked for. It
stands for the upper bits of RXDATA and BUSY reads, the byte of an RXDATA read of an empty FIFO, and the unspecified reset
values (log 7, log 8). -/
opaque freeValue : Nat → BitVec 64

/-- FREE VALUE: which agent moves when no program slot says so (R5: any number of engine steps and counter ticks between
two host accesses; log 1). -/
opaque freeTurn : Nat → Turn

/-- FREE VALUE: the oracle `PEER` (R181), the received byte as a function of the frames so far, the byte clocked out and
the snapshot (log 9). -/
opaque peer : List FrameRecord → Byte → Snapshot → Byte

end Config

end Sys2Proof
end

