-- ==== Sys2Proof/Syntax.lean ====
section
/-! DEFINITION. The abstract syntax: one constructor of `Instr` for each row of spec/opcode_table.json, with the operands
R110 and R111 give it. -/

namespace Sys2Proof

/-- The two formats that select a rule (30_encoding R100): an access descriptor or a command tag. -/
inductive Format where
  | A
  | K
  deriving DecidableEq, Repr

/-- A caller's byte buffer in host memory (R111 `buf`): its first address and its length (log 13). -/
structure Buf where
  base : Word
  len  : Word
  deriving DecidableEq, Repr

/-- `BusMode.polarity` (R115). -/
inductive Polarity where
  | idleLow
  | idleHigh
  deriving DecidableEq, Repr

/-- `BusMode.phase` (R115). -/
inductive Phase where
  | captureOnFirstTransition
  | captureOnSecondTransition
  deriving DecidableEq, Repr

/-- `BusMode` (R55, R115). -/
structure BusMode where
  polarity : Polarity
  phase    : Phase
  deriving DecidableEq, Repr

/-- The operand of `setBitOrder` (R116). -/
inductive BitOrder where
  | msbFirst
  | lsbFirst
  deriving DecidableEq, Repr

/-- The unit a transaction's delay carries (45_transaction R306). -/
inductive TimeUnit where
  | ns
  | us
  | ms
  deriving DecidableEq, Repr

/-- A duration with its unit (R306); the number is below 2^32 (42_cycle_delay R207). -/
structure Duration where
  unit   : TimeUnit
  amount : Word
  deriving DecidableEq, Repr

/-- The operands of `construct` (43_divider_construct R233): the handle and the pin-set are opaque tokens. -/
structure ConstructArgs where
  handle : Word
  pinSet : Word
  mode   : BusMode
  freq   : Word
  fCore  : Word
  fSpi   : Word
  deriving DecidableEq, Repr

/-- One Operation of a Transaction (R300, R124). -/
inductive Operation where
  | read (b : Buf)
  | write (b : Buf)
  | transfer (r w : Buf)
  | transferInPlace (b : Buf)
  | delay (d : Duration)
  deriving DecidableEq, Repr

/-- The fifty rows of spec/opcode_table.json, in the table's order. A write access carries its data word. -/
inductive Instr where
  | rdConfig
  | wrConfig (w : Word)
  | rdBusy
  | wrBusy (w : Word)
  | rdPeriod0
  | wrPeriod0 (w : Word)
  | rdPeriod1
  | wrPeriod1 (w : Word)
  | rdFifo0
  | wrFifo0 (w : Word)
  | rdFifo1
  | wrFifo1 (w : Word)
  | rdTxData
  | wrTxData (w : Word)
  | rdRxData
  | wrRxData (w : Word)
  | rdCycle
  | rdCycleHi
  | wrCycle (w : Word)
  | wrCycleHi (w : Word)
  | construct (a : ConstructArgs)
  | setBitOrder (o : BitOrder)
  | clearFifos
  | read (b : Buf)
  | write (b : Buf)
  | transfer (r w : Buf)
  | transferInPlace (b : Buf)
  | flush
  | runTransaction (ops : List Operation)
  | release
  | now
  | elapsedSince (start : DWord)
  | delayCycles (n : DWord)
  | delayNs (d : Word)
  | delayUs (d : Word)
  | delayMs (d : Word)
  | delayNew (hz : Word)
  | trySend (w : Byte)
  | tryRecv
  | byteStep (w : Byte)
  | clockDivider (src f : Word)
  | opRead (b : Buf)
  | opWrite (b : Buf)
  | opTransfer (r w : Buf)
  | opTransferInPlace (b : Buf)
  | opDelay (d : Duration)
  | frameStart
  | frameComplete (r : Byte)
  | tick
  | reset
  deriving DecidableEq, Repr

end Sys2Proof
end

