-- ==== Sys2Proof/WellFormed.lean ====
section
/-! DEFINITION. What an instruction must satisfy beyond its types: every buffer it names lies inside the host's address
space. All other operands are meaningful at every value of their type. -/

namespace Sys2Proof

/-- The buffer's last byte lies below the end of the host's address space (log 13). -/
def Buf.fits (b : Buf) : Bool :=
  decide (b.base.toNat + b.len.toNat ≤ Config.hostSpace)

/-- Every buffer of the operation fits. -/
def Operation.wellFormed : Operation → Bool
  | .read b => b.fits
  | .write b => b.fits
  | .transfer r w => r.fits && w.fits
  | .transferInPlace b => b.fits
  | .delay _ => true

/-- Every buffer the instruction names fits. -/
def Instr.wellFormed : Instr → Bool
  | .read b => b.fits
  | .write b => b.fits
  | .transfer r w => r.fits && w.fits
  | .transferInPlace b => b.fits
  | .runTransaction ops => ops.all Operation.wellFormed
  | .opRead b => b.fits
  | .opWrite b => b.fits
  | .opTransfer r w => r.fits && w.fits
  | .opTransferInPlace b => b.fits
  | .rdConfig | .wrConfig _ | .rdBusy | .wrBusy _ | .rdPeriod0 | .wrPeriod0 _ | .rdPeriod1 | .wrPeriod1 _
  | .rdFifo0 | .wrFifo0 _ | .rdFifo1 | .wrFifo1 _ | .rdTxData | .wrTxData _ | .rdRxData | .wrRxData _
  | .rdCycle | .rdCycleHi | .wrCycle _ | .wrCycleHi _ | .construct _ | .setBitOrder _ | .clearFifos | .flush
  | .release | .now | .elapsedSince _ | .delayCycles _ | .delayNs _ | .delayUs _ | .delayMs _ | .delayNew _
  | .trySend _ | .tryRecv | .byteStep _ | .clockDivider _ _ | .opDelay _ | .frameStart | .frameComplete _
  | .tick | .reset => true

end Sys2Proof
end

