-- ==== Sys2Proof/Decode.lean ====
section
/-! DEFINITION. Decoding (30_encoding R100, R110, R111), total on any bytes and rejecting by name, and the encoder. The
descriptor of format A is two bytes, the low byte first, followed by the data word of a write; the tag of format K is one
byte, followed by the operands. The spec packs no operand into bits (R100): their layout, every number with its low byte
first, is the model's (log 3). -/

namespace Sys2Proof

/-- Why bytes are no instruction. -/
inductive DecodeError where
  /-- The bytes end before the instruction does. -/
  | truncated
  /-- A descriptor word with a bit above bit 9 set: format A has ten bits (R100). -/
  | descriptorTooWide
  /-- An offset that is not a multiple of 4 (20_memory R72). -/
  | misalignedOffset
  /-- A word offset that holds no register, or a counter offset outside the two halves (R73, R110). -/
  | noRegister
  /-- A tag that is not in the table of R111. -/
  | unknownTag
  /-- A mode byte outside the four modes of R115. -/
  | badMode
  /-- A bit-order byte other than 0 and 1 (R116). -/
  | badBitOrder
  /-- A unit byte other than 0, 1 and 2 (R306). -/
  | badUnit
  /-- An operation tag outside 0x30 to 0x34 in an operation list (R124). -/
  | badOperation
  deriving DecidableEq, Repr

/-- A decoded value and the bytes after it, or why there is none. -/
abbrev Decoded (α : Type) := Except DecodeError (α × List Byte)

/-- Go on with what was decoded. -/
def decodedThen {α β : Type} (p : Decoded α) (f : α → List Byte → Decoded β) : Decoded β :=
  match p with
  | .ok (a, rest) => f a rest
  | .error e => .error e

/-- One byte. -/
def takeByte : List Byte → Decoded Byte
  | b :: rest => .ok (b, rest)
  | [] => .error .truncated

/-- Two bytes, low byte first. -/
def takeHalf : List Byte → Decoded (BitVec 16)
  | b0 :: b1 :: rest => .ok (b1 ++ b0, rest)
  | _ => .error .truncated

/-- Four bytes, low byte first. -/
def takeWord : List Byte → Decoded Word
  | b0 :: b1 :: b2 :: b3 :: rest => .ok (b3 ++ b2 ++ b1 ++ b0, rest)
  | _ => .error .truncated

/-- Eight bytes, low byte first. -/
def takeDWord (bs : List Byte) : Decoded DWord :=
  decodedThen (takeWord bs) fun lo bs => decodedThen (takeWord bs) fun hi bs => .ok (hi ++ lo, bs)

/-- A buffer: base, then length. -/
def takeBuf (bs : List Byte) : Decoded Buf :=
  decodedThen (takeWord bs) fun base bs => decodedThen (takeWord bs) fun len bs => .ok (⟨base, len⟩, bs)

/-- Two buffers. -/
def takeBufs (bs : List Byte) : Decoded (Buf × Buf) :=
  decodedThen (takeBuf bs) fun r bs => decodedThen (takeBuf bs) fun w bs => .ok ((r, w), bs)

/-- The mode number `2 * CPOL + CPHA` of R115. -/
def takeMode (bs : List Byte) : Decoded BusMode :=
  decodedThen (takeByte bs) fun m bs =>
    match m.toNat with
    | 0 => .ok (⟨.idleLow, .captureOnFirstTransition⟩, bs)
    | 1 => .ok (⟨.idleLow, .captureOnSecondTransition⟩, bs)
    | 2 => .ok (⟨.idleHigh, .captureOnFirstTransition⟩, bs)
    | 3 => .ok (⟨.idleHigh, .captureOnSecondTransition⟩, bs)
    | _ => .error .badMode

/-- The bit order, encoded as the value of `BITORD` (R116). -/
def takeBitOrder (bs : List Byte) : Decoded BitOrder :=
  decodedThen (takeByte bs) fun o bs =>
    match o.toNat with
    | 0 => .ok (.msbFirst, bs)
    | 1 => .ok (.lsbFirst, bs)
    | _ => .error .badBitOrder

/-- A unit byte, then the amount. -/
def takeDuration (bs : List Byte) : Decoded Duration :=
  decodedThen (takeByte bs) fun u bs =>
    match u.toNat with
    | 0 => decodedThen (takeWord bs) fun d bs => .ok (⟨.ns, d⟩, bs)
    | 1 => decodedThen (takeWord bs) fun d bs => .ok (⟨.us, d⟩, bs)
    | 2 => decodedThen (takeWord bs) fun d bs => .ok (⟨.ms, d⟩, bs)
    | _ => .error .badUnit

/-- The operands of CONSTRUCT in the order of R111. -/
def takeConstructArgs (bs : List Byte) : Decoded ConstructArgs :=
  decodedThen (takeWord bs) fun handle bs => decodedThen (takeWord bs) fun pinSet bs =>
  decodedThen (takeMode bs) fun mode bs => decodedThen (takeWord bs) fun freq bs =>
  decodedThen (takeWord bs) fun fCore bs => decodedThen (takeWord bs) fun fSpi bs =>
    .ok (⟨handle, pinSet, mode, freq, fCore, fSpi⟩, bs)

/-- The operands of one Operation, given its tag (R124). -/
def takeOperation (tag : Byte) (bs : List Byte) : Decoded Operation :=
  match tag.toNat with
  | 0x30 => decodedThen (takeBuf bs) fun b bs => .ok (.read b, bs)
  | 0x31 => decodedThen (takeBuf bs) fun b bs => .ok (.write b, bs)
  | 0x32 => decodedThen (takeBufs bs) fun p bs => .ok (.transfer p.1 p.2, bs)
  | 0x33 => decodedThen (takeBuf bs) fun b bs => .ok (.transferInPlace b, bs)
  | 0x34 => decodedThen (takeDuration bs) fun d bs => .ok (.delay d, bs)
  | _ => .error .badOperation

/-- A list of Operations, ended by a zero byte; the fuel bounds the number of bytes that may be read. -/
def takeOperations : Nat → List Byte → Decoded (List Operation)
  | 0, _ => .error .truncated
  | fuel + 1, bs =>
    decodedThen (takeByte bs) fun tag bs =>
      if tag = 0 then .ok ([], bs)
      else decodedThen (takeOperation tag bs) fun op bs =>
        decodedThen (takeOperations fuel bs) fun ops bs => .ok (op :: ops, bs)

/-- Format A (R110): the descriptor, then the data word of a write. -/
def decodeA (bs : List Byte) : Decoded Instr :=
  decodedThen (takeHalf bs) fun d bs =>
    match d.toNat with
    | 0x000 => .ok (.rdConfig, bs)
    | 0x100 => decodedThen (takeWord bs) fun w bs => .ok (.wrConfig w, bs)
    | 0x008 => .ok (.rdBusy, bs)
    | 0x108 => decodedThen (takeWord bs) fun w bs => .ok (.wrBusy w, bs)
    | 0x010 => .ok (.rdPeriod0, bs)
    | 0x110 => decodedThen (takeWord bs) fun w bs => .ok (.wrPeriod0 w, bs)
    | 0x014 => .ok (.rdPeriod1, bs)
    | 0x114 => decodedThen (takeWord bs) fun w bs => .ok (.wrPeriod1 w, bs)
    | 0x080 => .ok (.rdFifo0, bs)
    | 0x180 => decodedThen (takeWord bs) fun w bs => .ok (.wrFifo0 w, bs)
    | 0x084 => .ok (.rdFifo1, bs)
    | 0x184 => decodedThen (takeWord bs) fun w bs => .ok (.wrFifo1 w, bs)
    | 0x088 => .ok (.rdTxData, bs)
    | 0x188 => decodedThen (takeWord bs) fun w bs => .ok (.wrTxData w, bs)
    | 0x08C => .ok (.rdRxData, bs)
    | 0x18C => decodedThen (takeWord bs) fun w bs => .ok (.wrRxData w, bs)
    | 0x200 => .ok (.rdCycle, bs)
    | 0x204 => .ok (.rdCycleHi, bs)
    | 0x300 => decodedThen (takeWord bs) fun w bs => .ok (.wrCycle w, bs)
    | 0x304 => decodedThen (takeWord bs) fun w bs => .ok (.wrCycleHi w, bs)
    | n => if n ≥ 1024 then .error .descriptorTooWide
           else if n % 4 ≠ 0 then .error .misalignedOffset
           else .error .noRegister

/-- Format K (R111): the tag, then the operands. -/
def decodeK (bs : List Byte) : Decoded Instr :=
  decodedThen (takeByte bs) fun tag bs =>
    match tag.toNat with
    | 0x01 => decodedThen (takeConstructArgs bs) fun a bs => .ok (.construct a, bs)
    | 0x02 => decodedThen (takeBitOrder bs) fun o bs => .ok (.setBitOrder o, bs)
    | 0x03 => .ok (.clearFifos, bs)
    | 0x04 => decodedThen (takeBuf bs) fun b bs => .ok (.read b, bs)
    | 0x05 => decodedThen (takeBuf bs) fun b bs => .ok (.write b, bs)
    | 0x06 => decodedThen (takeBufs bs) fun p bs => .ok (.transfer p.1 p.2, bs)
    | 0x07 => decodedThen (takeBuf bs) fun b bs => .ok (.transferInPlace b, bs)
    | 0x08 => .ok (.flush, bs)
    | 0x09 => decodedThen (takeOperations bs.length bs) fun ops bs => .ok (.runTransaction ops, bs)
    | 0x0A => .ok (.release, bs)
    | 0x10 => .ok (.now, bs)
    | 0x11 => decodedThen (takeDWord bs) fun start bs => .ok (.elapsedSince start, bs)
    | 0x12 => decodedThen (takeDWord bs) fun n bs => .ok (.delayCycles n, bs)
    | 0x13 => decodedThen (takeWord bs) fun d bs => .ok (.delayNs d, bs)
    | 0x14 => decodedThen (takeWord bs) fun d bs => .ok (.delayUs d, bs)
    | 0x15 => decodedThen (takeWord bs) fun d bs => .ok (.delayMs d, bs)
    | 0x16 => decodedThen (takeWord bs) fun hz bs => .ok (.delayNew hz, bs)
    | 0x20 => decodedThen (takeByte bs) fun w bs => .ok (.trySend w, bs)
    | 0x21 => .ok (.tryRecv, bs)
    | 0x22 => decodedThen (takeByte bs) fun w bs => .ok (.byteStep w, bs)
    | 0x23 => decodedThen (takeWord bs) fun src bs => decodedThen (takeWord bs) fun f bs => .ok (.clockDivider src f, bs)
    | 0x30 => decodedThen (takeBuf bs) fun b bs => .ok (.opRead b, bs)
    | 0x31 => decodedThen (takeBuf bs) fun b bs => .ok (.opWrite b, bs)
    | 0x32 => decodedThen (takeBufs bs) fun p bs => .ok (.opTransfer p.1 p.2, bs)
    | 0x33 => decodedThen (takeBuf bs) fun b bs => .ok (.opTransferInPlace b, bs)
    | 0x34 => decodedThen (takeDuration bs) fun d bs => .ok (.opDelay d, bs)
    | 0x40 => .ok (.frameStart, bs)
    | 0x41 => decodedThen (takeByte bs) fun r bs => .ok (.frameComplete r, bs)
    | 0x42 => .ok (.tick, bs)
    | 0x43 => .ok (.reset, bs)
    | _ => .error .unknownTag

/-- The decoder: the instruction the bytes begin with, and the bytes after it. -/
def decode : Format → List Byte → Decoded Instr
  | .A, bs => decodeA bs
  | .K, bs => decodeK bs

/-- The format of an instruction's row in the opcode table. -/
def Instr.format : Instr → Format
  | .rdConfig | .wrConfig _ | .rdBusy | .wrBusy _ | .rdPeriod0 | .wrPeriod0 _ | .rdPeriod1 | .wrPeriod1 _
  | .rdFifo0 | .wrFifo0 _ | .rdFifo1 | .wrFifo1 _ | .rdTxData | .wrTxData _ | .rdRxData | .wrRxData _
  | .rdCycle | .rdCycleHi | .wrCycle _ | .wrCycleHi _ => .A
  | .construct _ | .setBitOrder _ | .clearFifos | .read _ | .write _ | .transfer _ _ | .transferInPlace _ | .flush
  | .runTransaction _ | .release | .now | .elapsedSince _ | .delayCycles _ | .delayNs _ | .delayUs _ | .delayMs _
  | .delayNew _ | .trySend _ | .tryRecv | .byteStep _ | .clockDivider _ _ | .opRead _ | .opWrite _ | .opTransfer _ _
  | .opTransferInPlace _ | .opDelay _ | .frameStart | .frameComplete _ | .tick | .reset => .K

/-- The opcode table's `match` of an instruction's row (R110, R111). -/
def Instr.code : Instr → Nat
  | .rdConfig => 0x000
  | .wrConfig _ => 0x100
  | .rdBusy => 0x008
  | .wrBusy _ => 0x108
  | .rdPeriod0 => 0x010
  | .wrPeriod0 _ => 0x110
  | .rdPeriod1 => 0x014
  | .wrPeriod1 _ => 0x114
  | .rdFifo0 => 0x080
  | .wrFifo0 _ => 0x180
  | .rdFifo1 => 0x084
  | .wrFifo1 _ => 0x184
  | .rdTxData => 0x088
  | .wrTxData _ => 0x188
  | .rdRxData => 0x08C
  | .wrRxData _ => 0x18C
  | .rdCycle => 0x200
  | .rdCycleHi => 0x204
  | .wrCycle _ => 0x300
  | .wrCycleHi _ => 0x304
  | .construct _ => 0x01
  | .setBitOrder _ => 0x02
  | .clearFifos => 0x03
  | .read _ => 0x04
  | .write _ => 0x05
  | .transfer _ _ => 0x06
  | .transferInPlace _ => 0x07
  | .flush => 0x08
  | .runTransaction _ => 0x09
  | .release => 0x0A
  | .now => 0x10
  | .elapsedSince _ => 0x11
  | .delayCycles _ => 0x12
  | .delayNs _ => 0x13
  | .delayUs _ => 0x14
  | .delayMs _ => 0x15
  | .delayNew _ => 0x16
  | .trySend _ => 0x20
  | .tryRecv => 0x21
  | .byteStep _ => 0x22
  | .clockDivider _ _ => 0x23
  | .opRead _ => 0x30
  | .opWrite _ => 0x31
  | .opTransfer _ _ => 0x32
  | .opTransferInPlace _ => 0x33
  | .opDelay _ => 0x34
  | .frameStart => 0x40
  | .frameComplete _ => 0x41
  | .tick => 0x42
  | .reset => 0x43

/-- The bytes of a 16-bit number, low byte first. -/
def halfBytes (w : BitVec 16) : List Byte :=
  [w.extractLsb' 0 8, w.extractLsb' 8 8]

/-- The bytes of a word, low byte first. -/
def wordBytes (w : Word) : List Byte :=
  [w.extractLsb' 0 8, w.extractLsb' 8 8, w.extractLsb' 16 8, w.extractLsb' 24 8]

/-- The bytes of a 64-bit number, low byte first. -/
def dwordBytes (w : DWord) : List Byte :=
  wordBytes (w.extractLsb' 0 32) ++ wordBytes (w.extractLsb' 32 32)

/-- The bytes of a buffer. -/
def bufBytes (b : Buf) : List Byte :=
  wordBytes b.base ++ wordBytes b.len

/-- The mode number of R115. -/
def modeByte : BusMode → Byte
  | ⟨.idleLow, .captureOnFirstTransition⟩ => 0
  | ⟨.idleLow, .captureOnSecondTransition⟩ => 1
  | ⟨.idleHigh, .captureOnFirstTransition⟩ => 2
  | ⟨.idleHigh, .captureOnSecondTransition⟩ => 3

/-- The value of `BITORD` (R116). -/
def bitOrderByte : BitOrder → Byte
  | .msbFirst => 0
  | .lsbFirst => 1

/-- The unit byte. -/
def unitByte : TimeUnit → Byte
  | .ns => 0
  | .us => 1
  | .ms => 2

/-- The bytes of a duration. -/
def durationBytes (d : Duration) : List Byte :=
  unitByte d.unit :: wordBytes d.amount

/-- The bytes of CONSTRUCT's operands. -/
def constructBytes (a : ConstructArgs) : List Byte :=
  wordBytes a.handle ++ wordBytes a.pinSet ++ [modeByte a.mode] ++ wordBytes a.freq ++ wordBytes a.fCore ++ wordBytes a.fSpi

/-- The bytes of one Operation: its tag, then its operands (R124). -/
def operationBytes : Operation → List Byte
  | .read b => 0x30 :: bufBytes b
  | .write b => 0x31 :: bufBytes b
  | .transfer r w => 0x32 :: (bufBytes r ++ bufBytes w)
  | .transferInPlace b => 0x33 :: bufBytes b
  | .delay d => 0x34 :: durationBytes d

/-- The bytes of an operation list: each operation, then a zero byte. -/
def operationsBytes : List Operation → List Byte
  | [] => [0]
  | op :: ops => operationBytes op ++ operationsBytes ops

/-- The bytes of an instruction's operands. -/
def Instr.operandBytes : Instr → List Byte
  | .wrConfig w | .wrBusy w | .wrPeriod0 w | .wrPeriod1 w | .wrFifo0 w | .wrFifo1 w | .wrTxData w | .wrRxData w
  | .wrCycle w | .wrCycleHi w => wordBytes w
  | .construct a => constructBytes a
  | .setBitOrder o => [bitOrderByte o]
  | .read b | .write b | .transferInPlace b | .opRead b | .opWrite b | .opTransferInPlace b => bufBytes b
  | .transfer r w | .opTransfer r w => bufBytes r ++ bufBytes w
  | .runTransaction ops => operationsBytes ops
  | .elapsedSince n | .delayCycles n => dwordBytes n
  | .delayNs d | .delayUs d | .delayMs d | .delayNew d => wordBytes d
  | .trySend w | .byteStep w | .frameComplete w => [w]
  | .clockDivider src f => wordBytes src ++ wordBytes f
  | .opDelay d => durationBytes d
  | .rdConfig | .rdBusy | .rdPeriod0 | .rdPeriod1 | .rdFifo0 | .rdFifo1 | .rdTxData | .rdRxData | .rdCycle | .rdCycleHi
  | .clearFifos | .flush | .release | .now | .tryRecv | .frameStart | .tick | .reset => []

/-- The bytes of the selector: a two-byte descriptor in format A, a one-byte tag in format K (R100). -/
def selectorBytes (f : Format) (code : Nat) : List Byte :=
  match f with
  | .A => halfBytes (BitVec.ofNat 16 code)
  | .K => [BitVec.ofNat 8 code]

/-- The encoder: an instruction's selector, then its operands. -/
def encode (i : Instr) : List Byte :=
  selectorBytes i.format i.code ++ i.operandBytes

/-- The format of a table row from the number of bits the table gives it: 8 for a tag, 10 (two bytes) for a descriptor. -/
def tableFormat (nbits : Nat) : Format :=
  if nbits ≤ 8 then .K else .A

/-- The bytes of a table word, low byte first, and the zero bytes that stand for operands. -/
def tableBytes (nbits w : Nat) : List Byte :=
  (List.range ((nbits + 7) / 8)).map (fun k => BitVec.ofNat 8 (w >>> (8 * k))) ++ List.replicate 32 0

/-- The instruction the decoder reads from a table word whose operands are zero. -/
def decodeTableWord (nbits w : Nat) : Option Instr :=
  match decode (tableFormat nbits) (tableBytes nbits w) with
  | .ok (i, _) => some i
  | .error _ => none

end Sys2Proof
end

