-- ==== Sys2Proof/Machine/Formats.lean ====
section
/-! DEFINITION. Format W (30_encoding R101 to R109): a register word as 32 bits, and the fields that a `LAYOUT` places in it
(40_register_access R138, R150). -/

namespace Sys2Proof

/-! Bits of a word (00_scope R9). -/

/-- The word whose low `n` bits are 1. -/
def maskBits (n : Nat) : Word :=
  BitVec.ofNat 32 (2 ^ n - 1)

/-- `w[lo + n - 1 : lo]`, as a number. -/
def getBits (lo n : Nat) (w : Word) : Word :=
  (w >>> lo) &&& maskBits n

/-- `w` with `[lo + n - 1 : lo] <- v`. -/
def setBits (lo n : Nat) (v w : Word) : Word :=
  (w &&& ~~~(maskBits n <<< lo)) ||| ((v &&& maskBits n) <<< lo)

/-- One bit as a word. -/
def bitWord (b : Bool) : Word :=
  if b then 1 else 0

/-! Fields. -/

/-- The width of a field (10_state R20, R62); the counts have `CNT_BITS`. -/
def Field.width (cntBits : Nat) : Field → Nat
  | .mEn | .sEn | .cpol | .cpha | .bitord | .cont | .role | .busy | .txclr | .rxclr | .txovf | .txudf | .rxovf
  | .rxudf => 1
  | .fsize => 2
  | .ph0 | .ph1 | .idle | .txd | .rxd => 8
  | .txcnt | .rxcnt => cntBits
  | .cycleLo | .cycleHi => 32

/-- The fields that must not be written while a frame is in flight: those of CONFIG, PERIOD0 and PERIOD1 (R139). -/
def Field.guarded : Field → Bool
  | .mEn | .sEn | .fsize | .cpol | .cpha | .bitord | .cont | .role | .ph0 | .ph1 | .idle => true
  | .busy | .txclr | .rxclr | .txovf | .txudf | .rxovf | .rxudf | .txcnt | .rxcnt | .txd | .rxd | .cycleLo
  | .cycleHi => false

/-- The field stands in the SPI register word at this offset. -/
def Layout.inWord (l : Layout) (o : BitVec 8) (f : Field) : Bool :=
  decide ((l.place f).space = .spi) && decide ((l.place f).offset = o)

/-- A field put in front of the first one that stands at a higher bit. -/
def Layout.insert (l : Layout) (f : Field) : List Field → List Field
  | [] => [f]
  | g :: rest => if (l.place f).lo ≤ (l.place g).lo then f :: g :: rest else g :: l.insert f rest

/-- The fields of the word at an offset, in ascending bit order (R138). -/
def Layout.fieldsAt (l : Layout) (o : BitVec 8) : List Field :=
  (Field.all.filter (l.inWord o)).foldr l.insert []

/-- The field of a word, as a number (R117). -/
def Params.get (p : Params) (f : Field) (w : Word) : Word :=
  getBits (p.layout.place f).lo (Field.width p.cntBits f) w

/-- A one-bit field of a word the host has read is 1 (R117). -/
def Params.isSet (p : Params) (f : Field) (w : Word) : Bool :=
  decide (p.get f w ≠ 0)

/-- The DMA request enables in a word of unmodelled bits (R340). -/
def Params.dmaBits (p : Params) (w : Word) : Word :=
  getBits p.layout.dma.lo (p.layout.dma.hi + 1 - p.layout.dma.lo) w

/-- The word with the field replaced. -/
def Params.put (p : Params) (f : Field) (v w : Word) : Word :=
  setBits (p.layout.place f).lo (Field.width p.cntBits f) v w

/-- The offset of the word a field stands in. -/
def Params.offset (p : Params) (f : Field) : BitVec 8 :=
  (p.layout.place f).offset

/-- The fields of the word that a field stands in. -/
def Params.wordOf (p : Params) (f : Field) : List Field :=
  p.layout.fieldsAt (p.offset f)

/-- Two fields stand in one word. -/
def Params.together (p : Params) (f g : Field) : Bool :=
  p.layout.inWord (p.offset f) g

/-! The register map on the bus (20_memory R70). -/

/-- The bus address of the word a field stands in: `SPI_BASE + offset`. -/
def Params.address (p : Params) (f : Field) : Word :=
  p.spiBase + (p.offset f).setWidth 32

/-- The offset a bus address has in the SPI register space, which is 256 bytes long; `none` outside it. -/
def Params.offsetOf (p : Params) (a : Word) : Option (BitVec 8) :=
  if (a - p.spiBase).toNat < 256 then some ((a - p.spiBase).setWidth 8) else none

/-- The unmodelled bits `U` of the words of the SPI register space, one word for each aligned offset (R56). -/
abbrev UBits := Vector Word 64

/-- The index of the word at an offset. -/
def wordIndex (o : BitVec 8) : Fin 64 :=
  ⟨o.toNat / 4, by omega⟩

/-- The unmodelled bits of the word at an offset. -/
def UBits.at (u : UBits) (o : BitVec 8) : Word :=
  u[wordIndex o]

/-- The unmodelled bits of the word at an offset replaced. -/
def UBits.put (u : UBits) (o : BitVec 8) (w : Word) : UBits :=
  u.set (wordIndex o) w

end Sys2Proof
end

