-- ==== Sys2Proof/Machine/State.lean ====
section
/-! DEFINITION. The state of the machine as plain data: Layer H (10_state R20), Layer C (R53, R54), host memory, the frame
history (R51), the parameters (R7), the program slots and the counter of free values; the reasons a step can stop; reset. -/

namespace Sys2Proof.Machine

/-- Layer H, the tuple of R20. `TXCLR`, `RXCLR`, `TXCNT`, `RXCNT`, `TXD`, `RXD` and `BUSY` have no storage (R34, R35, R40, R41,
R43 to R45); `u` holds the unmodelled bits of every word (R56). -/
structure Hw where
  role   : Bool
  mEn    : Bool
  sEn    : Bool
  cpol   : Bool
  cpha   : Bool
  cont   : Bool
  fsize  : BitVec 2
  bitord : Bool
  ph0    : Byte
  ph1    : Byte
  idle   : Byte
  txovf  : Bool
  txudf  : Bool
  rxovf  : Bool
  rxudf  : Bool
  txf    : List Byte
  rxf    : List Byte
  eng    : Eng
  cycle  : DWord
  u      : UBits
  deriving DecidableEq, Repr

/-- The command errors (60_exceptions R320, R325). -/
inductive Err where
  | rxOverflow
  | rxUnderflow
  | txOverflow
  | txUnderflow
  | frequencyOutOfRange
  deriving DecidableEq, Repr

/-- What an access or a command returns to the host (R110, R111, R123). -/
inductive Ret where
  /-- No result. -/
  | unit
  /-- A register word, or a 32-bit half of the counter. -/
  | word (w : Word)
  /-- A 64-bit counter value or difference. -/
  | dword (d : DWord)
  /-- `Ok`. -/
  | ok
  /-- `Ok(byte)`. -/
  | okByte (b : Byte)
  /-- `WouldBlock` (R326). -/
  | wouldBlock
  /-- `Err(e)`. -/
  | err (e : Err)
  /-- The divider's `OutOfRange` (R230). -/
  | outOfRange
  /-- `Ok(BusEngine)`; the instance stands in `HostSide.engine`. -/
  | busEngine
  /-- A CycleDelay; it stands in `HostSide.delay`. -/
  | cycleDelay
  /-- `(handle, pinSet)` (R241). -/
  | parts (handle pinSet : Word)
  deriving DecidableEq, Repr

/-- A BusEngine instance (R53): the handle and pin-set tokens, the core frequency of the embedded CycleDelay, and whether
a RESET came after its construction (R362; log 14). -/
structure BusEngine where
  handle     : Word
  pinSet     : Word
  coreFreqHz : Word
  stale      : Bool
  deriving DecidableEq, Repr

/-- The next access of a poll (R260, R261): the overflow flag's word, the underflow flag's word where it is another one, the
count's word, the data port. -/
inductive PollPhase where
  | flags
  | underflow
  | count
  | data
  deriving DecidableEq, Repr

/-- The two halves of a byte-step (R263). -/
inductive Half where
  | send
  | recv
  deriving DecidableEq, Repr

/-- The next access of a `CounterRead()`: one read under `atomic64`; high, low, high under `split32` (R212). -/
inductive CounterPhase where
  | first
  | low (h1 : Word)
  | high (h1 l : Word)
  deriving DecidableEq, Repr

/-- A `RegModify` in progress (40_register_access R151): the fields still to be written with their values, and the word of the
first one once it has been read. -/
structure Modify where
  todo : List (Field × Word)
  read : Option Word
  deriving DecidableEq, Repr

/-- The steps of `construct` that make accesses (R234 to R236): role, `PH0` and `PH1`, `IDLE`, mode. -/
inductive ConstructStage where
  | role
  | period0 (v : Byte)
  | period1
  | mode
  deriving DecidableEq, Repr

/-- The buffers of a transfer command: where received bytes go and where transmit bytes come from. `read` has no source,
`write` no sink, `transferInPlace` one buffer for both (R264 to R267). -/
structure Xfer where
  sink   : Buf
  source : Buf
  deriving DecidableEq, Repr

/-- A command in progress: what its next access is and what it has kept (R54). -/
inductive Activity where
  | construct (a : ConstructArgs) (st : ConstructStage) (m : Modify)
  | setBitOrder (m : Modify)
  | clearFifos (m : Modify)
  | trySend (w : Byte) (p : PollPhase)
  | tryRecv (p : PollPhase)
  | byteStep (w : Byte) (h : Half) (p : PollPhase)
  | xfer (x : Xfer) (i : Nat) (w : Byte) (h : Half) (p : PollPhase)
  | flush
  | now (c : CounterPhase)
  | elapsedSince (start : DWord) (c : CounterPhase)
  | delay (n : DWord) (start : Option DWord) (c : CounterPhase)
  deriving DecidableEq, Repr

/-- A Transaction in progress: the "next operation index" and the operations after the running one (R301). -/
structure Txn where
  rest : List Operation
  k    : Nat
  deriving DecidableEq, Repr

/-- The host's running command, the Transaction it is an operation of, if any, and whether a RESET came in the middle of it
(R362; log 15). -/
structure Running where
  act   : Activity
  txn   : Option Txn
  stale : Bool := false
  deriving DecidableEq, Repr

/-- Layer C (R53, R54). -/
structure HostSide where
  engine  : Option BusEngine
  delay   : Option Word
  running : Option Running
  ret     : Ret
  ended   : Bool
  deriving DecidableEq, Repr

/-- One program slot (log 2): an instruction as its bytes, or a turn for the running command. -/
inductive Slot where
  | code (f : Format) (bytes : List Byte)
  | hostTurn
  deriving DecidableEq, Repr

/-- Host memory (20_memory R70): address and byte, addresses strictly rising, no byte that an unlisted address reads as. -/
abbrev Memory := List Host.Cell

/-- Everything the spec gives the machine. -/
structure State where
  hw      : Hw
  frames  : List FrameRecord
  host    : HostSide
  mem     : Memory
  program : List Slot
  draws   : Nat
  params  : Params
  deriving DecidableEq, Repr

/-- Why the machine stops with a fault. The block raises no trap (R328), so none of these is the spec's. -/
inductive Fault where
  /-- Raised by a transfer command that reads or writes a buffer byte outside the host's address space (log 13). Safe: the
  model stops where the spec says nothing. -/
  | hostAddress (a : Nat)
  deriving DecidableEq, Repr

/-- Why the machine gives a step no meaning (00_scope R10 `refuse`). All are safe: the model stops. -/
inductive Refusal where
  /-- Raised by `exec` alone, for an instruction that has no meaning yet. Safe. -/
  | notModelled (mnemonic : String)
  /-- Raised by the fetch: the slot's bytes are no instruction (R72, R73, R110, R111). Safe. -/
  | undecodable (e : DecodeError)
  /-- Raised by the fetch: a buffer of the instruction does not fit the host's address space (log 13). Safe. -/
  | illFormed
  /-- Raised by a host access or command issued while a command runs (R373; 93 row 36). Safe. -/
  | reentrantCall
  /-- Raised by a host access or command after the host program has ended (R238 `abort`). Safe. -/
  | hostProgramEnded
  /-- Raised by a command of a BusEngine when no instance exists (R242; 93 row 37). Safe. -/
  | noInstance
  /-- Raised by CONSTRUCT while an instance exists (R242: two live instances cannot exist). Safe. -/
  | instanceExists
  /-- Raised by DELAY_NS, DELAY_US, DELAY_MS when the host holds no CycleDelay (R209; log 16). Safe. -/
  | noCycleDelay
  /-- Raised by a write of CONFIG, PERIOD0 or PERIOD1, or of a word that holds one of their fields, while a frame is in flight
  (R139). Safe. -/
  | configWriteInFlight
  /-- Raised by TRANSFER and OP_TRANSFER on overlapping buffers (R88). Safe. -/
  | overlappingBuffers
  /-- Raised by RD_TXDATA and by a read of a word that holds `TXD` (R143). Safe. -/
  | readOfWriteOnlyPort
  /-- Raised by WR_RXDATA and by a write of a word that holds `RXD` (R145). Safe. -/
  | writeOfReadOnlyPort
  /-- Raised by WR_CYCLE and WR_CYCLE_HI (R149). Safe. -/
  | writeOfCounter
  /-- Raised by the next access of a command that a RESET came in the middle of (R362; 93 row 39; log 15). Safe. -/
  | resetInCommand
  /-- Raised by an access to an address that holds no register of the `LAYOUT` (R73). Safe. -/
  | noRegister
  /-- Raised by a write that changes the DMA request enables (R340; 93 row 43; log 17). Safe. -/
  | dmaEnable
  /-- Raised by RD_CYCLE_HI under `COUNTER_READ = atomic64` (R110, R148: the high half is read under split32 only; log 18). Safe. -/
  | noHighHalf
  deriving DecidableEq, Repr

/-- Layer H right after reset (R58, R360). PRESUMED (unsafe): the period fields read 0x0F; DESIGN CHOICE (unsafe): the counter
and the unmodelled bits read 0 (log 6). -/
def Hw.reset : Hw :=
  { role := false, mEn := false, sEn := false, cpol := false, cpha := false, cont := false, fsize := 0, bitord := false,
    ph0 := 0x0F, ph1 := 0x0F, idle := 0x0F, txovf := false, txudf := false, rxovf := false, rxudf := false,
    txf := [], rxf := [], eng := .idle, cycle := 0, u := Vector.replicate 64 0 }

/-- The machine right after reset: no instance, no command, nothing listed in memory, no program slot (log 2, log 20). -/
def State.reset : State :=
  { hw := .reset, frames := [],
    host := { engine := none, delay := none, running := none, ret := .unit, ended := false },
    mem := [], program := [], draws := 0, params := .default }

end Sys2Proof.Machine
end

