-- ==== Sys2Proof/Machine/Flags.lean ====
section
/-! DEFINITION. The FIFOs, the four sticky flags and the derived status (10_state R36 to R47): what sets a flag, what clears
it, and the predicates a host evaluates from a status word (30_encoding R117). -/

namespace Sys2Proof.Machine

/-- `BUSY` (R45): 1 exactly while a frame is in flight. -/
def Hw.busy (h : Hw) : Bool :=
  match h.eng with
  | .idle => false
  | .shifting _ _ => true

/-- The engine is operational (R29, 41_engine R170). -/
def Hw.operational (h : Hw) : Bool :=
  h.role && h.mEn && !h.sEn && !h.cont && decide (h.fsize = 0)

/-- A write of `TXD` (R142): push the byte, or set `TXOVF` and lose it when the FIFO is full. -/
def Hw.pushTx (depth : Nat) (b : Byte) (h : Hw) : Hw :=
  if h.txf.length < depth then { h with txf := h.txf ++ [b] } else { h with txovf := true }

/-- A received byte at the end of a frame (R173): push it, or set `RXOVF` and lose it when the FIFO is full. -/
def Hw.pushRx (depth : Nat) (b : Byte) (h : Hw) : Hw :=
  if h.rxf.length < depth then { h with rxf := h.rxf ++ [b] } else { h with rxovf := true }

/-- Whether a received byte would be stored (R173). -/
def Hw.rxRoom (depth : Nat) (h : Hw) : Bool :=
  decide (h.rxf.length < depth)

/-- A read of `RXD` (R144): the byte popped, `none` with `RXUDF` set when the FIFO is empty. -/
def Hw.popRx (h : Hw) : Option Byte × Hw :=
  match h.rxf with
  | b :: rest => (some b, { h with rxf := rest })
  | [] => (none, { h with rxudf := true })

/-- The `TXCLR` action (R177). -/
def Hw.txClear (h : Hw) : Hw :=
  { h with txf := [], txovf := false, txudf := false }

/-- The `RXCLR` action (R178). -/
def Hw.rxClear (h : Hw) : Hw :=
  { h with rxf := [], rxovf := false, rxudf := false }

/-- The number `TXCNT` reports (R40): the bytes in the transmit FIFO, or the free entries. -/
def Hw.txCount (p : Params) (h : Hw) : Nat :=
  match p.txcntSense with
  | .occupancy => h.txf.length
  | .free => p.fifoDepth - h.txf.length

/-- `TX_FULL`, evaluated by the host from the `TXCNT` it read (R42, R117). -/
def txFull (p : Params) (txcnt : Word) : Bool :=
  match p.txcntSense with
  | .occupancy => decide (txcnt.toNat = p.fifoDepth)
  | .free => decide (txcnt = 0)

/-- `RX_EMPTY`, evaluated by the host from the `RXCNT` it read (R42, R117). -/
def rxEmpty (rxcnt : Word) : Bool :=
  decide (rxcnt = 0)

/-- The code of an error (60_exceptions R327). -/
def Err.code : Err → Nat
  | .rxOverflow => 1
  | .rxUnderflow => 2
  | .txOverflow => 3
  | .txUnderflow => 4
  | .frequencyOutOfRange => 5

end Sys2Proof.Machine
end

