-- ==== Sys2Proof/Machine/Operands.lean ====
section
/-! DEFINITION. Operand assembly (30_encoding R112 to R116): the divider, durations, modes, bit orders, buffers and the
byte-steps of a transfer. -/

namespace Sys2Proof.Machine

/-- The divider field value (R112, R230): `len - 1` for `len = F / (2 f)` in 1 to 256, `none` out of range or for `f = 0`. -/
def clockDivider (src f : Word) : Option Byte :=
  if f = 0 then none
  else
    let len := src.toNat / (2 * f.toNat)
    if len = 0 ∨ len > Config.lenMax then none else some (BitVec.ofNat 8 (len - 1))

/-- `unitsPerSecond` (R114). -/
def unitsPerSecond : TimeUnit → Nat
  | .ns => 1000000000
  | .us => 1000000
  | .ms => 1000

/-- Duration to cycles (R114, R207): the product first, then the division rounding down; two numbers below 2^32 have a
product below 2^64, so no call is out of range. -/
def cyclesOf (u : TimeUnit) (amount coreFreqHz : Word) : DWord :=
  BitVec.ofNat 64 (amount.toNat * coreFreqHz.toNat / unitsPerSecond u)

/-- `CPOL` of a mode (R115). -/
def cpolOf (m : BusMode) : Bool :=
  match m.polarity with
  | .idleLow => false
  | .idleHigh => true

/-- `CPHA` of a mode (R115). -/
def cphaOf (m : BusMode) : Bool :=
  match m.phase with
  | .captureOnFirstTransition => false
  | .captureOnSecondTransition => true

/-- `BITORD` of a bit order (R116). -/
def bitordOf : BitOrder → Bool
  | .msbFirst => false
  | .lsbFirst => true

/-- The empty buffer: the source of `read` and the sink of `write`. -/
def emptyBuf : Buf :=
  { base := 0, len := 0 }

/-- The address of byte `i` of a buffer (R74). -/
def bufAddr (b : Buf) (i : Nat) : Nat :=
  b.base.toNat + i

/-- The two buffers share an address (R88). -/
def overlap (r w : Buf) : Bool :=
  decide (max r.base.toNat w.base.toNat < min (r.base.toNat + r.len.toNat) (w.base.toNat + w.len.toNat))

/-- The number of byte-steps of a transfer (R266: `max(nr, nw)`). -/
def xferSteps (x : Xfer) : Nat :=
  max x.sink.len.toNat x.source.len.toNat

end Sys2Proof.Machine
end

