-- ==== Sys2Proof/Machine/Ops.lean ====
section
/-! DEFINITION. The named operations every meaning is built from: outcomes, field updates of State, free values, host
memory, the register words, the end of a command (60_exceptions R330), the engine's steps, the counter's, and reset. -/

namespace Sys2Proof.Machine

/-- An outcome of this machine. -/
abbrev Out (α : Type) := Host.Outcome α Fault Refusal

/-- Go on with the value of an outcome; a stop stays what it is. -/
def andThen {α β : Type} (o : Out α) (f : α → Out β) : Out β :=
  match o with
  | .next a => f a
  | .fault e => .fault e
  | .refused r => .refused r

/-! Updates of State. -/

/-- Layer H replaced. -/
def State.withHw (h : Hw) (s : State) : State :=
  { s with hw := h }

/-- Layer C replaced. -/
def State.withHost (h : HostSide) (s : State) : State :=
  { s with host := h }

/-- What the host's access or command returns. -/
def State.withRet (r : Ret) (s : State) : State :=
  { s with host := { s.host with ret := r } }

/-- The running command replaced. -/
def State.withRunning (r : Option Running) (s : State) : State :=
  { s with host := { s.host with running := r } }

/-- The BusEngine instance replaced. -/
def State.withEngine (e : Option BusEngine) (s : State) : State :=
  { s with host := { s.host with engine := e } }

/-- The host's own CycleDelay replaced (R209). -/
def State.withDelay (hz : Word) (s : State) : State :=
  { s with host := { s.host with delay := some hz } }

/-- Host memory replaced. -/
def State.withMem (m : Memory) (s : State) : State :=
  { s with mem := m }

/-- The program slots replaced. -/
def State.withProgram (p : List Slot) (s : State) : State :=
  { s with program := p }

/-- `n` free values used up. -/
def State.drawn (n : Nat) (s : State) : State :=
  { s with draws := s.draws + n }

/-! Free values (00_scope R10 `draw`): the next ones are numbered from `s.draws`. -/

/-- The `k`-th next free value, cut to `n` bits. -/
def State.free (s : State) (n k : Nat) : BitVec n :=
  (Config.freeValue (s.draws + k)).setWidth n

/-! Host memory (20_memory R74). -/

/-- The byte at an address, `Config.unwritten` where nothing is listed. -/
def Memory.get : Memory → Nat → Byte
  | [], _ => Config.unwritten
  | (k, b) :: rest, a => if k = a then b else Memory.get rest a

/-- The memory with one byte written, in the canonical form. -/
def Memory.set : Memory → Nat → Byte → Memory
  | [], a, v => if v = Config.unwritten then [] else [(a, v)]
  | (k, b) :: rest, a, v =>
    if a < k then (if v = Config.unwritten then (k, b) :: rest else (a, v) :: (k, b) :: rest)
    else if a = k then (if v = Config.unwritten then rest else (a, v) :: rest)
    else (k, b) :: Memory.set rest a v

/-- The canonical form from an address on: addresses rising, inside the address space, no byte that reads so unlisted. -/
def Memory.wfFrom : Nat → Memory → Bool
  | _, [] => true
  | lo, (k, b) :: rest =>
    decide (lo ≤ k) && decide (k < Config.hostSpace) && decide (b ≠ Config.unwritten) && Memory.wfFrom (k + 1) rest

/-- The canonical form. -/
def Memory.wf (m : Memory) : Bool :=
  Memory.wfFrom 0 m

/-- `MemRead(a, 1)` of R10; an address outside the host's space faults (log 13). -/
def hostRead (a : Nat) (s : State) : Out Byte :=
  if a < Config.hostSpace then .next (s.mem.get a) else .fault (.hostAddress a)

/-- `MemWrite(a, 1, v)` of R10; an address outside the host's space faults (log 13). -/
def hostWrite (a : Nat) (v : Byte) (s : State) : Out State :=
  if a < Config.hostSpace then .next (s.withMem (s.mem.set a v)) else .fault (.hostAddress a)

/-! Register words: reads (R130 to R148). -/

/-- `x[NAME]`, the field as it reads (10_state R21 to R47): the triggers read 0, the counts and `BUSY` are computed, and `RXD` is
the oldest byte received or, with none, a free value (R144). `TXD` is never read (R143). -/
def State.value (s : State) : Field → Word
  | .mEn => bitWord s.hw.mEn
  | .sEn => bitWord s.hw.sEn
  | .fsize => s.hw.fsize.setWidth 32
  | .cpol => bitWord s.hw.cpol
  | .cpha => bitWord s.hw.cpha
  | .bitord => bitWord s.hw.bitord
  | .cont => bitWord s.hw.cont
  | .role => bitWord s.hw.role
  | .busy => bitWord s.hw.busy
  | .ph0 => s.hw.ph0.setWidth 32
  | .ph1 => s.hw.ph1.setWidth 32
  | .idle => s.hw.idle.setWidth 32
  | .txclr | .rxclr | .txd => 0
  | .txovf => bitWord s.hw.txovf
  | .txudf => bitWord s.hw.txudf
  | .rxovf => bitWord s.hw.rxovf
  | .rxudf => bitWord s.hw.rxudf
  | .txcnt => BitVec.ofNat 32 (s.hw.txCount s.params)
  | .rxcnt => BitVec.ofNat 32 s.hw.rxf.length
  | .rxd => (s.hw.popRx.1.getD (s.free 8 1)).setWidth 32
  | .cycleLo => s.hw.cycle.extractLsb' 0 32
  | .cycleHi => s.hw.cycle.extractLsb' 32 32

/-- What the positions of a word that no field has read as (R138): a free value in a word that holds `BUSY` or `RXD`, the stored
`U` in every other. -/
def State.background (s : State) (o : BitVec 8) (fs : List Field) : Word :=
  if fs.contains .busy || fs.contains .rxd then s.free 32 0 else s.hw.u.at o

/-- The side effect of a read, which `RXD` alone has (R144), and the free values it used up. -/
def State.afterRead (fs : List Field) (s : State) : State :=
  if fs.contains .rxd then (s.withHw s.hw.popRx.2).drawn 2
  else if fs.contains .busy then s.drawn 1
  else s

/-- A read of the word at an offset (R138, R150): every field at its place, over the unmodelled positions. An offset with no
field is no register (R73), and a word that holds `TXD` is write-only (R143). -/
def readWord (o : BitVec 8) (s : State) : Out (Word × State) :=
  let fs := s.params.layout.fieldsAt o
  if fs.isEmpty then .refused .noRegister
  else if fs.contains .txd then .refused .readOfWriteOnlyPort
  else .next (fs.foldl (fun w f => s.params.put f (s.value f) w) (s.background o fs), s.afterRead fs)

/-- A host read at a bus address (R70). -/
def busRead (a : Word) (s : State) : Out (Word × State) :=
  match s.params.offsetOf a with
  | some o => readWord o s
  | none => .refused .noRegister

/-- `RegRead` of the word that holds a field (R10). -/
def regRead (f : Field) (s : State) : Out (Word × State) :=
  busRead (s.params.address f) s

/-! Register words: writes (R131 to R147). -/

/-- The effect of a write on one field (R138): a read-write field is stored, a trigger fires on 1, `TXD` pushes, and a read-only
field ignores it. -/
def Hw.writeField (depth : Nat) (h : Hw) (f : Field) (v : Word) : Hw :=
  match f with
  | .mEn => { h with mEn := v.getLsbD 0 }
  | .sEn => { h with sEn := v.getLsbD 0 }
  | .fsize => { h with fsize := v.setWidth 2 }
  | .cpol => { h with cpol := v.getLsbD 0 }
  | .cpha => { h with cpha := v.getLsbD 0 }
  | .bitord => { h with bitord := v.getLsbD 0 }
  | .cont => { h with cont := v.getLsbD 0 }
  | .role => { h with role := v.getLsbD 0 }
  | .ph0 => { h with ph0 := v.setWidth 8 }
  | .ph1 => { h with ph1 := v.setWidth 8 }
  | .idle => { h with idle := v.setWidth 8 }
  | .txclr => if v.getLsbD 0 then h.txClear else h
  | .rxclr => if v.getLsbD 0 then h.rxClear else h
  | .txd => h.pushTx depth (v.setWidth 8)
  | .busy | .txovf | .txudf | .rxovf | .rxudf | .txcnt | .rxcnt | .rxd | .cycleLo | .cycleHi => h

/-- The effects of a write on all fields of a word, in ascending bit order (R138). -/
def Hw.writeFields (p : Params) (w : Word) (fs : List Field) (h : Hw) : Hw :=
  fs.foldl (fun h f => h.writeField p.fifoDepth f (p.get f w)) h

/-- A word with these fields has stored unmodelled bits: not one that holds `BUSY`, `TXD` or `RXD` (R102, R107, R108). -/
def storesU (fs : List Field) : Bool :=
  !fs.contains .busy && !fs.contains .txd && !fs.contains .rxd

/-- The unmodelled positions of a written word stored (R56, R138); the positions of fields in `U` are never read and stay. -/
def Hw.storeU (p : Params) (o : BitVec 8) (w : Word) (fs : List Field) (h : Hw) : Hw :=
  if storesU fs then { h with u := h.u.put o (fs.foldl (fun w f => p.put f (p.get f (h.u.at o)) w) w) } else h

/-- The write changes the DMA request enables, which must stay as they are (R340). -/
def changesDma (o : BitVec 8) (w : Word) (s : State) : Bool :=
  decide (s.params.layout.dma.space = .spi) && decide (s.params.layout.dma.offset = o) &&
    storesU (s.params.layout.fieldsAt o) && decide (s.params.dmaBits w ≠ s.params.dmaBits (s.hw.u.at o))

/-- A write of the word at an offset (R138, R150). An offset with no field is no register (R73), a word that holds `RXD` is
read-only (R145), and a field of CONFIG, PERIOD0 or PERIOD1 is not written while a frame is in flight (R139). -/
def writeWord (o : BitVec 8) (w : Word) (s : State) : Out State :=
  let fs := s.params.layout.fieldsAt o
  if fs.isEmpty then .refused .noRegister
  else if fs.contains .rxd then .refused .writeOfReadOnlyPort
  else if s.hw.busy && fs.any Field.guarded then .refused .configWriteInFlight
  else if changesDma o w s then .refused .dmaEnable
  else .next (s.withHw ((s.hw.writeFields s.params w fs).storeU s.params o w fs))

/-- A host write at a bus address (R70). -/
def busWrite (a w : Word) (s : State) : Out State :=
  match s.params.offsetOf a with
  | some o => writeWord o w s
  | none => .refused .noRegister

/-- `RegWrite` of the word that holds a field (R10). -/
def regWrite (f : Field) (w : Word) (s : State) : Out State :=
  busWrite (s.params.address f) w s

/-! Who may issue (R373, R242), and the end of a command. -/

/-- The host issues an access or a command: not while one runs, and not after its program has ended. -/
def asHost (s : State) (k : State → Out State) : Out State :=
  if s.host.ended then .refused .hostProgramEnded
  else if s.host.running.isSome then .refused .reentrantCall
  else k s

/-- A command of the BusEngine instance (R242). -/
def asInstance (s : State) (k : State → Out State) : Out State :=
  asHost s fun s => if s.host.engine.isSome then k s else .refused .noInstance

/-- The current command returns `r` to its caller. -/
def State.finish (r : Ret) (s : State) : State :=
  (s.withRunning none).withRet r

/-- TAKING AN EXCEPTION: `raise e` (R330). The poll, the spin, the byte-step, the command and the transaction end, in that
order, each returning `Err(e)`; no state is saved and the hardware, the frames and the buffers stay as they are. There is
no return from it (R331). -/
def State.raise (e : Err) (s : State) : State :=
  s.finish (.err e)

/-- The host program ends: no later step of the host exists (R238 `abort`). -/
def State.endHost (s : State) : State :=
  { s with host := { s.host with running := none, ended := true } }

/-! The engine (41_engine). -/

/-- The mode and period values a frame samples at its start (R171). -/
def Hw.snapshot (h : Hw) : Snapshot :=
  { cpol := h.cpol, cpha := h.cpha, bitord := h.bitord, ph0 := h.ph0, ph1 := h.ph1, idle := h.idle }

/-- `FRAME_START` (R171); where it is not enabled the engine does nothing (R175, R182; log 11). -/
def Hw.frameStart (h : Hw) : Hw :=
  if h.operational && !h.busy then
    match h.txf with
    | b :: rest => { h with txf := rest, eng := .shifting b h.snapshot }
    | [] => h
  else h

/-- `FRAME_COMPLETE` with the peer's byte (R173); with no frame in flight the engine does nothing (log 11). -/
def State.frameComplete (r : Byte) (s : State) : State :=
  match s.hw.eng with
  | .idle => s
  | .shifting b snap =>
    { s with hw := { s.hw.pushRx s.params.fifoDepth r with eng := .idle },
             frames := s.frames ++ [{ tx := b, rx := r, snap := snap, stored := s.hw.rxRoom s.params.fifoDepth }] }

/-- The engine takes the step it has: it starts a frame, or ends the one in flight with the byte of `PEER` (R181). -/
def State.engineTurn (s : State) : State :=
  match s.hw.eng with
  | .idle => s.withHw s.hw.frameStart
  | .shifting b snap => s.frameComplete (Config.peer s.frames b snap)

/-- `TICK` (42_cycle_delay R200). -/
def Hw.tick (h : Hw) : Hw :=
  { h with cycle := h.cycle + 1 }

/-! Reset (70_reset R360). -/

/-- A field of the `RESET` record that may be unspecified: the platform's value, or the `k`-th next free value. -/
def State.resetValue {n : Nat} (s : State) (v : Option (BitVec n)) (k : Nat) : BitVec n :=
  v.getD (s.free n k)

/-- The unmodelled bits after a reset event: for each word the platform's value, or a draw (R56, R360). -/
def State.resetU (s : State) : UBits :=
  Vector.ofFn fun k : Fin 64 => s.resetValue s.params.reset.u[k] (4 + k.val)

/-- Layer H after a reset event (R360): the values of the `RESET` record, one draw for each unspecified one. -/
def State.resetHw (s : State) : Hw :=
  let r := s.params.reset
  { role := r.role, mEn := r.mEn, sEn := r.sEn, cpol := r.cpol, cpha := r.cpha, cont := r.cont, fsize := r.fsize,
    bitord := r.bitord, ph0 := s.resetValue r.ph0 0, ph1 := s.resetValue r.ph1 1, idle := s.resetValue r.idle 2,
    txovf := r.txovf, txudf := r.txudf, rxovf := r.rxovf, rxudf := r.rxudf, txf := r.txf, rxf := r.rxf, eng := r.eng,
    cycle := s.resetValue r.cycle 3, u := s.resetU }

/-- The reset event (R360, R362): Layer H takes its reset values, `FRAMES` is emptied, the instance's view becomes stale, and so
does a command it came in the middle of; nothing else of Layer C changes (log 15). -/
def State.resetEvent (s : State) : State :=
  { s with hw := s.resetHw, frames := [], draws := s.draws + 68,
           host := { s.host with engine := s.host.engine.map fun e => { e with stale := true },
                                 running := s.host.running.map fun r => { r with stale := true } } }

end Sys2Proof.Machine
end

