-- ==== Sys2Proof/Machine/Command.lean ====
section
/-! DEFINITION. The running command (00_scope R5, 30_encoding R122): a command is a host program over register accesses, and
one step performs exactly one of them, so that engine steps and counter ticks fall between any two (20_memory R80). -/

namespace Sys2Proof.Machine

/-- What a command has come to after an access: more accesses, a result, or the end of the host program. -/
inductive Progress where
  | more (a : Activity)
  | done (r : Ret)
  | hostEnds
  deriving DecidableEq, Repr

/-! `CounterRead()` (R148, R212). -/

/-- After one access of a `CounterRead()`: another one to make, or the value. -/
inductive CounterStep where
  | again (c : CounterPhase)
  | value (v : DWord)
  deriving DecidableEq, Repr

/-- One access of a `CounterRead()`: the whole counter, or under `split32` one half of the high, low, high loop, begun again
when the two high halves differ. -/
def counterAccess (c : CounterPhase) (s : State) : CounterStep :=
  match s.params.counterRead with
  | .atomic64 => .value s.hw.cycle
  | .split32 =>
    match c with
    | .first => .again (.low (s.value .cycleHi))
    | .low h1 => .again (.high h1 (s.value .cycleLo))
    | .high h1 l => if s.value .cycleHi = h1 then .value (h1 ++ l) else .again .first

/-! `RegModify` (40_register_access R151). -/

/-- The word with every field that is to be written and stands in it replaced; all other bits as they were read. -/
def Modify.word (p : Params) (f : Field) (todo : List (Field × Word)) (t : Word) : Word :=
  todo.foldl (fun w x => if p.together f x.1 then p.put x.1 x.2 w else w) t

/-- After one access of a `RegModify`: another one to make, or none. -/
inductive ModifyStep where
  | again (m : Modify)
  | done
  deriving DecidableEq, Repr

/-- One access of a `RegModify` of some fields: the word of the first field is read, then written with all those fields of it
replaced, and so on with the next word while fields are left. DESIGN CHOICE (log 28): a word is written before the next one is
read, and the words come in the order in which the list first names a field of each. -/
def modifyAccess (m : Modify) (s : State) : Out (ModifyStep × State) :=
  match m.todo, m.read with
  | [], _ => .next (.done, s)
  | x :: rest, none =>
    andThen (regRead x.1 s) fun y => .next (.again { todo := x :: rest, read := some y.1 }, y.2)
  | x :: rest, some t =>
    andThen (regWrite x.1 (Modify.word s.params x.1 (x :: rest) t) s) fun s' =>
      match rest.filter fun y => !s.params.together x.1 y.1 with
      | [] => .next (.done, s')
      | left => .next (.again { todo := left, read := none }, s')

/-- A list with the fields of one field's word after all others, so that a `RegModify` writes that word last. -/
def lastWord (p : Params) (f : Field) (todo : List (Field × Word)) : List (Field × Word) :=
  (todo.filter fun x => !p.together f x.1) ++ todo.filter fun x => p.together f x.1

/-- A `RegModify` about to begin. -/
def modifyOf (todo : List (Field × Word)) : Modify :=
  { todo := todo, read := none }

/-! The two polls (44_transfer R260, R261). -/

/-- After one access of a poll: another one to make, or the poll's result. -/
inductive PollStep where
  | again (p : PollPhase)
  | result (r : Ret)
  deriving DecidableEq, Repr

/-- The read of the overflow flag's word (R260, R261, R329): overflow is tested before underflow, and underflow in the same read
where its flag stands in the same word. -/
def overflowAccess (ovf udf : Field) (eo eu : Err) (s : State) : Out (PollStep × State) :=
  andThen (regRead ovf s) fun x =>
    if s.params.isSet ovf x.1 then .next (.result (.err eo), x.2)
    else if s.params.together ovf udf then
      if s.params.isSet udf x.1 then .next (.result (.err eu), x.2) else .next (.again .count, x.2)
    else .next (.again .underflow, x.2)

/-- The read of the underflow flag's word, where it is another one. -/
def underflowAccess (udf : Field) (eu : Err) (s : State) : Out (PollStep × State) :=
  andThen (regRead udf s) fun x =>
    if s.params.isSet udf x.1 then .next (.result (.err eu), x.2) else .next (.again .count, x.2)

/-- One access of `TRY_SEND(w)` (R260). -/
def sendAccess (w : Byte) (p : PollPhase) (s : State) : Out (PollStep × State) :=
  match p with
  | .flags => overflowAccess .txovf .txudf .txOverflow .txUnderflow s
  | .underflow => underflowAccess .txudf .txUnderflow s
  | .count =>
    andThen (regRead .txcnt s) fun x =>
      if txFull s.params (s.params.get .txcnt x.1) then .next (.result .wouldBlock, x.2) else .next (.again .data, x.2)
  | .data => andThen (regWrite .txd (s.params.put .txd (w.setWidth 32) 0) s) fun s' => .next (.result .ok, s')

/-- One access of `TRY_RECV()` (R261); the host masks the other bits of the word off. -/
def recvAccess (p : PollPhase) (s : State) : Out (PollStep × State) :=
  match p with
  | .flags => overflowAccess .rxovf .rxudf .rxOverflow .rxUnderflow s
  | .underflow => underflowAccess .rxudf .rxUnderflow s
  | .count =>
    andThen (regRead .rxcnt s) fun x =>
      if rxEmpty (s.params.get .rxcnt x.1) then .next (.result .wouldBlock, x.2) else .next (.again .data, x.2)
  | .data =>
    andThen (regRead .rxd s) fun x => .next (.result (.okByte ((s.params.get .rxd x.1).setWidth 8)), x.2)

/-! The byte-step (R262, R263). -/

/-- After one access of a byte-step: the half and the access to go on with, the byte received, or an error. -/
inductive ByteProgress where
  | again (h : Half) (p : PollPhase)
  | byte (b : Byte)
  | error (e : Err)
  deriving DecidableEq, Repr

/-- The send half spins on WouldBlock, hands an error up, and goes on to the receive half on `Ok`. -/
def afterSend : PollStep → ByteProgress
  | .again p => .again .send p
  | .result (.err e) => .error e
  | .result .ok => .again .recv .flags
  | .result _ => .again .send .flags

/-- The receive half spins on WouldBlock, hands an error up, and ends the byte-step with the byte. -/
def afterRecv : PollStep → ByteProgress
  | .again p => .again .recv p
  | .result (.err e) => .error e
  | .result (.okByte b) => .byte b
  | .result _ => .again .recv .flags

/-- One access of `BYTE_STEP(w)`. -/
def byteAccess (w : Byte) (h : Half) (p : PollPhase) (s : State) : Out (ByteProgress × State) :=
  match h with
  | .send => andThen (sendAccess w p s) fun x => .next (afterSend x.1, x.2)
  | .recv => andThen (recvAccess p s) fun x => .next (afterRecv x.1, x.2)

/-! The transfer commands (R264 to R267, R270). -/

/-- The transmit byte of byte-step `i`: the source's byte, the filler once the source is exhausted. -/
def xferByte (x : Xfer) (i : Nat) (s : State) : Out Byte :=
  if i < x.source.len.toNat then hostRead (bufAddr x.source i) s else .next Config.filler

/-- Byte-step `i` of a transfer, from its first poll; `none` when there is no byte-step left, and then no access is made. -/
def beginXfer (x : Xfer) (i : Nat) (s : State) : Out (Option Activity) :=
  if i < xferSteps x then andThen (xferByte x i s) fun w => .next (some (.xfer x i w .send .flags))
  else .next none

/-- The received byte of byte-step `i`: stored where the sink has a place for it, discarded otherwise. -/
def xferStore (x : Xfer) (i : Nat) (b : Byte) (s : State) : Out State :=
  if i < x.sink.len.toNat then hostWrite (bufAddr x.sink i) b s else .next s

/-- The transfer of a read and a write buffer, refused where they overlap (R88). -/
def beginTransfer (r w : Buf) (s : State) : Out (Option Activity) :=
  if overlap r w then .refused .overlappingBuffers else beginXfer ⟨r, w⟩ 0 s

/-- An activity that must still make accesses, or the result `Ok`. -/
def orOk : Option Activity → Progress
  | some a => .more a
  | none => .done .ok

/-- One access of a transfer command. -/
def xferAccess (x : Xfer) (i : Nat) (w : Byte) (h : Half) (p : PollPhase) (s : State) : Out (Progress × State) :=
  andThen (byteAccess w h p s) fun y =>
    match y.1 with
    | .again h' p' => .next (.more (.xfer x i w h' p'), y.2)
    | .error e => .next (.done (.err e), y.2)
    | .byte b =>
      andThen (xferStore x i b y.2) fun s' => andThen (beginXfer x (i + 1) s') fun a => .next (orOk a, s')

/-! Construction (43_divider_construct R233 to R238). -/

/-- Step 1 writes the role (R234). -/
def roleFields : List (Field × Word) :=
  [(.role, 1)]

/-- Step 2's write of the two half periods (R235). DESIGN CHOICE (log 28): where a `LAYOUT` puts them in two words, `PH0`'s word
comes first. -/
def period0Fields (v : Byte) : List (Field × Word) :=
  [(.ph0, v.setWidth 32), (.ph1, v.setWidth 32)]

/-- Step 2's write of the inter-frame gap (R235). -/
def period1Fields (v : Byte) : List (Field × Word) :=
  [(.idle, v.setWidth 32)]

/-- Step 3 writes (R236): mode bits, 8-bit frames, continuous mode off, `S_EN` off, `M_EN` on. R236 sets `M_EN` in the last register
write, so the step takes this list through `lastWord`. -/
def modeFields (m : BusMode) : List (Field × Word) :=
  [(.cpol, bitWord (cpolOf m)), (.cpha, bitWord (cphaOf m)), (.fsize, 0), (.cont, 0), (.sEn, 0), (.mEn, 1)]

/-- `setBitOrder` writes `BITORD` (R239). -/
def orderFields (o : BitOrder) : List (Field × Word) :=
  [(.bitord, bitWord (bitordOf o))]

/-- `clearFifos` fires both triggers (R240), in one write where they share a word. DESIGN CHOICE (log 28): where a `LAYOUT` puts them
in two words the spec does not say which is fired first, and `TXCLR`'s word comes first. -/
def clearFields : List (Field × Word) :=
  [(.txclr, 1), (.rxclr, 1)]

/-- What follows step 1: step 2 with the divider's value, or the failure by `CONSTRUCT_FAIL_POLICY` (R235, R238). -/
def afterRole (a : ConstructArgs) (policy : FailPolicy) : Progress :=
  match clockDivider a.fSpi a.freq with
  | some v => .more (.construct a (.period0 v) (modifyOf (period0Fields v)))
  | none =>
    match policy with
    | .error => .done (.err .frequencyOutOfRange)
    | .abort => .hostEnds

/-- What follows a step of `construct` whose accesses are done; step 3 writes `M_EN`'s word last (R236), and after it the instance
exists (R233, R237). -/
def constructNext (a : ConstructArgs) (st : ConstructStage) (s : State) : Progress × State :=
  match st with
  | .role => (afterRole a s.params.failPolicy, s)
  | .period0 v => (.more (.construct a .period1 (modifyOf (period1Fields v))), s)
  | .period1 => (.more (.construct a .mode (modifyOf (lastWord s.params .mEn (modeFields a.mode)))), s)
  | .mode =>
    (.done .busEngine,
      s.withEngine (some { handle := a.handle, pinSet := a.pinSet, coreFreqHz := a.fCore, stale := false }))

/-- One access of `construct`. -/
def constructAccess (a : ConstructArgs) (st : ConstructStage) (m : Modify) (s : State) : Out (Progress × State) :=
  andThen (modifyAccess m s) fun x =>
    match x.1 with
    | .again m' => .next (.more (.construct a st m'), x.2)
    | .done => .next (constructNext a st x.2)

/-! Every command. -/

/-- A raw poll's step as a command's progress: its result is the command's, WouldBlock included (R260, R261). -/
def pollProgress (mk : PollPhase → Activity) : PollStep → Progress
  | .again p => .more (mk p)
  | .result r => .done r

/-- A byte-step's step as a command's progress (R263). -/
def byteProgress (w : Byte) : ByteProgress → Progress
  | .again h p => .more (.byteStep w h p)
  | .byte b => .done (.okByte b)
  | .error e => .done (.err e)

/-- A command that is one `RegModify` (R239, R240). -/
def modifyProgress (mk : Modify → Activity) : ModifyStep → Progress
  | .again m => .more (mk m)
  | .done => .done .unit

/-- What `delayCycles(n)` does with a counter value: capture it as `start`, or return when more than `n` ticks have passed
(R203, R210: the comparison is on the modular difference). -/
def delayProgress (n : DWord) (start : Option DWord) (v : DWord) : Progress :=
  match start with
  | none => .more (.delay n (some v) .first)
  | some st => if n < v - st then .done .unit else .more (.delay n (some st) .first)

/-- One access of a command. -/
def access (a : Activity) (s : State) : Out (Progress × State) :=
  match a with
  | .construct args st m => constructAccess args st m s
  | .setBitOrder m => andThen (modifyAccess m s) fun x => .next (modifyProgress .setBitOrder x.1, x.2)
  | .clearFifos m => andThen (modifyAccess m s) fun x => .next (modifyProgress .clearFifos x.1, x.2)
  | .trySend w p => andThen (sendAccess w p s) fun x => .next (pollProgress (.trySend w) x.1, x.2)
  | .tryRecv p => andThen (recvAccess p s) fun x => .next (pollProgress .tryRecv x.1, x.2)
  | .byteStep w h p => andThen (byteAccess w h p s) fun x => .next (byteProgress w x.1, x.2)
  | .xfer x i w h p => xferAccess x i w h p s
  | .flush =>
    andThen (regRead .busy s) fun x =>
      .next (if s.params.isSet .busy x.1 then .more .flush else .done .ok, x.2)
  | .now c =>
    match counterAccess c s with
    | .again c' => .next (.more (.now c'), s)
    | .value v => .next (.done (.dword v), s)
  | .elapsedSince start c =>
    match counterAccess c s with
    | .again c' => .next (.more (.elapsedSince start c'), s)
    | .value v => .next (.done (.dword (v - start)), s)
  | .delay n start c =>
    match counterAccess c s with
    | .again c' => .next (.more (.delay n start c'), s)
    | .value v => .next (delayProgress n start v, s)

/-- The core frequency of the instance's embedded CycleDelay (R237). -/
def embeddedHz (s : State) : Word :=
  match s.host.engine with
  | some e => e.coreFreqHz
  | none => 0

/-- The activity an Operation begins with (R302 to R306), `none` where it makes no access. -/
def beginOperation (op : Operation) (s : State) : Out (Option Activity) :=
  match op with
  | .read b => beginXfer ⟨b, emptyBuf⟩ 0 s
  | .write b => beginXfer ⟨emptyBuf, b⟩ 0 s
  | .transfer r w => beginTransfer r w s
  | .transferInPlace b => beginXfer ⟨b, b⟩ 0 s
  | .delay d => .next (some (.delay (cyclesOf d.unit d.amount (embeddedHz s)) none .first))

/-- The operations from index `k` on (R301): the first that makes an access becomes the running command; one that makes none
is done at once; after the last the transaction returns `Ok`. -/
def nextOperation : List Operation → Nat → State → Out State
  | [], _, s => .next (s.finish .ok)
  | op :: rest, k, s =>
    match beginOperation op s with
    | .next (some a) => .next (s.withRunning (some { act := a, txn := some { rest := rest, k := k } }))
    | .next none => nextOperation rest (k + 1) s
    | .fault e => .fault e
    | .refused r => .refused r

/-- A command that has its result: an error is raised to the caller, past the transaction (R307, R330); anything else ends
the command, or the operation of a transaction (R301). -/
def commandDone (r : Ret) (txn : Option Txn) (s : State) : Out State :=
  match r, txn with
  | .err e, _ => .next (s.raise e)
  | r, none => .next (s.finish r)
  | _, some t => nextOperation t.rest (t.k + 1) s

/-- The state after an access: the command goes on, or has its result, or the host program has ended. -/
def settle (p : Progress) (txn : Option Txn) (s : State) : Out State :=
  match p with
  | .more a => .next (s.withRunning (some { act := a, txn := txn }))
  | .done r => commandDone r txn s
  | .hostEnds => .next s.endHost

/-- The host's turn: the running command makes its next access; with none running the host does nothing. A command that a RESET
came in the middle of has no meaning (R362; 93 row 39; log 15). -/
def advance (s : State) : Out State :=
  match s.host.running with
  | none => .next s
  | some r =>
    if r.stale then .refused .resetInCommand else andThen (access r.act s) fun x => settle x.1 r.txn x.2

/-- A command begins and makes its first access. -/
def start (a : Activity) (s : State) : Out State :=
  advance (s.withRunning (some { act := a, txn := none }))

/-- A transfer command begins; with no byte-step to make it returns `Ok` with no access (R270). -/
def startXfer (o : Out (Option Activity)) (s : State) : Out State :=
  andThen o fun a =>
    match a with
    | some a => start a s
    | none => .next (s.finish .ok)

/-- A Transaction begins and makes its first access (R301, R308). -/
def startOperations (ops : List Operation) (s : State) : Out State :=
  andThen (nextOperation ops 0 s) advance

/-- One agent's turn (R5): the host's, the engine's, or the counter's. -/
def takeTurn (t : Turn) (s : State) : Out State :=
  match t with
  | .host => advance s
  | .engine => .next s.engineTurn
  | .counter => .next (s.withHw s.hw.tick)

end Sys2Proof.Machine
end

