-- ==== Sys2Proof/Machine/Construct.lean ====
section
/-! DEFINITION. The divider, construction and housekeeping (43_divider_construct). -/

namespace Sys2Proof.Machine

/-- No live instance owns the peripheral: none exists, or the one there is was left stale by a RESET (R242, R362; log 14). -/
def peripheralFree (s : State) : Bool :=
  match s.host.engine with
  | none => true
  | some e => e.stale

/-- CONSTRUCT (R233): takes the handle, so no instance exists until it succeeds; the first access is the read of CONFIG. -/
def execConstruct (a : ConstructArgs) (s : State) : Out State :=
  asHost s fun s =>
    if peripheralFree s then start (.construct a .role (modifyOf roleFields)) (s.withEngine none) else .refused .instanceExists

/-- SET_BIT_ORDER (R239): RD_CONFIG, then WR_CONFIG with BITORD replaced. -/
def execSetBitOrder (o : BitOrder) (s : State) : Out State :=
  asInstance s (start (.setBitOrder (modifyOf (orderFields o))))

/-- CLEAR_FIFOS (R240): RD_FIFO0, then WR_FIFO0 with both triggers set. -/
def execClearFifos (s : State) : Out State :=
  asInstance s (start (.clearFifos (modifyOf clearFields)))

/-- RELEASE (R241): the parts are returned, the instance is gone, no access is made. -/
def execRelease (s : State) : Out State :=
  asHost s fun s =>
    match s.host.engine with
    | some e => .next ((s.withEngine none).withRet (.parts e.handle e.pinSet))
    | none => .refused .noInstance

/-- CLOCK_DIVIDER (R230): pure arithmetic. -/
def execClockDivider (src f : Word) (s : State) : Out State :=
  asHost s fun s =>
    match clockDivider src f with
    | some v => .next (s.withRet (.okByte v))
    | none => .next (s.withRet .outOfRange)

end Sys2Proof.Machine
end

