-- ==== Sys2Proof/Machine/Cycle.lean ====
section
/-! DEFINITION. The counter's step and the CycleDelay operations (42_cycle_delay). -/

namespace Sys2Proof.Machine

/-- TICK (R200). -/
def execTick (s : State) : Out State :=
  .next (s.withHw s.hw.tick)

/-- NOW (R201). -/
def execNow (s : State) : Out State :=
  asHost s (start (.now .first))

/-- ELAPSED_SINCE (R202). -/
def execElapsedSince (st : DWord) (s : State) : Out State :=
  asHost s (start (.elapsedSince st .first))

/-- DELAY_CYCLES (R203). -/
def execDelayCycles (n : DWord) (s : State) : Out State :=
  asHost s (start (.delay n none .first))

/-- The core frequency of the CycleDelay a duration delay runs on: the host's own, else the instance's embedded one (log 16). -/
def delayHz (s : State) : Option Word :=
  match s.host.delay with
  | some hz => some hz
  | none => s.host.engine.map BusEngine.coreFreqHz

/-- A duration delay (R204 to R206): the duration as cycles, then `delayCycles`. -/
def delayFor (u : TimeUnit) (d : Word) (s : State) : Out State :=
  asHost s fun s =>
    match delayHz s with
    | some hz => start (.delay (cyclesOf u d hz) none .first) s
    | none => .refused .noCycleDelay

/-- DELAY_NS (R204). -/
def execDelayNs (d : Word) (s : State) : Out State :=
  delayFor .ns d s

/-- DELAY_US (R205). -/
def execDelayUs (d : Word) (s : State) : Out State :=
  delayFor .us d s

/-- DELAY_MS (R206). -/
def execDelayMs (d : Word) (s : State) : Out State :=
  delayFor .ms d s

/-- DELAY_NEW (R209): no access; the host holds the CycleDelay. -/
def execDelayNew (hz : Word) (s : State) : Out State :=
  asHost s fun s => .next ((s.withDelay hz).withRet .cycleDelay)

end Sys2Proof.Machine
end

