-- ==== Sys2Proof/Machine/Engine.lean ====
section
/-! DEFINITION. The engine's transitions and the reset event (41_engine, 70_reset), which the host does not issue: they may
come while a command runs. -/

namespace Sys2Proof.Machine

/-- FRAME_START (R171). -/
def execFrameStart (s : State) : Out State :=
  .next (s.withHw s.hw.frameStart)

/-- FRAME_COMPLETE (R173) with the byte the peer supplied. -/
def execFrameComplete (r : Byte) (s : State) : Out State :=
  .next (s.frameComplete r)

/-- RESET (R360). -/
def execReset (s : State) : Out State :=
  .next s.resetEvent

end Sys2Proof.Machine
end

