-- ==== Sys2Proof/Machine/RegisterAccess.lean ====
section
/-! DEFINITION. Host register accesses (40_register_access): each is one atomic step (R138). -/

namespace Sys2Proof.Machine

/-- A read row (R138): the word that holds the row's field, wherever the `LAYOUT` has put it (R150; log 27). -/
def readRow (f : Field) (s : State) : Out State :=
  asHost s fun s => andThen (regRead f s) fun x => .next (x.2.withRet (.word x.1))

/-- A write row (R138): the word that holds the row's field. -/
def writeRow (f : Field) (w : Word) (s : State) : Out State :=
  asHost s fun s => andThen (regWrite f w s) fun s => .next (s.withRet .unit)

/-- RD_CONFIG (R130). -/
def execRdConfig (s : State) : Out State :=
  readRow .mEn s

/-- WR_CONFIG (R131, R139). -/
def execWrConfig (w : Word) (s : State) : Out State :=
  writeRow .mEn w s

/-- RD_BUSY (R146). -/
def execRdBusy (s : State) : Out State :=
  readRow .busy s

/-- WR_BUSY (R147). -/
def execWrBusy (w : Word) (s : State) : Out State :=
  writeRow .busy w s

/-- RD_PERIOD0 (R132). -/
def execRdPeriod0 (s : State) : Out State :=
  readRow .ph0 s

/-- WR_PERIOD0 (R133, R139). -/
def execWrPeriod0 (w : Word) (s : State) : Out State :=
  writeRow .ph0 w s

/-- RD_PERIOD1 (R134). -/
def execRdPeriod1 (s : State) : Out State :=
  readRow .idle s

/-- WR_PERIOD1 (R135, R139). -/
def execWrPeriod1 (w : Word) (s : State) : Out State :=
  writeRow .idle w s

/-- RD_FIFO0 (R136): the word that holds the flags. -/
def execRdFifo0 (s : State) : Out State :=
  readRow .txovf s

/-- WR_FIFO0 (R137): the word that holds the triggers. -/
def execWrFifo0 (w : Word) (s : State) : Out State :=
  writeRow .txclr w s

/-- RD_FIFO1 (R140). -/
def execRdFifo1 (s : State) : Out State :=
  readRow .txcnt s

/-- WR_FIFO1 (R141). -/
def execWrFifo1 (w : Word) (s : State) : Out State :=
  writeRow .txcnt w s

/-- RD_TXDATA (R143): refused, the port is write-only. -/
def execRdTxData (_s : State) : Out State :=
  .refused .readOfWriteOnlyPort

/-- WR_TXDATA (R142). -/
def execWrTxData (w : Word) (s : State) : Out State :=
  writeRow .txd w s

/-- RD_RXDATA (R144). -/
def execRdRxData (s : State) : Out State :=
  readRow .rxd s

/-- WR_RXDATA (R145): refused, the port is read-only. -/
def execWrRxData (_w : Word) (_s : State) : Out State :=
  .refused .writeOfReadOnlyPort

/-- RD_CYCLE (R148): the whole counter under `atomic64`, its low half under `split32`. -/
def execRdCycle (s : State) : Out State :=
  asHost s fun s =>
    match s.params.counterRead with
    | .atomic64 => .next (s.withRet (.dword s.hw.cycle))
    | .split32 => .next (s.withRet (.word (s.value .cycleLo)))

/-- RD_CYCLE_HI (R148): the high half, under `split32` only (log 18). -/
def execRdCycleHi (s : State) : Out State :=
  asHost s fun s =>
    match s.params.counterRead with
    | .atomic64 => .refused .noHighHalf
    | .split32 => .next (s.withRet (.word (s.value .cycleHi)))

/-- WR_CYCLE (R149): refused, nothing writes the counter. -/
def execWrCycle (_w : Word) (_s : State) : Out State :=
  .refused .writeOfCounter

/-- WR_CYCLE_HI (R149): refused, nothing writes the counter. -/
def execWrCycleHi (_w : Word) (_s : State) : Out State :=
  .refused .writeOfCounter

end Sys2Proof.Machine
end

