-- ==== Sys2Proof/Machine/Transaction.lean ====
section
/-! DEFINITION. The TransactionRunner (45_transaction): a list of operations, or one operation by itself. -/

namespace Sys2Proof.Machine

/-- RUN_TRANSACTION (R301, R308). -/
def execRunTransaction (ops : List Operation) (s : State) : Out State :=
  asInstance s (startOperations ops)

/-- OP_READ (R302). -/
def execOpRead (b : Buf) (s : State) : Out State :=
  asInstance s (startOperations [.read b])

/-- OP_WRITE (R303). -/
def execOpWrite (b : Buf) (s : State) : Out State :=
  asInstance s (startOperations [.write b])

/-- OP_TRANSFER (R304). -/
def execOpTransfer (r w : Buf) (s : State) : Out State :=
  asInstance s (startOperations [.transfer r w])

/-- OP_TRANSFER_IN_PLACE (R305). -/
def execOpTransferInPlace (b : Buf) (s : State) : Out State :=
  asInstance s (startOperations [.transferInPlace b])

/-- OP_DELAY (R306). -/
def execOpDelay (d : Duration) (s : State) : Out State :=
  asInstance s (startOperations [.delay d])

end Sys2Proof.Machine
end

