-- ==== Sys2Proof/Machine/Transfer.lean ====
section
/-! DEFINITION. The polls, the byte-step and the transfer commands (44_transfer). -/

namespace Sys2Proof.Machine

/-- TRY_SEND (R260). -/
def execTrySend (w : Byte) (s : State) : Out State :=
  asInstance s (start (.trySend w .flags))

/-- TRY_RECV (R261). -/
def execTryRecv (s : State) : Out State :=
  asInstance s (start (.tryRecv .flags))

/-- BYTE_STEP (R263). -/
def execByteStep (w : Byte) (s : State) : Out State :=
  asInstance s (start (.byteStep w .send .flags))

/-- READ (R264): filler out, received bytes into the buffer. -/
def execRead (b : Buf) (s : State) : Out State :=
  asInstance s fun s => startXfer (beginXfer ⟨b, emptyBuf⟩ 0 s) s

/-- WRITE (R265): the buffer's bytes out, received bytes discarded. -/
def execWrite (b : Buf) (s : State) : Out State :=
  asInstance s fun s => startXfer (beginXfer ⟨emptyBuf, b⟩ 0 s) s

/-- TRANSFER (R266, R88). -/
def execTransfer (r w : Buf) (s : State) : Out State :=
  asInstance s fun s => startXfer (beginTransfer r w s) s

/-- TRANSFER_IN_PLACE (R267): each byte out, then overwritten by the one received. -/
def execTransferInPlace (b : Buf) (s : State) : Out State :=
  asInstance s fun s => startXfer (beginXfer ⟨b, b⟩ 0 s) s

/-- FLUSH (R268). -/
def execFlush (s : State) : Out State :=
  asInstance s (start .flush)

end Sys2Proof.Machine
end

