-- ==== Sys2Proof/Machine/Dispatch.lean ====
section
/-! DEFINITION. One arm per row of spec/opcode_table.json, each a direct call of that row's meaning. -/

namespace Sys2Proof.Machine

def exec (i : Instr) (s : State) : Host.Outcome State Fault Refusal :=
  match i with
  | .rdConfig => Sys2Proof.Machine.execRdConfig s
  | .wrConfig w => Sys2Proof.Machine.execWrConfig w s
  | .rdBusy => Sys2Proof.Machine.execRdBusy s
  | .wrBusy w => Sys2Proof.Machine.execWrBusy w s
  | .rdPeriod0 => Sys2Proof.Machine.execRdPeriod0 s
  | .wrPeriod0 w => Sys2Proof.Machine.execWrPeriod0 w s
  | .rdPeriod1 => Sys2Proof.Machine.execRdPeriod1 s
  | .wrPeriod1 w => Sys2Proof.Machine.execWrPeriod1 w s
  | .rdFifo0 => Sys2Proof.Machine.execRdFifo0 s
  | .wrFifo0 w => Sys2Proof.Machine.execWrFifo0 w s
  | .rdFifo1 => Sys2Proof.Machine.execRdFifo1 s
  | .wrFifo1 w => Sys2Proof.Machine.execWrFifo1 w s
  | .rdTxData => Sys2Proof.Machine.execRdTxData s
  | .wrTxData w => Sys2Proof.Machine.execWrTxData w s
  | .rdRxData => Sys2Proof.Machine.execRdRxData s
  | .wrRxData w => Sys2Proof.Machine.execWrRxData w s
  | .rdCycle => Sys2Proof.Machine.execRdCycle s
  | .rdCycleHi => Sys2Proof.Machine.execRdCycleHi s
  | .wrCycle w => Sys2Proof.Machine.execWrCycle w s
  | .wrCycleHi w => Sys2Proof.Machine.execWrCycleHi w s
  | .construct a => Sys2Proof.Machine.execConstruct a s
  | .setBitOrder o => Sys2Proof.Machine.execSetBitOrder o s
  | .clearFifos => Sys2Proof.Machine.execClearFifos s
  | .read b => Sys2Proof.Machine.execRead b s
  | .write b => Sys2Proof.Machine.execWrite b s
  | .transfer r w => Sys2Proof.Machine.execTransfer r w s
  | .transferInPlace b => Sys2Proof.Machine.execTransferInPlace b s
  | .flush => Sys2Proof.Machine.execFlush s
  | .runTransaction ops => Sys2Proof.Machine.execRunTransaction ops s
  | .release => Sys2Proof.Machine.execRelease s
  | .now => Sys2Proof.Machine.execNow s
  | .elapsedSince st => Sys2Proof.Machine.execElapsedSince st s
  | .delayCycles n => Sys2Proof.Machine.execDelayCycles n s
  | .delayNs d => Sys2Proof.Machine.execDelayNs d s
  | .delayUs d => Sys2Proof.Machine.execDelayUs d s
  | .delayMs d => Sys2Proof.Machine.execDelayMs d s
  | .delayNew hz => Sys2Proof.Machine.execDelayNew hz s
  | .trySend w => Sys2Proof.Machine.execTrySend w s
  | .tryRecv => Sys2Proof.Machine.execTryRecv s
  | .byteStep w => Sys2Proof.Machine.execByteStep w s
  | .clockDivider src f => Sys2Proof.Machine.execClockDivider src f s
  | .opRead b => Sys2Proof.Machine.execOpRead b s
  | .opWrite b => Sys2Proof.Machine.execOpWrite b s
  | .opTransfer r w => Sys2Proof.Machine.execOpTransfer r w s
  | .opTransferInPlace b => Sys2Proof.Machine.execOpTransferInPlace b s
  | .opDelay d => Sys2Proof.Machine.execOpDelay d s
  | .frameStart => Sys2Proof.Machine.execFrameStart s
  | .frameComplete r => Sys2Proof.Machine.execFrameComplete r s
  | .tick => Sys2Proof.Machine.execTick s
  | .reset => Sys2Proof.Machine.execReset s

end Sys2Proof.Machine
end

