-- ==== Sys2Proof/Machine/Fetch.lean ====
section
/-! DEFINITION. What happens next: the next program slot, or a free turn where no slot says (00_scope R5; log 1, log 2). -/

namespace Sys2Proof.Machine

/-- The steps the host does not issue (30_encoding R111, tags 0x40 to 0x43): they come also while a command runs. -/
def autonomous : Instr → Bool
  | .frameStart | .frameComplete _ | .tick | .reset => true
  | .rdConfig | .wrConfig _ | .rdBusy | .wrBusy _ | .rdPeriod0 | .wrPeriod0 _ | .rdPeriod1 | .wrPeriod1 _
  | .rdFifo0 | .wrFifo0 _ | .rdFifo1 | .wrFifo1 _ | .rdTxData | .wrTxData _ | .rdRxData | .wrRxData _
  | .rdCycle | .rdCycleHi | .wrCycle _ | .wrCycleHi _ | .construct _ | .setBitOrder _ | .clearFifos | .read _
  | .write _ | .transfer _ _ | .transferInPlace _ | .flush | .runTransaction _ | .release | .now | .elapsedSince _
  | .delayCycles _ | .delayNs _ | .delayUs _ | .delayMs _ | .delayNew _ | .trySend _ | .tryRecv | .byteStep _
  | .clockDivider _ _ | .opRead _ | .opWrite _ | .opTransfer _ _ | .opTransferInPlace _ | .opDelay _ => false

/-- What the machine does next: runs an instruction, gives an agent its turn, or stops. -/
inductive Fetched where
  | instr (i : Instr) (s : State)
  | turn (t : Turn) (s : State)
  | stop (r : Refusal)
  deriving DecidableEq, Repr

/-- A turn of an agent nobody has chosen: a free value. -/
def freeTurn (s : State) : Fetched :=
  .turn (Config.freeTurn s.draws) (s.drawn 1)

/-- An instruction slot, with the slots after it: what the host issues waits until the running command has ended (R373). -/
def fetchCode (f : Format) (bs : List Byte) (rest : List Slot) (s : State) : Fetched :=
  match decode f bs with
  | .ok (i, _) =>
    if s.host.running.isSome && !autonomous i then freeTurn s
    else if i.wellFormed then .instr i (s.withProgram rest)
    else .stop .illFormed
  | .error e => if s.host.running.isSome then freeTurn s else .stop (.undecodable e)

/-- The next slot; with none left every agent moves freely. -/
def fetch (s : State) : Fetched :=
  match s.program with
  | [] => freeTurn s
  | .hostTurn :: rest => .turn .host (s.withProgram rest)
  | .code f bs :: rest => fetchCode f bs rest s

/-- A program slot placed in front of the others, with no command left running that it would have to wait for. -/
def placeSlot (x : Slot) (s : State) : State :=
  (s.withProgram (x :: s.program)).withRunning none

end Sys2Proof.Machine
end

