-- ==== Sys2Proof/Machine/Step.lean ====
section
/-! DEFINITION. One step of the machine: one instruction begun, or one agent's turn. -/

namespace Sys2Proof.Machine

/-- The step: run what is fetched. -/
def step (s : State) : Host.Outcome State Fault Refusal :=
  match fetch s with
  | .instr i s' => exec i s'
  | .turn t s' => takeTurn t s'
  | .stop r => .refused r

/-- The state with a table word, its operands zero, placed as the next program slot (log 2). -/
def State.withFetchWord (s : State) (nbits w : Nat) : State :=
  placeSlot (.code (tableFormat nbits) (tableBytes nbits w)) s

end Sys2Proof.Machine
end

