-- ==== Sys2Proof/Safety.lean ====
section
/-! DEFINITION. The terms claims use: usable parameters, who is free to issue, well-formed, clean and balanced states, what the
next step is, the recovery sequence, the buffers in use, schedules, fair runs, the order of bits on the wire, and the informative
timing formulas. -/

namespace Sys2Proof.Machine

/-- The host may issue an access or a command: no command runs and its program has not ended. -/
def hostFree (s : State) : Bool :=
  !s.host.ended && s.host.running.isNone

/-- The host may issue a command of the BusEngine (R242). -/
def hostReady (s : State) : Bool :=
  hostFree s && s.host.engine.isSome

/-! The parameter values that R7 and R150 admit. -/

/-- The space a field belongs to (20_memory R70). -/
def fieldSpace : Field → Space
  | .cycleLo | .cycleHi => .counter
  | .mEn | .sEn | .fsize | .cpol | .cpha | .bitord | .cont | .role | .busy | .ph0 | .ph1 | .idle | .txclr | .rxclr | .txovf
  | .txudf | .rxovf | .rxudf | .txcnt | .rxcnt | .txd | .rxd => .spi

/-- The field stands in its space, at an aligned offset, with its width, inside its word. -/
def fieldPlaced (p : Params) (f : Field) : Bool :=
  decide ((p.layout.place f).space = fieldSpace f) && decide ((p.offset f).toNat % 4 = 0) &&
    decide ((p.layout.place f).hi + 1 = (p.layout.place f).lo + Field.width p.cntBits f) &&
    decide ((p.layout.place f).hi < 32)

/-- Two places share no bit. -/
def placesApart (q r : Place) : Bool :=
  decide (q.space ≠ r.space) || decide (q.offset ≠ r.offset) || decide (q.hi < r.lo) || decide (r.hi < q.lo)

/-- No other field stands in the field's word. -/
def aloneInWord (p : Params) (f : Field) : Bool :=
  Field.all.all fun g => decide (f = g) || !p.together f g

/-- A usable `LAYOUT`: every field placed, no two of them and no DMA enable on one bit, `TXD` and `RXD` each alone in its
word (R150). -/
def layoutOk (p : Params) : Bool :=
  (Field.all.all fun f => fieldPlaced p f && placesApart p.layout.dma (p.layout.place f) &&
    Field.all.all fun g => decide (f = g) || placesApart (p.layout.place f) (p.layout.place g)) &&
  aloneInWord p .txd && aloneInWord p .rxd

/-- The parameter values that R7 and R150 admit: a depth of 1 or more that `CNT_BITS` can count, a usable `LAYOUT`, and reset
FIFOs that fit. -/
def Params.ok (p : Params) : Bool :=
  decide (1 ≤ p.fifoDepth) && decide (p.fifoDepth < 2 ^ p.cntBits) && layoutOk p &&
    decide (p.reset.txf.length ≤ p.fifoDepth) && decide (p.reset.rxf.length ≤ p.fifoDepth)

/-- The invariants of R57 on stored state, and the canonical form of host memory. -/
def State.wf (s : State) : Bool :=
  Params.ok s.params && decide (s.hw.txf.length ≤ s.params.fifoDepth) && decide (s.hw.rxf.length ≤ s.params.fifoDepth)
    && Memory.wf s.mem

/-- No flag is set. -/
def Hw.noFlags (h : Hw) : Bool :=
  !h.txovf && !h.txudf && !h.rxovf && !h.rxudf

/-- Clean (R271): both FIFOs empty, the engine idle, no flag set. -/
def Hw.clean (h : Hw) : Bool :=
  h.txf.isEmpty && h.rxf.isEmpty && !h.busy && h.noFlags

/-- The bytes between a TXDATA write and the RXDATA read that answers it (R176): waiting, in flight, or received. -/
def Hw.outstanding (h : Hw) : Nat :=
  h.txf.length + (if h.busy then 1 else 0) + h.rxf.length

/-- Where a byte-step stands in a balanced run (R271): nothing outstanding before the push, one byte after it. -/
def Hw.balancedAt (half : Half) (p : PollPhase) (h : Hw) : Bool :=
  match half with
  | .send => decide (h.outstanding = 0)
  | .recv => decide (h.outstanding = 1) && (decide (p ≠ .data) || !h.rxf.isEmpty)

/-- A balanced state (R271): the engine operational, no flag set, room for a byte, and either no command running in a clean
state, or a transfer's byte-step where R271 puts it, or a transaction's delay in a clean state; no command met by a RESET. -/
def State.balanced (s : State) : Bool :=
  s.hw.operational && s.hw.noFlags && Params.ok s.params &&
  match s.host.running with
  | none => decide (s.hw.outstanding = 0)
  | some r =>
    !r.stale &&
    match r.act with
    | .xfer _ _ _ half p => s.hw.balancedAt half p
    | .delay _ _ _ => r.txn.isSome && decide (s.hw.outstanding = 0)
    | .construct _ _ _ | .setBitOrder _ | .clearFifos _ | .trySend _ _ | .tryRecv _ | .byteStep _ _ _ | .flush | .now _
    | .elapsedSince _ _ => false

/-- The buffers of a running command lie in the host's address space. -/
def Activity.fits : Activity → Bool
  | .xfer x _ _ _ _ => x.sink.fits && x.source.fits
  | .construct _ _ _ | .setBitOrder _ | .clearFifos _ | .trySend _ _ | .tryRecv _ | .byteStep _ _ _ | .flush | .now _
  | .elapsedSince _ _ | .delay _ _ _ => true

/-- The buffers of a running command and of the operations still to come lie in the host's address space. -/
def State.fits (s : State) : Bool :=
  match s.host.running with
  | none => true
  | some r =>
    r.act.fits &&
    match r.txn with
    | none => true
    | some t => t.rest.all Operation.wellFormed

/-- The next thing to happen is a RESET event. -/
def resetNext (s : State) : Bool :=
  match fetch s with
  | .instr .reset _ => true
  | _ => false

/-- The bits of a frame's transmit byte in time order (20_memory R76). -/
def wireBits (bitord : Bool) (b : Byte) : List Bool :=
  let lsbFirst := (List.range 8).map b.getLsbD
  if bitord then lsbFirst else lsbFirst.reverse

/-- The byte assembled from eight bits sampled in time order (R76). -/
def assembleBits (bitord : Bool) (bits : List Bool) : Byte :=
  BitVec.ofBoolListLE (if bitord then bits else bits.reverse) |>.setWidth 8

/-- Cycles of the SPI source clock in one frame (R186, informative). -/
def frameCycles (snap : Snapshot) : Nat :=
  8 * ((snap.ph0.toNat + 1) + (snap.ph1.toNat + 1))

/-- The next thing to happen is a tick: a TICK instruction, or the counter's turn. -/
def tickNext (s : State) : Bool :=
  match fetch s with
  | .instr .tick _ => true
  | .turn .counter _ => true
  | _ => false

/-! The register access of the next step. -/

/-- The field by which a row of format A names its word, and the data of a write; a row of the counter has none. -/
def rowRead : Instr → Option Field
  | .rdConfig => some .mEn
  | .rdBusy => some .busy
  | .rdPeriod0 => some .ph0
  | .rdPeriod1 => some .idle
  | .rdFifo0 => some .txovf
  | .rdFifo1 => some .txcnt
  | .rdRxData => some .rxd
  | _ => none

/-- The field by which a write row names its word, and the data. -/
def rowWrite : Instr → Option (Field × Word)
  | .wrConfig w => some (.mEn, w)
  | .wrBusy w => some (.busy, w)
  | .wrPeriod0 w => some (.ph0, w)
  | .wrPeriod1 w => some (.idle, w)
  | .wrFifo0 w => some (.txclr, w)
  | .wrFifo1 w => some (.txcnt, w)
  | .wrTxData w => some (.txd, w)
  | _ => none

/-- The word write that a `RegModify` makes next, when it has read the word. -/
def Modify.write (p : Params) (m : Modify) : Option (Field × Word) :=
  match m.todo, m.read with
  | x :: rest, some t => some (x.1, Modify.word p x.1 (x :: rest) t)
  | _, _ => none

/-- The word write that a command's next access is, if it is one. -/
def Activity.write (p : Params) : Activity → Option (Field × Word)
  | .construct _ _ m => m.write p
  | .setBitOrder m => m.write p
  | .clearFifos m => m.write p
  | .trySend w .data => some (.txd, p.put .txd (w.setWidth 32) 0)
  | .byteStep w .send .data => some (.txd, p.put .txd (w.setWidth 32) 0)
  | .xfer _ _ w .send .data => some (.txd, p.put .txd (w.setWidth 32) 0)
  | _ => none

/-- The word write of the running command's next access. -/
def State.write (s : State) : Option (Field × Word) :=
  match s.host.running with
  | some r => r.act.write s.params
  | none => none

/-- The word write that the next step makes, if it makes one: a write row's, or the running command's. -/
def nextWrite (s : State) : Option (Field × Word) :=
  match fetch s with
  | .instr i _ => rowWrite i
  | .turn .host s' => s'.write
  | _ => none

/-- A write with this data fires the trigger (R34, R35): the trigger stands in the word, and its bit is 1. -/
def firesTrigger (p : Params) (g : Field) (x : Field × Word) : Bool :=
  p.together x.1 g && (p.get g x.2).getLsbD 0

/-- The next step fires the trigger. -/
def triggerNext (g : Field) (s : State) : Bool :=
  match nextWrite s with
  | some x => firesTrigger s.params g x
  | none => false

/-- The next step fires a trigger. -/
def clearNext (s : State) : Bool :=
  triggerNext .txclr s || triggerNext .rxclr s

/-! Construction (43_divider_construct R236). -/

/-- A `RegModify` of configuration fields: no field twice, every value inside its field. -/
def Modify.configures (p : Params) (m : Modify) : Bool :=
  decide (m.todo.map Prod.fst).Nodup &&
    m.todo.all fun x => Field.guarded x.1 && decide (x.2.toNat < 2 ^ Field.width p.cntBits x.1)

/-- A `RegModify` that leaves `M_EN` 0 until its last write: where it is to set `M_EN`, nothing but fields of `M_EN`'s word follows
one of them, where not, `M_EN` is not written; and a word that has been read has `M_EN` 0. -/
def Modify.enablesLast (p : Params) (sets : Bool) (m : Modify) : Bool :=
  decide (m.todo.lookup .mEn = if sets then some 1 else none) &&
  (!sets || decide (m.todo.Pairwise fun x y => p.together .mEn x.1 = true → p.together .mEn y.1 = true)) &&
  match m.todo, m.read with
  | x :: _, some t => !(p.together .mEn x.1 && p.isSet .mEn t)
  | _, _ => true

/-- CONSTRUCT runs, `M_EN` is 0, and only the last write of step 3 will set it. -/
def State.constructing (s : State) : Bool :=
  !s.hw.mEn && s.host.engine.isNone &&
  match s.host.running with
  | some { act := .construct _ st m, txn := none, stale := false } =>
    m.configures s.params && m.enablesLast s.params (decide (st = .mode))
  | _ => false

/-! The recovery sequence (60_exceptions R331). -/

/-- CLEAR_FIFOS runs, and once it has no more to do with `TXCLR`, which it fires first where the triggers stand in two words
(log 28), the transmit side is clear. -/
def State.clearing (s : State) : Bool :=
  match s.host.running with
  | some { act := .clearFifos m, txn := none, stale := false } =>
    decide (m.todo = clearFields) ||
      decide (m.todo = [(.rxclr, 1)]) && s.hw.txf.isEmpty && !s.hw.txovf && !s.hw.txudf
  | _ => false

/-- FLUSH runs. -/
def State.flushing (s : State) : Bool :=
  match s.host.running with
  | some { act := .flush, txn := none, stale := _ } => true
  | _ => false

/-- Nothing happens but the recovery sequence: of the host's commands only CLEAR_FIFOS and FLUSH run, and only they begin. -/
def State.recovering (s : State) : Bool :=
  (s.host.running.isNone || s.flushing || s.clearing) &&
  match fetch s with
  | .instr i _ => autonomous i || decide (i = .clearFifos) || decide (i = .flush)
  | _ => true

/-- The `match` column of the opcode table: the twenty descriptors of R110 and the thirty tags of R111. -/
def listedCodes : Format → List Nat
  | .A => [0x000, 0x100, 0x008, 0x108, 0x010, 0x110, 0x014, 0x114, 0x080, 0x180, 0x084, 0x184, 0x088, 0x188, 0x08C, 0x18C,
           0x200, 0x204, 0x300, 0x304]
  | .K => [0x01, 0x02, 0x03, 0x04, 0x05, 0x06, 0x07, 0x08, 0x09, 0x0A, 0x10, 0x11, 0x12, 0x13, 0x14, 0x15, 0x16,
           0x20, 0x21, 0x22, 0x23, 0x30, 0x31, 0x32, 0x33, 0x34, 0x40, 0x41, 0x42, 0x43]

/-- `k` steps from a state, through the host's interface. -/
def runFor (k : Nat) (s : State) : Out State :=
  core.run k s

/-! Schedules: the turns under which a command completes. -/

/-- `n` slots that give the host its turn. -/
def hostTurns (n : Nat) : List Slot :=
  List.replicate n .hostTurn

/-- `n` slots that each hold a TICK. -/
def ticks (n : Nat) : List Slot :=
  List.replicate n (.code .K (encode .tick))

/-- The two slots of one frame: FRAME_START, then FRAME_COMPLETE with the peer's byte `r` (R171, R173). -/
def frameSlots (r : Byte) : List Slot :=
  [.code .K (encode .frameStart), .code .K (encode (.frameComplete r))]

/-- The accesses of a send poll that pushes (R260): the flags, one word or two, the count, the data port. -/
def sendTurns (p : Params) : Nat :=
  if p.together .txovf .txudf then 3 else 4

/-- The accesses of a receive poll that pops (R261). -/
def recvTurns (p : Params) : Nat :=
  if p.together .rxovf .rxudf then 3 else 4

/-- The slots under which one byte-step of a transfer completes with the peer's byte `r`: the send poll, the frame, the receive
poll (R260, R261, R171, R173). -/
def byteSchedule (p : Params) (r : Byte) : List Slot :=
  hostTurns (sendTurns p) ++ (frameSlots r ++ hostTurns (recvTurns p))

/-- The slots under which one byte-step for each of the peer's bytes completes. -/
def bytesSchedule (p : Params) : List Byte → List Slot
  | [] => []
  | r :: rs => byteSchedule p r ++ bytesSchedule p rs

/-- The same slots without the first host turn, which the step that begins the command makes up for. -/
def afterStart (p : Params) (rs : List Byte) : List Slot :=
  (bytesSchedule p rs).drop 1

/-- The accesses of one `CounterRead()` that reads the same high half twice (R212). -/
def counterTurns (p : Params) : Nat :=
  match p.counterRead with
  | .atomic64 => 1
  | .split32 => 3

/-- The accesses of a `RegModify` of some fields: a read and a write for each of their words (R151). -/
def modifyTurns (p : Params) (todo : List (Field × Word)) : Nat :=
  2 * (todo.map fun x => p.offset x.1).dedup.length

/-- The accesses of a `construct` that succeeds (R233): eight under the default `LAYOUT`. -/
def constructTurns (p : Params) : Nat :=
  modifyTurns p roleFields + modifyTurns p (period0Fields 0) + modifyTurns p (period1Fields 0) +
    modifyTurns p (modeFields ⟨.idleLow, .captureOnFirstTransition⟩)

/-- The records of completed frames whose received bytes were all stored: the bytes sent paired with the peer's bytes. -/
def frameList (snap : Snapshot) (txs rs : List Byte) : List FrameRecord :=
  List.zipWith (fun t r => { tx := t, rx := r, snap := snap, stored := true }) txs rs

/-- A state in which the host may begin a transfer that R271 covers: a live instance, the engine operational, a clean
start, and the invariants of R57. -/
def State.readyClean (s : State) : Bool :=
  hostReady s && s.hw.operational && s.hw.clean && s.wf

/-- `n` bytes at an address that grows by one for each, as `bs` lists them. -/
def holdsBytes (m : Memory) (b : Buf) (bs : List Byte) : Prop :=
  ∀ i (h : i < bs.length), m.get (bufAddr b i) = bs[i]

/-- The bytes of a buffer from index `i` on, `n` of them, as host memory holds them. -/
def bufBytesAt (b : Buf) (m : Memory) : Nat → Nat → List Byte
  | _, 0 => []
  | i, n + 1 => m.get (bufAddr b i) :: bufBytesAt b m (i + 1) n

/-- The memory after bytes have been stored in a buffer from index `i` on, one after the other. -/
def storeBytes (b : Buf) : Nat → List Byte → Memory → Memory
  | _, [], m => m
  | i, r :: rs, m => storeBytes b (i + 1) rs (m.set (bufAddr b i) r)

/-- The number of byte-steps of an operation (R264 to R267); a delay has none. -/
def opSteps : Operation → Nat
  | .read b => b.len.toNat
  | .write b => b.len.toNat
  | .transfer r w => max r.len.toNat w.len.toNat
  | .transferInPlace b => b.len.toNat
  | .delay _ => 0

/-- An operation whose buffers lie in the host's address space and do not overlap (R88). -/
def opValid : Operation → Bool
  | .read b => b.fits
  | .write b => b.fits
  | .transfer r w => r.fits && w.fits && !overlap r w
  | .transferInPlace b => b.fits
  | .delay _ => true

/-- The bytes an operation sends, read from the memory at its start (R264 to R267). -/
def opSends (op : Operation) (m : Memory) : List Byte :=
  match op with
  | .read b => List.replicate b.len.toNat Config.filler
  | .write b => bufBytesAt b m 0 b.len.toNat
  | .transfer r w =>
    bufBytesAt w m 0 w.len.toNat ++ List.replicate (max r.len.toNat w.len.toNat - w.len.toNat) Config.filler
  | .transferInPlace b => bufBytesAt b m 0 b.len.toNat
  | .delay _ => []

/-- The memory after an operation that received `rs` (R264 to R267). -/
def opStores (op : Operation) (rs : List Byte) (m : Memory) : Memory :=
  match op with
  | .read b => storeBytes b 0 rs m
  | .write _ => m
  | .transfer r _ => storeBytes r 0 (rs.take r.len.toNat) m
  | .transferInPlace b => storeBytes b 0 rs m
  | .delay _ => m

/-- The byte-steps of a list of operations. -/
def opsSteps : List Operation → Nat
  | [] => 0
  | op :: ops => opSteps op + opsSteps ops

/-- The bytes a list of operations sends while it receives `rs`, in the order listed (R301). -/
def opsSend : List Operation → List Byte → Memory → List Byte
  | [], _, _ => []
  | op :: ops, rs, m => opSends op m ++ opsSend ops (rs.drop (opSteps op)) (opStores op (rs.take (opSteps op)) m)

/-- The memory after a list of operations that received `rs`, in the order listed (R301). -/
def opsStore : List Operation → List Byte → Memory → Memory
  | [], _, m => m
  | op :: ops, rs, m => opsStore ops (rs.drop (opSteps op)) (opStores op (rs.take (opSteps op)) m)

/-- The ticks an operation waits for in its schedule: one more than a delay's count on a core of `hz` (R203, R306). -/
def opTicks (hz : Word) : Operation → Nat
  | .delay d => (cyclesOf d.unit d.amount hz).toNat + 1
  | .read _ | .write _ | .transfer _ _ | .transferInPlace _ => 0

/-- The slots under which an operation completes: its byte-steps with the bytes `rs`, or a delay's two counter reads with its
ticks between them. -/
def opSchedule (p : Params) (hz : Word) (op : Operation) (rs : List Byte) : List Slot :=
  match op with
  | .delay _ => hostTurns (counterTurns p) ++ (ticks (opTicks hz op) ++ hostTurns (counterTurns p))
  | .read _ | .write _ | .transfer _ _ | .transferInPlace _ => bytesSchedule p rs

/-- The slots under which a list of operations completes that receives `rs`. -/
def opsSchedule (p : Params) (hz : Word) : List Operation → List Byte → List Slot
  | [], _ => []
  | op :: ops, rs => opSchedule p hz op (rs.take (opSteps op)) ++ opsSchedule p hz ops (rs.drop (opSteps op))

/-- The ticks of that schedule. -/
def opsTicks (hz : Word) : List Operation → Nat
  | [] => 0
  | op :: ops => opTicks hz op + opsTicks hz ops

/-- The address lies in the first `n` bytes of the buffer. -/
def inBuf (b : Buf) (n a : Nat) : Prop :=
  b.base.toNat ≤ a ∧ a < b.base.toNat + n

/-- A command whose receive half can never end (R333, R365): nothing to receive, no frame in flight, and no frame that can
start. -/
def State.starved (s : State) : Bool :=
  (!s.hw.operational || s.hw.txf.isEmpty) && s.hw.rxf.isEmpty && decide (s.hw.eng = .idle) && s.hw.noFlags &&
    Params.ok s.params

/-- The host waits in the receive half of a byte-step. -/
def State.receiving (s : State) : Bool :=
  match s.host.running with
  | some { act := .byteStep _ .recv p, txn := _, stale := false } => decide (p ≠ .data)
  | some { act := .xfer _ _ _ .recv p, txn := _, stale := false } => decide (p ≠ .data)
  | _ => false

/-! Fair runs (41_engine R180, 42_cycle_delay R211). -/

/-- A run with nothing placed, in which agent `σ n` moves at step `n`: what `step` makes of free turns with these values. -/
def IsRun (σ : Nat → Turn) (f : Nat → State) : Prop :=
  ∀ n, takeTurn (σ n) ((f n).drawn 1) = .next (f (n + 1))

/-- Weak fairness: an agent whose step stays enabled is eventually given its turn. -/
def WeaklyFair (enabled : State → Bool) (a : Turn) (σ : Nat → Turn) (f : Nat → State) : Prop :=
  ∀ n, (∀ m, n ≤ m → enabled (f m) = true) → ∃ m, n ≤ m ∧ σ m = a

/-- FRAME_START is enabled (R171). -/
def startEnabled (s : State) : Bool :=
  s.hw.operational && !s.hw.busy && !s.hw.txf.isEmpty

/-- FRAME_COMPLETE is enabled (R173). -/
def completeEnabled (s : State) : Bool :=
  s.hw.busy

/-- The fairness R180 assumes: of FRAME_START, of FRAME_COMPLETE, and of TICK, which is always enabled. -/
def FairRun (σ : Nat → Turn) (f : Nat → State) : Prop :=
  IsRun σ f ∧ WeaklyFair startEnabled .engine σ f ∧ WeaklyFair completeEnabled .engine σ f ∧
    WeaklyFair (fun _ => true) .counter σ f

/-- The host does not stop in the middle of a command (log 10). -/
def HostFair (σ : Nat → Turn) (f : Nat → State) : Prop :=
  WeaklyFair (fun s => s.host.running.isSome) .host σ f

/-- The bytes the engine has been given since the start of the history, oldest first: those of completed frames, the one in
flight, and those that wait (R51, R176). -/
def State.givenBytes (s : State) : List Byte :=
  s.frames.map FrameRecord.tx ++
    (match s.hw.eng with
     | .idle => []
     | .shifting b _ => [b]) ++ s.hw.txf

end Sys2Proof.Machine
end

