-- ==== Sys2Proof/Certificates/Slice0/Obligations.lean ====
section
/-! DEFINITION. The statements for the provers, each from the numbered rules of spec/ that its docstring names. -/

section

open Sys2Proof Sys2Proof.Machine

/-! Encoding (30_encoding, 20_memory). -/

/-- Decoding an encoded instruction gives it back with every operand, and leaves the bytes after it (R100, R110, R111; the
operand bytes are the model's, log 3). -/
def Obligations.DecodeUndoesEncode : Prop :=
  ∀ (i : Instr) (tail : List Byte), decode i.format (encode i ++ tail) = .ok (i, tail)

/-- R110, R111: an instruction is read only from a listed descriptor or tag, the one its row has, and the table lists the
codes of all instructions. -/
def Obligations.DecodeReadsListedSelectors : Prop :=
  (∀ (f : Format) (bs rest : List Byte) (i : Instr), decode f bs = .ok (i, rest) →
    i.format = f ∧ selectorBytes f i.code <+: bs) ∧
  (∀ i : Instr, i.code ∈ listedCodes i.format) ∧
  (∀ (f : Format) (bs : List Byte), (∀ c ∈ listedCodes f, ¬ selectorBytes f c <+: bs) → ∃ e, decode f bs = .error e)

/-- R72, R73: a descriptor of ten bits is refused by the name of its fault, a misaligned offset before an offset that holds no
register; a wider word is no descriptor (R100). -/
def Obligations.UnlistedDescriptorsAreRefusedByName : Prop :=
  ∀ (d : BitVec 16) (tail : List Byte), d.toNat ∉ listedCodes .A →
    decode .A (halfBytes d ++ tail) =
      .error (if 1024 ≤ d.toNat then .descriptorTooWide
              else if d.toNat % 4 = 0 then .noRegister
              else .misalignedOffset)

/-- One word of each family of the opcode table, written from the table's rows, decodes to its instruction; the operands of the
clauses that have some (a data word low byte first, 0x01 as `lsbFirst`, unit byte 0 as ns, empty buffers) stand as log 3 lays them
out, since R100 packs no operand into bits. -/
def Obligations.SpecWordsDecode : Prop :=
  decodeTableWord 10 0x000 = some .rdConfig ∧
  decodeTableWord 10 0x188 = some (.wrTxData 0) ∧
  decodeTableWord 10 0x204 = some .rdCycleHi ∧
  decodeTableWord 8 0x03 = some .clearFifos ∧
  decodeTableWord 8 0x07 = some (.transferInPlace { base := 0, len := 0 }) ∧
  decodeTableWord 8 0x12 = some (.delayCycles 0) ∧
  decodeTableWord 8 0x22 = some (.byteStep 0) ∧
  decodeTableWord 8 0x34 = some (.opDelay { unit := .ns, amount := 0 }) ∧
  decodeTableWord 8 0x41 = some (.frameComplete 0) ∧
  decode .A [0x00, 0x01, 0x31, 0x04, 0x00, 0x00] = .ok (.wrConfig 0x00000431, []) ∧
  decode .K [0x02, 0x01] = .ok (.setBitOrder .lsbFirst, [])

/-! The step (00_scope R5, R6). -/

/-- A placed instruction that its agent may take now is run as `exec` runs it, the slot used up. -/
def Obligations.StepRunsTheDecodedInstruction : Prop :=
  ∀ (s : State) (f : Format) (bs tail : List Byte) (rest : List Slot) (i : Instr),
    s.program = .code f bs :: rest → decode f bs = .ok (i, tail) → i.wellFormed = true →
    (s.host.running = none ∨ autonomous i = true) →
    step s = exec i (s.withProgram rest)

/-- What a step is otherwise. A placed host turn is the host's (log 2), and with no slot the turn is free (log 1). While a command
runs R373 lets no second one start; that the slot then waits, the step being a free turn, is the model's choice (log 12), for a host
instruction and for bytes that decode to nothing alike. With no command running bytes that decode to nothing are refused by name (R72,
R73; the names: log 24; operand bytes: log 3), and an instruction that decodes but names a buffer outside the host's address space is
refused as ill-formed, which is the model's choice (log 13). -/
def Obligations.StepGivesTurnsOrRefuses : Prop :=
  ∀ s : State,
    (∀ rest, s.program = .hostTurn :: rest → step s = takeTurn .host (s.withProgram rest)) ∧
    (s.program = [] → step s = takeTurn (Config.freeTurn s.draws) (s.drawn 1)) ∧
    (∀ f bs rest, s.program = .code f bs :: rest →
      (∀ i tail, decode f bs = .ok (i, tail) → s.host.running ≠ none → autonomous i = false →
        step s = takeTurn (Config.freeTurn s.draws) (s.drawn 1)) ∧
      (∀ e, decode f bs = .error e → s.host.running ≠ none → step s = takeTurn (Config.freeTurn s.draws) (s.drawn 1)) ∧
      (∀ e, decode f bs = .error e → s.host.running = none → step s = .refused (.undecodable e)) ∧
      (∀ i tail, decode f bs = .ok (i, tail) → s.host.running = none → i.wellFormed = false →
        step s = .refused .illFormed))

/-- A turn is one agent's move (R5, R6; what an agent with nothing to do does, and a free turn itself, are the model's, log 1,
log 11). The host without a command does nothing; with one it makes one access of it: Layer H is as before, or as a read of `RXD`
or the one word write of that access leaves it; the counter, the engine, the history and the slots stay, and so does every byte of
memory but the one a transfer's last access of a byte-step stores; a command met by a RESET is refused (R362, log 15). The engine
takes the step it has, with the byte `PEER` gives (R181), and the counter ticks. -/
def Obligations.TurnsAreOneAgentsMove : Prop :=
  ∀ s : State,
    (s.host.running = none → takeTurn .host s = .next s) ∧
    (∀ r, s.host.running = some r →
      (r.stale = true → takeTurn .host s = .refused .resetInCommand) ∧
      (∀ t, takeTurn .host s = .next t →
        (t.hw = s.hw ∨ t.hw = s.hw.popRx.2 ∨
          ∃ f w, r.act.write s.params = some (f, w) ∧ regWrite f w s = .next (s.withHw t.hw)) ∧
        t.hw.cycle = s.hw.cycle ∧ t.hw.eng = s.hw.eng ∧ t.frames = s.frames ∧ t.program = s.program ∧
        t.params = s.params ∧ t.host.delay = s.host.delay ∧
        (∀ a, (∀ x i w, r.act = .xfer x i w .recv .data → a ≠ bufAddr x.sink i) → t.mem.get a = s.mem.get a))) ∧
    takeTurn .counter s = exec .tick s ∧
    (s.hw.eng = .idle → takeTurn .engine s = exec .frameStart s) ∧
    (∀ b snap, s.hw.eng = .shifting b snap →
      takeTurn .engine s = exec (.frameComplete (Config.peer s.frames b snap)) s)

/-! Reset (70_reset_and_hazards). -/

/-- R58, R361, R364: right after reset the control fields and the flags are 0, the FIFOs and `FRAMES` empty, the engine idle and
not operational; the state is clean, the host free with no instance, and the invariants of R57 hold. -/
def Obligations.ResetStateIsCleanDisabledAndWellFormed : Prop :=
  State.reset.hw.role = false ∧ State.reset.hw.mEn = false ∧ State.reset.hw.sEn = false ∧
  State.reset.hw.cpol = false ∧ State.reset.hw.cpha = false ∧ State.reset.hw.cont = false ∧
  State.reset.hw.fsize = 0 ∧ State.reset.hw.bitord = false ∧
  State.reset.hw.txf = [] ∧ State.reset.hw.rxf = [] ∧ State.reset.hw.eng = .idle ∧ State.reset.frames = [] ∧
  State.reset.hw.noFlags = true ∧ State.reset.hw.clean = true ∧ State.reset.hw.operational = false ∧
  hostFree State.reset = true ∧ State.reset.host.engine = none ∧ State.reset.wf = true

/-- R360: RESET happens in any state; every piece of Layer H takes its value of the `RESET` record, each unspecified one a draw of
its own, the unmodelled bits of every word too, and `FRAMES` is emptied; under the default record the control fields and flags are
0, the FIFOs empty and the engine idle. Of Layer C only the instance's view and a running command change, which become stale (R362;
that the rest of Layer C stays is the model's choice, log 15). -/
def Obligations.ResetEventTakesTheResetRecord : Prop :=
  ∀ s : State, ∃ t, exec .reset s = .next t ∧
    (s.params.reset = .default →
      t.hw.role = false ∧ t.hw.mEn = false ∧ t.hw.sEn = false ∧ t.hw.cpol = false ∧ t.hw.cpha = false ∧
      t.hw.cont = false ∧ t.hw.fsize = 0 ∧ t.hw.bitord = false ∧ t.hw.txovf = false ∧ t.hw.txudf = false ∧
      t.hw.rxovf = false ∧ t.hw.rxudf = false ∧ t.hw.txf = [] ∧ t.hw.rxf = [] ∧ t.hw.eng = .idle) ∧
    (t.hw.role = s.params.reset.role ∧ t.hw.mEn = s.params.reset.mEn ∧ t.hw.sEn = s.params.reset.sEn ∧
      t.hw.cpol = s.params.reset.cpol ∧ t.hw.cpha = s.params.reset.cpha ∧ t.hw.cont = s.params.reset.cont ∧
      t.hw.fsize = s.params.reset.fsize ∧ t.hw.bitord = s.params.reset.bitord ∧
      t.hw.txovf = s.params.reset.txovf ∧ t.hw.txudf = s.params.reset.txudf ∧ t.hw.rxovf = s.params.reset.rxovf ∧
      t.hw.rxudf = s.params.reset.rxudf ∧ t.hw.txf = s.params.reset.txf ∧ t.hw.rxf = s.params.reset.rxf ∧
      t.hw.eng = s.params.reset.eng) ∧
    (∀ v, s.params.reset.ph0 = some v → t.hw.ph0 = v) ∧
    (s.params.reset.ph0 = none → t.hw.ph0 = (Config.freeValue s.draws).setWidth 8) ∧
    (∀ v, s.params.reset.ph1 = some v → t.hw.ph1 = v) ∧
    (s.params.reset.ph1 = none → t.hw.ph1 = (Config.freeValue (s.draws + 1)).setWidth 8) ∧
    (∀ v, s.params.reset.idle = some v → t.hw.idle = v) ∧
    (s.params.reset.idle = none → t.hw.idle = (Config.freeValue (s.draws + 2)).setWidth 8) ∧
    (∀ v, s.params.reset.cycle = some v → t.hw.cycle = v) ∧
    (s.params.reset.cycle = none → t.hw.cycle = Config.freeValue (s.draws + 3)) ∧
    (∀ k : Fin 64,
      (∀ v, s.params.reset.u[k] = some v → t.hw.u[k] = v) ∧
      (s.params.reset.u[k] = none → t.hw.u[k] = (Config.freeValue (s.draws + (4 + k.val))).setWidth 32)) ∧
    t.frames = [] ∧ t.mem = s.mem ∧ t.program = s.program ∧ t.params = s.params ∧
    t.host = { s.host with engine := s.host.engine.map fun e => { e with stale := true },
                           running := s.host.running.map fun r => { r with stale := true } }

/-- R363: what a free host reads after a reset event under the default record and the default `LAYOUT`: the modelled bits of CONFIG,
BUSY, FIFO0 and FIFO1; and a read of RXDATA would set `RXUDF`. -/
def Obligations.ReadsAfterResetShowTheResetState : Prop :=
  ∀ s t : State, s.params.reset = .default → s.params.layout = .default → Params.ok s.params = true → hostFree s = true →
    exec .reset s = .next t →
    (∃ w, exec .rdConfig t = .next (t.withRet (.word w)) ∧
      w.extractLsb' 0 7 = 0 ∧ w.getLsbD 9 = false ∧ w.getLsbD 10 = false) ∧
    (∃ w u, exec .rdBusy t = .next u ∧ u.host.ret = .word w ∧ w.getLsbD 0 = false) ∧
    (∃ w, exec .rdFifo0 t = .next (t.withRet (.word w)) ∧ w.extractLsb' 2 6 = 0) ∧
    (∃ w, exec .rdFifo1 t = .next (t.withRet (.word w)) ∧ (w.extractLsb' 8 3).toNat = 0 ∧
      (t.params.txcntSense = .occupancy → (w.extractLsb' 0 3).toNat = 0) ∧
      (t.params.txcntSense = .free → (w.extractLsb' 0 3).toNat = t.params.fifoDepth)) ∧
    (∃ u, exec .rdRxData t = .next u ∧ u.hw.rxudf = true)

/-! Register accesses (40_register_access). -/

/-- R138, R150: under any usable `LAYOUT` (wherever it puts the fields, `SPI_BASE` and the counts' width being what they are) an
access of a word is the composition of the effects of the fields that stand in it. A read row returns every field of its word at
its place, and changes nothing but that `RXD` pops. A write row stores every read-write field of its word and leaves the others,
fires each trigger that stands there and is 1, pushes where `TXD` stands there, and ignores the rest; the counter and the engine
stay. Which word a row names under another `LAYOUT`, the word of one field of it, is the model's choice (log 27). -/
def Obligations.WordAccessesComposeTheirFields : Prop :=
  ∀ s : State, hostFree s = true → s.wf = true →
    (∀ i f, rowRead i = some f →
      ∃ w t, exec i s = .next t ∧ t.host = { s.host with ret := .word w } ∧
        (∀ g, s.params.together f g = true → s.params.get g w = s.value g) ∧
        t.hw = (if f = .rxd then s.hw.popRx.2 else s.hw) ∧ t.mem = s.mem ∧ t.frames = s.frames ∧ t.params = s.params) ∧
    (∀ i f w, rowWrite i = some (f, w) →
      (s.hw.busy = false ∨ ∀ g, s.params.together f g = true → Field.guarded g = false) →
      changesDma (s.params.offset f) w s = false →
      ∃ t, exec i s = .next t ∧ t.host = { s.host with ret := .unit } ∧
        (∀ g, Field.guarded g = true →
          t.value g = if s.params.together f g then s.params.get g w else s.value g) ∧
        t.hw.txf =
          (if firesTrigger s.params .txclr (f, w) then []
           else if f = .txd ∧ s.hw.txf.length < s.params.fifoDepth then s.hw.txf ++ [(s.params.get .txd w).setWidth 8]
           else s.hw.txf) ∧
        t.hw.txovf =
          (if firesTrigger s.params .txclr (f, w) then false
           else s.hw.txovf || (decide (f = .txd) && decide (s.params.fifoDepth ≤ s.hw.txf.length))) ∧
        t.hw.txudf = (if firesTrigger s.params .txclr (f, w) then false else s.hw.txudf) ∧
        t.hw.rxf = (if firesTrigger s.params .rxclr (f, w) then [] else s.hw.rxf) ∧
        t.hw.rxovf = (if firesTrigger s.params .rxclr (f, w) then false else s.hw.rxovf) ∧
        t.hw.rxudf = (if firesTrigger s.params .rxclr (f, w) then false else s.hw.rxudf) ∧
        t.hw.eng = s.hw.eng ∧ t.hw.cycle = s.hw.cycle ∧ t.mem = s.mem ∧ t.frames = s.frames ∧ t.params = s.params)

/-- R130, R132, R134 with the positions of the default `LAYOUT`: RD_CONFIG, RD_PERIOD0 and RD_PERIOD1 return every named field at its
bits and the stored unmodelled bits elsewhere, and change nothing. -/
def Obligations.ConfigurationReadsItsFields : Prop :=
  ∀ s : State, hostFree s = true → s.params.layout = .default →
    (∃ w, exec .rdConfig s = .next (s.withRet (.word w)) ∧
      w.getLsbD 0 = s.hw.mEn ∧ w.getLsbD 1 = s.hw.sEn ∧ w.extractLsb' 2 2 = s.hw.fsize ∧
      w.getLsbD 4 = s.hw.cpol ∧ w.getLsbD 5 = s.hw.cpha ∧ w.getLsbD 6 = s.hw.bitord ∧
      w.getLsbD 9 = s.hw.cont ∧ w.getLsbD 10 = s.hw.role ∧
      w.extractLsb' 7 2 = (s.hw.u.at 0x00).extractLsb' 7 2 ∧ w.extractLsb' 11 21 = (s.hw.u.at 0x00).extractLsb' 11 21) ∧
    (∃ w, exec .rdPeriod0 s = .next (s.withRet (.word w)) ∧ w.extractLsb' 0 16 = (s.hw.u.at 0x10).extractLsb' 0 16 ∧
      w.extractLsb' 16 8 = s.hw.ph0 ∧ w.extractLsb' 24 8 = s.hw.ph1) ∧
    (∃ w, exec .rdPeriod1 s = .next (s.withRet (.word w)) ∧ w.extractLsb' 0 8 = s.hw.idle ∧
      w.extractLsb' 8 24 = (s.hw.u.at 0x14).extractLsb' 8 24)

/-- R131, R133, R135 with the positions of the default `LAYOUT`: WR_CONFIG, WR_PERIOD0 and WR_PERIOD1 with no frame in flight store
every named field from its bits and the other bits opaquely; they accept every value and change nothing else. -/
def Obligations.ConfigurationWritesStoreTheirFields : Prop :=
  ∀ (s : State) (w : Word), hostFree s = true → s.hw.busy = false → s.params.layout = .default →
    (∃ v, exec (.wrConfig w) s = .next ((s.withHw { s.hw with
        mEn := w.getLsbD 0, sEn := w.getLsbD 1, fsize := w.extractLsb' 2 2, cpol := w.getLsbD 4, cpha := w.getLsbD 5,
        bitord := w.getLsbD 6, cont := w.getLsbD 9, role := w.getLsbD 10, u := s.hw.u.put 0x00 v }).withRet .unit) ∧
      v.extractLsb' 7 2 = w.extractLsb' 7 2 ∧ v.extractLsb' 11 21 = w.extractLsb' 11 21) ∧
    (∃ v, exec (.wrPeriod0 w) s = .next ((s.withHw { s.hw with
        ph0 := w.extractLsb' 16 8, ph1 := w.extractLsb' 24 8, u := s.hw.u.put 0x10 v }).withRet .unit) ∧
      v.extractLsb' 0 16 = w.extractLsb' 0 16) ∧
    (∃ v, exec (.wrPeriod1 w) s = .next ((s.withHw { s.hw with
        idle := w.extractLsb' 0 8, u := s.hw.u.put 0x14 v }).withRet .unit) ∧
      v.extractLsb' 8 24 = w.extractLsb' 8 24)

/-- R139, R367: while a frame is in flight a write of CONFIG, PERIOD0 or PERIOD1 is refused, the three rows' own and the writes of a
running CONSTRUCT and SET_BIT_ORDER, whatever word the `LAYOUT` puts their fields in. -/
def Obligations.ConfigurationWritesAreRefusedMidFrame : Prop :=
  ∀ (s : State) (w : Word) (b : Byte) (snap : Snapshot), Params.ok s.params = true → s.hw.eng = .shifting b snap →
    (hostFree s = true →
      exec (.wrConfig w) s = .refused .configWriteInFlight ∧ exec (.wrPeriod0 w) s = .refused .configWriteInFlight ∧
      exec (.wrPeriod1 w) s = .refused .configWriteInFlight) ∧
    (∀ r m f v left t, s.host.running = some r → r.stale = false →
      ((∃ a st, r.act = .construct a st m) ∨ r.act = .setBitOrder m) →
      m = { todo := (f, v) :: left, read := some t } → Field.guarded f = true →
      takeTurn .host s = .refused .configWriteInFlight)

/-- R136 with the positions of the default `LAYOUT`: RD_FIFO0 returns the four flags, reads 0 in both triggers, and changes nothing, no
flag either. -/
def Obligations.FifoFlagsReadWithoutClearing : Prop :=
  ∀ s : State, hostFree s = true → s.params.layout = .default → ∃ w, exec .rdFifo0 s = .next (s.withRet (.word w)) ∧
    w.getLsbD 2 = false ∧ w.getLsbD 3 = false ∧ w.getLsbD 4 = s.hw.txovf ∧ w.getLsbD 5 = s.hw.txudf ∧
    w.getLsbD 6 = s.hw.rxovf ∧ w.getLsbD 7 = s.hw.rxudf ∧ w.extractLsb' 0 2 = (s.hw.u.at 0x80).extractLsb' 0 2 ∧
    w.extractLsb' 8 24 = (s.hw.u.at 0x80).extractLsb' 8 24

/-- R137, R177, R178 with the positions of the default `LAYOUT`: WR_FIFO0 fires each trigger whose bit is 1, alone: its FIFO emptied,
its two flags cleared; it ignores the flag bits, stores the unmodelled bits, and leaves the engine and everything else. A write that
would change the DMA request enables, bits 1:0, is refused (R340). -/
def Obligations.FifoTriggersClearTheirSide : Prop :=
  ∀ (s : State) (w : Word), hostFree s = true → s.params.layout = .default →
    (w.extractLsb' 0 2 = (s.hw.u.at 0x80).extractLsb' 0 2 →
      ∃ v, exec (.wrFifo0 w) s = .next ((s.withHw { s.hw with
        txf := if w.getLsbD 2 then [] else s.hw.txf,
        txovf := if w.getLsbD 2 then false else s.hw.txovf,
        txudf := if w.getLsbD 2 then false else s.hw.txudf,
        rxf := if w.getLsbD 3 then [] else s.hw.rxf,
        rxovf := if w.getLsbD 3 then false else s.hw.rxovf,
        rxudf := if w.getLsbD 3 then false else s.hw.rxudf,
        u := s.hw.u.put 0x80 v }).withRet .unit) ∧
      v.extractLsb' 0 2 = w.extractLsb' 0 2 ∧ v.extractLsb' 8 24 = w.extractLsb' 8 24) ∧
    (w.extractLsb' 0 2 ≠ (s.hw.u.at 0x80).extractLsb' 0 2 → exec (.wrFifo0 w) s = .refused .dmaEnable)

/-- R140 with the positions of the default `LAYOUT`: RD_FIFO1 returns the two counts, the transmit one in the sense of `TXCNT_SENSE`,
and changes nothing. -/
def Obligations.FifoCountsRead : Prop :=
  ∀ s : State, hostFree s = true → s.wf = true → s.params.layout = .default →
    ∃ w, exec .rdFifo1 s = .next (s.withRet (.word w)) ∧
    (s.params.txcntSense = .occupancy → (w.extractLsb' 0 3).toNat = s.hw.txf.length) ∧
    (s.params.txcntSense = .free → (w.extractLsb' 0 3).toNat = s.params.fifoDepth - s.hw.txf.length) ∧
    (w.extractLsb' 8 3).toNat = s.hw.rxf.length ∧
    w.extractLsb' 3 5 = (s.hw.u.at 0x84).extractLsb' 3 5 ∧ w.extractLsb' 11 21 = (s.hw.u.at 0x84).extractLsb' 11 21

/-- R141, R147 under the default `LAYOUT`: WR_FIFO1 ignores the counts and stores only the unmodelled bits; WR_BUSY changes
nothing. -/
def Obligations.WritesOfReadOnlyFieldsAreIgnored : Prop :=
  ∀ (s : State) (w : Word), hostFree s = true → s.params.layout = .default → Params.ok s.params = true →
    (∃ v, exec (.wrFifo1 w) s = .next ((s.withHw { s.hw with u := s.hw.u.put 0x84 v }).withRet .unit) ∧
      v.extractLsb' 3 5 = w.extractLsb' 3 5 ∧ v.extractLsb' 11 21 = w.extractLsb' 11 21) ∧
    exec (.wrBusy w) s = .next (s.withRet .unit)

/-- R142 with the position of the default `LAYOUT`: WR_TXDATA pushes the low byte at the tail when there is room, and otherwise only sets
`TXOVF`; bits 31:8 are ignored and the engine need not be enabled. -/
def Obligations.TransmitWritePushesOrOverflows : Prop :=
  ∀ (s : State) (w : Word), hostFree s = true → s.params.layout = .default →
    exec (.wrTxData w) s = .next ((s.withHw
      (if s.hw.txf.length < s.params.fifoDepth then { s.hw with txf := s.hw.txf ++ [w.extractLsb' 0 8] }
       else { s.hw with txovf := true })).withRet .unit)

/-- R144 with the position of the default `LAYOUT`: RD_RXDATA pops the oldest byte into bits 7:0 and leaves a set flag set; from an empty
FIFO it sets `RXUDF` and the byte is a draw; bits 31:8 are a draw on every read. -/
def Obligations.ReceiveReadPopsOrUnderflows : Prop :=
  ∀ s : State, hostFree s = true → s.params.layout = .default → ∃ w,
    (∀ b rest, s.hw.rxf = b :: rest →
      exec .rdRxData s = .next (((s.withHw { s.hw with rxf := rest }).drawn 2).withRet (.word w)) ∧ w.extractLsb' 0 8 = b) ∧
    (s.hw.rxf = [] →
      exec .rdRxData s = .next (((s.withHw { s.hw with rxudf := true }).drawn 2).withRet (.word w)) ∧
      w.extractLsb' 0 8 = (Config.freeValue (s.draws + 1)).setWidth 8) ∧
    w.extractLsb' 8 24 = (Config.freeValue s.draws).extractLsb' 8 24

/-- R146 with the position of the default `LAYOUT`: RD_BUSY returns in bit 0 whether a frame is in flight, whatever waits in the transmit
FIFO, draws the other bits, and changes nothing else. -/
def Obligations.BusyReadsTheEngine : Prop :=
  ∀ s : State, hostFree s = true → s.params.layout = .default →
    ∃ w, exec .rdBusy s = .next ((s.drawn 1).withRet (.word w)) ∧
    (w.getLsbD 0 = true ↔ s.hw.eng ≠ .idle) ∧ w.extractLsb' 1 31 = (Config.freeValue s.draws).extractLsb' 1 31

/-- R148: RD_CYCLE returns the whole counter under `atomic64`; under `split32` it returns the low half and RD_CYCLE_HI the high
half; no read changes anything. -/
def Obligations.CounterReads : Prop :=
  ∀ s : State, hostFree s = true →
    (s.params.counterRead = .atomic64 → exec .rdCycle s = .next (s.withRet (.dword s.hw.cycle))) ∧
    (s.params.counterRead = .split32 →
      ∃ lo hi, exec .rdCycle s = .next (s.withRet (.word lo)) ∧ exec .rdCycleHi s = .next (s.withRet (.word hi)) ∧
        s.hw.cycle.toNat = hi.toNat * 4294967296 + lo.toNat)

/-- R143, R145, R149: the four accesses the spec refuses are refused in every state. -/
def Obligations.ForbiddenAccessesAreRefused : Prop :=
  ∀ (s : State) (w : Word),
    exec .rdTxData s = .refused .readOfWriteOnlyPort ∧ exec (.wrRxData w) s = .refused .writeOfReadOnlyPort ∧
    exec (.wrCycle w) s = .refused .writeOfCounter ∧ exec (.wrCycleHi w) s = .refused .writeOfCounter

/-- R138 under the default `LAYOUT`: a write followed by a read of the same word returns the written word in every read-write and
unmodelled bit: all of CONFIG, PERIOD0 and PERIOD1, bits 1:0 and 31:8 of FIFO0, bits 7:3 and 31:11 of FIFO1. -/
def Obligations.WrittenWordsReadBack : Prop :=
  ∀ (s : State) (w : Word), hostFree s = true → s.hw.eng = .idle → s.params.layout = .default → Params.ok s.params = true →
    (∃ t, exec (.wrConfig w) s = .next t ∧ exec .rdConfig t = .next (t.withRet (.word w))) ∧
    (∃ t, exec (.wrPeriod0 w) s = .next t ∧ exec .rdPeriod0 t = .next (t.withRet (.word w))) ∧
    (∃ t, exec (.wrPeriod1 w) s = .next t ∧ exec .rdPeriod1 t = .next (t.withRet (.word w))) ∧
    (w.extractLsb' 0 2 = (s.hw.u.at 0x80).extractLsb' 0 2 →
      ∃ t v, exec (.wrFifo0 w) s = .next t ∧ exec .rdFifo0 t = .next (t.withRet (.word v)) ∧
        v.extractLsb' 0 2 = w.extractLsb' 0 2 ∧ v.extractLsb' 8 24 = w.extractLsb' 8 24) ∧
    (∃ t v, exec (.wrFifo1 w) s = .next t ∧ exec .rdFifo1 t = .next (t.withRet (.word v)) ∧
      v.extractLsb' 3 5 = w.extractLsb' 3 5 ∧ v.extractLsb' 11 21 = w.extractLsb' 11 21)

/-- The frame of every register access (format A), under any `LAYOUT`: when it answers a next state, every byte of memory, the frame
history, the counter, the engine, the instance, the CycleDelay, the running command, the slots and the parameters are as before; a
piece of Layer H changes only through a write row whose word holds a field that stores, clears or pushes it, or, for the receive FIFO
and `RXUDF`, a read row whose word holds `RXD`; and the unmodelled bits only in a written word. -/
def Obligations.RegisterAccessesFrame : Prop :=
  ∀ (i : Instr) (s t : State), i.format = .A → exec i s = .next t →
    (∀ a, t.mem.get a = s.mem.get a) ∧ t.frames = s.frames ∧ t.program = s.program ∧ t.params = s.params ∧
    t.hw.cycle = s.hw.cycle ∧ t.hw.eng = s.hw.eng ∧
    t.host.engine = s.host.engine ∧ t.host.delay = s.host.delay ∧ t.host.running = s.host.running ∧
    t.host.ended = s.host.ended ∧
    (rowWrite i = none → (∀ f, rowRead i = some f → s.params.together f .rxd = false) → t.hw = s.hw) ∧
    (rowWrite i = none → t.hw = s.hw ∨ t.hw = s.hw.popRx.2) ∧
    (∀ f w, rowWrite i = some (f, w) →
      (∀ g, Field.guarded g = true → s.params.together f g = false → t.value g = s.value g) ∧
      (s.params.together f .txclr = false → t.hw.txudf = s.hw.txudf ∧
        (s.params.together f .txd = false → t.hw.txf = s.hw.txf ∧ t.hw.txovf = s.hw.txovf)) ∧
      (s.params.together f .rxclr = false →
        t.hw.rxf = s.hw.rxf ∧ t.hw.rxovf = s.hw.rxovf ∧ t.hw.rxudf = s.hw.rxudf) ∧
      (∀ o, wordIndex o ≠ wordIndex (s.params.offset f) → t.hw.u.at o = s.hw.u.at o))

/-! The engine (41_engine). -/

/-- R170, R171: an operational idle engine with a byte waiting takes exactly that byte and samples mode and periods; nothing
else changes. -/
def Obligations.FrameStartTakesTheOldestByte : Prop :=
  ∀ (s : State) (b : Byte) (rest : List Byte),
    s.hw.role = true → s.hw.mEn = true → s.hw.sEn = false → s.hw.cont = false → s.hw.fsize = 0 → s.hw.eng = .idle →
    s.hw.txf = b :: rest →
    exec .frameStart s = .next (s.withHw { s.hw with
      txf := rest,
      eng := .shifting b { cpol := s.hw.cpol, cpha := s.hw.cpha, bitord := s.hw.bitord,
                           ph0 := s.hw.ph0, ph1 := s.hw.ph1, idle := s.hw.idle } })

/-- An engine step that is not enabled changes nothing (R170, R175, R182; that such a step is a stutter and no stop is the
model's choice, log 11). -/
def Obligations.EngineStepsNotEnabledChangeNothing : Prop :=
  ∀ s : State,
    ((s.hw.role = false ∨ s.hw.mEn = false ∨ s.hw.sEn = true ∨ s.hw.cont = true ∨ s.hw.fsize ≠ 0 ∨ s.hw.eng ≠ .idle ∨
        s.hw.txf = []) → exec .frameStart s = .next s) ∧
    (∀ r, s.hw.eng = .idle → exec (.frameComplete r) s = .next s)

/-- R173: the end of a frame stores the peer's byte when there is room, sets `RXOVF` and loses it otherwise, records the frame,
and leaves the engine idle, whatever the configuration has become. -/
def Obligations.FrameCompleteStoresOrOverflows : Prop :=
  ∀ (s : State) (r b : Byte) (snap : Snapshot), s.hw.eng = .shifting b snap →
    (s.hw.rxf.length < s.params.fifoDepth →
      exec (.frameComplete r) s = .next { s with
        hw := { s.hw with rxf := s.hw.rxf ++ [r], eng := .idle },
        frames := s.frames ++ [{ tx := b, rx := r, snap := snap, stored := true }] }) ∧
    (s.params.fifoDepth ≤ s.hw.rxf.length →
      exec (.frameComplete r) s = .next { s with
        hw := { s.hw with rxovf := true, eng := .idle },
        frames := s.frames ++ [{ tx := b, rx := r, snap := snap, stored := false }] })

/-- R176: the bytes between the two data ports are conserved: one more for a byte written, one fewer for a byte read, the same
across the engine's steps, and one lost only with the overflow or underflow flag set. -/
def Obligations.BytesInTheEngineAreConserved : Prop :=
  ∀ s t : State,
    (exec .frameStart s = .next t → t.hw.outstanding = s.hw.outstanding ∧ t.frames = s.frames) ∧
    (∀ r, s.hw.eng ≠ .idle → exec (.frameComplete r) s = .next t →
      t.frames.length = s.frames.length + 1 ∧
      (t.hw.outstanding = s.hw.outstanding ∧ t.hw.rxovf = s.hw.rxovf ∨
        t.hw.outstanding + 1 = s.hw.outstanding ∧ t.hw.rxovf = true ∧ t.hw.rxf = s.hw.rxf)) ∧
    (∀ w, Params.ok s.params = true → exec (.wrTxData w) s = .next t →
      t.hw.outstanding = s.hw.outstanding + 1 ∧ t.hw.txovf = s.hw.txovf ∨
        t.hw.outstanding = s.hw.outstanding ∧ t.hw.txovf = true) ∧
    (Params.ok s.params = true → exec .rdRxData s = .next t →
      t.hw.outstanding + 1 = s.hw.outstanding ∧ t.hw.rxudf = s.hw.rxudf ∨
        t.hw.outstanding = s.hw.outstanding ∧ t.hw.rxudf = true)

/-! The counter and CycleDelay (42_cycle_delay). -/

/-- R200: TICK is always enabled, adds one modulo 2^64, and changes nothing else. -/
def Obligations.TickAddsOneModulo : Prop :=
  ∀ s : State, ∃ c : DWord, c.toNat = (s.hw.cycle.toNat + 1) % 18446744073709551616 ∧
    exec .tick s = .next { s with hw := { s.hw with cycle := c } }

/-- R149, R200, R51: whatever happens next but a reset, the counter moves only by a tick, and then by one; the frame history only
grows, by one record at most. -/
def Obligations.CounterMovesOnlyByTicksAndHistoryGrows : Prop :=
  ∀ s t : State, step s = .next t → resetNext s = false →
    (t.hw.cycle = if tickNext s then s.hw.cycle + 1 else s.hw.cycle) ∧
    ∃ l, t.frames = s.frames ++ l ∧ l.length ≤ 1

/-- R201, R202, R209: NOW returns the counter, ELAPSED_SINCE the modular difference, DELAY_NEW the CycleDelay; nothing else
changes. -/
def Obligations.CounterCommandsReturn : Prop :=
  ∀ (s : State) (st : DWord) (hz : Word), hostFree s = true →
    (s.params.counterRead = .atomic64 →
      exec .now s = .next (s.withRet (.dword s.hw.cycle)) ∧
      ∃ d : DWord, d.toNat = (s.hw.cycle.toNat + 18446744073709551616 - st.toNat) % 18446744073709551616 ∧
        exec (.elapsedSince st) s = .next (s.withRet (.dword d))) ∧
    exec (.delayNew hz) s =
      .next { s with host := { s.host with delay := some hz, ret := .cycleDelay } }

/-- R212: under `split32` NOW, ELAPSED_SINCE and the capture of DELAY_CYCLES read high, low, high with any ticks between; when the
two high halves agree the value is the counter at the instant of the low read, and when they differ the reads begin again. A
later read of DELAY_CYCLES compares the value so formed with its count, and nothing but the counter and the command moves. -/
def Obligations.SplitCounterReadIsConsistent : Prop :=
  (∀ (s : State) (n m : Nat) (rest : List Slot) (st k v c : DWord), hostFree s = true → s.params.counterRead = .split32 →
    n + m < 4294967296 → s.program = ticks n ++ (.hostTurn :: (ticks m ++ (.hostTurn :: rest))) →
    v = s.hw.cycle + BitVec.ofNat 64 n → c = s.hw.cycle + BitVec.ofNat 64 (n + m) →
    ∀ p ∈ [(Instr.now, { s.host with ret := .dword v }, Activity.now .first),
        (.elapsedSince st, { s.host with ret := .dword (v - st) }, .elapsedSince st .first),
        (.delayCycles k, { s.host with running := some { act := .delay k (some v) .first, txn := none } },
          .delay k none .first)],
      ∃ t0, exec p.1 s = .next t0 ∧ runFor (n + 1 + (m + 1)) t0 = .next { s with
        hw := { s.hw with cycle := c }, program := rest,
        host := if c.extractLsb' 32 32 = s.hw.cycle.extractLsb' 32 32 then p.2.1
                else { s.host with running := some { act := p.2.2, txn := none } } }) ∧
  (∀ (s : State) (k st : DWord) (h l : Word), s.params.counterRead = .split32 →
    s.host.running = some { act := .delay k (some st) (.high h l), txn := none } →
    takeTurn .host s = .next
      (if s.hw.cycle.extractLsb' 32 32 = h ∧ k.toNat < ((h ++ l) - st).toNat then (s.withRunning none).withRet .unit
       else s.withRunning (some { act := .delay k (some st) .first, txn := none })))

/-- R203, R210, R212: DELAY_CYCLES captures the counter at its first read; a later read ends it exactly when the modular difference
exceeds `n`, so it returns once more than `n` ticks have passed and not before, and never for `n = 2^64 - 1`. A read is one access
under `atomic64` and the high, low, high of R212 under `split32`. -/
def Obligations.DelayCyclesWaitsForMoreThanItsCount : Prop :=
  ∀ (s : State) (n : DWord),
    (hostFree s = true →
      (s.params.counterRead = .atomic64 → exec (.delayCycles n) s =
        .next (s.withRunning (some { act := .delay n (some s.hw.cycle) .first, txn := none }))) ∧
      (s.params.counterRead = .split32 → exec (.delayCycles n) s =
        .next (s.withRunning (some { act := .delay n none (.low (s.hw.cycle.extractLsb' 32 32)), txn := none })))) ∧
    (∀ st, s.params.counterRead = .atomic64 →
      s.host.running = some { act := .delay n (some st) .first, txn := none } →
      takeTurn .host s =
        .next (if n.toNat < (s.hw.cycle - st).toNat then (s.withRunning none).withRet .unit else s)) ∧
    (∀ m rest, hostFree s = true → m < 18446744073709551616 →
      s.program = hostTurns (counterTurns s.params - 1) ++ (ticks m ++ (hostTurns (counterTurns s.params) ++ rest)) →
      ∃ t0 t, exec (.delayCycles n) s = .next t0 ∧
        runFor (counterTurns s.params - 1 + (m + counterTurns s.params)) t0 = .next t ∧
        t.hw = { s.hw with cycle := s.hw.cycle + BitVec.ofNat 64 m } ∧ t.program = rest ∧
        (n.toNat < m → t.host.running = none ∧ t.host.ret = .unit) ∧
        (m ≤ n.toNat → t.host.running = some { act := .delay n (some s.hw.cycle) .first, txn := none }))

/-- R204 to R207: DELAY_NS, DELAY_US and DELAY_MS are DELAY_CYCLES of `duration * coreFreqHz / unitsPerSecond`, the product formed
first and never wrapping, however the counter is read; one cycle more than the count is never short of the duration. Which CycleDelay
the three use, the host's own and else the instance's, is the model's choice (log 16). -/
def Obligations.DurationDelaysConvertFirst : Prop :=
  ∀ (s : State) (d hz : Word), hostFree s = true →
    (s.host.delay = some hz ∨ s.host.delay = none ∧ ∃ e, s.host.engine = some e ∧ e.coreFreqHz = hz) →
    ∀ p ∈ [(Instr.delayNs d, 1000000000), (Instr.delayUs d, 1000000), (Instr.delayMs d, 1000)],
      ∃ n : DWord, n.toNat = d.toNat * hz.toNat / p.2 ∧ d.toNat * hz.toNat < (n.toNat + 1) * p.2 ∧
        exec p.1 s = exec (.delayCycles n) s ∧
        ∃ st c, exec p.1 s = .next (s.withRunning (some { act := .delay n st c, txn := none }))

/-- R306: OP_DELAY runs on the instance's own CycleDelay, in the unit the duration carries, touches no SPI register, and returns
`Ok` once more ticks than its count have passed, however the counter is read. -/
def Obligations.TransactionDelayUsesTheEmbeddedDelay : Prop :=
  ∀ (s : State) (d : Duration) (e : BusEngine), hostFree s = true → s.host.engine = some e →
    ∃ n : DWord,
      n.toNat = d.amount.toNat * e.coreFreqHz.toNat /
        (match d.unit with | .ns => 1000000000 | .us => 1000000 | .ms => 1000) ∧
      (∃ st c, exec (.opDelay d) s =
        .next (s.withRunning (some { act := .delay n st c, txn := some { rest := [], k := 0 } }))) ∧
      (∀ m rest, m < 18446744073709551616 →
        s.program = hostTurns (counterTurns s.params - 1) ++ (ticks m ++ (hostTurns (counterTurns s.params) ++ rest)) →
        ∃ t0 t, exec (.opDelay d) s = .next t0 ∧
          runFor (counterTurns s.params - 1 + (m + counterTurns s.params)) t0 = .next t ∧
          t.hw = { s.hw with cycle := s.hw.cycle + BitVec.ofNat 64 m } ∧ t.program = rest ∧
          (n.toNat < m → t.host.running = none ∧ t.host.ret = .ok) ∧
          (m ≤ n.toNat →
            t.host.running = some { act := .delay n (some s.hw.cycle) .first, txn := some { rest := [], k := 0 } }))

/-! The divider and construction (43_divider_construct). -/

/-- R230, R231: CLOCK_DIVIDER returns `F / (2 f) - 1` for a length of 1 to 256, and OutOfRange for 0, for more than 256, and for
`f = 0`; it reads and writes no hardware. -/
def Obligations.ClockDividerRoundsDownOrFails : Prop :=
  ∀ (s : State) (src f : Word), hostFree s = true →
    (f = 0 → exec (.clockDivider src f) s = .next (s.withRet .outOfRange)) ∧
    (f ≠ 0 → 1 ≤ src.toNat / (2 * f.toNat) → src.toNat / (2 * f.toNat) ≤ 256 →
      ∃ v : Byte, v.toNat = src.toNat / (2 * f.toNat) - 1 ∧
        exec (.clockDivider src f) s = .next (s.withRet (.okByte v))) ∧
    (f ≠ 0 → (src.toNat / (2 * f.toNat) = 0 ∨ 256 < src.toNat / (2 * f.toNat)) →
      exec (.clockDivider src f) s = .next (s.withRet .outOfRange))

/-- R377: the clock a divider value generates, `F / (2 len)` for `len = v + 1`, is never slower than asked, and would be slower
one length on. -/
def Obligations.GeneratedClockIsNeverSlower : Prop :=
  ∀ (s t : State) (src f : Word) (v : Byte), exec (.clockDivider src f) s = .next t → t.host.ret = .okByte v →
    f.toNat * (2 * (v.toNat + 1)) ≤ src.toNat ∧ src.toNat < f.toNat * (2 * (v.toNat + 2))

/-- R233 to R237, R150, R151: CONSTRUCT reads and writes back each word of the fields of its four steps, eight accesses under the
default `LAYOUT`, one in its first step and one in each host turn; after them the role, mode, frame size, continuous bit and enables
are set, the three period fields hold the divider's value, everything else of Layer H is as it was, the unmodelled bits too, the
engine is operational, and the instance exists with its embedded CycleDelay. The engine is enabled last, under any usable `LAYOUT` and
whatever happens between the accesses: begun with `M_EN` 0, CONSTRUCT leaves `M_EN` 0 in every step but a reset until it ends, and then
`M_EN` is 1 exactly when the instance exists. -/
def Obligations.ConstructConfiguresTheEngine : Prop :=
  (∀ p : Params, p.layout = .default → constructTurns p = 8) ∧
  (∀ (s : State) (a : ConstructArgs) (rest : List Slot), hostFree s = true → s.host.engine = none → s.hw.eng = .idle →
    s.wf = true → a.freq ≠ 0 → 1 ≤ a.fSpi.toNat / (2 * a.freq.toNat) → a.fSpi.toNat / (2 * a.freq.toNat) ≤ 256 →
    s.program = hostTurns (constructTurns s.params - 1) ++ rest →
    ∃ t0 t d, ∃ v : Byte, exec (.construct a) s = .next t0 ∧ runFor (constructTurns s.params - 1) t0 = .next t ∧
      v.toNat = a.fSpi.toNat / (2 * a.freq.toNat) - 1 ∧ t.hw.operational = true ∧
      t = { s with
        hw := { s.hw with
          role := true, mEn := true, sEn := false, cont := false, fsize := 0,
          cpol := decide (a.mode.polarity = .idleHigh), cpha := decide (a.mode.phase = .captureOnSecondTransition),
          ph0 := v, ph1 := v, idle := v },
        program := rest, draws := d,
        host := { s.host with
          engine := some { handle := a.handle, pinSet := a.pinSet, coreFreqHz := a.fCore, stale := false },
          ret := .busEngine } }) ∧
  (∀ (s t : State) (a : ConstructArgs), Params.ok s.params = true → s.hw.mEn = false → exec (.construct a) s = .next t →
    t.constructing = true) ∧
  (∀ s t : State, Params.ok s.params = true → s.constructing = true → step s = .next t → resetNext s = false →
    t.constructing = true ∨ t.host.running = none ∧ t.hw.mEn = t.host.engine.isSome)

/-- R238, R325: with the divider out of range CONSTRUCT fails after its second access: only `ROLE` has been written, no instance
exists, and the host gets the error, or under `abort` its program has ended. -/
def Obligations.ConstructFailsBeforeThePeriods : Prop :=
  ∀ (s : State) (a : ConstructArgs) (rest : List Slot), hostFree s = true → s.host.engine = none → s.hw.eng = .idle →
    s.wf = true →
    (a.freq = 0 ∨ a.fSpi.toNat / (2 * a.freq.toNat) = 0 ∨ 256 < a.fSpi.toNat / (2 * a.freq.toNat)) →
    s.program = .hostTurn :: rest →
    ∃ t0 d, exec (.construct a) s = .next t0 ∧
      (s.params.failPolicy = .error → runFor 1 t0 = .next { s with
        hw := { s.hw with role := true }, program := rest, draws := d,
        host := { s.host with ret := .err .frequencyOutOfRange } }) ∧
      (s.params.failPolicy = .abort → runFor 1 t0 = .next { s with
        hw := { s.hw with role := true }, program := rest, draws := d,
        host := { s.host with ended := true } })

/-- R239, R240, R241, R151: SET_BIT_ORDER writes `BITORD` and nothing else in two accesses; CLEAR_FIFOS empties both FIFOs and clears
the four flags and nothing else, also with a frame in flight where no configuration field shares the triggers' words, in two accesses
where the triggers share one word and in four where not. RELEASE returns the parts and ends the instance with no access. -/
def Obligations.HousekeepingCommands : Prop :=
  ∀ (s : State) (e : BusEngine), hostFree s = true → s.host.engine = some e →
    (∀ o rest, s.wf = true → s.hw.eng = .idle → s.program = .hostTurn :: rest →
      ∃ t0 d, exec (.setBitOrder o) s = .next t0 ∧ runFor 1 t0 = .next { s with
        hw := { s.hw with bitord := decide (o = .lsbFirst) }, program := rest, draws := d,
        host := { s.host with ret := .unit } }) ∧
    (∀ k rest, s.wf = true →
      (s.hw.eng = .idle ∨ ∀ g, (s.params.together .txclr g = true ∨ s.params.together .rxclr g = true) →
        Field.guarded g = false) →
      k = (if s.params.together .txclr .rxclr then 1 else 3) → s.program = hostTurns k ++ rest →
      ∃ t0 d, exec .clearFifos s = .next t0 ∧ runFor k t0 = .next { s with
        hw := { s.hw with txf := [], rxf := [], txovf := false, txudf := false, rxovf := false, rxudf := false },
        program := rest, draws := d, host := { s.host with ret := .unit } }) ∧
    exec .release s = .next { s with host := { s.host with engine := none, ret := .parts e.handle e.pinSet } }

/-- R242, R373, R88, R238, R148, R362: the host's refusals by name: a command of the instance where none exists, a CONSTRUCT where a
live one exists (over one that a RESET left stale it begins, log 14), an access or command while a command runs, one after the host
program has ended, a TRANSFER of overlapping buffers, also as an operation that a transaction reaches (log 26), a read of the high
half under `atomic64` (log 18), and a duration delay where the host holds no CycleDelay (log 16). -/
def Obligations.HostMisuseIsRefused : Prop :=
  ∀ (s : State) (i : Instr),
    (hostFree s = true → s.host.engine = none →
      (i = .clearFifos ∨ (∃ o, i = .setBitOrder o) ∨ i = .flush ∨ i = .release ∨ (∃ b, i = .read b) ∨
        (∃ b, i = .write b) ∨ (∃ r w, i = .transfer r w) ∨ (∃ b, i = .transferInPlace b) ∨ i = .tryRecv ∨
        (∃ w, i = .trySend w) ∨ (∃ w, i = .byteStep w) ∨ (∃ ops, i = .runTransaction ops) ∨ (∃ b, i = .opRead b) ∨
        (∃ b, i = .opWrite b) ∨ (∃ r w, i = .opTransfer r w) ∨ (∃ b, i = .opTransferInPlace b) ∨ (∃ d, i = .opDelay d)) →
      exec i s = .refused .noInstance) ∧
    (∀ a e, hostFree s = true → s.host.engine = some e →
      (e.stale = false → exec (.construct a) s = .refused .instanceExists) ∧
      (e.stale = true → Params.ok s.params = true →
        ∃ t, exec (.construct a) s = .next t ∧ t.host.engine = none ∧ t.host.running ≠ none)) ∧
    (autonomous i = false → i ≠ .rdTxData → (∀ w, i ≠ .wrRxData w ∧ i ≠ .wrCycle w ∧ i ≠ .wrCycleHi w) →
      (s.host.ended = true → exec i s = .refused .hostProgramEnded) ∧
      (s.host.ended = false → s.host.running ≠ none → exec i s = .refused .reentrantCall)) ∧
    (∀ r w, (∃ x, inBuf r r.len.toNat x ∧ inBuf w w.len.toNat x) →
      (hostReady s = true →
        exec (.transfer r w) s = .refused .overlappingBuffers ∧ exec (.opTransfer r w) s = .refused .overlappingBuffers ∧
        ∀ ops, exec (.runTransaction (.transfer r w :: ops)) s = .refused .overlappingBuffers) ∧
      (∀ n st ops k, s.params.counterRead = .atomic64 → s.host.running =
          some { act := .delay n (some st) .first, txn := some { rest := .transfer r w :: ops, k := k } } →
        n.toNat < (s.hw.cycle - st).toNat → takeTurn .host s = .refused .overlappingBuffers)) ∧
    (hostFree s = true → s.params.counterRead = .atomic64 → exec .rdCycleHi s = .refused .noHighHalf) ∧
    (hostFree s = true → s.host.delay = none → s.host.engine = none →
      (∃ d, i = .delayNs d ∨ i = .delayUs d ∨ i = .delayMs d) → exec i s = .refused .noCycleDelay)

/-! The polls, the byte-step and the transfer commands (44_transfer). -/

/-- R260, R150: TRY_SEND tests overflow, then underflow, then room; it pushes the byte and returns `Ok` only past all three, and
otherwise writes nothing. Each test is one read, the first two one read together where the two flags share a word. -/
def Obligations.TrySendPollsThenPushes : Prop :=
  ∀ (s : State) (w : Byte) (rest : List Slot), hostReady s = true → s.wf = true →
    (s.hw.txovf = true → ∃ d, exec (.trySend w) s = .next ((s.drawn d).withRet (.err .txOverflow))) ∧
    (s.hw.txovf = false → s.hw.txudf = true → s.program = hostTurns (sendTurns s.params - 3) ++ rest →
      ∃ t0 d, exec (.trySend w) s = .next t0 ∧ runFor (sendTurns s.params - 3) t0 =
        .next { s with program := rest, draws := d, host := { s.host with ret := .err .txUnderflow } }) ∧
    (s.hw.txovf = false → s.hw.txudf = false → s.hw.txf.length = s.params.fifoDepth →
      s.program = hostTurns (sendTurns s.params - 2) ++ rest →
      ∃ t0 d, exec (.trySend w) s = .next t0 ∧ runFor (sendTurns s.params - 2) t0 =
        .next { s with program := rest, draws := d, host := { s.host with ret := .wouldBlock } }) ∧
    (s.hw.txovf = false → s.hw.txudf = false → s.hw.txf.length < s.params.fifoDepth →
      s.program = hostTurns (sendTurns s.params - 1) ++ rest →
      ∃ t0 d, exec (.trySend w) s = .next t0 ∧ runFor (sendTurns s.params - 1) t0 = .next { s with
          hw := { s.hw with txf := s.hw.txf ++ [w] }, program := rest, draws := d, host := { s.host with ret := .ok } })

/-- R261, R150: TRY_RECV tests overflow, then underflow, then data; it pops the oldest byte and returns it only past all three, and
otherwise pops nothing. Each test is one read, the first two one read together where the two flags share a word. -/
def Obligations.TryRecvPollsThenPops : Prop :=
  ∀ (s : State) (rest : List Slot), hostReady s = true → s.wf = true →
    (s.hw.rxovf = true → ∃ d, exec .tryRecv s = .next ((s.drawn d).withRet (.err .rxOverflow))) ∧
    (s.hw.rxovf = false → s.hw.rxudf = true → s.program = hostTurns (recvTurns s.params - 3) ++ rest →
      ∃ t0 d, exec .tryRecv s = .next t0 ∧ runFor (recvTurns s.params - 3) t0 =
        .next { s with program := rest, draws := d, host := { s.host with ret := .err .rxUnderflow } }) ∧
    (s.hw.rxovf = false → s.hw.rxudf = false → s.hw.rxf = [] → s.program = hostTurns (recvTurns s.params - 2) ++ rest →
      ∃ t0 d, exec .tryRecv s = .next t0 ∧ runFor (recvTurns s.params - 2) t0 =
        .next { s with program := rest, draws := d, host := { s.host with ret := .wouldBlock } }) ∧
    (∀ b bs, s.hw.rxovf = false → s.hw.rxudf = false → s.hw.rxf = b :: bs →
      s.program = hostTurns (recvTurns s.params - 1) ++ rest →
      ∃ t0 d, exec .tryRecv s = .next t0 ∧ runFor (recvTurns s.params - 1) t0 = .next { s with
          hw := { s.hw with rxf := bs }, program := rest, draws := d, host := { s.host with ret := .okByte b } })

/-- R262, R263: from a clean start BYTE_STEP pushes the byte, the engine sends it in one frame, and the byte the peer supplied is
returned; Layer H ends as it was, and the one frame is recorded. Until then each half spins: in a byte-step and in a transfer alike,
a read of the count that finds the transmit FIFO full, or in the receive half the receive FIFO empty, begins that half's poll again
from its first read and changes nothing else. -/
def Obligations.ByteStepSpinsAndExchangesOneByte : Prop :=
  (∀ (s : State) (w r : Byte) (rest : List Slot), s.readyClean = true → s.program = afterStart s.params [r] ++ rest →
    ∃ t0 d, exec (.byteStep w) s = .next t0 ∧
      runFor ((bytesSchedule s.params [r]).length - 1) t0 = .next { s with
        frames := s.frames ++ [{ tx := w, rx := r, snap := s.hw.snapshot, stored := true }],
        program := rest, draws := d, host := { s.host with ret := .okByte r } }) ∧
  (∀ (s : State) (x : Xfer) (i : Nat) (w : Byte) (txn : Option Txn), s.wf = true →
    ∀ act ∈ [Activity.byteStep w, Activity.xfer x i w],
      (s.hw.txf.length = s.params.fifoDepth → s.host.running = some { act := act .send .count, txn := txn } →
        ∃ d, takeTurn .host s = .next ((s.drawn d).withRunning (some { act := act .send .flags, txn := txn }))) ∧
      (s.hw.rxf = [] → s.host.running = some { act := act .recv .count, txn := txn } →
        ∃ d, takeTurn .host s = .next ((s.drawn d).withRunning (some { act := act .recv .flags, txn := txn }))))

/-- R175, R333, R365: a host that waits in the receive half with nothing received, no frame in flight and no frame that can
start waits for ever: no step stops the machine, and every step but a reset leaves it waiting just so. -/
def Obligations.StarvedReceiveNeverEnds : Prop :=
  ∀ s : State, s.starved = true → s.receiving = true →
    ∃ t, step s = .next t ∧ (resetNext s = false → t.starved = true ∧ t.receiving = true)

/-- R264, R302: READ and OP_READ send one filler byte for each byte of the buffer and store the peer's bytes in it in order;
nothing else of memory or of Layer H changes, and one frame a byte is recorded. -/
def Obligations.ReadFillsItsBuffer : Prop :=
  ∀ (s : State) (b : Buf) (rs : List Byte) (rest : List Slot), s.readyClean = true → b.fits = true →
    rs.length = b.len.toNat → s.program = afterStart s.params rs ++ rest →
    ∀ i ∈ [Instr.read b, Instr.opRead b],
      ∃ t0 t, exec i s = .next t0 ∧ runFor ((bytesSchedule s.params rs).length - 1) t0 = .next t ∧
        t.host = { s.host with ret := .ok } ∧ t.hw = s.hw ∧ t.program = rest ∧ t.params = s.params ∧
        t.frames = s.frames ++ frameList s.hw.snapshot (List.replicate rs.length 0x00) rs ∧
        holdsBytes t.mem b rs ∧ (∀ a, ¬ inBuf b b.len.toNat a → t.mem.get a = s.mem.get a)

/-- R265, R303: WRITE and OP_WRITE send the buffer's bytes in order and discard what comes back; no byte of memory and nothing
of Layer H changes. -/
def Obligations.WriteSendsItsBuffer : Prop :=
  ∀ (s : State) (b : Buf) (ws rs : List Byte) (rest : List Slot), s.readyClean = true → b.fits = true →
    ws.length = b.len.toNat → rs.length = b.len.toNat → holdsBytes s.mem b ws → s.program = afterStart s.params rs ++ rest →
    ∀ i ∈ [Instr.write b, Instr.opWrite b],
      ∃ t0 t, exec i s = .next t0 ∧ runFor ((bytesSchedule s.params rs).length - 1) t0 = .next t ∧
        t.host = { s.host with ret := .ok } ∧ t.hw = s.hw ∧ t.program = rest ∧ t.params = s.params ∧ t.mem = s.mem ∧
        t.frames = s.frames ++ frameList s.hw.snapshot ws rs

/-- R266, R304: TRANSFER and OP_TRANSFER make `max(nr, nw)` byte-steps: the write buffer's bytes, then filler, go out, and the
first `nr` bytes received fill the read buffer; every other byte of memory and all of Layer H stay. -/
def Obligations.TransferExchangesBuffers : Prop :=
  ∀ (s : State) (r w : Buf) (ws rs : List Byte) (rest : List Slot), s.readyClean = true → r.fits = true →
    w.fits = true → overlap r w = false → ws.length = w.len.toNat → holdsBytes s.mem w ws →
    rs.length = max r.len.toNat w.len.toNat → s.program = afterStart s.params rs ++ rest →
    ∀ i ∈ [Instr.transfer r w, Instr.opTransfer r w],
      ∃ t0 t, exec i s = .next t0 ∧ runFor ((bytesSchedule s.params rs).length - 1) t0 = .next t ∧
        t.host = { s.host with ret := .ok } ∧ t.hw = s.hw ∧ t.program = rest ∧ t.params = s.params ∧
        t.frames = s.frames ++ frameList s.hw.snapshot (ws ++ List.replicate (rs.length - ws.length) 0x00) rs ∧
        holdsBytes t.mem r (rs.take r.len.toNat) ∧ (∀ a, ¬ inBuf r r.len.toNat a → t.mem.get a = s.mem.get a)

/-- R267, R305: TRANSFER_IN_PLACE and OP_TRANSFER_IN_PLACE send each byte of the buffer and then replace it by the byte received
in the same frame; every other byte of memory and all of Layer H stay. -/
def Obligations.TransferInPlaceReplacesItsBuffer : Prop :=
  ∀ (s : State) (b : Buf) (ws rs : List Byte) (rest : List Slot), s.readyClean = true → b.fits = true →
    ws.length = b.len.toNat → rs.length = b.len.toNat → holdsBytes s.mem b ws → s.program = afterStart s.params rs ++ rest →
    ∀ i ∈ [Instr.transferInPlace b, Instr.opTransferInPlace b],
      ∃ t0 t, exec i s = .next t0 ∧ runFor ((bytesSchedule s.params rs).length - 1) t0 = .next t ∧
        t.host = { s.host with ret := .ok } ∧ t.hw = s.hw ∧ t.program = rest ∧ t.params = s.params ∧
        t.frames = s.frames ++ frameList s.hw.snapshot ws rs ∧
        holdsBytes t.mem b rs ∧ (∀ a, ¬ inBuf b b.len.toNat a → t.mem.get a = s.mem.get a)

/-- R270, R308: a command with no byte-step to make, and a transaction with no operation, make no access and return `Ok`, even
with a flag set. -/
def Obligations.EmptyCommandsReturnAtOnce : Prop :=
  ∀ (s : State) (b c : Buf), hostReady s = true → b.len = 0 → c.len = 0 →
    ∀ i ∈ [Instr.read b, .write b, .transfer b c, .transferInPlace b, .opRead b, .opWrite b, .opTransfer b c,
      .opTransferInPlace b, .runTransaction []],
      exec i s = .next (s.withRet .ok)

/-- R268: FLUSH reads BUSY until it is clear and then returns `Ok`: at its first read with the engine idle, whatever waits in
the transmit FIFO, and otherwise at the first read after the frame has ended; it moves no data. -/
def Obligations.FlushWaitsForTheEngine : Prop :=
  ∀ s : State, hostReady s = true → s.wf = true →
    (s.hw.eng = .idle → ∃ d, exec .flush s = .next ((s.drawn d).withRet .ok)) ∧
    (s.hw.eng ≠ .idle →
      ∃ d, exec .flush s = .next ((s.drawn d).withRunning (some { act := .flush, txn := none })) ∧
      (∀ rest, s.program = .hostTurn :: rest →
        ∃ d', runFor 1 ((s.drawn d).withRunning (some { act := .flush, txn := none })) =
          .next (((s.drawn d').withProgram rest).withRunning (some { act := .flush, txn := none }))) ∧
      (∀ r rest, s.program = .code .K (encode (.frameComplete r)) :: .hostTurn :: rest →
        ∃ t, runFor 2 ((s.drawn d).withRunning (some { act := .flush, txn := none })) = .next t ∧
          t.host = { s.host with ret := .ok } ∧ t.program = rest ∧ exec (.frameComplete r) s = .next
            { s with hw := t.hw, frames := t.frames }))

/-- R269, R307, R329, R330: a flag found set at a poll's reads of them, overflow before underflow and only the poll's own direction,
ends the poll, the byte-step, the command and the transaction at once with that error; the hardware, the frames and the buffers
stay as they are; a transfer of one buffer begun with `TXOVF` still set fails so at once. -/
def Obligations.ErrorsEndTheCommandAtOnce : Prop :=
  ∀ s : State, s.wf = true →
    (∀ (act : PollPhase → Activity) (txn : Option Txn),
      ((∃ w, act = .trySend w) ∨ (∃ w, act = .byteStep w .send) ∨ (∃ x i w, act = .xfer x i w .send)) →
      (s.hw.txovf = true → s.host.running = some { act := act .flags, txn := txn } →
        ∃ d, takeTurn .host s =
          .next { s with draws := d, host := { s.host with running := none, ret := .err .txOverflow } }) ∧
      (s.hw.txovf = false → s.hw.txudf = true → s.host.running =
          some { act := act (if s.params.together .txovf .txudf then .flags else .underflow), txn := txn } →
        ∃ d, takeTurn .host s =
          .next { s with draws := d, host := { s.host with running := none, ret := .err .txUnderflow } })) ∧
    (∀ (act : PollPhase → Activity) (txn : Option Txn),
      (act = .tryRecv ∨ (∃ w, act = .byteStep w .recv) ∨ (∃ x i w, act = .xfer x i w .recv)) →
      (s.hw.rxovf = true → s.host.running = some { act := act .flags, txn := txn } →
        ∃ d, takeTurn .host s =
          .next { s with draws := d, host := { s.host with running := none, ret := .err .rxOverflow } }) ∧
      (s.hw.rxovf = false → s.hw.rxudf = true → s.host.running =
          some { act := act (if s.params.together .rxovf .rxudf then .flags else .underflow), txn := txn } →
        ∃ d, takeTurn .host s =
          .next { s with draws := d, host := { s.host with running := none, ret := .err .rxUnderflow } })) ∧
    (∀ b : Buf, hostReady s = true → b.fits = true → b.len ≠ 0 → s.hw.txovf = true →
      ∀ i ∈ [Instr.read b, .write b, .transferInPlace b, .opRead b, .opWrite b, .opTransferInPlace b],
        ∃ d, exec i s = .next ((s.drawn d).withRet (.err .txOverflow)))

/-- R271: from a clean start with the engine operational a transfer command or a transaction of them never has more than one
byte outstanding and no flag is ever set: `balanced` says so, holds when such a command begins, is kept by every step of it but
a reset, and gives a clean state at its end. -/
def Obligations.TransfersStayBalanced : Prop :=
  (∀ s : State, s.balanced = true → s.hw.outstanding ≤ 1 ∧ s.hw.noFlags = true ∧
    (s.host.running = none → s.hw.clean = true)) ∧
  (∀ (s t : State) (i : Instr), hostReady s = true → s.hw.operational = true → s.hw.clean = true →
    Params.ok s.params = true →
    ((∃ b, i = .read b ∨ i = .write b ∨ i = .transferInPlace b ∨ i = .opRead b ∨ i = .opWrite b ∨
        i = .opTransferInPlace b) ∨ (∃ r w, i = .transfer r w ∨ i = .opTransfer r w) ∨
      (∃ ops, i = .runTransaction ops)) →
    exec i s = .next t → t.balanced = true) ∧
  (∀ s t : State, s.balanced = true → s.host.running ≠ none → step s = .next t → resetNext s = false →
    t.balanced = true)

/-! Transactions (45_transaction). -/

/-- R301, R306, R310: a transaction runs its operations strictly in the order listed, transfers and delays alike, each as its own
command: the frames and the buffers are those of the first operation, then of the second, and so on; a delay hands over to the next
operation once more than its count of ticks has passed; the transaction ends with `Ok` in a clean state. -/
def Obligations.TransactionsRunInOrder : Prop :=
  ∀ (s : State) (e : BusEngine) (ops : List Operation) (rs : List Byte) (rest : List Slot), s.readyClean = true →
    s.host.engine = some e → ops.all opValid = true → rs.length = opsSteps ops →
    s.program = (opsSchedule s.params e.coreFreqHz ops rs).drop 1 ++ rest →
    ∃ t0 d, exec (.runTransaction ops) s = .next t0 ∧
      runFor ((opsSchedule s.params e.coreFreqHz ops rs).length - 1) t0 = .next { s with
        hw := { s.hw with cycle := s.hw.cycle + BitVec.ofNat 64 (opsTicks e.coreFreqHz ops) },
        frames := s.frames ++ frameList s.hw.snapshot (opsSend ops rs s.mem) rs,
        mem := opsStore ops rs s.mem, program := rest, draws := d, host := { s.host with ret := .ok } }

/-! Progress (41_engine R180). -/

/-- R180: in a run in which FRAME_START, FRAME_COMPLETE and TICK are weakly fair, every frame eventually completes; every byte given to
an engine that stays operational is eventually sent, in order, unless `TXCLR` is fired; and a byte-step begun on an operational engine
with no flag set eventually finishes, given that the host takes its turns too (log 10). Runs with nothing placed, in which free
turns have any values; `PEER` is whatever it is. -/
def Obligations.ProgressUnderFairness : Prop :=
  ∀ (σ : Nat → Turn) (f : Nat → State), FairRun σ f →
    ((f 0).hw.eng ≠ .idle → ∃ n, (f n).hw.eng = .idle ∧ (f 0).frames.length < (f n).frames.length) ∧
    ((∀ n, (f n).hw.operational = true) →
      (∀ n x, (f n).write = some x → firesTrigger (f n).params .txclr x = false) →
      ∃ n, (f 0).givenBytes <+: (f n).frames.map FrameRecord.tx) ∧
    (∀ w, HostFair σ f → (f 0).wf = true → (f 0).hw.operational = true → (f 0).hw.noFlags = true →
      (f 0).host.running = some { act := .byteStep w .send .flags, txn := none } →
      ∃ n, (f n).host.running = none)

/-! Whole-machine rules. -/

/-- R57: every step keeps both FIFOs within `FIFO_DEPTH` and host memory in its canonical form, and no step changes the
parameters (R55). -/
def Obligations.StepsKeepTheStateWellFormed : Prop :=
  ∀ s t : State, s.wf = true → step s = .next t → t.wf = true ∧ t.params = s.params

/-- R57, R174: a flag that is 1 stays 1 through every step that is no reset and does not fire its side's clear action, and no step
that is no reset sets `TXUDF`. -/
def Obligations.FlagsAreSticky : Prop :=
  ∀ s t : State, step s = .next t → resetNext s = false →
    (s.hw.txudf = false → t.hw.txudf = false) ∧
    (triggerNext .txclr s = false →
      (s.hw.txovf = true → t.hw.txovf = true) ∧ (s.hw.txudf = true → t.hw.txudf = true)) ∧
    (triggerNext .rxclr s = false →
      (s.hw.rxovf = true → t.hw.rxovf = true) ∧ (s.hw.rxudf = true → t.hw.rxudf = true))

/-- R74: while the buffers in use lie in the host's address space no step faults, and every step keeps them there. -/
def Obligations.BuffersThatFitNeverFault : Prop :=
  ∀ s : State, s.fits = true → (∀ e, step s ≠ .fault e) ∧ (∀ t, step s = .next t → t.fits = true)

/-- R331, step by step, for the recovery sequence CLEAR_FIFOS, FLUSH, CLEAR_FIFOS, whatever the engine and the counter do meanwhile.
The first CLEAR_FIFOS begins `clearing`, stays so while it runs, and ends with the transmit FIFO empty. From there on, through every
step of the sequence, the turns between its commands and the steps that begin them included, it stays empty, and once the engine is
idle it stays idle. Where FLUSH ends, in its first step or later, the engine is idle. Where CLEAR_FIFOS ends with the engine idle
before and the transmit FIFO empty, the state is clean. -/
def Obligations.RecoverySequenceEndsClean : Prop :=
  ∀ s t : State, Params.ok s.params = true → step s = .next t → resetNext s = false →
    (∀ u, fetch s = .instr .clearFifos u → t.clearing = true) ∧
    (s.clearing = true →
      (t.host.running ≠ none → t.clearing = true) ∧
      (t.host.running = none → t.hw.txf = [] ∧ (s.hw.txf = [] → s.hw.eng = .idle → t.hw.clean = true))) ∧
    (s.recovering = true → s.hw.txf = [] → t.hw.txf = [] ∧ (s.hw.eng = .idle → t.hw.eng = .idle)) ∧
    (∀ u, fetch s = .instr .flush u → t.host.running = none → t.hw.eng = .idle) ∧
    (s.flushing = true →
      (t.host.running ≠ none → t.flushing = true) ∧ (t.host.running = none → t.hw.eng = .idle))

end
end

