-- ==== Sys2Proof/Laws/Formats.lean ====
section
/-! SUPPORT. Words as fields: what a field of a word is after one is replaced, what stands in a word under a `LAYOUT`, and the
words of the default one. -/

namespace Sys2Proof

/-! Bits of a word. -/

theorem maskBits_getLsbD (n i : Nat) : (maskBits n).getLsbD i = (decide (i < 32) && decide (i < n)) := by
  simp only [maskBits, BitVec.getLsbD_ofNat, Nat.testBit_two_pow_sub_one]

/-- Bit `i` of a field. -/
theorem getBits_getLsbD (lo n : Nat) (w : Word) (i : Nat) :
    (getBits lo n w).getLsbD i = (decide (i < n) && w.getLsbD (lo + i)) := by
  simp only [getBits, BitVec.getLsbD_and, BitVec.getLsbD_ushiftRight, maskBits_getLsbD]
  by_cases h : i < 32
  · simp [h, Bool.and_comm]
  · simp [h, BitVec.getLsbD_of_ge w (lo + i) (by omega)]

/-- Bit `i` of a word with a field replaced. -/
theorem setBits_getLsbD {lo n : Nat} (v w : Word) {i : Nat} (hi : i < 32) :
    (setBits lo n v w).getLsbD i = if lo ≤ i ∧ i < lo + n then v.getLsbD (i - lo) else w.getLsbD i := by
  simp only [setBits, BitVec.getLsbD_or, BitVec.getLsbD_and, BitVec.getLsbD_not, BitVec.getLsbD_shiftLeft, maskBits_getLsbD]
  by_cases h1 : lo ≤ i
  · by_cases h2 : i < lo + n
    · simp [hi, h1, h2, show ¬ i < lo by omega, show i - lo < n by omega, show i - lo < 32 by omega]
    · simp [hi, h1, h2, show ¬ i < lo by omega, show ¬ i - lo < n by omega]
  · simp [hi, h1, show i < lo by omega]

/-- Two words with the same 32 bits are equal. -/
theorem word_ext {v w : Word} (h : ∀ i, i < 32 → v.getLsbD i = w.getLsbD i) : v = w :=
  BitVec.eq_of_getLsbD_eq fun i hi => h i hi

/-- A number below `2 ^ n` has no bit from `n` on. -/
theorem getLsbD_of_lt {v : Word} {n i : Nat} (h : v.toNat < 2 ^ n) (hi : n ≤ i) : v.getLsbD i = false := by
  rw [BitVec.getLsbD]
  exact Nat.testBit_lt_two_pow (Nat.lt_of_lt_of_le h (Nat.pow_le_pow_right (by decide) hi))

/-- A field replaced reads as the new value. -/
theorem getBits_setBits_same {lo n : Nat} (v w : Word) (h : lo + n ≤ 32) : getBits lo n (setBits lo n v w) = v &&& maskBits n := by
  apply word_ext
  intro i hi
  rw [getBits_getLsbD, BitVec.getLsbD_and, maskBits_getLsbD]
  by_cases hn : i < n
  · rw [setBits_getLsbD _ _ (by omega), if_pos (by omega)]
    simp [hn, hi]
  · simp [hn]

/-- A value that fits its field is itself under the mask. -/
theorem and_maskBits {v : Word} {n : Nat} (h : v.toNat < 2 ^ n) : v &&& maskBits n = v := by
  apply word_ext
  intro i hi
  rw [BitVec.getLsbD_and, maskBits_getLsbD]
  by_cases hn : i < n
  · simp [hi, hn]
  · simp [hn, getLsbD_of_lt h (show n ≤ i by omega)]

/-- A field away from the one replaced stays. -/
theorem getBits_setBits_apart {lo n lo' n' : Nat} (v w : Word) (h : lo + n ≤ lo' ∨ lo' + n' ≤ lo) (hb : lo + n ≤ 32) :
    getBits lo n (setBits lo' n' v w) = getBits lo n w := by
  apply word_ext
  intro i _
  rw [getBits_getLsbD, getBits_getLsbD]
  by_cases hn : i < n
  · rw [setBits_getLsbD _ _ (by omega), if_neg (by omega)]
  · simp [hn]

/-- A field replaced by what it holds. -/
theorem setBits_getBits (lo n : Nat) (w : Word) : setBits lo n (getBits lo n w) w = w := by
  apply word_ext
  intro i hi
  rw [setBits_getLsbD _ _ hi, getBits_getLsbD]
  split
  · simp [show i - lo < n by omega, show lo + (i - lo) = i by omega]
  · rfl

theorem bitWord_lt (b : Bool) : (bitWord b).toNat < 2 ^ 1 := by
  cases b <;> decide

@[simp] theorem bitWord_getLsbD_zero (b : Bool) : (bitWord b).getLsbD 0 = b := by
  cases b <;> rfl

/-- A word's field is below its bound. -/
theorem getBits_lt {lo n : Nat} (w : Word) (h : n ≤ 32) : (getBits lo n w).toNat < 2 ^ n := by
  have : (getBits lo n w).toNat = (w >>> lo).toNat &&& (maskBits n).toNat := BitVec.toNat_and _ _
  have hm : (maskBits n).toNat = 2 ^ n - 1 := by
    have := Nat.pow_le_pow_right (n := 2) (by decide) h
    rw [maskBits, BitVec.toNat_ofNat, Nat.mod_eq_of_lt (by have := Nat.two_pow_pos n; omega)]
  rw [this, hm, Nat.and_two_pow_sub_one_eq_mod]
  exact Nat.mod_lt _ (Nat.two_pow_pos n)

/-- A one-bit field is 1 exactly when its bit is. -/
theorem getBits_one_ne_zero {lo : Nat} (w : Word) : (getBits lo 1 w ≠ 0) ↔ w.getLsbD lo = true := by
  have h0 : (getBits lo 1 w).getLsbD 0 = w.getLsbD lo := by rw [getBits_getLsbD]; rfl
  rw [← h0]
  constructor
  · intro h
    by_contra hc
    exact h (word_ext fun i _ => by
      rcases Nat.eq_zero_or_pos i with rfl | hi
      · simpa using hc
      · rw [getBits_getLsbD]; simp [show ¬ i < 1 by omega])
  · intro h he
    rw [he] at h
    simp at h

/-! The fields of a word. -/

theorem Field.mem_all (f : Field) : f ∈ Field.all := by
  cases f <;> decide

theorem Layout.mem_insert {l : Layout} {f g : Field} {fs : List Field} : f ∈ l.insert g fs ↔ f = g ∨ f ∈ fs := by
  induction fs with
  | nil => simp [Layout.insert]
  | cons x xs ih =>
    unfold Layout.insert
    split
    · simp
    · simp only [List.mem_cons, ih]
      tauto

/-- The fields of a word are those the `LAYOUT` places in it. -/
theorem Layout.mem_fieldsAt {l : Layout} {o : BitVec 8} {f : Field} : f ∈ l.fieldsAt o ↔ l.inWord o f = true := by
  have : ∀ gs : List Field, f ∈ gs.foldr l.insert [] ↔ f ∈ gs := by
    intro gs
    induction gs with
    | nil => simp
    | cons g gs ih => simp [Layout.mem_insert, ih]
  rw [Layout.fieldsAt, this, List.mem_filter]
  simp [Field.mem_all]

theorem Layout.contains_fieldsAt {l : Layout} {o : BitVec 8} {f : Field} : (l.fieldsAt o).contains f = l.inWord o f := by
  rw [Bool.eq_iff_iff, List.contains_iff_mem]
  exact Layout.mem_fieldsAt

/-- An aligned offset is the index of its word. -/
theorem wordIndex_inj {o o' : BitVec 8} (h : o.toNat % 4 = 0) (h' : o'.toNat % 4 = 0) (e : wordIndex o = wordIndex o') :
    o = o' := by
  simp only [wordIndex, Fin.mk.injEq] at e
  exact BitVec.eq_of_toNat_eq (by omega)

@[simp] theorem UBits.at_put_same (u : UBits) (o : BitVec 8) (w : Word) : (u.put o w).at o = w := by
  simp [UBits.at, UBits.put]

theorem UBits.at_put_other {u : UBits} {o o' : BitVec 8} (w : Word) (h : wordIndex o ≠ wordIndex o') :
    (u.put o w).at o' = u.at o' := by
  unfold UBits.at UBits.put
  exact Vector.getElem_set_ne _ _ (fun e => h (Fin.ext e))

@[simp] theorem UBits.put_at (u : UBits) (o : BitVec 8) : u.put o (u.at o) = u := by
  unfold UBits.put UBits.at
  exact Vector.set_getElem_self _

/-- The bus address of a field's word has the word's offset, whatever `SPI_BASE` is. -/
@[simp] theorem Params.offsetOf_address (p : Params) (f : Field) : p.offsetOf (p.address f) = some (p.offset f) := by
  unfold Params.offsetOf Params.address
  have e : p.spiBase + (p.offset f).setWidth 32 - p.spiBase = (p.offset f).setWidth 32 := by
    rw [BitVec.add_comm, BitVec.add_sub_cancel]
  have := (p.offset f).isLt
  rw [e, if_pos (by simp; omega)]
  congr 1
  ext i hi
  simp

end Sys2Proof

namespace Sys2Proof.Machine

/-! Usable parameters. -/

/-- What `Params.ok` says, field by field. -/
structure ParamsOk (p : Params) : Prop where
  depth_pos : 1 ≤ p.fifoDepth
  depth_lt  : p.fifoDepth < 2 ^ p.cntBits
  space     : ∀ f, (p.layout.place f).space = fieldSpace f
  aligned   : ∀ f, (p.offset f).toNat % 4 = 0
  width     : ∀ f, (p.layout.place f).hi + 1 = (p.layout.place f).lo + Field.width p.cntBits f
  inside    : ∀ f, (p.layout.place f).hi < 32
  dma       : ∀ f, placesApart p.layout.dma (p.layout.place f) = true
  apart     : ∀ f g, f ≠ g → placesApart (p.layout.place f) (p.layout.place g) = true
  txd_alone : ∀ g, p.together .txd g = decide (Field.txd = g)
  rxd_alone : ∀ g, p.together .rxd g = decide (Field.rxd = g)
  reset_txf : p.reset.txf.length ≤ p.fifoDepth
  reset_rxf : p.reset.rxf.length ≤ p.fifoDepth

theorem paramsOk {p : Params} (h : Params.ok p = true) : ParamsOk p := by
  simp only [Params.ok, layoutOk, fieldPlaced, aloneInWord, Bool.and_eq_true, decide_eq_true_eq, List.all_eq_true,
    Bool.or_eq_true, Bool.not_eq_true'] at h
  obtain ⟨⟨⟨⟨h1, h2⟩, ⟨h3, h4⟩, h5⟩, h6⟩, h7⟩ := h
  have sp : ∀ f, (p.layout.place f).space = fieldSpace f := fun f => (h3 f (Field.mem_all f)).1.1.1.1.1
  refine ⟨h1, h2, sp, fun f => (h3 f (Field.mem_all f)).1.1.1.1.2,
    fun f => (h3 f (Field.mem_all f)).1.1.1.2, fun f => (h3 f (Field.mem_all f)).1.1.2,
    fun f => (h3 f (Field.mem_all f)).1.2, fun f g hn => ?_, fun g => ?_, fun g => ?_, h6, h7⟩
  · rcases (h3 f (Field.mem_all f)).2 g (Field.mem_all g) with e | e
    · exact absurd e hn
    · exact e
  · rcases h4 g (Field.mem_all g) with e | e
    · subst e
      simp [Params.together, Layout.inWord, Params.offset, sp, fieldSpace]
    · rw [e]; symm; rw [decide_eq_false_iff_not]
      rintro rfl
      simp [Params.together, Layout.inWord, Params.offset, sp, fieldSpace] at e
  · rcases h5 g (Field.mem_all g) with e | e
    · subst e
      simp [Params.together, Layout.inWord, Params.offset, sp, fieldSpace]
    · rw [e]; symm; rw [decide_eq_false_iff_not]
      rintro rfl
      simp [Params.together, Layout.inWord, Params.offset, sp, fieldSpace] at e

variable {p : Params}

/-- Under usable parameters two SPI fields stand together exactly when their words have one offset. -/
theorem ParamsOk.together_eq (h : ParamsOk p) {f g : Field} :
    p.together f g = (decide (fieldSpace g = .spi) && decide (p.offset g = p.offset f)) := by
  simp only [Params.together, Layout.inWord, Params.offset, h.space]
  rfl

theorem ParamsOk.lo_width (h : ParamsOk p) (f : Field) : (p.layout.place f).lo + Field.width p.cntBits f ≤ 32 := by
  have := h.width f; have := h.inside f; omega

/-- A field of a word after that field is replaced. -/
theorem ParamsOk.get_put_same (h : ParamsOk p) (f : Field) {v : Word} (w : Word) (hv : v.toNat < 2 ^ Field.width p.cntBits f) :
    p.get f (p.put f v w) = v := by
  rw [Params.get, Params.put, getBits_setBits_same _ _ (h.lo_width f), and_maskBits hv]

/-- A field of a word after another one of the same word is replaced. -/
theorem ParamsOk.get_put_other (h : ParamsOk p) {f g : Field} (hn : f ≠ g) (hs : p.layout.inWord (p.offset f) g = true)
    (hf : fieldSpace f = .spi) (v w : Word) : p.get f (p.put g v w) = p.get f w := by
  have ha := h.apart f g hn
  simp only [Layout.inWord, Bool.and_eq_true, decide_eq_true_eq] at hs
  have w1 := h.width f
  have w2 := h.width g
  simp only [placesApart, h.space, hf, Bool.or_eq_true, decide_eq_true_eq] at ha
  have ho : (p.layout.place f).offset = (p.layout.place g).offset := hs.2.symm
  have hg : fieldSpace g = .spi := by rw [← h.space]; exact hs.1
  refine getBits_setBits_apart _ _ ?_ (h.lo_width f)
  rcases ha with ((ha | ha) | ha) | ha
  · exact absurd hg.symm ha
  · exact absurd ho ha
  · omega
  · omega

/-- The DMA enables after a field of their word is replaced. -/
theorem ParamsOk.dma_put (h : ParamsOk p) {g : Field} (hs : p.layout.inWord p.layout.dma.offset g = true)
    (hd : p.layout.dma.space = .spi) (v w : Word) : p.dmaBits (p.put g v w) = p.dmaBits w := by
  have ha := h.dma g
  simp only [Layout.inWord, Bool.and_eq_true, decide_eq_true_eq] at hs
  have w2 := h.width g
  simp only [placesApart, Bool.or_eq_true, decide_eq_true_eq] at ha
  have hx : ¬ p.layout.dma.space ≠ (p.layout.place g).space := by rw [hs.1, hd]; simp
  have hy : ¬ p.layout.dma.offset ≠ (p.layout.place g).offset := by rw [hs.2]; simp
  apply word_ext
  intro i hi
  rw [Params.dmaBits, Params.dmaBits, getBits_getLsbD, getBits_getLsbD]
  by_cases hn : i < p.layout.dma.hi + 1 - p.layout.dma.lo
  · by_cases hb : p.layout.dma.lo + i < 32
    · rw [Params.put, setBits_getLsbD _ _ hb, if_neg]
      rcases ha with ((ha | ha) | ha) | ha
      · exact absurd ha hx
      · exact absurd ha hy
      · omega
      · omega
    · rw [BitVec.getLsbD_of_ge _ _ (by omega), BitVec.getLsbD_of_ge _ _ (by omega)]
  · simp [hn]

end Sys2Proof.Machine
end

