-- ==== Sys2Proof/Laws/Memory.lean ====
section
/-! SUPPORT. Host memory: a read after a write, and the canonical form that every write keeps. -/

namespace Sys2Proof.Machine

/-- A write to an address leaves the addresses below a canonical list's first one unlisted. -/
theorem Memory.get_of_wfFrom_lt {m : Memory} {lo a : Nat} (h : Memory.wfFrom lo m = true) (ha : a < lo) :
    m.get a = Config.unwritten := by
  induction m generalizing lo with
  | nil => rfl
  | cons c rest ih =>
    obtain ⟨k, b⟩ := c
    simp only [Memory.wfFrom, Bool.and_eq_true, decide_eq_true_eq] at h
    have hk : ¬ k = a := by omega
    rw [Memory.get, if_neg hk]
    exact ih h.2 (by omega)

/-- A canonical list is canonical from any lower address. -/
theorem Memory.wfFrom_mono {m : Memory} {lo lo' : Nat} (h : Memory.wfFrom lo m = true) (hl : lo' ≤ lo) :
    Memory.wfFrom lo' m = true := by
  cases m with
  | nil => rfl
  | cons c rest =>
    obtain ⟨k, b⟩ := c
    simp only [Memory.wfFrom, Bool.and_eq_true, decide_eq_true_eq] at h ⊢
    exact ⟨⟨⟨by omega, h.1.1.2⟩, h.1.2⟩, h.2⟩

/-- Reading the address just written gives the byte written, in a canonical memory. -/
theorem Memory.get_set_same {m : Memory} {lo : Nat} (h : Memory.wfFrom lo m = true) (a : Nat) (v : Byte) :
    (m.set a v).get a = v := by
  induction m generalizing lo with
  | nil =>
    rw [Memory.set]
    split
    · simp_all [Memory.get]
    · simp [Memory.get]
  | cons c rest ih =>
    obtain ⟨k, b⟩ := c
    have hw := h
    simp only [Memory.wfFrom, Bool.and_eq_true, decide_eq_true_eq] at h
    rw [Memory.set]
    by_cases hlt : a < k
    · rw [if_pos hlt]
      split
      · rename_i hv
        rw [hv]
        exact Memory.get_of_wfFrom_lt (lo := k) (by simp [Memory.wfFrom, h]) hlt
      · simp [Memory.get]
    · rw [if_neg hlt]
      by_cases heq : a = k
      · rw [if_pos heq]
        split
        · rename_i hv
          rw [hv]
          exact Memory.get_of_wfFrom_lt h.2 (by omega)
        · simp [Memory.get]
      · rw [if_neg heq, Memory.get, if_neg (by omega)]
        exact ih h.2

/-- Writing one address leaves every other address as it reads. -/
theorem Memory.get_set_other (m : Memory) {a x : Nat} (v : Byte) (hne : x ≠ a) : (m.set a v).get x = m.get x := by
  induction m with
  | nil =>
    rw [Memory.set]
    split
    · rfl
    · simp [Memory.get, Ne.symm hne]
  | cons c rest ih =>
    obtain ⟨k, b⟩ := c
    rw [Memory.set]
    by_cases hlt : a < k
    · rw [if_pos hlt]
      split
      · rfl
      · rw [Memory.get, if_neg (Ne.symm hne)]
    · rw [if_neg hlt]
      by_cases heq : a = k
      · rw [if_pos heq]
        have hk : ¬ k = x := by omega
        split
        · rw [Memory.get, if_neg hk]
        · rw [Memory.get, if_neg (Ne.symm hne), Memory.get, if_neg hk]
      · rw [if_neg heq, Memory.get, Memory.get, ih]

/-- A write keeps the canonical form. -/
theorem Memory.wfFrom_set {m : Memory} {lo a : Nat} (v : Byte) (h : Memory.wfFrom lo m = true) (hlo : lo ≤ a)
    (ha : a < Config.hostSpace) : Memory.wfFrom lo (m.set a v) = true := by
  induction m generalizing lo with
  | nil =>
    rw [Memory.set]
    split
    · rfl
    · simp_all [Memory.wfFrom]
  | cons c rest ih =>
    obtain ⟨k, b⟩ := c
    have hw := h
    simp only [Memory.wfFrom, Bool.and_eq_true, decide_eq_true_eq] at h
    rw [Memory.set]
    by_cases hlt : a < k
    · rw [if_pos hlt]
      split
      · exact hw
      · rename_i hv
        simp only [Memory.wfFrom, Bool.and_eq_true, decide_eq_true_eq]
        exact ⟨⟨⟨hlo, ha⟩, hv⟩, ⟨⟨⟨by omega, h.1.1.2⟩, h.1.2⟩, h.2⟩⟩
    · rw [if_neg hlt]
      by_cases heq : a = k
      · rw [if_pos heq]
        split
        · exact Memory.wfFrom_mono h.2 (by omega)
        · rename_i hv
          subst heq
          simp only [Memory.wfFrom, Bool.and_eq_true, decide_eq_true_eq]
          exact ⟨⟨⟨hlo, ha⟩, hv⟩, h.2⟩
      · rw [if_neg heq]
        simp only [Memory.wfFrom, Bool.and_eq_true, decide_eq_true_eq]
        exact ⟨⟨⟨h.1.1.1, h.1.1.2⟩, h.1.2⟩, ih h.2 (by omega)⟩

/-- A write keeps the memory well-formed. -/
theorem Memory.wf_set {m : Memory} {a : Nat} (v : Byte) (h : Memory.wf m = true) (ha : a < Config.hostSpace) :
    Memory.wf (m.set a v) = true :=
  Memory.wfFrom_set v h (Nat.zero_le a) ha

/-- Memory right after reset is well-formed. -/
theorem Memory.wf_reset : Memory.wf State.reset.mem = true := rfl

end Sys2Proof.Machine
end

