-- ==== Sys2Proof/Laws/State.lean ====
section
/-! SUPPORT. One lemma for each field after each named update of State, and for the fields of Layer H after its FIFO
operations. -/

namespace Sys2Proof.Machine

variable (s : State)

@[simp] theorem State.withHw_hw (h : Hw) : (s.withHw h).hw = h := rfl
@[simp] theorem State.withHw_frames (h : Hw) : (s.withHw h).frames = s.frames := rfl
@[simp] theorem State.withHw_host (h : Hw) : (s.withHw h).host = s.host := rfl
@[simp] theorem State.withHw_mem (h : Hw) : (s.withHw h).mem = s.mem := rfl
@[simp] theorem State.withHw_program (h : Hw) : (s.withHw h).program = s.program := rfl
@[simp] theorem State.withHw_draws (h : Hw) : (s.withHw h).draws = s.draws := rfl
@[simp] theorem State.withHw_params (h : Hw) : (s.withHw h).params = s.params := rfl

@[simp] theorem State.withHost_hw (h : HostSide) : (s.withHost h).hw = s.hw := rfl
@[simp] theorem State.withHost_frames (h : HostSide) : (s.withHost h).frames = s.frames := rfl
@[simp] theorem State.withHost_host (h : HostSide) : (s.withHost h).host = h := rfl
@[simp] theorem State.withHost_mem (h : HostSide) : (s.withHost h).mem = s.mem := rfl
@[simp] theorem State.withHost_program (h : HostSide) : (s.withHost h).program = s.program := rfl
@[simp] theorem State.withHost_draws (h : HostSide) : (s.withHost h).draws = s.draws := rfl
@[simp] theorem State.withHost_params (h : HostSide) : (s.withHost h).params = s.params := rfl
@[simp] theorem State.withHost_host_engine (h : HostSide) : (s.withHost h).host.engine = h.engine := rfl
@[simp] theorem State.withHost_host_delay (h : HostSide) : (s.withHost h).host.delay = h.delay := rfl
@[simp] theorem State.withHost_host_running (h : HostSide) : (s.withHost h).host.running = h.running := rfl
@[simp] theorem State.withHost_host_ret (h : HostSide) : (s.withHost h).host.ret = h.ret := rfl
@[simp] theorem State.withHost_host_ended (h : HostSide) : (s.withHost h).host.ended = h.ended := rfl

@[simp] theorem State.withRet_hw (r : Ret) : (s.withRet r).hw = s.hw := rfl
@[simp] theorem State.withRet_frames (r : Ret) : (s.withRet r).frames = s.frames := rfl
@[simp] theorem State.withRet_mem (r : Ret) : (s.withRet r).mem = s.mem := rfl
@[simp] theorem State.withRet_program (r : Ret) : (s.withRet r).program = s.program := rfl
@[simp] theorem State.withRet_draws (r : Ret) : (s.withRet r).draws = s.draws := rfl
@[simp] theorem State.withRet_params (r : Ret) : (s.withRet r).params = s.params := rfl
@[simp] theorem State.withRet_host_engine (r : Ret) : (s.withRet r).host.engine = s.host.engine := rfl
@[simp] theorem State.withRet_host_delay (r : Ret) : (s.withRet r).host.delay = s.host.delay := rfl
@[simp] theorem State.withRet_host_running (r : Ret) : (s.withRet r).host.running = s.host.running := rfl
@[simp] theorem State.withRet_host_ret (r : Ret) : (s.withRet r).host.ret = r := rfl
@[simp] theorem State.withRet_host_ended (r : Ret) : (s.withRet r).host.ended = s.host.ended := rfl

@[simp] theorem State.withRunning_hw (r : Option Running) : (s.withRunning r).hw = s.hw := rfl
@[simp] theorem State.withRunning_frames (r : Option Running) : (s.withRunning r).frames = s.frames := rfl
@[simp] theorem State.withRunning_mem (r : Option Running) : (s.withRunning r).mem = s.mem := rfl
@[simp] theorem State.withRunning_program (r : Option Running) : (s.withRunning r).program = s.program := rfl
@[simp] theorem State.withRunning_draws (r : Option Running) : (s.withRunning r).draws = s.draws := rfl
@[simp] theorem State.withRunning_params (r : Option Running) : (s.withRunning r).params = s.params := rfl
@[simp] theorem State.withRunning_host_engine (r : Option Running) : (s.withRunning r).host.engine = s.host.engine := rfl
@[simp] theorem State.withRunning_host_delay (r : Option Running) : (s.withRunning r).host.delay = s.host.delay := rfl
@[simp] theorem State.withRunning_host_running (r : Option Running) : (s.withRunning r).host.running = r := rfl
@[simp] theorem State.withRunning_host_ret (r : Option Running) : (s.withRunning r).host.ret = s.host.ret := rfl
@[simp] theorem State.withRunning_host_ended (r : Option Running) : (s.withRunning r).host.ended = s.host.ended := rfl

@[simp] theorem State.withEngine_hw (e : Option BusEngine) : (s.withEngine e).hw = s.hw := rfl
@[simp] theorem State.withEngine_frames (e : Option BusEngine) : (s.withEngine e).frames = s.frames := rfl
@[simp] theorem State.withEngine_mem (e : Option BusEngine) : (s.withEngine e).mem = s.mem := rfl
@[simp] theorem State.withEngine_program (e : Option BusEngine) : (s.withEngine e).program = s.program := rfl
@[simp] theorem State.withEngine_draws (e : Option BusEngine) : (s.withEngine e).draws = s.draws := rfl
@[simp] theorem State.withEngine_params (e : Option BusEngine) : (s.withEngine e).params = s.params := rfl
@[simp] theorem State.withEngine_host_engine (e : Option BusEngine) : (s.withEngine e).host.engine = e := rfl
@[simp] theorem State.withEngine_host_delay (e : Option BusEngine) : (s.withEngine e).host.delay = s.host.delay := rfl
@[simp] theorem State.withEngine_host_running (e : Option BusEngine) : (s.withEngine e).host.running = s.host.running := rfl
@[simp] theorem State.withEngine_host_ret (e : Option BusEngine) : (s.withEngine e).host.ret = s.host.ret := rfl
@[simp] theorem State.withEngine_host_ended (e : Option BusEngine) : (s.withEngine e).host.ended = s.host.ended := rfl

@[simp] theorem State.withDelay_hw (hz : Word) : (s.withDelay hz).hw = s.hw := rfl
@[simp] theorem State.withDelay_frames (hz : Word) : (s.withDelay hz).frames = s.frames := rfl
@[simp] theorem State.withDelay_mem (hz : Word) : (s.withDelay hz).mem = s.mem := rfl
@[simp] theorem State.withDelay_program (hz : Word) : (s.withDelay hz).program = s.program := rfl
@[simp] theorem State.withDelay_draws (hz : Word) : (s.withDelay hz).draws = s.draws := rfl
@[simp] theorem State.withDelay_params (hz : Word) : (s.withDelay hz).params = s.params := rfl
@[simp] theorem State.withDelay_host_engine (hz : Word) : (s.withDelay hz).host.engine = s.host.engine := rfl
@[simp] theorem State.withDelay_host_delay (hz : Word) : (s.withDelay hz).host.delay = some hz := rfl
@[simp] theorem State.withDelay_host_running (hz : Word) : (s.withDelay hz).host.running = s.host.running := rfl
@[simp] theorem State.withDelay_host_ret (hz : Word) : (s.withDelay hz).host.ret = s.host.ret := rfl
@[simp] theorem State.withDelay_host_ended (hz : Word) : (s.withDelay hz).host.ended = s.host.ended := rfl

@[simp] theorem State.withMem_hw (m : Memory) : (s.withMem m).hw = s.hw := rfl
@[simp] theorem State.withMem_frames (m : Memory) : (s.withMem m).frames = s.frames := rfl
@[simp] theorem State.withMem_host (m : Memory) : (s.withMem m).host = s.host := rfl
@[simp] theorem State.withMem_mem (m : Memory) : (s.withMem m).mem = m := rfl
@[simp] theorem State.withMem_program (m : Memory) : (s.withMem m).program = s.program := rfl
@[simp] theorem State.withMem_draws (m : Memory) : (s.withMem m).draws = s.draws := rfl
@[simp] theorem State.withMem_params (m : Memory) : (s.withMem m).params = s.params := rfl

@[simp] theorem State.withProgram_hw (p : List Slot) : (s.withProgram p).hw = s.hw := rfl
@[simp] theorem State.withProgram_frames (p : List Slot) : (s.withProgram p).frames = s.frames := rfl
@[simp] theorem State.withProgram_host (p : List Slot) : (s.withProgram p).host = s.host := rfl
@[simp] theorem State.withProgram_mem (p : List Slot) : (s.withProgram p).mem = s.mem := rfl
@[simp] theorem State.withProgram_program (p : List Slot) : (s.withProgram p).program = p := rfl
@[simp] theorem State.withProgram_draws (p : List Slot) : (s.withProgram p).draws = s.draws := rfl
@[simp] theorem State.withProgram_params (p : List Slot) : (s.withProgram p).params = s.params := rfl

@[simp] theorem State.drawn_hw (n : Nat) : (s.drawn n).hw = s.hw := rfl
@[simp] theorem State.drawn_frames (n : Nat) : (s.drawn n).frames = s.frames := rfl
@[simp] theorem State.drawn_host (n : Nat) : (s.drawn n).host = s.host := rfl
@[simp] theorem State.drawn_mem (n : Nat) : (s.drawn n).mem = s.mem := rfl
@[simp] theorem State.drawn_program (n : Nat) : (s.drawn n).program = s.program := rfl
@[simp] theorem State.drawn_draws (n : Nat) : (s.drawn n).draws = s.draws + n := rfl
@[simp] theorem State.drawn_params (n : Nat) : (s.drawn n).params = s.params := rfl

@[simp] theorem State.finish_hw (r : Ret) : (s.finish r).hw = s.hw := rfl
@[simp] theorem State.finish_frames (r : Ret) : (s.finish r).frames = s.frames := rfl
@[simp] theorem State.finish_mem (r : Ret) : (s.finish r).mem = s.mem := rfl
@[simp] theorem State.finish_program (r : Ret) : (s.finish r).program = s.program := rfl
@[simp] theorem State.finish_draws (r : Ret) : (s.finish r).draws = s.draws := rfl
@[simp] theorem State.finish_params (r : Ret) : (s.finish r).params = s.params := rfl
@[simp] theorem State.finish_host_engine (r : Ret) : (s.finish r).host.engine = s.host.engine := rfl
@[simp] theorem State.finish_host_delay (r : Ret) : (s.finish r).host.delay = s.host.delay := rfl
@[simp] theorem State.finish_host_running (r : Ret) : (s.finish r).host.running = none := rfl
@[simp] theorem State.finish_host_ret (r : Ret) : (s.finish r).host.ret = r := rfl
@[simp] theorem State.finish_host_ended (r : Ret) : (s.finish r).host.ended = s.host.ended := rfl

@[simp] theorem State.raise_hw (e : Err) : (s.raise e).hw = s.hw := rfl
@[simp] theorem State.raise_frames (e : Err) : (s.raise e).frames = s.frames := rfl
@[simp] theorem State.raise_mem (e : Err) : (s.raise e).mem = s.mem := rfl
@[simp] theorem State.raise_program (e : Err) : (s.raise e).program = s.program := rfl
@[simp] theorem State.raise_draws (e : Err) : (s.raise e).draws = s.draws := rfl
@[simp] theorem State.raise_params (e : Err) : (s.raise e).params = s.params := rfl
@[simp] theorem State.raise_host_engine (e : Err) : (s.raise e).host.engine = s.host.engine := rfl
@[simp] theorem State.raise_host_delay (e : Err) : (s.raise e).host.delay = s.host.delay := rfl
@[simp] theorem State.raise_host_running (e : Err) : (s.raise e).host.running = none := rfl
@[simp] theorem State.raise_host_ret (e : Err) : (s.raise e).host.ret = .err e := rfl
@[simp] theorem State.raise_host_ended (e : Err) : (s.raise e).host.ended = s.host.ended := rfl

@[simp] theorem State.endHost_hw : s.endHost.hw = s.hw := rfl
@[simp] theorem State.endHost_frames : s.endHost.frames = s.frames := rfl
@[simp] theorem State.endHost_mem : s.endHost.mem = s.mem := rfl
@[simp] theorem State.endHost_program : s.endHost.program = s.program := rfl
@[simp] theorem State.endHost_draws : s.endHost.draws = s.draws := rfl
@[simp] theorem State.endHost_params : s.endHost.params = s.params := rfl
@[simp] theorem State.endHost_host_engine : s.endHost.host.engine = s.host.engine := rfl
@[simp] theorem State.endHost_host_delay : s.endHost.host.delay = s.host.delay := rfl
@[simp] theorem State.endHost_host_running : s.endHost.host.running = none := rfl
@[simp] theorem State.endHost_host_ret : s.endHost.host.ret = s.host.ret := rfl
@[simp] theorem State.endHost_host_ended : s.endHost.host.ended = true := rfl

end Sys2Proof.Machine
end

