-- ==== Sys2Proof/Laws/Ops.lean ====
section
/-! SUPPORT. One lemma for each shared operation: what it answers, and everything it can change. -/

namespace Sys2Proof.Machine

/-! Outcomes. -/

@[simp] theorem andThen_next {α β : Type} (a : α) (f : α → Out β) : andThen (.next a) f = f a := rfl

@[simp] theorem andThen_fault {α β : Type} (e : Fault) (f : α → Out β) : andThen (.fault e) f = .fault e := rfl

@[simp] theorem andThen_refused {α β : Type} (r : Refusal) (f : α → Out β) : andThen (.refused r) f = .refused r := rfl

/-- A composition answers a next value exactly when both parts do. -/
theorem andThen_eq_next {α β : Type} {o : Out α} {f : α → Out β} {b : β} :
    andThen o f = .next b ↔ ∃ a, o = .next a ∧ f a = .next b := by
  cases o <;> simp

/-- A composition faults exactly when one of its parts does. -/
theorem andThen_eq_fault {α β : Type} {o : Out α} {f : α → Out β} {e : Fault} :
    andThen o f = .fault e ↔ o = .fault e ∨ ∃ a, o = .next a ∧ f a = .fault e := by
  cases o <;> simp

/-! Who may issue. -/

theorem hostFree_iff {s : State} : hostFree s = true ↔ s.host.ended = false ∧ s.host.running = none := by
  simp [hostFree]

theorem hostReady_iff {s : State} :
    hostReady s = true ↔ s.host.ended = false ∧ s.host.running = none ∧ s.host.engine.isSome = true := by
  simp [hostReady, hostFree, and_assoc]

/-- A free host issues what it likes. -/
theorem asHost_free {s : State} (h : hostFree s = true) (k : State → Out State) : asHost s k = k s := by
  obtain ⟨h1, h2⟩ := hostFree_iff.mp h
  simp [asHost, h1, h2]

/-- A host that issues something and goes on was free. -/
theorem asHost_eq_next {s t : State} {k : State → Out State} (h : asHost s k = .next t) :
    hostFree s = true ∧ k s = .next t := by
  unfold asHost at h
  split at h
  · cases h
  · split at h
    · cases h
    · simp_all [hostFree]

/-- A host with an instance issues what it likes. -/
theorem asInstance_ready {s : State} (h : hostReady s = true) (k : State → Out State) : asInstance s k = k s := by
  obtain ⟨h1, h2, h3⟩ := hostReady_iff.mp h
  simp [asInstance, asHost, h1, h2, h3]

/-- A host that issues a command of the instance and goes on had one and was free. -/
theorem asInstance_eq_next {s t : State} {k : State → Out State} (h : asInstance s k = .next t) :
    hostReady s = true ∧ k s = .next t := by
  obtain ⟨hf, hk⟩ := asHost_eq_next h
  split at hk
  · rename_i he
    exact ⟨by simp [hostReady, hf, he], hk⟩
  · cases hk

/-! The FIFOs. -/

theorem Hw.pushTx_room {d : Nat} {h : Hw} (b : Byte) (hr : h.txf.length < d) :
    h.pushTx d b = { h with txf := h.txf ++ [b] } := by
  simp [Hw.pushTx, hr]

theorem Hw.pushTx_full {d : Nat} {h : Hw} (b : Byte) (hr : d ≤ h.txf.length) : h.pushTx d b = { h with txovf := true } := by
  simp [Hw.pushTx, Nat.not_lt.mpr hr]

theorem Hw.pushRx_room {d : Nat} {h : Hw} (b : Byte) (hr : h.rxf.length < d) :
    h.pushRx d b = { h with rxf := h.rxf ++ [b] } := by
  simp [Hw.pushRx, hr]

theorem Hw.pushRx_full {d : Nat} {h : Hw} (b : Byte) (hr : d ≤ h.rxf.length) : h.pushRx d b = { h with rxovf := true } := by
  simp [Hw.pushRx, Nat.not_lt.mpr hr]

theorem Hw.popRx_cons {h : Hw} {b : Byte} {rest : List Byte} (hr : h.rxf = b :: rest) :
    h.popRx = (some b, { h with rxf := rest }) := by
  simp [Hw.popRx, hr]

theorem Hw.popRx_nil {h : Hw} (hr : h.rxf = []) : h.popRx = (none, { h with rxudf := true }) := by
  simp [Hw.popRx, hr]

/-! The engine. -/

theorem Hw.busy_iff {h : Hw} : h.busy = true ↔ ∃ b snap, h.eng = .shifting b snap := by
  unfold Hw.busy; cases h.eng <;> simp

theorem Hw.not_busy_iff {h : Hw} : h.busy = false ↔ h.eng = .idle := by
  unfold Hw.busy; cases h.eng <;> simp

/-- An enabled `FRAME_START` (R171). -/
theorem Hw.frameStart_enabled {h : Hw} {b : Byte} {rest : List Byte} (ho : h.operational = true) (he : h.eng = .idle)
    (ht : h.txf = b :: rest) : h.frameStart = { h with txf := rest, eng := .shifting b h.snapshot } := by
  simp [Hw.frameStart, ho, Hw.not_busy_iff.mpr he, ht]

/-- A `FRAME_START` that is not enabled changes nothing (log 11). -/
theorem Hw.frameStart_disabled {h : Hw} (hd : h.operational = false ∨ h.eng ≠ .idle ∨ h.txf = []) : h.frameStart = h := by
  unfold Hw.frameStart
  split
  · rename_i hc
    simp only [Bool.and_eq_true, Bool.not_eq_true'] at hc
    have he := Hw.not_busy_iff.mp hc.2
    have ht : h.txf = [] := by
      rcases hd with hd | hd | hd
      · simp [hd] at hc
      · exact absurd he hd
      · exact hd
    rw [ht]
  · rfl

/-- Everything `FRAME_START` can do. -/
theorem Hw.frameStart_cases (h : Hw) :
    h.frameStart = h ∨ ∃ b rest, h.operational = true ∧ h.eng = .idle ∧ h.txf = b :: rest ∧
      h.frameStart = { h with txf := rest, eng := .shifting b h.snapshot } := by
  by_cases ho : h.operational = true
  · by_cases he : h.eng = .idle
    · cases ht : h.txf with
      | nil => exact .inl (Hw.frameStart_disabled (.inr (.inr ht)))
      | cons b rest => exact .inr ⟨b, rest, ho, he, rfl, Hw.frameStart_enabled ho he ht⟩
    · exact .inl (Hw.frameStart_disabled (.inr (.inl he)))
  · exact .inl (Hw.frameStart_disabled (.inl (by simpa using ho)))

theorem State.frameComplete_idle {s : State} (r : Byte) (h : s.hw.eng = .idle) : s.frameComplete r = s := by
  simp [State.frameComplete, h]

theorem State.frameComplete_shifting {s : State} {b : Byte} {snap : Snapshot} (r : Byte) (h : s.hw.eng = .shifting b snap) :
    s.frameComplete r =
      { s with hw := { s.hw.pushRx s.params.fifoDepth r with eng := .idle },
               frames := s.frames ++ [{ tx := b, rx := r, snap := snap, stored := s.hw.rxRoom s.params.fifoDepth }] } := by
  simp [State.frameComplete, h]

/-- A turn of the engine is a `FRAME_START` or a `FRAME_COMPLETE` with the oracle's byte. -/
theorem State.engineTurn_cases (s : State) :
    (s.hw.eng = .idle ∧ s.engineTurn = s.withHw s.hw.frameStart) ∨
      ∃ r, s.hw.eng ≠ .idle ∧ s.engineTurn = s.frameComplete r := by
  unfold State.engineTurn
  cases h : s.hw.eng with
  | idle => exact .inl ⟨rfl, rfl⟩
  | shifting b snap => exact .inr ⟨_, by simp, rfl⟩

/-! The divider. -/

/-- The divider's value for a length of 1 to 256 (R112, R230). -/
theorem clockDivider_some {src f : Word} (h0 : f ≠ 0) (h1 : 1 ≤ src.toNat / (2 * f.toNat))
    (h2 : src.toNat / (2 * f.toNat) ≤ 256) :
    clockDivider src f = some (BitVec.ofNat 8 (src.toNat / (2 * f.toNat) - 1)) := by
  have hn : ¬ (src.toNat / (2 * f.toNat) = 0 ∨ src.toNat / (2 * f.toNat) > Config.lenMax) := by
    simp only [Config.lenMax]; omega
  unfold clockDivider
  rw [if_neg h0]
  exact if_neg hn

/-- Out of range (R230). -/
theorem clockDivider_none {src f : Word}
    (h : f = 0 ∨ src.toNat / (2 * f.toNat) = 0 ∨ 256 < src.toNat / (2 * f.toNat)) : clockDivider src f = none := by
  unfold clockDivider
  split
  · rfl
  · rename_i h0
    exact if_pos (h.resolve_left h0)

/-- The divider's value is one less than the length, which is in 1 to 256 (R232). -/
theorem clockDivider_eq_some {src f : Word} {v : Byte} (h : clockDivider src f = some v) :
    f ≠ 0 ∧ v.toNat + 1 = src.toNat / (2 * f.toNat) := by
  unfold clockDivider at h
  split at h
  · cases h
  · rename_i h0
    dsimp only at h
    split at h
    · cases h
    · rename_i h1
      refine ⟨h0, ?_⟩
      simp only [Config.lenMax] at h1
      have hv := congrArg BitVec.toNat (Option.some.inj h)
      generalize src.toNat / (2 * f.toNat) = len at *
      rw [BitVec.toNat_ofNat, Nat.mod_eq_of_lt (by omega)] at hv
      omega

/-- A duration's cycle count is the exact quotient: the product of two numbers below 2^32 does not wrap (R207). -/
theorem cyclesOf_toNat (u : TimeUnit) (d hz : Word) :
    (cyclesOf u d hz).toNat = d.toNat * hz.toNat / unitsPerSecond u := by
  unfold cyclesOf
  rw [BitVec.toNat_ofNat, Nat.mod_eq_of_lt]
  have : d.toNat * hz.toNat < 2 ^ 32 * 2 ^ 32 := Nat.mul_lt_mul'' d.isLt hz.isLt
  exact Nat.lt_of_le_of_lt (Nat.div_le_self _ _) this

/-! Host memory accesses of a command. -/

theorem hostRead_eq_next {a : Nat} {s : State} {b : Byte} :
    hostRead a s = .next b ↔ a < Config.hostSpace ∧ s.mem.get a = b := by
  unfold hostRead; split <;> simp_all

theorem hostWrite_eq_next {a : Nat} {v : Byte} {s t : State} :
    hostWrite a v s = .next t ↔ a < Config.hostSpace ∧ s.withMem (s.mem.set a v) = t := by
  unfold hostWrite; split <;> simp_all

/-- A byte of a buffer that fits is inside the host's address space. -/
theorem bufAddr_lt {b : Buf} {i : Nat} (hf : b.fits = true) (hi : i < b.len.toNat) : bufAddr b i < Config.hostSpace := by
  simp only [Buf.fits, decide_eq_true_eq] at hf
  unfold bufAddr
  omega

end Sys2Proof.Machine
end

