-- ==== Sys2Proof/Laws/Access.lean ====
section
/-! SUPPORT. Register words: what a read answers and what a write does to each field, under any usable `LAYOUT`. -/

namespace Sys2Proof.Machine

/-! Membership in the word of a field. -/

theorem Params.mem_wordOf {p : Params} {f g : Field} : g ∈ p.wordOf f ↔ p.together f g = true :=
  Layout.mem_fieldsAt

theorem Params.contains_wordOf {p : Params} {f g : Field} : (p.wordOf f).contains g = p.together f g :=
  Layout.contains_fieldsAt

theorem ParamsOk.together_self {p : Params} (h : ParamsOk p) {f : Field} (hs : fieldSpace f = .spi) : p.together f f = true := by
  simp [h.together_eq, hs]

theorem ParamsOk.together_symm {p : Params} (h : ParamsOk p) {f g : Field} (hs : fieldSpace f = .spi)
    (ht : p.together f g = true) : p.together g f = true := by
  simp_all [h.together_eq]

theorem ParamsOk.together_spi {p : Params} (h : ParamsOk p) {f g : Field} (ht : p.together f g = true) : fieldSpace g = .spi := by
  simp_all [h.together_eq]

/-- Fields that stand together are in one list of fields, at one offset. -/
theorem ParamsOk.together_offset {p : Params} (h : ParamsOk p) {f g : Field} (ht : p.together f g = true) :
    p.offset g = p.offset f := by
  simp_all [h.together_eq]

theorem ParamsOk.together_congr {p : Params} (h : ParamsOk p) {f g x : Field} (ht : p.together f g = true) :
    p.together g x = p.together f x := by
  simp [h.together_eq, h.together_offset ht]

/-- `TXD` stands in no other field's word. -/
theorem ParamsOk.not_txd {p : Params} (h : ParamsOk p) {f : Field} (hs : fieldSpace f = .spi) (hf : f ≠ .txd) :
    p.together f .txd = false := by
  by_contra hc
  have := h.together_symm hs (by simpa using hc)
  rw [h.txd_alone] at this
  exact hf (by simpa using (of_decide_eq_true this).symm)

/-- `RXD` stands in no other field's word. -/
theorem ParamsOk.not_rxd {p : Params} (h : ParamsOk p) {f : Field} (hs : fieldSpace f = .spi) (hf : f ≠ .rxd) :
    p.together f .rxd = false := by
  by_contra hc
  have := h.together_symm hs (by simpa using hc)
  rw [h.rxd_alone] at this
  exact hf (by simpa using (of_decide_eq_true this).symm)

/-- A field that stands alone is its word's only one. -/
theorem wordOf_alone {p : Params} {f : Field} (h : ∀ g, p.together f g = decide (f = g)) : p.wordOf f = [f] := by
  have : Field.all.filter (p.layout.inWord (p.offset f)) = Field.all.filter fun g => decide (f = g) := by
    apply List.filter_congr
    intro g _
    exact h g
  unfold Params.wordOf Layout.fieldsAt
  rw [this]
  cases f <;> rfl

theorem ParamsOk.wordOf_txd {p : Params} (h : ParamsOk p) : p.wordOf .txd = [.txd] := wordOf_alone h.txd_alone

theorem ParamsOk.wordOf_rxd {p : Params} (h : ParamsOk p) : p.wordOf .rxd = [.rxd] := wordOf_alone h.rxd_alone

theorem ParamsOk.wordOf_ne_nil {p : Params} (h : ParamsOk p) {f : Field} (hs : fieldSpace f = .spi) :
    (p.wordOf f).isEmpty = false := by
  have := Params.mem_wordOf.mpr (h.together_self hs)
  cases hw : p.wordOf f with
  | nil => simp [hw] at this
  | cons _ _ => rfl

/-! Reads. -/

/-- A field reads as it stands in a word that was put together from all fields of the word. -/
theorem ParamsOk.get_foldl_put {p : Params} (h : ParamsOk p) {val : Field → Word} {o : BitVec 8} {f : Field} (fs : List Field)
    (hs : fieldSpace f = .spi) (ho : p.offset f = o) (hv : (val f).toNat < 2 ^ Field.width p.cntBits f)
    (hfs : ∀ g ∈ fs, p.layout.inWord o g = true) (w : Word) :
    p.get f (fs.foldl (fun w g => p.put g (val g) w) w) = if f ∈ fs then val f else p.get f w := by
  induction fs generalizing w with
  | nil => rfl
  | cons g fs ih =>
    rw [List.foldl_cons, ih (fun g hg => hfs g (List.mem_cons_of_mem _ hg))]
    by_cases hm : f ∈ fs
    · simp [hm]
    · by_cases hg : f = g
      · subst hg
        simp [hm, h.get_put_same f w hv]
      · simp [hm, hg, h.get_put_other hg (by rw [ho]; exact hfs g (by simp)) hs]

/-- The same fold leaves a bit at which no field stands. -/
theorem foldl_put_dma {p : Params} (h : ParamsOk p) {val : Field → Word} (hd : p.layout.dma.space = .spi) (fs : List Field)
    (hfs : ∀ g ∈ fs, p.layout.inWord p.layout.dma.offset g = true) (w : Word) :
    p.dmaBits (fs.foldl (fun w g => p.put g (val g) w) w) = p.dmaBits w := by
  induction fs generalizing w with
  | nil => rfl
  | cons g fs ih =>
    rw [List.foldl_cons, ih (fun g hg => hfs g (List.mem_cons_of_mem _ hg)), h.dma_put (hfs g (by simp)) hd]

/-- The field is no count, or its count fits (R57, R62). -/
def FieldFits (s : State) (f : Field) : Prop :=
  (f = .txcnt → s.hw.txf.length ≤ s.params.fifoDepth) ∧ (f = .rxcnt → s.hw.rxf.length ≤ s.params.fifoDepth)

theorem fieldFits_of_counts {s : State} (ht : s.hw.txf.length ≤ s.params.fifoDepth) (hr : s.hw.rxf.length ≤ s.params.fifoDepth)
    (f : Field) : FieldFits s f :=
  ⟨fun _ => ht, fun _ => hr⟩

theorem fieldFits_of_ne {s : State} {f : Field} (ht : f ≠ .txcnt) (hr : f ≠ .rxcnt) : FieldFits s f :=
  ⟨fun e => absurd e ht, fun e => absurd e hr⟩

theorem ofNat32_toNat {p : Params} (h : ParamsOk p) {n : Nat} (hn : n ≤ p.fifoDepth) : (BitVec.ofNat 32 n).toNat = n := by
  have h1 := h.depth_lt
  have h2 := h.lo_width .txcnt
  have h3 : 2 ^ p.cntBits ≤ 2 ^ 32 := Nat.pow_le_pow_right (by decide) (by simp only [Field.width] at h2; omega)
  rw [BitVec.toNat_ofNat, Nat.mod_eq_of_lt (by omega)]

theorem txCount_le {s : State} (hc : s.hw.txf.length ≤ s.params.fifoDepth) : s.hw.txCount s.params ≤ s.params.fifoDepth := by
  unfold Hw.txCount
  cases s.params.txcntSense with
  | occupancy => exact hc
  | free => exact Nat.sub_le _ _

/-- A field's value fits the field. -/
theorem State.value_lt {s : State} (h : ParamsOk s.params) {f : Field} (hc : FieldFits s f) :
    (s.value f).toNat < 2 ^ Field.width s.params.cntBits f := by
  have b8 : ∀ b : Byte, (b.setWidth 32).toNat < 2 ^ 8 := fun b => by
    have := b.isLt
    rw [BitVec.toNat_setWidth, Nat.mod_eq_of_lt (by omega)]; exact this
  cases f with
  | fsize =>
    have := s.hw.fsize.isLt
    simp only [State.value, Field.width, BitVec.toNat_setWidth]
    rw [Nat.mod_eq_of_lt (by omega)]; exact this
  | ph0 => exact b8 _
  | ph1 => exact b8 _
  | idle => exact b8 _
  | rxd => exact b8 _
  | txd => simp [State.value]
  | txclr => simp [State.value]
  | rxclr => simp [State.value]
  | txcnt =>
    have := txCount_le (hc.1 rfl)
    have := h.depth_lt
    simp only [State.value, Field.width]
    rw [ofNat32_toNat h (by omega)]; omega
  | rxcnt =>
    have := hc.2 rfl
    have := h.depth_lt
    simp only [State.value, Field.width]
    rw [ofNat32_toNat h (by omega)]; omega
  | cycleLo => simpa [State.value, Field.width] using (s.hw.cycle.extractLsb' 0 32).isLt
  | cycleHi => simpa [State.value, Field.width] using (s.hw.cycle.extractLsb' 32 32).isLt
  | _ => exact bitWord_lt _

/-- The word that a read of a field's word returns. -/
def State.wordAt (s : State) (f : Field) : Word :=
  (s.params.wordOf f).foldl (fun w f => s.params.put f (s.value f) w) (s.background (s.params.offset f) (s.params.wordOf f))

theorem regRead_eq (f : Field) (s : State) : regRead f s = readWord (s.params.offset f) s := by
  simp [regRead, busRead]

theorem regWrite_eq (f : Field) (w : Word) (s : State) : regWrite f w s = writeWord (s.params.offset f) w s := by
  simp [regWrite, busWrite]

/-- A read of a field's word answers under any usable `LAYOUT` (R138, R150). -/
theorem regRead_next {s : State} (h : ParamsOk s.params) {f : Field} (hs : fieldSpace f = .spi) (hf : f ≠ .txd) :
    regRead f s = .next (s.wordAt f, s.afterRead (s.params.wordOf f)) := by
  have h1 := h.wordOf_ne_nil hs
  have h2 : (s.params.wordOf f).contains .txd = false := by rw [Params.contains_wordOf]; exact h.not_txd hs hf
  unfold Params.wordOf at h1 h2
  rw [regRead_eq, readWord]
  simp only [h1, h2]
  rfl

/-- Each field of the word reads as its value (R138). -/
theorem get_wordAt {s : State} (h : ParamsOk s.params) {f g : Field} (hc : FieldFits s g) (ht : s.params.together f g = true) :
    s.params.get g (s.wordAt f) = s.value g := by
  rw [State.wordAt, h.get_foldl_put (o := s.params.offset f) _ (h.together_spi ht) (h.together_offset ht) (State.value_lt h hc)
    (fun x hx => Params.mem_wordOf.mp hx), if_pos (Params.mem_wordOf.mpr ht)]

/-- What a read leaves: free values used up, and a byte popped where `RXD` is read. -/
theorem afterRead_plain (fs : List Field) (s : State) (hf : fs.contains .rxd = false) : ∃ d, s.afterRead fs = s.drawn d := by
  unfold State.afterRead
  rw [hf]
  split
  · contradiction
  · split
    · exact ⟨1, rfl⟩
    · exact ⟨0, rfl⟩

/-- A read of a word other than `TXD`'s and `RXD`'s: every field of it reads as its value, and nothing but the free values used
up changes. -/
theorem regRead_plain {s : State} (h : ParamsOk s.params) {f : Field} (hs : fieldSpace f = .spi) (hf : f ≠ .txd) (hr : f ≠ .rxd) :
    ∃ w d, regRead f s = .next (w, s.drawn d) ∧
      ∀ g, s.params.together f g = true → FieldFits s g → s.params.get g w = s.value g := by
  obtain ⟨d, hd⟩ := afterRead_plain (s.params.wordOf f) s (by rw [Params.contains_wordOf]; exact h.not_rxd hs hr)
  exact ⟨_, d, by rw [regRead_next h hs hf, hd], fun g hg hc => get_wordAt h hc hg⟩

/-- A read of `RXD` pops (R144). -/
theorem regRead_rxd {s : State} (h : ParamsOk s.params) :
    ∃ w, regRead .rxd s = .next (w, (s.withHw s.hw.popRx.2).drawn 2) ∧
      (s.params.get .rxd w).setWidth 8 = s.hw.popRx.1.getD (s.free 8 1) := by
  refine ⟨_, by rw [regRead_next h rfl (by decide), State.afterRead, h.wordOf_rxd]; rfl, ?_⟩
  unfold State.wordAt
  rw [h.wordOf_rxd, List.foldl_cons, List.foldl_nil, h.get_put_same]
  · simp [State.value]
  · simp only [State.value, Field.width, BitVec.toNat_setWidth]
    have := (s.hw.popRx.1.getD (s.free 8 1)).isLt
    rw [Nat.mod_eq_of_lt (by omega)]; exact this

/-- A read never faults. -/
theorem regRead_ne_fault (f : Field) (s : State) (e : Fault) : regRead f s ≠ .fault e := by
  rw [regRead_eq, readWord]
  split
  · simp
  · split <;> simp

/-- Every read that answers is this one. -/
theorem regRead_eq_next {f : Field} {s t : State} {w : Word} (h : regRead f s = .next (w, t)) :
    t = s.afterRead (s.params.wordOf f) := by
  rw [regRead_eq, readWord] at h
  split at h
  · cases h
  · split at h
    · cases h
    · cases h; rfl

/-- Layer H after a read is as before, or popped. -/
theorem afterRead_cases (fs : List Field) (s : State) :
    (∃ d, s.afterRead fs = s.drawn d) ∨ fs.contains .rxd = true ∧ s.afterRead fs = (s.withHw s.hw.popRx.2).drawn 2 := by
  unfold State.afterRead
  split
  · exact .inr ⟨by assumption, rfl⟩
  · split
    · exact .inl ⟨1, rfl⟩
    · exact .inl ⟨0, rfl⟩

/-! Writes. -/

/-- The effect on one piece of Layer H that a field's write replaces, where no other field of the word touches it. -/
theorem writeFields_comp {α : Type} {p : Params} (c : Hw → α) (key : Field) (val : Word → α) {fs : List Field}
    (hk : ∀ h v, c (Hw.writeField p.fifoDepth h key v) = val v)
    (ho : ∀ h v g, g ∈ fs → g ≠ key → c (Hw.writeField p.fifoDepth h g v) = c h) (w : Word) (h : Hw) :
    c (h.writeFields p w fs) = if key ∈ fs then val (p.get key w) else c h := by
  unfold Hw.writeFields
  induction fs generalizing h with
  | nil => rfl
  | cons g fs ih =>
    rw [List.foldl_cons, ih (fun h v g hg => ho h v g (List.mem_cons_of_mem _ hg))]
    by_cases hm : key ∈ fs
    · simp [hm]
    · by_cases hg : g = key
      · subst hg; simp [hm, hk]
      · simp [hm, Ne.symm hg, ho _ _ g (by simp) hg]

/-- The effect on one piece of Layer H that a trigger clears. -/
theorem writeFields_trigger {α : Type} {p : Params} (c : Hw → α) (key : Field) (v0 : α) {fs : List Field}
    (hk : ∀ h v, c (Hw.writeField p.fifoDepth h key v) = if v.getLsbD 0 then v0 else c h)
    (ho : ∀ h v g, g ∈ fs → g ≠ key → c (Hw.writeField p.fifoDepth h g v) = c h) (w : Word) (h : Hw) :
    c (h.writeFields p w fs) = if key ∈ fs ∧ (p.get key w).getLsbD 0 = true then v0 else c h := by
  unfold Hw.writeFields
  induction fs generalizing h with
  | nil => rfl
  | cons g fs ih =>
    rw [List.foldl_cons, ih (fun h v g hg => ho h v g (List.mem_cons_of_mem _ hg))]
    by_cases hg : g = key
    · subst hg
      rw [hk]
      by_cases hv : (p.get g w).getLsbD 0 = true
      · simp only [hv, and_true, if_true, List.mem_cons, true_or, ite_self]
      · simp only [hv, Bool.false_eq_true, and_false, if_false]
    · rw [ho _ _ g (by simp) hg]
      simp [Ne.symm hg]

/-- A piece of Layer H that no field of the word touches. -/
theorem writeFields_same {α : Type} {p : Params} (c : Hw → α) {fs : List Field}
    (ho : ∀ h v g, g ∈ fs → c (Hw.writeField p.fifoDepth h g v) = c h) (w : Word) (h : Hw) :
    c (h.writeFields p w fs) = c h := by
  unfold Hw.writeFields
  induction fs generalizing h with
  | nil => rfl
  | cons g fs ih =>
    rw [List.foldl_cons, ih (fun h v g hg => ho h v g (List.mem_cons_of_mem _ hg)), ho _ _ g (by simp)]

theorem Hw.pushTx_cases (d : Nat) (b : Byte) (h : Hw) :
    h.pushTx d b = { h with txf := h.txf ++ [b] } ∨ h.pushTx d b = { h with txovf := true } := by
  unfold Hw.pushTx; split
  · exact .inl rfl
  · exact .inr rfl

/-- The fields of Layer H that a field's write can touch: every other projection stays. -/
theorem Hw.writeField_frame (d : Nat) (h : Hw) (g : Field) (v : Word) :
    (g ≠ .role → (h.writeField d g v).role = h.role) ∧ (g ≠ .mEn → (h.writeField d g v).mEn = h.mEn) ∧
    (g ≠ .sEn → (h.writeField d g v).sEn = h.sEn) ∧ (g ≠ .cpol → (h.writeField d g v).cpol = h.cpol) ∧
    (g ≠ .cpha → (h.writeField d g v).cpha = h.cpha) ∧ (g ≠ .cont → (h.writeField d g v).cont = h.cont) ∧
    (g ≠ .fsize → (h.writeField d g v).fsize = h.fsize) ∧ (g ≠ .bitord → (h.writeField d g v).bitord = h.bitord) ∧
    (g ≠ .ph0 → (h.writeField d g v).ph0 = h.ph0) ∧ (g ≠ .ph1 → (h.writeField d g v).ph1 = h.ph1) ∧
    (g ≠ .idle → (h.writeField d g v).idle = h.idle) ∧
    (g ≠ .txclr → g ≠ .txd → (h.writeField d g v).txf = h.txf) ∧
    (g ≠ .txclr → g ≠ .txd → (h.writeField d g v).txovf = h.txovf) ∧
    (g ≠ .txclr → (h.writeField d g v).txudf = h.txudf) ∧
    (g ≠ .rxclr → (h.writeField d g v).rxf = h.rxf) ∧ (g ≠ .rxclr → (h.writeField d g v).rxovf = h.rxovf) ∧
    (g ≠ .rxclr → (h.writeField d g v).rxudf = h.rxudf) ∧ (h.writeField d g v).eng = h.eng ∧
    (h.writeField d g v).cycle = h.cycle ∧ (h.writeField d g v).u = h.u := by
  cases g with
  | txd =>
    rcases Hw.pushTx_cases d (v.setWidth 8) h with e | e <;> simp [Hw.writeField, e]
  | txclr => simp only [Hw.writeField]; split <;> simp [Hw.txClear]
  | rxclr => simp only [Hw.writeField]; split <;> simp [Hw.rxClear]
  | _ => simp [Hw.writeField]

section

variable {p : Params} {fs : List Field} (w : Word) (h : Hw)

theorem writeFields_role :
    (h.writeFields p w fs).role = if Field.role ∈ fs then (p.get .role w).getLsbD 0 else h.role :=
  writeFields_comp Hw.role .role (·.getLsbD 0) (fun _ _ => rfl) (fun h v g _ hn => (h.writeField_frame p.fifoDepth g v).1 hn) w h

theorem writeFields_mEn : (h.writeFields p w fs).mEn = if Field.mEn ∈ fs then (p.get .mEn w).getLsbD 0 else h.mEn :=
  writeFields_comp Hw.mEn .mEn (·.getLsbD 0) (fun _ _ => rfl) (fun h v g _ hn => (h.writeField_frame p.fifoDepth g v).2.1 hn) w h

theorem writeFields_sEn : (h.writeFields p w fs).sEn = if Field.sEn ∈ fs then (p.get .sEn w).getLsbD 0 else h.sEn :=
  writeFields_comp Hw.sEn .sEn (·.getLsbD 0) (fun _ _ => rfl)
    (fun h v g _ hn => (h.writeField_frame p.fifoDepth g v).2.2.1 hn) w h

theorem writeFields_cpol : (h.writeFields p w fs).cpol = if Field.cpol ∈ fs then (p.get .cpol w).getLsbD 0 else h.cpol :=
  writeFields_comp Hw.cpol .cpol (·.getLsbD 0) (fun _ _ => rfl)
    (fun h v g _ hn => (h.writeField_frame p.fifoDepth g v).2.2.2.1 hn) w h

theorem writeFields_cpha : (h.writeFields p w fs).cpha = if Field.cpha ∈ fs then (p.get .cpha w).getLsbD 0 else h.cpha :=
  writeFields_comp Hw.cpha .cpha (·.getLsbD 0) (fun _ _ => rfl)
    (fun h v g _ hn => (h.writeField_frame p.fifoDepth g v).2.2.2.2.1 hn) w h

theorem writeFields_cont : (h.writeFields p w fs).cont = if Field.cont ∈ fs then (p.get .cont w).getLsbD 0 else h.cont :=
  writeFields_comp Hw.cont .cont (·.getLsbD 0) (fun _ _ => rfl)
    (fun h v g _ hn => (h.writeField_frame p.fifoDepth g v).2.2.2.2.2.1 hn) w h

theorem writeFields_fsize :
    (h.writeFields p w fs).fsize = if Field.fsize ∈ fs then (p.get .fsize w).setWidth 2 else h.fsize :=
  writeFields_comp Hw.fsize .fsize (·.setWidth 2) (fun _ _ => rfl)
    (fun h v g _ hn => (h.writeField_frame p.fifoDepth g v).2.2.2.2.2.2.1 hn) w h

theorem writeFields_bitord :
    (h.writeFields p w fs).bitord = if Field.bitord ∈ fs then (p.get .bitord w).getLsbD 0 else h.bitord :=
  writeFields_comp Hw.bitord .bitord (·.getLsbD 0) (fun _ _ => rfl)
    (fun h v g _ hn => (h.writeField_frame p.fifoDepth g v).2.2.2.2.2.2.2.1 hn) w h

theorem writeFields_ph0 : (h.writeFields p w fs).ph0 = if Field.ph0 ∈ fs then (p.get .ph0 w).setWidth 8 else h.ph0 :=
  writeFields_comp Hw.ph0 .ph0 (·.setWidth 8) (fun _ _ => rfl)
    (fun h v g _ hn => (h.writeField_frame p.fifoDepth g v).2.2.2.2.2.2.2.2.1 hn) w h

theorem writeFields_ph1 : (h.writeFields p w fs).ph1 = if Field.ph1 ∈ fs then (p.get .ph1 w).setWidth 8 else h.ph1 :=
  writeFields_comp Hw.ph1 .ph1 (·.setWidth 8) (fun _ _ => rfl)
    (fun h v g _ hn => (h.writeField_frame p.fifoDepth g v).2.2.2.2.2.2.2.2.2.1 hn) w h

theorem writeFields_idle : (h.writeFields p w fs).idle = if Field.idle ∈ fs then (p.get .idle w).setWidth 8 else h.idle :=
  writeFields_comp Hw.idle .idle (·.setWidth 8) (fun _ _ => rfl)
    (fun h v g _ hn => (h.writeField_frame p.fifoDepth g v).2.2.2.2.2.2.2.2.2.2.1 hn) w h

theorem writeFields_txf (ht : Field.txd ∉ fs) :
    (h.writeFields p w fs).txf = if Field.txclr ∈ fs ∧ (p.get .txclr w).getLsbD 0 = true then [] else h.txf :=
  writeFields_trigger Hw.txf .txclr [] (fun h v => by simp only [Hw.writeField]; split <;> rfl)
    (fun h v g hg hn => (h.writeField_frame p.fifoDepth g v).2.2.2.2.2.2.2.2.2.2.2.1 hn (fun e => ht (e ▸ hg))) w h

theorem writeFields_txovf (ht : Field.txd ∉ fs) :
    (h.writeFields p w fs).txovf = if Field.txclr ∈ fs ∧ (p.get .txclr w).getLsbD 0 = true then false else h.txovf :=
  writeFields_trigger Hw.txovf .txclr false (fun h v => by simp only [Hw.writeField]; split <;> rfl)
    (fun h v g hg hn => (h.writeField_frame p.fifoDepth g v).2.2.2.2.2.2.2.2.2.2.2.2.1 hn (fun e => ht (e ▸ hg))) w h

theorem writeFields_txudf :
    (h.writeFields p w fs).txudf = if Field.txclr ∈ fs ∧ (p.get .txclr w).getLsbD 0 = true then false else h.txudf :=
  writeFields_trigger Hw.txudf .txclr false (fun h v => by simp only [Hw.writeField]; split <;> rfl)
    (fun h v g _ hn => (h.writeField_frame p.fifoDepth g v).2.2.2.2.2.2.2.2.2.2.2.2.2.1 hn) w h

theorem writeFields_rxf :
    (h.writeFields p w fs).rxf = if Field.rxclr ∈ fs ∧ (p.get .rxclr w).getLsbD 0 = true then [] else h.rxf :=
  writeFields_trigger Hw.rxf .rxclr [] (fun h v => by simp only [Hw.writeField]; split <;> rfl)
    (fun h v g _ hn => (h.writeField_frame p.fifoDepth g v).2.2.2.2.2.2.2.2.2.2.2.2.2.2.1 hn) w h

theorem writeFields_rxovf :
    (h.writeFields p w fs).rxovf = if Field.rxclr ∈ fs ∧ (p.get .rxclr w).getLsbD 0 = true then false else h.rxovf :=
  writeFields_trigger Hw.rxovf .rxclr false (fun h v => by simp only [Hw.writeField]; split <;> rfl)
    (fun h v g _ hn => (h.writeField_frame p.fifoDepth g v).2.2.2.2.2.2.2.2.2.2.2.2.2.2.2.1 hn) w h

theorem writeFields_rxudf :
    (h.writeFields p w fs).rxudf = if Field.rxclr ∈ fs ∧ (p.get .rxclr w).getLsbD 0 = true then false else h.rxudf :=
  writeFields_trigger Hw.rxudf .rxclr false (fun h v => by simp only [Hw.writeField]; split <;> rfl)
    (fun h v g _ hn => (h.writeField_frame p.fifoDepth g v).2.2.2.2.2.2.2.2.2.2.2.2.2.2.2.2.1 hn) w h

@[simp] theorem writeFields_eng : (h.writeFields p w fs).eng = h.eng :=
  writeFields_same Hw.eng (fun h v g _ => (h.writeField_frame p.fifoDepth g v).2.2.2.2.2.2.2.2.2.2.2.2.2.2.2.2.2.1) w h

@[simp] theorem writeFields_cycle : (h.writeFields p w fs).cycle = h.cycle :=
  writeFields_same Hw.cycle (fun h v g _ => (h.writeField_frame p.fifoDepth g v).2.2.2.2.2.2.2.2.2.2.2.2.2.2.2.2.2.2.1) w h

@[simp] theorem writeFields_u : (h.writeFields p w fs).u = h.u :=
  writeFields_same Hw.u (fun h v g _ => (h.writeField_frame p.fifoDepth g v).2.2.2.2.2.2.2.2.2.2.2.2.2.2.2.2.2.2.2) w h

/-- Storing the unmodelled bits changes `U` alone. -/
theorem Hw.storeU_eq (o : BitVec 8) : ∃ u, h.storeU p o w fs = { h with u := u } ∧ (storesU fs = false → u = h.u) := by
  unfold Hw.storeU
  split
  · exact ⟨_, rfl, fun hc => by simp_all⟩
  · exact ⟨h.u, rfl, fun _ => rfl⟩

end

/-- A write of a field's word answers exactly when nothing refuses it, and then has every field's effect (R138, R150). -/
theorem regWrite_eq_next {f : Field} {w : Word} {s t : State} :
    regWrite f w s = .next t ↔
      (s.params.wordOf f).isEmpty = false ∧ s.params.together f .rxd = false ∧
      (s.hw.busy && (s.params.wordOf f).any Field.guarded) = false ∧ changesDma (s.params.offset f) w s = false ∧
      t = s.withHw ((s.hw.writeFields s.params w (s.params.wordOf f)).storeU s.params (s.params.offset f) w
        (s.params.wordOf f)) := by
  rw [regWrite_eq, writeWord, ← Params.contains_wordOf]
  change (if (s.params.wordOf f).isEmpty = true then _ else if (s.params.wordOf f).contains .rxd = true then _
    else if (s.hw.busy && (s.params.wordOf f).any Field.guarded) = true then _ else _) = _ ↔ _
  cases (s.params.wordOf f).isEmpty with
  | true => exact ⟨fun h => (by cases h), fun h => (by cases h.1)⟩
  | false =>
    cases (s.params.wordOf f).contains .rxd with
    | true => exact ⟨fun h => (by cases h), fun h => (by cases h.2.1)⟩
    | false =>
      cases (s.hw.busy && (s.params.wordOf f).any Field.guarded) with
      | true => exact ⟨fun h => (by cases h), fun h => (by cases h.2.2.1)⟩
      | false =>
        cases changesDma (s.params.offset f) w s with
        | true => exact ⟨fun h => (by cases h), fun h => (by cases h.2.2.2.1)⟩
        | false => exact ⟨fun h => ⟨rfl, rfl, rfl, rfl, (Host.Outcome.next.inj h).symm⟩, fun h => h.2.2.2.2 ▸ rfl⟩

/-- A write never faults. -/
theorem regWrite_ne_fault (f : Field) (w : Word) (s : State) (e : Fault) : regWrite f w s ≠ .fault e := by
  rw [regWrite_eq, writeWord]
  split
  · simp
  · split
    · simp
    · split
      · simp
      · split <;> simp

/-- A push through `TXD`'s word (R142). -/
theorem regWrite_txd {s : State} (h : ParamsOk s.params) (w : Word) :
    regWrite .txd w s = .next (s.withHw (s.hw.pushTx s.params.fifoDepth ((s.params.get .txd w).setWidth 8))) := by
  rw [regWrite_eq_next]
  have e := h.wordOf_txd
  refine ⟨by rw [e]; rfl, by rw [h.txd_alone]; rfl, by rw [e]; simp [Field.guarded], ?_, by rw [e]; rfl⟩
  unfold changesDma
  change (_ && storesU (s.params.wordOf .txd) && _) = false
  rw [e]
  simp [storesU]

end Sys2Proof.Machine
end

