-- ==== Sys2Proof/Laws/Modify.lean ====
section
/-! SUPPORT. `RegModify` (40_register_access R151) under any usable `LAYOUT`: what its read keeps and what its write changes. -/

namespace Sys2Proof.Machine

/-- What a `RegModify` may be asked to write: fields with a place in the SPI space, no data port, no field twice, every value
inside its field. -/
structure Modifiable (p : Params) (todo : List (Field × Word)) : Prop where
  nodup : (todo.map Prod.fst).Nodup
  spi   : ∀ x ∈ todo, fieldSpace x.1 = .spi
  txd   : ∀ x ∈ todo, x.1 ≠ .txd
  rxd   : ∀ x ∈ todo, x.1 ≠ .rxd
  fits  : ∀ x ∈ todo, x.2.toNat < 2 ^ Field.width p.cntBits x.1

theorem Modifiable.filter {p : Params} {todo : List (Field × Word)} (h : Modifiable p todo) (q : Field × Word → Bool) :
    Modifiable p (todo.filter q) where
  nodup := h.nodup.sublist (List.filter_sublist.map _)
  spi x hx := h.spi x (List.mem_of_mem_filter hx)
  txd x hx := h.txd x (List.mem_of_mem_filter hx)
  rxd x hx := h.rxd x (List.mem_of_mem_filter hx)
  fits x hx := h.fits x (List.mem_of_mem_filter hx)

theorem lookup_eq_none {todo : List (Field × Word)} {f : Field} (h : f ∉ todo.map Prod.fst) : todo.lookup f = none := by
  induction todo with
  | nil => rfl
  | cons x todo ih =>
    obtain ⟨g, v⟩ := x
    simp only [List.map_cons, List.mem_cons, not_or] at h
    rw [List.lookup_cons, show (f == g) = false by simpa using h.1]
    exact ih h.2

/-- What a list assigns to a field after the pairs of some fields are taken out. -/
theorem lookup_filter (todo : List (Field × Word)) (q : Field → Bool) (f : Field) :
    (todo.filter fun x => q x.1).lookup f = if q f then todo.lookup f else none := by
  induction todo with
  | nil => simp
  | cons x todo ih =>
    obtain ⟨g, v⟩ := x
    by_cases hg : f = g
    · subst hg
      by_cases hq : q f = true
      · simp [hq]
      · simp [hq, ih]
    · by_cases hq : q g = true
      · simp only [hq, List.filter_cons_of_pos, List.lookup_cons, show (f == g) = false by simpa using hg, ih]
      · simp only [hq, Bool.false_eq_true, not_false_eq_true, List.filter_cons_of_neg, List.lookup_cons,
          show (f == g) = false by simpa using hg, ih]

/-- A field of the word that a `RegModify` writes: the value it was asked to write, or what it has read. -/
theorem get_modifyWord {p : Params} (h : ParamsOk p) {todo : List (Field × Word)} (hm : Modifiable p todo) {f g : Field}
    (ht : p.together f g = true) (t : Word) :
    p.get g (Modify.word p f todo t) = (todo.lookup g).getD (p.get g t) := by
  unfold Modify.word
  induction todo generalizing t with
  | nil => rfl
  | cons x todo ih =>
    obtain ⟨k, v⟩ := x
    have hm' : Modifiable p todo :=
      ⟨(List.nodup_cons.mp hm.nodup).2, fun x hx => hm.spi x (List.mem_cons_of_mem _ hx),
        fun x hx => hm.txd x (List.mem_cons_of_mem _ hx), fun x hx => hm.rxd x (List.mem_cons_of_mem _ hx),
        fun x hx => hm.fits x (List.mem_cons_of_mem _ hx)⟩
    rw [List.foldl_cons, ih hm', List.lookup_cons]
    by_cases hk : g = k
    · subst hk
      have hn : todo.lookup g = none := lookup_eq_none (List.nodup_cons.mp hm.nodup).1
      simp only [hn, Option.getD_none, ht, if_true, beq_self_eq_true, Option.getD_some]
      exact h.get_put_same g t (hm.fits (g, v) (by simp))
    · simp only [show (g == k) = false by simpa using hk]
      by_cases hkt : p.together f k = true
      · simp only [hkt, if_true]
        rw [h.get_put_other hk (by rw [h.together_offset ht]; exact hkt) (h.together_spi ht)]
      · simp only [hkt, Bool.false_eq_true, if_false]

/-! The unmodelled bits. -/

/-- The field's place covers bit `i`. -/
def covers (p : Params) (f : Field) (i : Nat) : Prop :=
  (p.layout.place f).lo ≤ i ∧ i < (p.layout.place f).lo + Field.width p.cntBits f

theorem put_getLsbD {p : Params} (f : Field) (v w : Word) {i : Nat} (hi : i < 32) (hc : ¬ covers p f i) :
    (p.put f v w).getLsbD i = w.getLsbD i := by
  exact (setBits_getLsbD _ _ hi).trans (if_neg hc)

/-- Putting every field of `a` into a word makes it `a` where some field stands. -/
theorem foldl_put_get {p : Params} (a : Word) {i : Nat} (hi : i < 32) (fs : List Field) (w : Word)
    (h : w.getLsbD i = a.getLsbD i ∨ ∃ f ∈ fs, covers p f i) :
    (fs.foldl (fun w f => p.put f (p.get f a) w) w).getLsbD i = a.getLsbD i := by
  induction fs generalizing w with
  | nil => simpa using h
  | cons f fs ih =>
    rw [List.foldl_cons]
    apply ih
    by_cases hc : covers p f i
    · left
      have hc' := hc
      unfold covers at hc'
      refine ((setBits_getLsbD _ _ hi).trans (if_pos hc)).trans ?_
      rw [Params.get, getBits_getLsbD]
      simp [show i - (p.layout.place f).lo < Field.width p.cntBits f by omega,
        show (p.layout.place f).lo + (i - (p.layout.place f).lo) = i by omega]
    · rcases h with h | ⟨g, hg, hgc⟩
      · left; rw [put_getLsbD f _ _ hi hc, h]
      · rcases List.mem_cons.mp hg with rfl | hg
        · exact absurd hgc hc
        · exact .inr ⟨g, hg, hgc⟩

theorem foldl_put_outside {p : Params} {val : Field → Word} {i : Nat} (hi : i < 32) (fs : List Field)
    (h : ∀ f ∈ fs, ¬ covers p f i) (w : Word) :
    (fs.foldl (fun w f => p.put f (val f) w) w).getLsbD i = w.getLsbD i := by
  induction fs generalizing w with
  | nil => rfl
  | cons f fs ih =>
    rw [List.foldl_cons, ih (fun g hg => h g (List.mem_cons_of_mem _ hg)), put_getLsbD f _ _ hi (h f (by simp))]

theorem modifyWord_outside {p : Params} {f : Field} {i : Nat} (hi : i < 32)
    (h : ∀ g, p.together f g = true → ¬ covers p g i) (todo : List (Field × Word)) (t : Word) :
    (Modify.word p f todo t).getLsbD i = t.getLsbD i := by
  unfold Modify.word
  induction todo generalizing t with
  | nil => rfl
  | cons x todo ih =>
    rw [List.foldl_cons, ih]
    split
    · exact put_getLsbD _ _ _ hi (h _ (by assumption))
    · rfl

theorem dma_modifyWord {p : Params} (h : ParamsOk p) {f : Field} (hd : p.layout.dma.space = .spi)
    (ho : p.layout.dma.offset = p.offset f) (todo : List (Field × Word)) (t : Word) :
    p.dmaBits (Modify.word p f todo t) = p.dmaBits t := by
  unfold Modify.word
  induction todo generalizing t with
  | nil => rfl
  | cons x todo ih =>
    rw [List.foldl_cons, ih]
    split
    · exact h.dma_put (by rw [ho]; assumption) hd _ _
    · rfl

/-- A word with unmodelled bits reads them as they are stored. -/
theorem background_storesU {s : State} {o : BitVec 8} {fs : List Field} (h : storesU fs = true) : s.background o fs = s.hw.u.at o := by
  simp only [storesU, Bool.and_eq_true, Bool.not_eq_true'] at h
  simp only [State.background, h, Bool.or_self, Bool.false_eq_true, if_false]

/-- A `RegModify` writes the unmodelled bits back as it has read them. -/
theorem storeU_modifyWord {s : State} (f : Field) (todo : List (Field × Word)) (h : Hw) (hu : h.u = s.hw.u) :
    h.storeU s.params (s.params.offset f) (Modify.word s.params f todo (s.wordAt f)) (s.params.wordOf f) = h := by
  unfold Hw.storeU
  split
  · rename_i hs
    have e : (s.params.wordOf f).foldl (fun w g => s.params.put g (s.params.get g (h.u.at (s.params.offset f))) w)
        (Modify.word s.params f todo (s.wordAt f)) = h.u.at (s.params.offset f) := by
      apply word_ext
      intro i hi
      apply foldl_put_get _ hi
      by_cases hc : ∃ g ∈ s.params.wordOf f, covers s.params g i
      · exact .inr hc
      · left
        have hc' : ∀ g ∈ s.params.wordOf f, ¬ covers s.params g i := fun g hg hgc => hc ⟨g, hg, hgc⟩
        rw [modifyWord_outside hi (fun g hg => hc' g (Params.mem_wordOf.mpr hg)), State.wordAt, foldl_put_outside hi _ hc',
          background_storesU hs, hu]
    rw [e, UBits.put_at]
  · rfl

/-- A `RegModify` leaves the DMA enables. -/
theorem changesDma_modifyWord {s : State} (h : ParamsOk s.params) (f : Field) (todo : List (Field × Word)) (s' : State)
    (hu : s'.hw.u = s.hw.u) (hp : s'.params = s.params) :
    changesDma (s.params.offset f) (Modify.word s.params f todo (s.wordAt f)) s' = false := by
  unfold changesDma
  rw [hp, hu]
  by_cases hd : s.params.layout.dma.space = .spi
  · by_cases ho : s.params.layout.dma.offset = s.params.offset f
    · change (_ && storesU (s.params.wordOf f) && _) = false
      by_cases hs : storesU (s.params.wordOf f) = true
      · have e : s.params.dmaBits (s.wordAt f) = s.params.dmaBits (s.hw.u.at (s.params.offset f)) := by
          rw [State.wordAt, foldl_put_dma h hd _ (fun g hg => by rw [ho]; exact Params.mem_wordOf.mp hg), background_storesU hs]
        rw [dma_modifyWord h hd ho, e]
        simp
      · simp [hs]
    · simp [ho]
  · simp [hd]

/-! What a `RegModify` changes. -/

/-- The trigger is asked to fire. -/
def firesIn (todo : List (Field × Word)) (f : Field) : Bool :=
  (todo.lookup f).elim false (·.getLsbD 0)

/-- Two Layer H states are equal when every piece is. -/
theorem Hw.ext_fields {a b : Hw} (h1 : a.role = b.role) (h2 : a.mEn = b.mEn) (h3 : a.sEn = b.sEn) (h4 : a.cpol = b.cpol)
    (h5 : a.cpha = b.cpha) (h6 : a.cont = b.cont) (h7 : a.fsize = b.fsize) (h8 : a.bitord = b.bitord) (h9 : a.ph0 = b.ph0)
    (h10 : a.ph1 = b.ph1) (h11 : a.idle = b.idle) (h12 : a.txovf = b.txovf) (h13 : a.txudf = b.txudf)
    (h14 : a.rxovf = b.rxovf) (h15 : a.rxudf = b.rxudf) (h16 : a.txf = b.txf) (h17 : a.rxf = b.rxf) (h18 : a.eng = b.eng)
    (h19 : a.cycle = b.cycle) (h20 : a.u = b.u) : a = b := by
  cases a; cases b; simp_all

/-- Layer H with every pair of a list written to its field. -/
def Hw.assign (todo : List (Field × Word)) (h : Hw) : Hw :=
  { h with
    role := (todo.lookup .role).elim h.role (·.getLsbD 0), mEn := (todo.lookup .mEn).elim h.mEn (·.getLsbD 0),
    sEn := (todo.lookup .sEn).elim h.sEn (·.getLsbD 0), cpol := (todo.lookup .cpol).elim h.cpol (·.getLsbD 0),
    cpha := (todo.lookup .cpha).elim h.cpha (·.getLsbD 0), cont := (todo.lookup .cont).elim h.cont (·.getLsbD 0),
    fsize := (todo.lookup .fsize).elim h.fsize (·.setWidth 2), bitord := (todo.lookup .bitord).elim h.bitord (·.getLsbD 0),
    ph0 := (todo.lookup .ph0).elim h.ph0 (·.setWidth 8), ph1 := (todo.lookup .ph1).elim h.ph1 (·.setWidth 8),
    idle := (todo.lookup .idle).elim h.idle (·.setWidth 8),
    txf := if firesIn todo .txclr then [] else h.txf, txovf := if firesIn todo .txclr then false else h.txovf,
    txudf := if firesIn todo .txclr then false else h.txudf, rxf := if firesIn todo .rxclr then [] else h.rxf,
    rxovf := if firesIn todo .rxclr then false else h.rxovf, rxudf := if firesIn todo .rxclr then false else h.rxudf }

theorem firesIn_filter (todo : List (Field × Word)) (q : Field → Bool) (f : Field) :
    firesIn (todo.filter fun x => q x.1) f = (q f && firesIn todo f) := by
  unfold firesIn
  rw [lookup_filter]
  cases q f <;> simp

/-- Assigning the pairs of some fields and then the others assigns all. -/
theorem Hw.assign_filter (todo : List (Field × Word)) (q : Field → Bool) (h : Hw) :
    (h.assign (todo.filter fun x => q x.1)).assign (todo.filter fun x => !q x.1) = h.assign todo := by
  have l1 := lookup_filter todo q
  have l2 := lookup_filter todo (fun f => !q f)
  have f1 := firesIn_filter todo q
  have f2 := firesIn_filter todo (fun f => !q f)
  have e : ∀ {α : Type} (f : Field) (g : Word → α) (x : α),
      ((todo.filter fun x => !q x.1).lookup f).elim (((todo.filter fun x => q x.1).lookup f).elim x g) g =
        (todo.lookup f).elim x g := by
    intro α f g x
    rw [l1, l2]
    cases q f <;> simp
  have e2 : ∀ {α : Type} (f : Field) (c x : α),
      (if firesIn (todo.filter fun x => !q x.1) f = true then c
        else if firesIn (todo.filter fun x => q x.1) f = true then c else x) = if firesIn todo f = true then c else x := by
    intro α f c x
    rw [f1, f2]
    cases q f <;> cases firesIn todo f <;> simp
  unfold Hw.assign
  simp only [e, e2]

/-- What the write of a `RegModify` leaves: its fields assigned, the rest of Layer H as the word was read. -/
theorem writeFields_modifyWord {s : State} (h : ParamsOk s.params) {f : Field} {todo : List (Field × Word)}
    (hm : Modifiable s.params todo) (hs : fieldSpace f = .spi) (ht : f ≠ .txd) :
    s.hw.writeFields s.params (Modify.word s.params f todo (s.wordAt f)) (s.params.wordOf f) =
      s.hw.assign (todo.filter fun x => s.params.together f x.1) := by
  have g : ∀ g, g ∈ s.params.wordOf f → FieldFits s g →
      s.params.get g (Modify.word s.params f todo (s.wordAt f)) = (todo.lookup g).getD (s.value g) := fun g hg hc => by
    have := Params.mem_wordOf.mp hg
    rw [get_modifyWord h hm this, get_wordAt h hc this]
  have m : ∀ g, g ∈ s.params.wordOf f ↔ s.params.together f g = true := fun g => Params.mem_wordOf
  have nt : Field.txd ∉ s.params.wordOf f := by rw [m, h.not_txd hs ht]; simp
  have lk := lookup_filter todo (s.params.together f)
  have fi := firesIn_filter todo (s.params.together f)
  have comp : ∀ {α : Type} (k : Field) (v : Word → α) (x : α), FieldFits s k → v (s.value k) = x →
      (if k ∈ s.params.wordOf f then v (s.params.get k (Modify.word s.params f todo (s.wordAt f))) else x) =
        ((todo.filter fun x => s.params.together f x.1).lookup k).elim x v := by
    intro α k v x hc hx
    rw [lk]
    by_cases hk : k ∈ s.params.wordOf f
    · rw [if_pos hk, if_pos ((m k).mp hk), g k hk hc]
      cases todo.lookup k <;> simp [hx]
    · rw [if_neg hk, if_neg (fun e => hk ((m k).mpr e))]
      rfl
  have trig : ∀ {α : Type} (k : Field) (c x : α), FieldFits s k → s.value k = 0 →
      (if k ∈ s.params.wordOf f ∧ (s.params.get k (Modify.word s.params f todo (s.wordAt f))).getLsbD 0 = true then c else x) =
        if firesIn (todo.filter fun x => s.params.together f x.1) k = true then c else x := by
    intro α k c x hc hx
    rw [fi]
    by_cases hk : k ∈ s.params.wordOf f
    · rw [g k hk hc, (m k).mp hk, hx]
      unfold firesIn
      cases todo.lookup k <;> simp [hk]
    · rw [if_neg (fun e => hk e.1), if_neg (fun e => hk ((m k).mpr (by simp_all)))]
  have bw : ∀ b, (bitWord b).getLsbD 0 = b := bitWord_getLsbD_zero
  have w8 : ∀ b : Byte, (b.setWidth 32).setWidth 8 = b := fun b => by
    apply BitVec.eq_of_toNat_eq
    have := b.isLt
    simp
  have w2 : ∀ b : BitVec 2, (b.setWidth 32).setWidth 2 = b := fun b => by
    apply BitVec.eq_of_toNat_eq
    have := b.isLt
    simp
  apply Hw.ext_fields
  · rw [writeFields_role]; exact comp .role (·.getLsbD 0) _ (fieldFits_of_ne (by decide) (by decide)) (bw _)
  · rw [writeFields_mEn]; exact comp .mEn (·.getLsbD 0) _ (fieldFits_of_ne (by decide) (by decide)) (bw _)
  · rw [writeFields_sEn]; exact comp .sEn (·.getLsbD 0) _ (fieldFits_of_ne (by decide) (by decide)) (bw _)
  · rw [writeFields_cpol]; exact comp .cpol (·.getLsbD 0) _ (fieldFits_of_ne (by decide) (by decide)) (bw _)
  · rw [writeFields_cpha]; exact comp .cpha (·.getLsbD 0) _ (fieldFits_of_ne (by decide) (by decide)) (bw _)
  · rw [writeFields_cont]; exact comp .cont (·.getLsbD 0) _ (fieldFits_of_ne (by decide) (by decide)) (bw _)
  · rw [writeFields_fsize]; exact comp .fsize _ _ (fieldFits_of_ne (by decide) (by decide)) (w2 _)
  · rw [writeFields_bitord]; exact comp .bitord (·.getLsbD 0) _ (fieldFits_of_ne (by decide) (by decide)) (bw _)
  · rw [writeFields_ph0]; exact comp .ph0 _ _ (fieldFits_of_ne (by decide) (by decide)) (w8 _)
  · rw [writeFields_ph1]; exact comp .ph1 _ _ (fieldFits_of_ne (by decide) (by decide)) (w8 _)
  · rw [writeFields_idle]; exact comp .idle _ _ (fieldFits_of_ne (by decide) (by decide)) (w8 _)
  · rw [writeFields_txovf _ _ nt]; exact trig .txclr _ _ (fieldFits_of_ne (by decide) (by decide)) rfl
  · rw [writeFields_txudf]; exact trig .txclr _ _ (fieldFits_of_ne (by decide) (by decide)) rfl
  · rw [writeFields_rxovf]; exact trig .rxclr _ _ (fieldFits_of_ne (by decide) (by decide)) rfl
  · rw [writeFields_rxudf]; exact trig .rxclr _ _ (fieldFits_of_ne (by decide) (by decide)) rfl
  · rw [writeFields_txf _ _ nt]; exact trig .txclr _ _ (fieldFits_of_ne (by decide) (by decide)) rfl
  · rw [writeFields_rxf]; exact trig .rxclr _ _ (fieldFits_of_ne (by decide) (by decide)) rfl
  · exact writeFields_eng _ _
  · exact writeFields_cycle _ _
  · exact writeFields_u _ _

/-! The word that is written last. -/

theorem mem_lastWord {p : Params} {f : Field} {todo : List (Field × Word)} {x : Field × Word} :
    x ∈ lastWord p f todo ↔ x ∈ todo := by
  simp only [lastWord, List.mem_append, List.mem_filter]
  cases p.together f x.1 <;> simp

theorem lookup_lastWord (p : Params) (f : Field) (todo : List (Field × Word)) (g : Field) :
    (lastWord p f todo).lookup g = todo.lookup g := by
  rw [lastWord, List.lookup_append, lookup_filter todo (fun g => !p.together f g), lookup_filter todo (p.together f)]
  cases p.together f g <;> simp

theorem lastWord_perm (p : Params) (f : Field) (todo : List (Field × Word)) : (lastWord p f todo).Perm todo :=
  List.perm_append_comm.trans (List.filter_append_perm (fun x => p.together f x.1) todo)

theorem Modifiable.lastWord {p : Params} {todo : List (Field × Word)} (h : Modifiable p todo) (f : Field) :
    Modifiable p (lastWord p f todo) where
  nodup := ((lastWord_perm p f todo).map Prod.fst).nodup_iff.mpr h.nodup
  spi x hx := h.spi x (mem_lastWord.mp hx)
  txd x hx := h.txd x (mem_lastWord.mp hx)
  rxd x hx := h.rxd x (mem_lastWord.mp hx)
  fits x hx := h.fits x (mem_lastWord.mp hx)

/-- In whichever order the words are written, Layer H ends the same. -/
theorem Hw.assign_lastWord (p : Params) (f : Field) (todo : List (Field × Word)) (h : Hw) :
    h.assign (lastWord p f todo) = h.assign todo := by
  have e : firesIn (lastWord p f todo) = firesIn todo := by
    funext g
    rw [firesIn, lookup_lastWord]
    rfl
  simp only [Hw.assign, lookup_lastWord, e]

/-- Only fields of that word follow a field of it. -/
theorem lastWord_pairwise (p : Params) (f : Field) (todo : List (Field × Word)) :
    (lastWord p f todo).Pairwise fun x y => p.together f x.1 = true → p.together f y.1 = true := by
  refine List.pairwise_append.mpr ⟨?_, ?_, ?_⟩
  · exact List.pairwise_of_forall_mem_list fun x hx y _ e => by simp [List.mem_filter, e] at hx
  · exact List.pairwise_of_forall_mem_list fun x _ y hy _ => (List.mem_filter.mp hy).2
  · exact fun x hx y _ e => by simp [List.mem_filter, e] at hx

/-- The read of a `RegModify`'s next word. -/
theorem modifyAccess_read {s : State} (h : ParamsOk s.params) {x : Field × Word} {rest : List (Field × Word)}
    (hm : Modifiable s.params (x :: rest)) :
    ∃ d, modifyAccess { todo := x :: rest, read := none } s =
      .next (.again { todo := x :: rest, read := some (s.wordAt x.1) }, s.drawn d) := by
  have hs := hm.spi x (by simp)
  obtain ⟨d, hd⟩ := afterRead_plain (s.params.wordOf x.1) s
    (by rw [Params.contains_wordOf]; exact h.not_rxd hs (hm.rxd x (by simp)))
  exact ⟨d, by simp only [modifyAccess]; rw [regRead_next h hs (hm.txd x (by simp)), hd]; rfl⟩

/-- The write of a `RegModify`'s word, which holds what was read in `s`; Layer H is still as it was then. -/
theorem modifyAccess_write {s s' : State} (h : ParamsOk s.params) {x : Field × Word}
    {rest : List (Field × Word)} (hm : Modifiable s.params (x :: rest)) (hh : s'.hw = s.hw) (hp : s'.params = s.params)
    (hg : s.hw.busy = false ∨ (s.params.wordOf x.1).any Field.guarded = false) :
    modifyAccess { todo := x :: rest, read := some (s.wordAt x.1) } s' =
      .next (match rest.filter fun y => !s.params.together x.1 y.1 with
             | [] => .done
             | left => .again { todo := left, read := none },
        s'.withHw (s.hw.assign ((x :: rest).filter fun y => s.params.together x.1 y.1))) := by
  have hs := hm.spi x (by simp)
  have ht := hm.txd x (by simp)
  have hw : regWrite x.1 (Modify.word s.params x.1 (x :: rest) (s.wordAt x.1)) s' =
      .next (s'.withHw (s.hw.assign ((x :: rest).filter fun y => s.params.together x.1 y.1))) := by
    rw [regWrite_eq_next, hp, hh]
    refine ⟨h.wordOf_ne_nil hs, h.not_rxd hs (hm.rxd x (by simp)), ?_, ?_, ?_⟩
    · rcases hg with hg | hg <;> simp [hg]
    · exact changesDma_modifyWord h _ _ _ (by rw [hh]) hp
    · rw [storeU_modifyWord _ _ _ (by simp), writeFields_modifyWord h hm hs ht]
  simp only [modifyAccess]
  rw [hp, hw, andThen_next]
  generalize rest.filter _ = left
  cases left <;> rfl

end Sys2Proof.Machine
end

