-- ==== Sys2Proof/Laws/Command.lean ====
section
/-! SUPPORT. The running command: what one access of each command answers, what a host turn does with it, and the steps that
a placed slot leads to. -/

namespace Sys2Proof.Machine

/-! Runs. -/

@[simp] theorem runFor_zero (s : State) : runFor 0 s = .next s := rfl

/-- The host's run, one step and the others. -/
theorem coreRun_succ (M : Host.Core) (k : Nat) (s : M.State) :
    M.run (k + 1) s =
      match M.step s with
      | .next t => M.run k t
      | .fault r => .fault r
      | .refused r => .refused r := rfl

/-- One step, then the others. -/
theorem runFor_succ (k : Nat) (s : State) : runFor (k + 1) s = andThen (step s) (runFor k) := by
  refine (coreRun_succ core k s).trans ?_
  change _ = andThen (core.step s) (runFor k)
  cases core.step s <;> rfl

/-- A run of `j + k` steps is a run of `j`, then one of `k`. -/
theorem runFor_add {j k : Nat} {s t : State} (h : runFor j s = .next t) : runFor (j + k) s = runFor k t := by
  induction j generalizing s with
  | zero => simp only [runFor_zero, Host.Outcome.next.injEq] at h; rw [h, Nat.zero_add]
  | succ j ih =>
    rw [runFor_succ] at h
    obtain ⟨u, hu, hr⟩ := andThen_eq_next.mp h
    rw [show j + 1 + k = (j + k) + 1 by omega, runFor_succ, hu, andThen_next, ih hr]

/-- A step that answers, then a run. -/
theorem runFor_step {k : Nat} {s t : State} (h : step s = .next t) : runFor (k + 1) s = runFor k t := by
  rw [runFor_succ, h, andThen_next]

/-- A run of one step. -/
theorem runFor_one (s : State) : runFor 1 s = step s := by
  rw [runFor_succ]
  cases step s <;> rfl

/-! What a placed slot leads to. -/

/-- A host turn advances the running command. -/
theorem step_hostTurn {s : State} {rest : List Slot} (h : s.program = .hostTurn :: rest) :
    step s = advance (s.withProgram rest) := by
  simp [step, fetch, h, takeTurn]

/-- A slot that holds FRAME_START. -/
theorem step_frameStart {s : State} {rest : List Slot} (h : s.program = .code .K (encode .frameStart) :: rest) :
    step s = .next ((s.withProgram rest).withHw s.hw.frameStart) := by
  have hd : decode .K (encode .frameStart) = .ok (.frameStart, []) := rfl
  simp [step, fetch, fetchCode, h, hd, autonomous, Instr.wellFormed, exec, execFrameStart]

/-- A slot that holds FRAME_COMPLETE. -/
theorem step_frameComplete {s : State} {r : Byte} {rest : List Slot}
    (h : s.program = .code .K (encode (.frameComplete r)) :: rest) :
    step s = .next ((s.withProgram rest).frameComplete r) := by
  have hd : decode .K (encode (.frameComplete r)) = .ok (.frameComplete r, []) := rfl
  simp [step, fetch, fetchCode, h, hd, autonomous, Instr.wellFormed, exec, execFrameComplete]

/-- A slot that holds TICK. -/
theorem step_tick {s : State} {rest : List Slot} (h : s.program = .code .K (encode .tick) :: rest) :
    step s = .next ((s.withProgram rest).withHw s.hw.tick) := by
  have hd : decode .K (encode .tick) = .ok (.tick, []) := rfl
  simp [step, fetch, fetchCode, h, hd, autonomous, Instr.wellFormed, exec, execTick]

/-- Placed ticks are counted, whatever else the machine is doing. -/
theorem runFor_ticks (n : Nat) {s : State} {rest : List Slot} (h : s.program = ticks n ++ rest) :
    runFor n s = .next ((s.withProgram rest).withHw { s.hw with cycle := s.hw.cycle + BitVec.ofNat 64 n }) := by
  induction n generalizing s with
  | zero => cases s; simp_all [ticks, State.withProgram, State.withHw]
  | succ n ih =>
    have h' : s.program = .code .K (encode .tick) :: (ticks n ++ rest) := by simpa [ticks, List.replicate_succ] using h
    rw [runFor_step (step_tick h'), ih (by simp)]
    have hc : s.hw.cycle + 1 + BitVec.ofNat 64 n = s.hw.cycle + BitVec.ofNat 64 (n + 1) := by
      rw [BitVec.add_assoc, Nat.add_comm n 1, BitVec.ofNat_add]
      rfl
    simp only [State.withProgram, State.withHw, Hw.tick]
    rw [hc]

/-! The host's turn. -/

/-- With no command running a host turn does nothing. -/
theorem advance_none {s : State} (h : s.host.running = none) : advance s = .next s := by
  simp [advance, h]

/-- A host turn makes one access of the running command and settles what came of it. -/
theorem advance_some {s : State} {r : Running} (h : s.host.running = some r) (hr : r.stale = false) :
    advance s = andThen (access r.act s) fun x => settle x.1 r.txn x.2 := by
  simp [advance, h, hr]

/-- A command that a RESET came in the middle of is refused at its next access (R362; log 15). -/
theorem advance_stale {s : State} {r : Running} (h : s.host.running = some r) (hr : r.stale = true) :
    advance s = .refused .resetInCommand := by
  simp [advance, h, hr]

/-- A host turn that answers, with a command running: its access answers. -/
theorem advance_eq_next {s t : State} {r : Running} (h : s.host.running = some r) (ha : advance s = .next t) :
    r.stale = false ∧ ∃ q u, access r.act s = .next (q, u) ∧ settle q r.txn u = .next t := by
  cases hr : r.stale with
  | true => rw [advance_stale h hr] at ha; cases ha
  | false =>
    rw [advance_some h hr] at ha
    obtain ⟨⟨q, u⟩, h1, h2⟩ := andThen_eq_next.mp ha
    exact ⟨rfl, q, u, h1, h2⟩

/-- A command begins with its first access. -/
theorem start_eq (a : Activity) (s : State) :
    start a s = andThen (access a (s.withRunning (some { act := a, txn := none }))) fun x => settle x.1 none x.2 :=
  rfl

@[simp] theorem settle_more (a : Activity) (txn : Option Txn) (s : State) :
    settle (.more a) txn s = .next (s.withRunning (some { act := a, txn := txn })) := rfl

@[simp] theorem settle_hostEnds (txn : Option Txn) (s : State) : settle .hostEnds txn s = .next s.endHost := rfl

/-- A result of a command that no transaction runs goes to the caller. -/
@[simp] theorem settle_done (r : Ret) (s : State) : settle (.done r) none s = .next (s.finish r) := by
  cases r <;> rfl

/-- An error ends the command and the transaction it is an operation of (R307, R330). -/
@[simp] theorem settle_error (e : Err) (txn : Option Txn) (s : State) : settle (.done (.err e)) txn s = .next (s.raise e) := rfl

/-- An operation that returned `Ok` hands over to the next one (R301). -/
@[simp] theorem settle_ok_txn (t : Txn) (s : State) :
    settle (.done .ok) (some t) s = nextOperation t.rest (t.k + 1) s := rfl

/-- A delay that returned hands over to the next operation (R301, R306). -/
@[simp] theorem settle_unit_txn (t : Txn) (s : State) :
    settle (.done .unit) (some t) s = nextOperation t.rest (t.k + 1) s := rfl

/-! The polls. -/

theorem Hw.noFlags_iff {h : Hw} :
    h.noFlags = true ↔ h.txovf = false ∧ h.txudf = false ∧ h.rxovf = false ∧ h.rxudf = false := by
  simp [Hw.noFlags, and_assoc]

/-- A flag as the host sees it in the word it read (R117). -/
theorem isSet_eq {p : Params} {f : Field} {w : Word} {b : Bool} (h : p.get f w = bitWord b) : p.isSet f w = b := by
  rw [Params.isSet, h]
  cases b <;> decide

section

variable {s : State}

/-- The read of the overflow flag's word: what the poll comes to (R260, R261, R329). -/
theorem overflowAccess_next (h : ParamsOk s.params) {f g : Field} {eo eu : Err} {bo bu : Bool}
    (hs : fieldSpace f = .spi) (ht : f ≠ .txd) (hr : f ≠ .rxd) (hof : FieldFits s f) (hug : FieldFits s g) (vo : s.value f = bitWord bo) (vu : s.value g = bitWord bu) :
    ∃ d, overflowAccess f g eo eu s = .next
      (if bo then .result (.err eo) else if s.params.together f g then (if bu then .result (.err eu) else .again .count)
        else .again .underflow, s.drawn d) := by
  obtain ⟨w, d, hw, hg⟩ := regRead_plain h hs ht hr
  refine ⟨d, ?_⟩
  have e1 : s.params.isSet f w = bo := isSet_eq ((hg f (h.together_self hs) hof).trans vo)
  unfold overflowAccess
  rw [hw, andThen_next]
  simp only [e1]
  cases bo with
  | true => rfl
  | false =>
    by_cases hfg : s.params.together f g = true
    · have e2 : s.params.isSet g w = bu := isSet_eq ((hg g hfg hug).trans vu)
      simp only [hfg, e2, Bool.false_eq_true, if_false, if_true]
      cases bu <;> rfl
    · simp [hfg]

/-- The read of the underflow flag's word. -/
theorem underflowAccess_next (h : ParamsOk s.params) {g : Field} {eu : Err} {bu : Bool}
    (hs : fieldSpace g = .spi) (ht : g ≠ .txd) (hr : g ≠ .rxd) (hug : FieldFits s g) (vu : s.value g = bitWord bu) :
    ∃ d, underflowAccess g eu s = .next (if bu then .result (.err eu) else .again .count, s.drawn d) := by
  obtain ⟨w, d, hw, hg⟩ := regRead_plain h hs ht hr
  refine ⟨d, ?_⟩
  have e2 : s.params.isSet g w = bu := isSet_eq ((hg g (h.together_self hs) hug).trans vu)
  unfold underflowAccess
  rw [hw, andThen_next]
  simp only [e2]
  cases bu <;> rfl

/-- `TX_FULL` as the host evaluates it is the FIFO's fullness, under either sense of the count (R42). -/
theorem txFull_eq (h : ParamsOk s.params) (hc : s.hw.txf.length ≤ s.params.fifoDepth) :
    txFull s.params (s.value .txcnt) = decide (s.hw.txf.length = s.params.fifoDepth) := by
  have h1 := hc
  have e : s.value .txcnt = BitVec.ofNat 32 (s.hw.txCount s.params) := rfl
  have h2 := ofNat32_toNat h (txCount_le hc)
  rw [e]
  unfold txFull
  cases hsense : s.params.txcntSense with
  | occupancy =>
    have h3 : s.hw.txCount s.params = s.hw.txf.length := by simp [Hw.txCount, hsense]
    rw [h3] at h2 ⊢
    simp only [h2]
  | free =>
    have h3 : s.hw.txCount s.params = s.params.fifoDepth - s.hw.txf.length := by simp [Hw.txCount, hsense]
    simp only
    rw [decide_eq_decide, ← BitVec.toNat_inj, h2, h3]
    simp only [BitVec.ofNat_eq_ofNat, BitVec.toNat_ofNat, Nat.zero_mod]
    omega

/-- `RX_EMPTY` as the host evaluates it is the FIFO's emptiness (R42). -/
theorem rxEmpty_eq (h : ParamsOk s.params) (hc : s.hw.rxf.length ≤ s.params.fifoDepth) : rxEmpty (s.value .rxcnt) = s.hw.rxf.isEmpty := by
  have e : s.value .rxcnt = BitVec.ofNat 32 s.hw.rxf.length := rfl
  rw [e, rxEmpty, Bool.eq_iff_iff, decide_eq_true_eq, List.isEmpty_iff, ← BitVec.toNat_inj, ofNat32_toNat h hc]
  simp

/-- The send poll's first read (R260). -/
theorem sendAccess_flags (h : ParamsOk s.params) (w : Byte) :
    ∃ d, sendAccess w .flags s = .next
      (if s.hw.txovf then .result (.err .txOverflow)
       else if s.params.together .txovf .txudf then (if s.hw.txudf then .result (.err .txUnderflow) else .again .count)
       else .again .underflow, s.drawn d) :=
  overflowAccess_next h rfl (by decide) (by decide) (fieldFits_of_ne (by decide) (by decide))
    (fieldFits_of_ne (by decide) (by decide)) rfl rfl

theorem sendAccess_underflow (h : ParamsOk s.params) (w : Byte) :
    ∃ d, sendAccess w .underflow s = .next
      (if s.hw.txudf then .result (.err .txUnderflow) else .again .count, s.drawn d) :=
  underflowAccess_next h rfl (by decide) (by decide) (fieldFits_of_ne (by decide) (by decide)) rfl

/-- The send poll's read of the count: WouldBlock when the transmit FIFO is full (R260). -/
theorem sendAccess_count (h : ParamsOk s.params) (hc : s.hw.txf.length ≤ s.params.fifoDepth) (w : Byte) :
    ∃ d, sendAccess w .count s = .next
      (if s.hw.txf.length = s.params.fifoDepth then .result .wouldBlock else .again .data, s.drawn d) := by
  obtain ⟨x, d, hx, hg⟩ := regRead_plain h (f := .txcnt) rfl (by decide) (by decide)
  refine ⟨d, ?_⟩
  simp only [sendAccess]
  rw [hx, andThen_next]
  simp only [hg .txcnt (h.together_self rfl) ⟨fun _ => hc, fun e => by cases e⟩, txFull_eq h hc, decide_eq_true_eq]
  split <;> rfl

/-- The send poll's push of exactly the byte asked for (R113, R142, R260). -/
theorem sendAccess_data (h : ParamsOk s.params) (w : Byte) :
    sendAccess w .data s = .next (.result .ok, s.withHw (s.hw.pushTx s.params.fifoDepth w)) := by
  simp only [sendAccess]
  rw [regWrite_txd h, andThen_next, h.get_put_same .txd _ (by
    have := w.isLt
    simp only [Field.width, BitVec.toNat_setWidth]
    rw [Nat.mod_eq_of_lt (by omega)]; exact this)]
  have e : (w.setWidth 32).setWidth 8 = w := by
    apply BitVec.eq_of_toNat_eq
    have := w.isLt
    simp
  rw [e]

/-- The receive poll's first read (R261). -/
theorem recvAccess_flags (h : ParamsOk s.params) :
    ∃ d, recvAccess .flags s = .next
      (if s.hw.rxovf then .result (.err .rxOverflow)
       else if s.params.together .rxovf .rxudf then (if s.hw.rxudf then .result (.err .rxUnderflow) else .again .count)
       else .again .underflow, s.drawn d) :=
  overflowAccess_next h rfl (by decide) (by decide) (fieldFits_of_ne (by decide) (by decide))
    (fieldFits_of_ne (by decide) (by decide)) rfl rfl

theorem recvAccess_underflow (h : ParamsOk s.params) :
    ∃ d, recvAccess .underflow s = .next
      (if s.hw.rxudf then .result (.err .rxUnderflow) else .again .count, s.drawn d) :=
  underflowAccess_next h rfl (by decide) (by decide) (fieldFits_of_ne (by decide) (by decide)) rfl

/-- The receive poll's read of the count: WouldBlock when nothing has been received (R261). -/
theorem recvAccess_count (h : ParamsOk s.params) (hc : s.hw.rxf.length ≤ s.params.fifoDepth) :
    ∃ d, recvAccess .count s = .next (if s.hw.rxf = [] then .result .wouldBlock else .again .data, s.drawn d) := by
  obtain ⟨x, d, hx, hg⟩ := regRead_plain h (f := .rxcnt) rfl (by decide) (by decide)
  refine ⟨d, ?_⟩
  simp only [recvAccess]
  rw [hx, andThen_next]
  simp only [hg .rxcnt (h.together_self rfl) ⟨fun e => (by cases e), fun _ => hc⟩, rxEmpty_eq h hc, List.isEmpty_iff]
  split <;> rfl

/-- The receive poll's pop (R144, R261). -/
theorem recvAccess_data (h : ParamsOk s.params) :
    recvAccess .data s =
      .next (.result (.okByte (s.hw.popRx.1.getD (s.free 8 1))), (s.withHw s.hw.popRx.2).drawn 2) := by
  obtain ⟨x, hx, hg⟩ := regRead_rxd h
  simp only [recvAccess]
  rw [hx, andThen_next]
  simp only [hg]

/-- FLUSH's read of BUSY (R268). -/
theorem flushAccess (h : ParamsOk s.params) :
    ∃ d, access .flush s = .next (if s.hw.busy then .more .flush else .done .ok, s.drawn d) := by
  obtain ⟨x, d, hx, hg⟩ := regRead_plain h (f := .busy) rfl (by decide) (by decide)
  refine ⟨d, ?_⟩
  simp only [access]
  rw [hx, andThen_next]
  simp only [isSet_eq (hg .busy (h.together_self rfl) (fieldFits_of_ne (by decide) (by decide)))]

end

end Sys2Proof.Machine
end

