-- ==== Sys2Proof/Laws/Step.lean ====
section
/-! SUPPORT. Everything a step can do, said once: what a host access or command does to Layer H and to memory, and the five
kinds of step. -/

namespace Sys2Proof.Machine

/-- What the host can do to Layer H in one access (40_register_access), `wr` being the word write it makes, if it makes one. -/
inductive Touch (p : Params) (wr : Option (Field × Word)) (h : Hw) : Hw → Prop where
  | same : Touch p wr h h
  | write (f : Field) (w : Word) : wr = some (f, w) → (h.busy && (p.wordOf f).any Field.guarded) = false →
      Touch p wr h ((h.writeFields p w (p.wordOf f)).storeU p (p.offset f) w (p.wordOf f))
  | pop : Touch p wr h h.popRx.2

/-- What a host access or command leaves: Layer H touched by one access, one byte of memory written at most. -/
structure HostMoved (wr : Option (Field × Word)) (s t : State) : Prop where
  hw     : Touch s.params wr s.hw t.hw
  mem    : t.mem = s.mem ∨ ∃ a v, a < Config.hostSpace ∧ t.mem = s.mem.set a v
  frames : t.frames = s.frames
  params : t.params = s.params

/-- Nothing of Layer H, memory, history or parameters changed. -/
theorem HostMoved.of_eq {wr : Option (Field × Word)} {s t : State} (hw : t.hw = s.hw) (mem : t.mem = s.mem)
    (frames : t.frames = s.frames) (params : t.params = s.params) : HostMoved wr s t :=
  ⟨hw ▸ .same, .inl mem, frames, params⟩

/-- What follows an access and touches only Layer C adds nothing. -/
theorem HostMoved.then_eq {wr : Option (Field × Word)} {s t u : State} (h : HostMoved wr s t) (hw : u.hw = t.hw)
    (mem : u.mem = t.mem) (frames : u.frames = t.frames) (params : u.params = t.params) : HostMoved wr s u :=
  ⟨hw ▸ h.hw, mem ▸ h.mem, frames.trans h.frames, params.trans h.params⟩

/-- What precedes an access and touches only Layer C, the slots or the draws adds nothing. -/
theorem HostMoved.of_before {wr : Option (Field × Word)} {s t u : State} (h : HostMoved wr t u) (hw : t.hw = s.hw)
    (mem : t.mem = s.mem) (frames : t.frames = s.frames) (params : t.params = s.params) : HostMoved wr s u :=
  ⟨hw ▸ params ▸ h.hw, mem ▸ h.mem, h.frames.trans frames, h.params.trans params⟩

/-- A property that storing unmodelled bits keeps is a property of the fields written. -/
theorem Hw.storeU_prop {p : Params} {o : BitVec 8} {w : Word} {fs : List Field} {h : Hw} {q : Hw → Prop} (hq : q h)
    (hu : ∀ u, q h → q { h with u := u }) : q (h.storeU p o w fs) := by
  obtain ⟨u, hs, -⟩ := h.storeU_eq (p := p) (fs := fs) w o
  rw [hs]
  exact hu u hq

/-- A host access leaves the counter and the engine. -/
theorem Touch.cycle_eng {p : Params} {wr : Option (Field × Word)} {h h' : Hw} (t : Touch p wr h h') :
    h'.cycle = h.cycle ∧ h'.eng = h.eng := by
  cases t with
  | same => exact ⟨rfl, rfl⟩
  | write f w _ _ =>
    exact Hw.storeU_prop (q := fun x => x.cycle = h.cycle ∧ x.eng = h.eng) ⟨writeFields_cycle _ _, writeFields_eng _ _⟩
      (fun _ hq => hq)
  | pop => unfold Hw.popRx; split <;> exact ⟨rfl, rfl⟩

/-- Fields written keep what one field's write keeps. -/
theorem writeFields_keeps {p : Params} {w : Word} {fs : List Field} {h : Hw} (q : Hw → Prop) (hq : q h)
    (hk : ∀ h, q h → ∀ f ∈ fs, q (h.writeField p.fifoDepth f (p.get f w))) : q (h.writeFields p w fs) := by
  unfold Hw.writeFields
  induction fs generalizing h with
  | nil => exact hq
  | cons f fs ih =>
    rw [List.foldl_cons]
    exact ih (hk h hq f (by simp)) (fun h hq g hg => hk h hq g (List.mem_cons_of_mem _ hg))

theorem Hw.writeField_lengths {d : Nat} {h : Hw} (f : Field) (v : Word) (hl : h.txf.length ≤ d ∧ h.rxf.length ≤ d) :
    (h.writeField d f v).txf.length ≤ d ∧ (h.writeField d f v).rxf.length ≤ d := by
  cases f with
  | txd => simp only [Hw.writeField, Hw.pushTx]; split <;> simp [hl]; omega
  | txclr => simp only [Hw.writeField]; split <;> simp [Hw.txClear, hl]
  | rxclr => simp only [Hw.writeField]; split <;> simp [Hw.rxClear, hl]
  | _ => simpa [Hw.writeField] using hl

/-- A host access keeps both FIFOs within their depth (R57). -/
theorem Touch.lengths {p : Params} {wr : Option (Field × Word)} {h h' : Hw} (t : Touch p wr h h')
    (hl : h.txf.length ≤ p.fifoDepth ∧ h.rxf.length ≤ p.fifoDepth) :
    h'.txf.length ≤ p.fifoDepth ∧ h'.rxf.length ≤ p.fifoDepth := by
  cases t with
  | same => exact hl
  | write f w _ _ =>
    exact Hw.storeU_prop (q := fun x => x.txf.length ≤ p.fifoDepth ∧ x.rxf.length ≤ p.fifoDepth)
      (writeFields_keeps _ hl fun h hq f _ => h.writeField_lengths f _ hq) (fun _ hq => hq)
  | pop => unfold Hw.popRx; split <;> simp_all; omega

/-- One field's write leaves every set flag set unless a trigger fires, and none sets `TXUDF` (R57, R174). -/
theorem Hw.writeField_flags {d : Nat} (h : Hw) (f : Field) (v : Word) :
    ((f = .txclr → v.getLsbD 0 = false) →
      (h.txovf = true → (h.writeField d f v).txovf = true) ∧ (h.txudf = true → (h.writeField d f v).txudf = true)) ∧
    ((f = .rxclr → v.getLsbD 0 = false) →
      (h.rxovf = true → (h.writeField d f v).rxovf = true) ∧ (h.rxudf = true → (h.writeField d f v).rxudf = true)) ∧
    (h.txudf = false → (h.writeField d f v).txudf = false) := by
  cases f with
  | txd => rcases Hw.pushTx_cases d (v.setWidth 8) h with e | e <;> simp [Hw.writeField, e]
  | txclr =>
    simp only [Hw.writeField]
    by_cases hv : v.getLsbD 0 = true
    · rw [if_pos hv]; simp only [hv, Hw.txClear]; simp
    · rw [if_neg hv]; simp
  | rxclr =>
    simp only [Hw.writeField]
    by_cases hv : v.getLsbD 0 = true
    · rw [if_pos hv]; simp only [hv, Hw.rxClear]; simp
    · rw [if_neg hv]; simp
  | _ => simp [Hw.writeField]

/-- The write the host makes fires the trigger. -/
def fires (p : Params) (g : Field) (wr : Option (Field × Word)) : Bool :=
  match wr with
  | some x => firesTrigger p g x
  | none => false

theorem fires_false {p : Params} {g f : Field} {w : Word} (h : fires p g (some (f, w)) = false) (hg : g ∈ p.wordOf f) :
    (p.get g w).getLsbD 0 = false := by
  simp only [fires, firesTrigger, Bool.and_eq_false_iff] at h
  rcases h with h | h
  · rw [Params.mem_wordOf.mp hg] at h; cases h
  · exact h

/-- A host access leaves a side's set flags set unless that side's trigger fires (R57). -/
theorem Touch.txFlags {p : Params} {wr : Option (Field × Word)} {h h' : Hw} (t : Touch p wr h h')
    (hf : fires p .txclr wr = false) : (h.txovf = true → h'.txovf = true) ∧ (h.txudf = true → h'.txudf = true) := by
  cases t with
  | same => exact ⟨id, id⟩
  | write f w e _ =>
    subst e
    refine Hw.storeU_prop (q := fun x => (h.txovf = true → x.txovf = true) ∧ (h.txudf = true → x.txudf = true)) ?_
      (fun _ hq => hq)
    refine writeFields_keeps (fun x => (h.txovf = true → x.txovf = true) ∧ (h.txudf = true → x.txudf = true)) ⟨id, id⟩ ?_
    intro x hq g hg
    have := (x.writeField_flags (d := p.fifoDepth) g (p.get g w)).1 (fun e => by subst e; exact fires_false hf hg)
    exact ⟨fun hh => this.1 (hq.1 hh), fun hh => this.2 (hq.2 hh)⟩
  | pop => unfold Hw.popRx; split <;> simp

theorem Touch.rxFlags {p : Params} {wr : Option (Field × Word)} {h h' : Hw} (t : Touch p wr h h')
    (hf : fires p .rxclr wr = false) : (h.rxovf = true → h'.rxovf = true) ∧ (h.rxudf = true → h'.rxudf = true) := by
  cases t with
  | same => exact ⟨id, id⟩
  | write f w e _ =>
    subst e
    refine Hw.storeU_prop (q := fun x => (h.rxovf = true → x.rxovf = true) ∧ (h.rxudf = true → x.rxudf = true)) ?_
      (fun _ hq => hq)
    refine writeFields_keeps (fun x => (h.rxovf = true → x.rxovf = true) ∧ (h.rxudf = true → x.rxudf = true)) ⟨id, id⟩ ?_
    intro x hq g hg
    have := (x.writeField_flags (d := p.fifoDepth) g (p.get g w)).2.1 (fun e => by subst e; exact fires_false hf hg)
    exact ⟨fun hh => this.1 (hq.1 hh), fun hh => this.2 (hq.2 hh)⟩
  | pop => unfold Hw.popRx; split <;> simp

/-- No host access sets `TXUDF` (R174). -/
theorem Touch.txudf {p : Params} {wr : Option (Field × Word)} {h h' : Hw} (t : Touch p wr h h') (hu : h.txudf = false) :
    h'.txudf = false := by
  cases t with
  | same => exact hu
  | write f w _ _ =>
    exact Hw.storeU_prop (q := fun x => x.txudf = false)
      (writeFields_keeps _ hu fun x hq g _ => (x.writeField_flags (d := p.fifoDepth) g (p.get g w)).2.2 hq) (fun _ hq => hq)
  | pop => unfold Hw.popRx; split <;> exact hu

/-! One access of a command. -/

theorem regRead_moved {f : Field} {s t : State} {w : Word} (h : regRead f s = .next (w, t)) (wr : Option (Field × Word)) :
    HostMoved wr s t := by
  rw [regRead_eq_next h]
  rcases afterRead_cases (s.params.wordOf f) s with ⟨d, e⟩ | ⟨-, e⟩
  · rw [e]; exact .of_eq rfl rfl rfl rfl
  · rw [e]; exact ⟨.pop, .inl rfl, rfl, rfl⟩

theorem regWrite_moved {f : Field} {w : Word} {s t : State} (h : regWrite f w s = .next t) : HostMoved (some (f, w)) s t := by
  obtain ⟨-, -, hg, -, rfl⟩ := regWrite_eq_next.mp h
  exact ⟨.write f w rfl hg, .inl rfl, rfl, rfl⟩

theorem modifyAccess_moved {m : Modify} {s t : State} {q : ModifyStep} (h : modifyAccess m s = .next (q, t)) :
    HostMoved (m.write s.params) s t := by
  obtain ⟨todo, rd⟩ := m
  cases todo with
  | nil => cases h; exact .of_eq rfl rfl rfl rfl
  | cons x rest =>
    cases rd with
    | none =>
      obtain ⟨⟨w, u⟩, hr, h⟩ := andThen_eq_next.mp h
      cases h
      exact regRead_moved hr _
    | some v =>
      obtain ⟨u, hr, h⟩ := andThen_eq_next.mp h
      have hu : u = t := by
        revert h
        split <;> (intro h; cases h; rfl)
      exact hu ▸ regWrite_moved hr

/-- The read of the two flags changes nothing but the free values used up. -/
theorem overflowAccess_moved {f g : Field} {eo eu : Err} {s t : State} {q : PollStep}
    (h : overflowAccess f g eo eu s = .next (q, t)) (wr : Option (Field × Word)) : HostMoved wr s t := by
  obtain ⟨⟨w, u⟩, hr, h⟩ := andThen_eq_next.mp h
  have hu : u = t := by
    revert h
    dsimp only
    split
    · intro h; cases h; rfl
    · split
      · split <;> (intro h; cases h; rfl)
      · intro h; cases h; rfl
  exact hu ▸ regRead_moved hr wr

theorem underflowAccess_moved {g : Field} {eu : Err} {s t : State} {q : PollStep}
    (h : underflowAccess g eu s = .next (q, t)) (wr : Option (Field × Word)) : HostMoved wr s t := by
  obtain ⟨⟨w, u⟩, hr, h⟩ := andThen_eq_next.mp h
  have hu : u = t := by
    revert h
    dsimp only
    split <;> (intro h; cases h; rfl)
  exact hu ▸ regRead_moved hr wr

/-- The write of a send poll. -/
def sendWrite (p : Params) (w : Byte) : PollPhase → Option (Field × Word)
  | .data => some (.txd, p.put .txd (w.setWidth 32) 0)
  | .flags | .underflow | .count => none

theorem sendAccess_moved {w : Byte} {ph : PollPhase} {s t : State} {q : PollStep} (h : sendAccess w ph s = .next (q, t)) :
    HostMoved (sendWrite s.params w ph) s t := by
  cases ph with
  | flags => exact overflowAccess_moved h _
  | underflow => exact underflowAccess_moved h _
  | count =>
    obtain ⟨⟨v, u⟩, hr, h⟩ := andThen_eq_next.mp h
    have hu : u = t := by
      revert h
      dsimp only
      split <;> (intro h; cases h; rfl)
    exact hu ▸ regRead_moved hr _
  | data =>
    obtain ⟨u, hr, h⟩ := andThen_eq_next.mp h
    cases h
    exact regWrite_moved hr

theorem recvAccess_moved {ph : PollPhase} {s t : State} {q : PollStep} (h : recvAccess ph s = .next (q, t))
    (wr : Option (Field × Word)) : HostMoved wr s t := by
  cases ph with
  | flags => exact overflowAccess_moved h _
  | underflow => exact underflowAccess_moved h _
  | count =>
    obtain ⟨⟨v, u⟩, hr, h⟩ := andThen_eq_next.mp h
    have hu : u = t := by
      revert h
      dsimp only
      split <;> (intro h; cases h; rfl)
    exact hu ▸ regRead_moved hr _
  | data =>
    obtain ⟨⟨v, u⟩, hr, h⟩ := andThen_eq_next.mp h
    cases h
    exact regRead_moved hr _

/-- The write of a byte-step's access. -/
def byteWrite (p : Params) (w : Byte) : Half → PollPhase → Option (Field × Word)
  | .send, ph => sendWrite p w ph
  | .recv, _ => none

theorem byteAccess_moved {w : Byte} {hf : Half} {ph : PollPhase} {s t : State} {q : ByteProgress}
    (h : byteAccess w hf ph s = .next (q, t)) : HostMoved (byteWrite s.params w hf ph) s t := by
  cases hf with
  | send =>
    obtain ⟨⟨r, u⟩, ha, h⟩ := andThen_eq_next.mp h
    cases h
    exact sendAccess_moved ha
  | recv =>
    obtain ⟨⟨r, u⟩, ha, h⟩ := andThen_eq_next.mp h
    cases h
    exact recvAccess_moved ha _

theorem xferStore_eq_next {x : Xfer} {i : Nat} {b : Byte} {s t : State} (h : xferStore x i b s = .next t) :
    t = s ∧ ¬ i < x.sink.len.toNat ∨
      i < x.sink.len.toNat ∧ bufAddr x.sink i < Config.hostSpace ∧ t = s.withMem (s.mem.set (bufAddr x.sink i) b) := by
  unfold xferStore at h
  split at h
  · obtain ⟨h1, h2⟩ := hostWrite_eq_next.mp h
    exact .inr ⟨by assumption, h1, h2.symm⟩
  · cases h; exact .inl ⟨rfl, by assumption⟩

/-- Only the last access of a byte-step hands a byte on: a data access of the receive half, which pops. -/
theorem byteAccess_byte {w : Byte} {hf : Half} {p : PollPhase} {s t : State} {b : Byte}
    (hb : byteAccess w hf p s = .next (.byte b, t)) :
    hf = .recv ∧ p = .data ∧ ∃ v, regRead .rxd s = .next (v, t) := by
  cases hf with
  | send =>
    exfalso
    obtain ⟨⟨q, u⟩, ha, h⟩ := andThen_eq_next.mp hb
    cases q with
    | again p' => cases h
    | result r => cases r <;> cases h
  | recv =>
    obtain ⟨⟨q, u⟩, ha, h⟩ := andThen_eq_next.mp hb
    have hq : ∃ b, q = .result (.okByte b) := by
      cases q with
      | again p' => cases h
      | result r => cases r <;> first | exact ⟨_, rfl⟩ | cases h
    obtain ⟨b', rfl⟩ := hq
    have hu : u = t := by cases h; rfl
    subst hu
    cases p with
    | flags =>
      exfalso
      obtain ⟨⟨v, u⟩, -, ha⟩ := andThen_eq_next.mp ha
      revert ha
      dsimp only
      split
      · intro h; cases h
      · split
        · split <;> (intro h; cases h)
        · intro h; cases h
    | underflow =>
      exfalso
      obtain ⟨⟨v, u⟩, -, ha⟩ := andThen_eq_next.mp ha
      revert ha
      dsimp only
      split <;> (intro h; cases h)
    | count =>
      exfalso
      obtain ⟨⟨v, u⟩, -, ha⟩ := andThen_eq_next.mp ha
      revert ha
      dsimp only
      split <;> (intro h; cases h)
    | data =>
      obtain ⟨⟨v, u⟩, hr, ha⟩ := andThen_eq_next.mp ha
      cases ha
      exact ⟨rfl, rfl, v, hr⟩

theorem activity_write_xfer (p : Params) (x : Xfer) (i : Nat) (w : Byte) (hf : Half) (ph : PollPhase) :
    Activity.write p (.xfer x i w hf ph) = byteWrite p w hf ph := by
  cases hf <;> cases ph <;> rfl

theorem activity_write_byteStep (p : Params) (w : Byte) (hf : Half) (ph : PollPhase) :
    Activity.write p (.byteStep w hf ph) = byteWrite p w hf ph := by
  cases hf <;> cases ph <;> rfl

theorem activity_write_trySend (p : Params) (w : Byte) (ph : PollPhase) :
    Activity.write p (.trySend w ph) = sendWrite p w ph := by
  cases ph <;> rfl

theorem xferAccess_moved {x : Xfer} {i : Nat} {w : Byte} {h : Half} {p : PollPhase} {s t : State} {q : Progress}
    (hx : xferAccess x i w h p s = .next (q, t)) : HostMoved (byteWrite s.params w h p) s t := by
  obtain ⟨⟨r, u⟩, ha, hx⟩ := andThen_eq_next.mp hx
  have hm := byteAccess_moved ha
  cases r with
  | again h' p' => cases hx; exact hm
  | error e => cases hx; exact hm
  | byte b =>
    obtain ⟨v, hv, hx⟩ := andThen_eq_next.mp hx
    obtain ⟨a, _, hx⟩ := andThen_eq_next.mp hx
    cases hx
    rcases xferStore_eq_next hv with ⟨rfl, _⟩ | ⟨_, hb, rfl⟩
    · exact hm
    · obtain ⟨rfl, rfl, y, hy⟩ := byteAccess_byte ha
      have hmem : u.mem = s.mem := by
        rw [regRead_eq_next hy]
        rcases afterRead_cases (s.params.wordOf .rxd) s with ⟨d, e⟩ | ⟨-, e⟩ <;> rw [e] <;> rfl
      exact ⟨hm.hw, .inr ⟨_, _, hb, by rw [State.withMem_mem, hmem]⟩, hm.frames, hm.params⟩

theorem constructAccess_moved {a : ConstructArgs} {st : ConstructStage} {m : Modify} {s t : State} {q : Progress}
    (h : constructAccess a st m s = .next (q, t)) : HostMoved (m.write s.params) s t := by
  obtain ⟨⟨r, u⟩, ha, h⟩ := andThen_eq_next.mp h
  have hm := modifyAccess_moved ha
  cases r with
  | again m' => cases h; exact hm
  | done => cases st <;> (cases h; exact hm.then_eq rfl rfl rfl rfl)

/-- One access of a command is one touch of Layer H. -/
theorem access_moved {a : Activity} {s t : State} {q : Progress} (h : access a s = .next (q, t)) :
    HostMoved (a.write s.params) s t := by
  cases a with
  | construct args st m => exact constructAccess_moved h
  | setBitOrder m => obtain ⟨⟨r, u⟩, ha, h⟩ := andThen_eq_next.mp h; cases h; exact modifyAccess_moved ha
  | clearFifos m => obtain ⟨⟨r, u⟩, ha, h⟩ := andThen_eq_next.mp h; cases h; exact modifyAccess_moved ha
  | trySend w p =>
    rw [activity_write_trySend]
    obtain ⟨⟨r, u⟩, ha, h⟩ := andThen_eq_next.mp h; cases h; exact sendAccess_moved ha
  | tryRecv p => obtain ⟨⟨r, u⟩, ha, h⟩ := andThen_eq_next.mp h; cases h; exact recvAccess_moved ha _
  | byteStep w hf p =>
    rw [activity_write_byteStep]
    obtain ⟨⟨r, u⟩, ha, h⟩ := andThen_eq_next.mp h; cases h; exact byteAccess_moved ha
  | xfer x i w hf p => rw [activity_write_xfer]; exact xferAccess_moved h
  | flush => obtain ⟨⟨r, u⟩, ha, h⟩ := andThen_eq_next.mp h; cases h; exact regRead_moved ha _
  | now c =>
    simp only [access] at h
    split at h <;> (cases h; exact .of_eq rfl rfl rfl rfl)
  | elapsedSince st c =>
    simp only [access] at h
    split at h <;> (cases h; exact .of_eq rfl rfl rfl rfl)
  | delay n st c =>
    simp only [access] at h
    split at h <;> (cases h; exact .of_eq rfl rfl rfl rfl)

/-! What follows an access changes only Layer C. -/

theorem nextOperation_eq_next {ops : List Operation} {k : Nat} {s t : State} (h : nextOperation ops k s = .next t) :
    ∃ g, t = s.withHost g := by
  induction ops generalizing k with
  | nil => cases h; exact ⟨_, rfl⟩
  | cons op ops ih =>
    rw [nextOperation] at h
    split at h
    · cases h; exact ⟨_, rfl⟩
    · exact ih h
    · cases h
    · cases h

theorem settle_eq_next {p : Progress} {txn : Option Txn} {s t : State} (h : settle p txn s = .next t) :
    ∃ g, t = s.withHost g := by
  cases p with
  | more a => cases h; exact ⟨_, rfl⟩
  | hostEnds => cases h; exact ⟨_, rfl⟩
  | done r =>
    simp only [settle, commandDone] at h
    split at h
    · cases h; exact ⟨_, rfl⟩
    · cases h; exact ⟨_, rfl⟩
    · exact nextOperation_eq_next h

/-- A host turn is one touch of Layer H. -/
theorem advance_moved {s t : State} (h : advance s = .next t) : HostMoved s.write s t := by
  cases hr : s.host.running with
  | none => rw [advance_none hr] at h; cases h; exact .of_eq rfl rfl rfl rfl
  | some r =>
    obtain ⟨-, q, u, ha, h⟩ := advance_eq_next hr h
    obtain ⟨g, rfl⟩ := settle_eq_next h
    have hc : s.write = r.act.write s.params := by simp [State.write, hr]
    rw [hc]
    exact (access_moved ha).then_eq rfl rfl rfl rfl

/-- A command's beginning is one touch of Layer H. -/
theorem start_moved {a : Activity} {s t : State} (h : start a s = .next t) : HostMoved (a.write s.params) s t :=
  (advance_moved h).of_before rfl rfl rfl rfl

theorem startXfer_moved {o : Out (Option Activity)} {s t : State} (h : startXfer o s = .next t)
    (ho : ∀ a, o = .next (some a) → a.write s.params = none) : HostMoved none s t := by
  obtain ⟨a, ha, h⟩ := andThen_eq_next.mp h
  cases a with
  | none => cases h; exact .of_eq rfl rfl rfl rfl
  | some a => exact ho a ha ▸ start_moved h

theorem beginXfer_eq_next {x : Xfer} {i : Nat} {s : State} {o : Option Activity} (h : beginXfer x i s = .next o) :
    o = none ∧ xferSteps x ≤ i ∨ ∃ w, i < xferSteps x ∧ o = some (.xfer x i w .send .flags) ∧ xferByte x i s = .next w := by
  unfold beginXfer at h
  split at h
  · obtain ⟨w, hw, h⟩ := andThen_eq_next.mp h
    cases h; exact .inr ⟨w, by assumption, rfl, hw⟩
  · cases h; exact .inl ⟨rfl, by omega⟩

theorem beginTransfer_eq_next {r w : Buf} {s : State} {o : Option Activity} (h : beginTransfer r w s = .next o) :
    overlap r w = false ∧ beginXfer ⟨r, w⟩ 0 s = .next o := by
  unfold beginTransfer at h
  split at h
  · cases h
  · exact ⟨by simp_all, h⟩

theorem beginXfer_write {x : Xfer} {i : Nat} {s : State} {a : Activity} (h : beginXfer x i s = .next (some a)) (p : Params) :
    a.write p = none := by
  rcases beginXfer_eq_next h with ⟨h, _⟩ | ⟨w, _, h, _⟩
  · cases h
  · cases h; rfl

theorem beginOperation_write {op : Operation} {s : State} {a : Activity} (h : beginOperation op s = .next (some a)) (p : Params) :
    a.write p = none := by
  cases op with
  | transfer r w => exact beginXfer_write (beginTransfer_eq_next h).2 p
  | delay d => cases h; rfl
  | _ => exact beginXfer_write h p

theorem nextOperation_write {ops : List Operation} {k : Nat} {s t : State} (h : nextOperation ops k s = .next t) :
    t.write = none := by
  induction ops generalizing k with
  | nil => cases h; rfl
  | cons op ops ih =>
    rw [nextOperation] at h
    split at h
    · rename_i a ha; cases h; exact beginOperation_write ha _
    · exact ih h
    · cases h
    · cases h

theorem startOperations_moved {ops : List Operation} {s t : State} (h : startOperations ops s = .next t) :
    HostMoved none s t := by
  obtain ⟨u, hu, h⟩ := andThen_eq_next.mp h
  have hc := nextOperation_write hu
  obtain ⟨g, rfl⟩ := nextOperation_eq_next hu
  exact hc ▸ (advance_moved h).of_before rfl rfl rfl rfl

theorem readRow_moved {f : Field} {s t : State} (h : readRow f s = .next t) (wr : Option (Field × Word)) : HostMoved wr s t := by
  obtain ⟨-, h⟩ := asHost_eq_next h
  obtain ⟨⟨w, u⟩, hr, h⟩ := andThen_eq_next.mp h
  cases h
  exact (regRead_moved hr wr).then_eq rfl rfl rfl rfl

theorem writeRow_moved {f : Field} {w : Word} {s t : State} (h : writeRow f w s = .next t) : HostMoved (some (f, w)) s t := by
  obtain ⟨-, h⟩ := asHost_eq_next h
  obtain ⟨u, hr, h⟩ := andThen_eq_next.mp h
  cases h
  exact (regWrite_moved hr).then_eq rfl rfl rfl rfl

/-- What the host issues is one touch of Layer H. -/
theorem exec_moved {i : Instr} {s t : State} (ha : autonomous i = false) (h : exec i s = .next t) :
    HostMoved (rowWrite i) s t := by
  have nc : ∀ {x : Xfer} {s : State} {p : Params} a, beginXfer x 0 s = .next (some a) → a.write p = none :=
    fun _ h => beginXfer_write h _
  cases i with
  | frameStart => cases ha
  | frameComplete r => cases ha
  | tick => cases ha
  | reset => cases ha
  | rdTxData => cases h
  | wrRxData w => cases h
  | wrCycle w => cases h
  | wrCycleHi w => cases h
  | rdConfig => exact readRow_moved h _
  | rdBusy => exact readRow_moved h _
  | rdPeriod0 => exact readRow_moved h _
  | rdPeriod1 => exact readRow_moved h _
  | rdFifo0 => exact readRow_moved h _
  | rdFifo1 => exact readRow_moved h _
  | rdRxData => exact readRow_moved h _
  | wrConfig w => exact writeRow_moved h
  | wrBusy w => exact writeRow_moved h
  | wrPeriod0 w => exact writeRow_moved h
  | wrPeriod1 w => exact writeRow_moved h
  | wrFifo0 w => exact writeRow_moved h
  | wrFifo1 w => exact writeRow_moved h
  | wrTxData w => exact writeRow_moved h
  | rdCycle =>
    simp only [exec, execRdCycle] at h; obtain ⟨_, h⟩ := asHost_eq_next h
    split at h <;> (cases h; exact .of_eq rfl rfl rfl rfl)
  | rdCycleHi =>
    simp only [exec, execRdCycleHi] at h; obtain ⟨_, h⟩ := asHost_eq_next h
    split at h
    · cases h
    · cases h; exact .of_eq rfl rfl rfl rfl
  | construct a =>
    simp only [exec, execConstruct] at h; obtain ⟨_, h⟩ := asHost_eq_next h
    split at h
    · exact (start_moved h).of_before rfl rfl rfl rfl
    · cases h
  | setBitOrder o => obtain ⟨_, h⟩ := asInstance_eq_next h; exact start_moved h
  | clearFifos => obtain ⟨_, h⟩ := asInstance_eq_next h; exact start_moved h
  | read b => obtain ⟨_, h⟩ := asInstance_eq_next h; exact startXfer_moved h nc
  | write b => obtain ⟨_, h⟩ := asInstance_eq_next h; exact startXfer_moved h nc
  | transfer r w =>
    obtain ⟨_, h⟩ := asInstance_eq_next h
    exact startXfer_moved h fun a ha => beginXfer_write (beginTransfer_eq_next ha).2 _
  | transferInPlace b => obtain ⟨_, h⟩ := asInstance_eq_next h; exact startXfer_moved h nc
  | flush => obtain ⟨_, h⟩ := asInstance_eq_next h; exact start_moved h
  | runTransaction ops => obtain ⟨_, h⟩ := asInstance_eq_next h; exact startOperations_moved h
  | release =>
    simp only [exec, execRelease] at h; obtain ⟨_, h⟩ := asHost_eq_next h
    split at h
    · cases h; exact .of_eq rfl rfl rfl rfl
    · cases h
  | now => obtain ⟨_, h⟩ := asHost_eq_next h; exact start_moved h
  | elapsedSince st => obtain ⟨_, h⟩ := asHost_eq_next h; exact start_moved h
  | delayCycles n => obtain ⟨_, h⟩ := asHost_eq_next h; exact start_moved h
  | delayNs d =>
    simp only [exec, execDelayNs, delayFor] at h; obtain ⟨_, h⟩ := asHost_eq_next h
    split at h
    · exact start_moved h
    · cases h
  | delayUs d =>
    simp only [exec, execDelayUs, delayFor] at h; obtain ⟨_, h⟩ := asHost_eq_next h
    split at h
    · exact start_moved h
    · cases h
  | delayMs d =>
    simp only [exec, execDelayMs, delayFor] at h; obtain ⟨_, h⟩ := asHost_eq_next h
    split at h
    · exact start_moved h
    · cases h
  | delayNew hz => simp only [exec, execDelayNew] at h; obtain ⟨_, h⟩ := asHost_eq_next h; cases h; exact .of_eq rfl rfl rfl rfl
  | trySend w => obtain ⟨_, h⟩ := asInstance_eq_next h; exact start_moved h
  | tryRecv => obtain ⟨_, h⟩ := asInstance_eq_next h; exact start_moved h
  | byteStep w => obtain ⟨_, h⟩ := asInstance_eq_next h; exact start_moved h
  | clockDivider src f =>
    simp only [exec, execClockDivider] at h; obtain ⟨_, h⟩ := asHost_eq_next h
    split at h <;> (cases h; exact .of_eq rfl rfl rfl rfl)
  | opRead b => obtain ⟨_, h⟩ := asInstance_eq_next h; exact startOperations_moved h
  | opWrite b => obtain ⟨_, h⟩ := asInstance_eq_next h; exact startOperations_moved h
  | opTransfer r w => obtain ⟨_, h⟩ := asInstance_eq_next h; exact startOperations_moved h
  | opTransferInPlace b => obtain ⟨_, h⟩ := asInstance_eq_next h; exact startOperations_moved h
  | opDelay d => obtain ⟨_, h⟩ := asInstance_eq_next h; exact startOperations_moved h

/-! The five kinds of step. -/

/-- What is fetched leaves everything but the slots and the draws. -/
theorem fetch_instr {s u : State} {i : Instr} (h : fetch s = .instr i u) :
    (∃ p, u = s.withProgram p) ∧ i.wellFormed = true ∧ (s.host.running = none ∨ autonomous i = true) := by
  have code : ∀ f bs rest, fetchCode f bs rest s = .instr i u →
      (∃ p, u = s.withProgram p) ∧ i.wellFormed = true ∧ (s.host.running = none ∨ autonomous i = true) := by
    intro f bs rest h
    unfold fetchCode at h
    split at h
    · split at h
      · cases h
      · split at h
        · rename_i j _ hr hw
          cases h
          refine ⟨⟨_, rfl⟩, hw, ?_⟩
          cases hn : s.host.running with
          | none => exact .inl rfl
          | some r => right; simpa [hn] using hr
        · cases h
    · split at h <;> cases h
  unfold fetch at h
  split at h
  · cases h
  · cases h
  · exact code _ _ _ h

/-- A turn leaves everything but the slots and the draws. -/
theorem fetch_turn {s u : State} {t : Turn} (h : fetch s = .turn t u) :
    u.hw = s.hw ∧ u.frames = s.frames ∧ u.host = s.host ∧ u.mem = s.mem ∧ u.params = s.params := by
  have code : ∀ f bs rest, fetchCode f bs rest s = .turn t u →
      u.hw = s.hw ∧ u.frames = s.frames ∧ u.host = s.host ∧ u.mem = s.mem ∧ u.params = s.params := by
    intro f bs rest h
    unfold fetchCode at h
    split at h
    · split at h
      · cases h; exact ⟨rfl, rfl, rfl, rfl, rfl⟩
      · split at h <;> cases h
    · split at h
      · cases h; exact ⟨rfl, rfl, rfl, rfl, rfl⟩
      · cases h
  unfold fetch at h
  split at h
  · cases h; exact ⟨rfl, rfl, rfl, rfl, rfl⟩
  · cases h; exact ⟨rfl, rfl, rfl, rfl, rfl⟩
  · exact code _ _ _ h

/-- The engine's part of a step: Layer C, memory and the parameters stay. -/
structure EngineMoved (s t : State) : Prop where
  host   : t.host = s.host
  mem    : t.mem = s.mem
  params : t.params = s.params
  step   : t.hw = s.hw.frameStart ∧ t.frames = s.frames ∨
    ∃ r, t.hw = (s.frameComplete r).hw ∧ t.frames = (s.frameComplete r).frames

theorem EngineMoved.start {s t : State} (h : t = s.withHw s.hw.frameStart) : EngineMoved s t := by
  subst h; exact ⟨rfl, rfl, rfl, .inl ⟨rfl, rfl⟩⟩

theorem EngineMoved.complete {s t : State} (r : Byte) (h : t = s.frameComplete r) : EngineMoved s t := by
  subst h
  refine ⟨?_, ?_, ?_, .inr ⟨r, rfl, rfl⟩⟩ <;> (unfold State.frameComplete; split <;> rfl)

/-- A change of the slots and the draws does not matter to the engine's part. -/
theorem EngineMoved.of_before {s u t : State} (h : EngineMoved u t) (hw : u.hw = s.hw) (fr : u.frames = s.frames)
    (ho : u.host = s.host) (me : u.mem = s.mem) (pa : u.params = s.params) : EngineMoved s t := by
  refine ⟨h.host.trans ho, h.mem.trans me, h.params.trans pa, ?_⟩
  rcases h.step with ⟨h1, h2⟩ | ⟨r, h1, h2⟩
  · exact .inl ⟨hw ▸ h1, fr ▸ h2⟩
  · refine .inr ⟨r, h1.trans ?_, h2.trans ?_⟩ <;> (unfold State.frameComplete; rw [hw]; split <;> simp [hw, fr, pa])

/-- The kinds of step, each with everything it can change: a host access or command, the engine, the counter, or a reset. -/
inductive StepKind (s t : State) : Prop where
  | host : HostMoved (nextWrite s) s t → tickNext s = false → resetNext s = false → StepKind s t
  | engine : EngineMoved s t → tickNext s = false → resetNext s = false → StepKind s t
  | tick : t.hw = s.hw.tick → t.frames = s.frames → t.host = s.host → t.mem = s.mem → t.params = s.params →
      tickNext s = true → resetNext s = false → StepKind s t
  | reset (p : List Slot) : t = (s.withProgram p).resetEvent → resetNext s = true → StepKind s t

/-- A step is of one of these kinds. -/
theorem step_kind {s t : State} (h : step s = .next t) : StepKind s t := by
  unfold step at h
  split at h
  · rename_i i u hf
    obtain ⟨⟨p, rfl⟩, -, -⟩ := fetch_instr hf
    cases ha : autonomous i with
    | false =>
      have hm := exec_moved ha h
      have ht : tickNext s = false := by unfold tickNext; rw [hf]; cases i <;> first | rfl | cases ha
      have hr : resetNext s = false := by unfold resetNext; rw [hf]; cases i <;> first | rfl | cases ha
      have hc : nextWrite s = rowWrite i := by unfold nextWrite; rw [hf]
      exact .host (hc ▸ hm.of_before rfl rfl rfl rfl) ht hr
    | true =>
      have ht : tickNext s = decide (i = .tick) := by unfold tickNext; rw [hf]; cases i <;> rfl
      have hr : resetNext s = decide (i = .reset) := by unfold resetNext; rw [hf]; cases i <;> rfl
      cases i with
      | frameStart => cases h; exact .engine ((EngineMoved.start rfl).of_before rfl rfl rfl rfl rfl) ht hr
      | frameComplete r => cases h; exact .engine ((EngineMoved.complete r rfl).of_before rfl rfl rfl rfl rfl) ht hr
      | tick => cases h; exact .tick rfl rfl rfl rfl rfl ht hr
      | reset => cases h; exact .reset p rfl hr
      | _ => cases ha
  · rename_i u s' hf
    obtain ⟨hw, fr, ho, me, pa⟩ := fetch_turn hf
    have hr : resetNext s = false := by unfold resetNext; rw [hf]
    cases u with
    | host =>
      have ht : tickNext s = false := by unfold tickNext; rw [hf]
      have hc : nextWrite s = s'.write := by unfold nextWrite; rw [hf]
      exact .host (hc ▸ (advance_moved h).of_before hw me fr pa) ht hr
    | engine =>
      have ht : tickNext s = false := by unfold tickNext; rw [hf]
      cases h
      rcases State.engineTurn_cases s' with ⟨-, e⟩ | ⟨r, -, e⟩
      · exact .engine ((EngineMoved.start e).of_before hw fr ho me pa) ht hr
      · exact .engine ((EngineMoved.complete r e).of_before hw fr ho me pa) ht hr
    | counter =>
      have ht : tickNext s = true := by unfold tickNext; rw [hf]
      cases h
      exact .tick (by simp [hw]) (by simp [fr]) (by simp [ho]) (by simp [me]) (by simp [pa]) ht hr
  · cases h

end Sys2Proof.Machine
end

