-- ==== Sys2Proof/Laws/Transfer.lean ====
section
/-! SUPPORT. One byte-step under the schedule that lets its frame happen, for any command that makes byte-steps. -/

namespace Sys2Proof.Machine

/-- A clean state has empty FIFOs, an idle engine and no flag. -/
theorem Hw.clean_iff {h : Hw} : h.clean = true ↔ h.txf = [] ∧ h.rxf = [] ∧ h.eng = .idle ∧ h.noFlags = true := by
  simp only [Hw.clean, Bool.and_eq_true, List.isEmpty_iff, Bool.not_eq_true', Hw.not_busy_iff, and_assoc]

/-- A command begun with the slots after its first access is the command running with one host turn more. -/
theorem runFor_hostTurn (k : Nat) (u : State) (P : List Slot) (hp : u.program = P) :
    runFor (k + 1) (u.withProgram (.hostTurn :: P)) = andThen (advance u) (runFor k) := by
  rw [runFor_succ, step_hostTurn (rest := P) rfl]
  subst hp
  rfl

/-- What a command does when it begins and the turns it still needs follow. -/
theorem begin_run {u v : State} {k : Nat} (h : runFor (k + 1) (u.withProgram (.hostTurn :: u.program)) = .next v) :
    ∃ t0, advance u = .next t0 ∧ runFor k t0 = .next v := by
  rw [runFor_hostTurn k u u.program rfl] at h
  exact andThen_eq_next.mp h

/-- The activities of a command that makes byte-steps of byte `w`, and what it does with the byte received. -/
structure ByteSteps where
  w    : Byte
  act  : Half → PollPhase → Activity
  got  : Byte → State → Out (Progress × State)

/-- The command's accesses are those of the byte-step. -/
def ByteSteps.Lawful (c : ByteSteps) : Prop :=
  ∀ h p s, access (c.act h p) s = andThen (byteAccess c.w h p s) fun y =>
    match y.1 with
    | .again h' p' => .next (.more (c.act h' p'), y.2)
    | .error e => .next (.done (.err e), y.2)
    | .byte b => c.got b y.2

/-- BYTE_STEP makes one byte-step and returns its byte. -/
theorem byteStep_lawful (w : Byte) :
    ByteSteps.Lawful ⟨w, .byteStep w, fun b s => .next (.done (.okByte b), s)⟩ := by
  intro h p s
  change andThen (byteAccess w h p s) _ = andThen (byteAccess w h p s) _
  congr 1
  funext x
  obtain ⟨q, t⟩ := x
  cases q <;> rfl

/-- A transfer command stores its byte and goes on. -/
theorem xfer_lawful (x : Xfer) (i : Nat) (w : Byte) :
    ByteSteps.Lawful ⟨w, .xfer x i w,
      fun b s => andThen (xferStore x i b s) fun s' => andThen (beginXfer x (i + 1) s') fun a => .next (orOk a, s')⟩ :=
  fun _ _ _ => rfl

/-- The state of a byte-step: hardware, history, the access to make next, the slots and the free values used up. -/
def ByteSteps.at (c : ByteSteps) (s : State) (txn : Option Txn) (h : Hw) (fr : List FrameRecord) (hf : Half) (ph : PollPhase)
    (prog : List Slot) (d : Nat) : State :=
  { s with hw := h, frames := fr, program := prog, draws := d,
           host := { s.host with running := some { act := c.act hf ph, txn := txn } } }

/-- A state whose command makes byte-steps is of this form. -/
theorem ByteSteps.at_self {c : ByteSteps} {s : State} {txn : Option Txn} {hf : Half} {ph : PollPhase}
    (hr : s.host.running = some { act := c.act hf ph, txn := txn }) :
    s = c.at s txn s.hw s.frames hf ph s.program s.draws := by
  obtain ⟨hw, fr, ⟨en, de, ru, re, ed⟩, me, pr, dr, pa⟩ := s
  simp only at hr
  subst hr
  rfl

section

variable {c : ByteSteps} (hc : c.Lawful) {s : State} {txn : Option Txn} {h : Hw} {fr : List FrameRecord}

include hc

/-- A host turn of a byte-step that goes on. -/
theorem ByteSteps.turn_again {hf : Half} {ph : PollPhase} {rest : List Slot} {d : Nat} (hf' : Half) (ph' : PollPhase) (h' : Hw)
    (d' : Nat) (ha : byteAccess c.w hf ph (c.at s txn h fr hf ph rest d) =
      .next (.again hf' ph', ((c.at s txn h fr hf ph rest d).withHw h').drawn d')) :
    step (c.at s txn h fr hf ph (.hostTurn :: rest) d) = .next (c.at s txn h' fr hf' ph' rest (d + d')) := by
  rw [step_hostTurn (rest := rest) rfl]
  change advance (c.at s txn h fr hf ph rest d) = _
  rw [advance_some (s := c.at s txn h fr hf ph rest d) rfl rfl]
  change andThen (access (c.act hf ph) _) _ = _
  rw [hc, ha]
  rfl

/-- A host turn of a byte-step that has its byte. -/
theorem ByteSteps.turn_byte {hf : Half} {ph : PollPhase} {rest : List Slot} {d : Nat} (b : Byte) (t : State)
    (ha : byteAccess c.w hf ph (c.at s txn h fr hf ph rest d) = .next (.byte b, t)) :
    step (c.at s txn h fr hf ph (.hostTurn :: rest) d) = andThen (c.got b t) fun x => settle x.1 txn x.2 := by
  rw [step_hostTurn (rest := rest) rfl]
  change advance (c.at s txn h fr hf ph rest d) = _
  rw [advance_some (s := c.at s txn h fr hf ph rest d) rfl rfl]
  change andThen (access (c.act hf ph) _) _ = _
  rw [hc, ha]
  rfl

variable (hp : ParamsOk s.params)

include hp

/-- A send poll that pushes: its turns lead to the receive half with the byte at the tail of the transmit FIFO. -/
theorem ByteSteps.send_run (ht : h.txf.length < s.params.fifoDepth)
    (h1 : h.txovf = false) (h2 : h.txudf = false) (rest : List Slot) (d : Nat) :
    ∃ d', runFor (sendTurns s.params) (c.at s txn h fr .send .flags (hostTurns (sendTurns s.params) ++ rest) d) =
      .next (c.at s txn { h with txf := h.txf ++ [c.w] } fr .recv .flags rest d') := by
  have tail : ∀ d, ∃ d', runFor 2 (c.at s txn h fr .send .count (.hostTurn :: .hostTurn :: rest) d) =
      .next (c.at s txn { h with txf := h.txf ++ [c.w] } fr .recv .flags rest d') := by
    intro d
    obtain ⟨d1, e1⟩ := sendAccess_count (s := c.at s txn h fr .send .count (.hostTurn :: rest) d) hp (Nat.le_of_lt ht) c.w
    have n : ¬ h.txf.length = s.params.fifoDepth := by omega
    have e2 := sendAccess_data (s := c.at s txn h fr .send .data rest (d + d1)) hp c.w
    rw [runFor_step (ByteSteps.turn_again hc .send .data h d1 (by
      simp only [byteAccess]; rw [e1, andThen_next]
      simp only [ByteSteps.at, n, if_false]; rfl))]
    rw [runFor_one, ByteSteps.turn_again hc .recv .flags { h with txf := h.txf ++ [c.w] } 0 (by
      simp only [byteAccess]; rw [e2, andThen_next]
      simp only [ByteSteps.at]
      rw [Hw.pushTx_room _ ht]; rfl)]
    exact ⟨_, rfl⟩
  unfold sendTurns
  by_cases htog : s.params.together .txovf .txudf = true
  · rw [if_pos htog]
    obtain ⟨d1, e1⟩ := sendAccess_flags (s := c.at s txn h fr .send .flags (.hostTurn :: .hostTurn :: rest) d) hp c.w
    obtain ⟨d', ht'⟩ := tail (d + d1)
    refine ⟨d', ?_⟩
    rw [show hostTurns 3 ++ rest = .hostTurn :: .hostTurn :: .hostTurn :: rest from rfl,
      runFor_step (ByteSteps.turn_again hc .send .count h d1 (by
        simp only [byteAccess]; rw [e1, andThen_next]
        simp only [ByteSteps.at, h1, h2, htog, Bool.false_eq_true, if_false, if_true]; rfl))]
    exact ht'
  · rw [if_neg htog]
    obtain ⟨d1, e1⟩ := sendAccess_flags (s := c.at s txn h fr .send .flags (.hostTurn :: .hostTurn :: .hostTurn :: rest) d) hp c.w
    obtain ⟨d2, e2⟩ := sendAccess_underflow (s := c.at s txn h fr .send .underflow (.hostTurn :: .hostTurn :: rest) (d + d1)) hp c.w
    obtain ⟨d', ht'⟩ := tail (d + d1 + d2)
    refine ⟨d', ?_⟩
    rw [show hostTurns 4 ++ rest = .hostTurn :: .hostTurn :: .hostTurn :: .hostTurn :: rest from rfl,
      runFor_step (ByteSteps.turn_again hc .send .underflow h d1 (by
        simp only [byteAccess]; rw [e1, andThen_next]
        simp only [ByteSteps.at, h1, htog, Bool.false_eq_true, if_false]; rfl)),
      runFor_step (ByteSteps.turn_again hc .send .count h d2 (by
        simp only [byteAccess]; rw [e2, andThen_next]
        simp only [ByteSteps.at, h2, Bool.false_eq_true, if_false]; rfl))]
    exact ht'

/-- A receive poll that pops: its turns lead to the byte. -/
theorem ByteSteps.recv_run {b : Byte} {bs : List Byte}
    (hr : h.rxf.length ≤ s.params.fifoDepth) (hb : h.rxf = b :: bs) (h1 : h.rxovf = false) (h2 : h.rxudf = false)
    (rest : List Slot) (d : Nat) :
    ∃ d', runFor (recvTurns s.params) (c.at s txn h fr .recv .flags (hostTurns (recvTurns s.params) ++ rest) d) =
      andThen (c.got b (c.at s txn { h with rxf := bs } fr .recv .data rest d')) fun x => settle x.1 txn x.2 := by
  have tail : ∀ d, ∃ d', runFor 2 (c.at s txn h fr .recv .count (.hostTurn :: .hostTurn :: rest) d) =
      andThen (c.got b (c.at s txn { h with rxf := bs } fr .recv .data rest d')) fun x => settle x.1 txn x.2 := by
    intro d
    obtain ⟨d1, e1⟩ := recvAccess_count (s := c.at s txn h fr .recv .count (.hostTurn :: rest) d) hp hr
    have n : ¬ h.rxf = [] := by rw [hb]; simp
    have e2 := recvAccess_data (s := c.at s txn h fr .recv .data rest (d + d1)) hp
    refine ⟨d + d1 + 2, ?_⟩
    rw [runFor_step (ByteSteps.turn_again hc .recv .data h d1 (by
      simp only [byteAccess]; rw [e1, andThen_next]
      simp only [ByteSteps.at, n, if_false]; rfl))]
    rw [runFor_one]
    refine ByteSteps.turn_byte hc b _ ?_
    simp only [byteAccess]; rw [e2, andThen_next]
    simp only [ByteSteps.at]
    rw [Hw.popRx_cons hb]; rfl
  unfold recvTurns
  by_cases htog : s.params.together .rxovf .rxudf = true
  · rw [if_pos htog]
    obtain ⟨d1, e1⟩ := recvAccess_flags (s := c.at s txn h fr .recv .flags (.hostTurn :: .hostTurn :: rest) d) hp
    obtain ⟨d', ht'⟩ := tail (d + d1)
    refine ⟨d', ?_⟩
    rw [show hostTurns 3 ++ rest = .hostTurn :: .hostTurn :: .hostTurn :: rest from rfl,
      runFor_step (ByteSteps.turn_again hc .recv .count h d1 (by
        simp only [byteAccess]; rw [e1, andThen_next]
        simp only [ByteSteps.at, h1, h2, htog, Bool.false_eq_true, if_false, if_true]; rfl))]
    exact ht'
  · rw [if_neg htog]
    obtain ⟨d1, e1⟩ := recvAccess_flags (s := c.at s txn h fr .recv .flags (.hostTurn :: .hostTurn :: .hostTurn :: rest) d) hp
    obtain ⟨d2, e2⟩ := recvAccess_underflow (s := c.at s txn h fr .recv .underflow (.hostTurn :: .hostTurn :: rest) (d + d1)) hp
    obtain ⟨d', ht'⟩ := tail (d + d1 + d2)
    refine ⟨d', ?_⟩
    rw [show hostTurns 4 ++ rest = .hostTurn :: .hostTurn :: .hostTurn :: .hostTurn :: rest from rfl,
      runFor_step (ByteSteps.turn_again hc .recv .underflow h d1 (by
        simp only [byteAccess]; rw [e1, andThen_next]
        simp only [ByteSteps.at, h1, htog, Bool.false_eq_true, if_false]; rfl)),
      runFor_step (ByteSteps.turn_again hc .recv .count h d2 (by
        simp only [byteAccess]; rw [e2, andThen_next]
        simp only [ByteSteps.at, h2, Bool.false_eq_true, if_false]; rfl))]
    exact ht'

omit hc hp in
/-- The two slots of a frame: the byte waiting is sent and the peer's byte received. -/
theorem ByteSteps.frame_run (hf : Half) (ph : PollPhase) (w r : Byte) (rest : List Slot) (d : Nat) (ho : h.operational = true)
    (he : h.eng = .idle) (ht : h.txf = [w]) (hr : h.rxf.length < s.params.fifoDepth) :
    runFor 2 (c.at s txn h fr hf ph (frameSlots r ++ rest) d) =
      .next (c.at s txn { h with txf := [], rxf := h.rxf ++ [r], eng := .idle }
        (fr ++ [{ tx := w, rx := r, snap := h.snapshot, stored := true }]) hf ph rest d) := by
  rw [show frameSlots r ++ rest = .code .K (encode .frameStart) :: .code .K (encode (.frameComplete r)) :: rest from rfl,
    runFor_step (step_frameStart rfl), runFor_one]
  have e : (c.at s txn h fr hf ph (.code .K (encode .frameStart) :: .code .K (encode (.frameComplete r)) :: rest) d).hw.frameStart =
      { h with txf := [], eng := .shifting w h.snapshot } := Hw.frameStart_enabled ho he ht
  rw [e, step_frameComplete (rest := rest) rfl, State.frameComplete_shifting r rfl]
  have e3 : Hw.pushRx s.params.fifoDepth r { h with txf := [], eng := .shifting w h.snapshot } =
      { h with txf := [], eng := .shifting w h.snapshot, rxf := h.rxf ++ [r] } := Hw.pushRx_room r hr
  have e2 : Hw.rxRoom s.params.fifoDepth { h with txf := [], eng := .shifting w h.snapshot } = true := by
    simp only [Hw.rxRoom, decide_eq_true_eq]; exact hr
  simp only [ByteSteps.at, State.withHw, State.withProgram] at *
  rw [e2, e3]

/-- One byte-step from a clean state under its schedule leads to the byte of the peer, Layer H as it was. -/
theorem ByteSteps.run (ho : h.operational = true) (hcl : h.clean = true) (r : Byte) (rest : List Slot) (d : Nat) :
    ∃ d', runFor (byteSchedule s.params r).length (c.at s txn h fr .send .flags (byteSchedule s.params r ++ rest) d) =
      andThen (c.got r (c.at s txn h (fr ++ [{ tx := c.w, rx := r, snap := h.snapshot, stored := true }]) .recv .data rest d'))
        fun x => settle x.1 txn x.2 := by
  obtain ⟨ht, hrx, he, hf⟩ := Hw.clean_iff.mp hcl
  obtain ⟨f1, f2, f3, f4⟩ := Hw.noFlags_iff.mp hf
  have hd := hp.depth_pos
  have hl : (byteSchedule s.params r).length = sendTurns s.params + (2 + recvTurns s.params) := by
    simp [byteSchedule, hostTurns, frameSlots]; omega
  rw [hl, show byteSchedule s.params r ++ rest =
    hostTurns (sendTurns s.params) ++ (frameSlots r ++ (hostTurns (recvTurns s.params) ++ rest)) by simp [byteSchedule]]
  obtain ⟨d1, e1⟩ := ByteSteps.send_run hc hp (h := h) (txn := txn) (fr := fr) (by rw [ht]; exact hd)
    f1 f2 (frameSlots r ++ (hostTurns (recvTurns s.params) ++ rest)) d
  rw [runFor_add e1, runFor_add (ByteSteps.frame_run .recv .flags c.w r _ _ (by exact ho) (by exact he) (by simp [ht])
    (by rw [hrx]; exact hd))]
  have hh : { { h with txf := h.txf ++ [c.w] } with txf := [], rxf := h.rxf ++ [r], eng := .idle } = { h with rxf := [r] } := by
    cases h; simp_all
  obtain ⟨d2, e2⟩ := ByteSteps.recv_run hc hp (h := { h with rxf := [r] }) (txn := txn)
    (fr := fr ++ [{ tx := c.w, rx := r, snap := h.snapshot, stored := true }]) (b := r) (bs := [])
    (by simpa using hd) rfl f3 f4 rest d1
  refine ⟨d2, ?_⟩
  have hh2 : { { h with rxf := [r] } with rxf := [] } = h := by cases h; simp_all
  rw [hh2] at e2
  rw [hh]
  exact e2

end

end Sys2Proof.Machine
end

