-- ==== Sys2Proof/Laws/Buffers.lean ====
section
/-! SUPPORT. The buffers of a transfer command: the bytes it sends, the memory it leaves, and its whole run under the schedule
that lets each byte-step's frame happen. -/

namespace Sys2Proof.Machine

/-- The byte that byte-step `i` sends. -/
def Xfer.byteAt (x : Xfer) (m : Memory) (i : Nat) : Byte :=
  if i < x.source.len.toNat then m.get (bufAddr x.source i) else Config.filler

/-- The bytes a transfer sends from byte-step `i` on, `n` of them. -/
def Xfer.sent (x : Xfer) (m : Memory) : Nat → Nat → List Byte
  | _, 0 => []
  | i, n + 1 => x.byteAt m i :: Xfer.sent x m (i + 1) n

/-- A transfer about to make the first access of byte-step `i`. -/
def Xfer.begun (x : Xfer) (i : Nat) (m : Memory) (txn : Option Txn) : Running :=
  { act := .xfer x i (x.byteAt m i) .send .flags, txn := txn }

/-- A byte stored never changes a byte still to be sent: no shared address, or one buffer for both (R88, R267). -/
def Xfer.Separate (x : Xfer) : Prop :=
  ∀ j k, j < k → k < x.source.len.toNat → j < x.sink.len.toNat → bufAddr x.sink j ≠ bufAddr x.source k

/-- Storing byte `i` leaves the bytes sent after it. -/
theorem Xfer.sent_set {x : Xfer} (hs : x.Separate) {m : Memory} {i : Nat} {v : Byte} (hi : i < x.sink.len.toNat) (n : Nat) :
   ∀ j, i < j → Xfer.sent x (m.set (bufAddr x.sink i) v) j n = Xfer.sent x m j n := by
  induction n with
  | zero => intros; rfl
  | succ n ih =>
    intro j hj
    simp only [Xfer.sent, Xfer.byteAt]
    rw [ih (j+1) (by omega)]
    split
    · rw [Memory.get_set_other]
      exact (hs i j hj (by assumption) hi).symm
    · rfl

/-- With a source that fits every transmit byte can be read. -/
theorem xferByte_next {x : Xfer} {i : Nat} {s : State} (hf : x.source.fits = true) :
   xferByte x i s = .next (x.byteAt s.mem i) := by
  unfold xferByte Xfer.byteAt
  split
  · unfold hostRead; rw [if_pos (bufAddr_lt hf (by assumption))]
  · rfl

/-- A byte-step that is left begins with its first poll. -/
theorem beginXfer_next {x : Xfer} {i : Nat} {s : State} (hf : x.source.fits = true) (hi : i < xferSteps x) :
   beginXfer x i s = .next (some (.xfer x i (x.byteAt s.mem i) .send .flags)) := by
  unfold beginXfer
  rw [if_pos hi, xferByte_next hf]; rfl

/-- With no byte-step left nothing begins. -/
theorem beginXfer_none {x : Xfer} {i : Nat} {s : State} (hi : xferSteps x ≤ i) :
   beginXfer x i s = .next none := by
  unfold beginXfer
  rw [if_neg (by omega)]

/-- With a sink that fits every received byte can be stored. -/
theorem xferStore_next {x : Xfer} {i : Nat} {s : State} {b : Byte} (hf : x.sink.fits = true) :
   xferStore x i b s = .next (s.withMem (if i < x.sink.len.toNat then s.mem.set (bufAddr x.sink i) b else s.mem)) := by
  unfold xferStore
  split
  · unfold hostWrite; rw [if_pos (bufAddr_lt hf (by assumption))]
  · rfl

/-- The state in which a transfer has made the byte-steps from `i` on with the bytes `rs` received. -/
def Xfer.endState (s : State) (x : Xfer) (i : Nat) (rs : List Byte) (rest : List Slot) (d : Nat) : State :=
  { s with frames := s.frames ++ frameList s.hw.snapshot (Xfer.sent x s.mem i rs.length) rs,
           mem := storeBytes x.sink i (rs.take (x.sink.len.toNat - i)) s.mem,
           program := rest, draws := d }

/-- A transfer from byte-step `i` on: under the schedule of its remaining byte-steps it comes to its result `Ok` with the bytes
exchanged. -/
theorem xfer_run (x : Xfer) (hs : x.Separate) (hf1 : x.sink.fits = true) (hf2 : x.source.fits = true) (rs : List Byte) :
    ∀ (r : Byte) (i : Nat) (s : State) (txn : Option Txn) (rest : List Slot), i + (rs.length + 1) = xferSteps x →
    s.hw.operational = true → s.hw.clean = true → ParamsOk s.params →
    s.host.running = some (x.begun i s.mem txn) →
    s.program = bytesSchedule s.params (r :: rs) ++ rest →
    ∃ R d, runFor (bytesSchedule s.params (r :: rs)).length s =
      settle (.done .ok) txn ((Xfer.endState s x i (r :: rs) rest d).withRunning R) := by
  induction rs with
  | nil =>
    intro r i s txn rest hn ho hc hp hr hpr
    obtain ⟨d, hd⟩ := ByteSteps.run (xfer_lawful x i (x.byteAt s.mem i)) hp (txn := txn) (fr := s.frames) ho hc r rest s.draws
    have hs' := ByteSteps.at_self (c := ⟨x.byteAt s.mem i, .xfer x i (x.byteAt s.mem i), fun b s => andThen (xferStore x i b s) fun s' =>
      andThen (beginXfer x (i + 1) s') fun a => .next (orOk a, s')⟩) hr
    simp only [bytesSchedule, List.append_nil] at hpr
    rw [hpr] at hs'
    rw [← hs'] at hd
    dsimp only at hd
    rw [xferStore_next hf1] at hd
    dsimp only [andThen] at hd
    rw [beginXfer_none (by simp at hn; omega)] at hd
    simp only [orOk] at hd
    refine ⟨some { act := .xfer x i (x.byteAt s.mem i) .recv .data, txn := txn }, d, ?_⟩
    rw [show bytesSchedule s.params [r] = byteSchedule s.params r by simp [bytesSchedule], hd]
    congr 1
    simp only [Xfer.endState, State.withMem, State.withRunning, ByteSteps.at, Xfer.sent, frameList, List.length_cons,
      List.length_nil, List.zipWith_cons_cons, List.zipWith_nil_right]
    by_cases hi : i < x.sink.len.toNat
    · rw [if_pos hi, List.take_of_length_le (by simp; omega)]; rfl
    · rw [if_neg hi, show x.sink.len.toNat - i = 0 by omega]; rfl
  | cons r' rs ih =>
    intro r i s txn rest hn ho hc hp hr hpr
    simp only [List.length_cons] at hn
    obtain ⟨d, hd⟩ := ByteSteps.run (xfer_lawful x i (x.byteAt s.mem i)) hp (txn := txn) (fr := s.frames) ho hc r
      (bytesSchedule s.params (r' :: rs) ++ rest) s.draws
    have hs' := ByteSteps.at_self (c := ⟨x.byteAt s.mem i, .xfer x i (x.byteAt s.mem i), fun b s => andThen (xferStore x i b s) fun s' =>
      andThen (beginXfer x (i + 1) s') fun a => .next (orOk a, s')⟩) hr
    rw [show s.program = byteSchedule s.params r ++ (bytesSchedule s.params (r' :: rs) ++ rest) by
      rw [hpr, bytesSchedule, List.append_assoc]] at hs'
    rw [← hs'] at hd
    dsimp only at hd
    rw [xferStore_next hf1] at hd
    dsimp only [andThen] at hd
    rw [beginXfer_next hf2 (by omega)] at hd
    dsimp only [orOk] at hd
    rw [settle_more] at hd
    rw [show (bytesSchedule s.params (r :: r' :: rs)).length =
      (byteSchedule s.params r).length + (bytesSchedule s.params (r' :: rs)).length by rw [bytesSchedule, List.length_append],
      runFor_add hd]
    clear hs' hd hpr hr
    obtain ⟨hw0, fr, ⟨en, de, ru, re, ed⟩, me, pr, dr, pa⟩ := s
    simp only at ho hc hp
    simp only [ByteSteps.at, State.withMem, State.withRunning, Xfer.endState]
    generalize hw : x.byteAt me i = w at *
    generalize hm : (if i < x.sink.len.toNat then me.set (bufAddr x.sink i) r else me) = m2
    obtain ⟨R, d', hR⟩ := ih r' (i + 1) ⟨hw0, fr ++ [⟨w, r, hw0.snapshot, true⟩],
      ⟨en, de, some (x.begun (i + 1) m2 txn), re, ed⟩, m2, bytesSchedule pa (r' :: rs) ++ rest, d, pa⟩ txn rest
      (by omega) ho hc hp rfl rfl
    refine ⟨R, d', hR.trans ?_⟩
    congr 2
    simp only [Xfer.endState, State.withRunning]
    have et : Xfer.sent x m2 (i + 1) (r' :: rs).length = Xfer.sent x me (i + 1) (r' :: rs).length := by
      rw [← hm]; split
      · exact Xfer.sent_set hs (by assumption) _ _ (by omega)
      · rfl
    have es : storeBytes x.sink i ((r :: r' :: rs).take (x.sink.len.toNat - i)) me =
        storeBytes x.sink (i + 1) ((r' :: rs).take (x.sink.len.toNat - (i + 1))) m2 := by
      rw [← hm]
      by_cases hi : i < x.sink.len.toNat
      · rw [if_pos hi, show x.sink.len.toNat - i = x.sink.len.toNat - (i + 1) + 1 by omega, List.take_succ_cons]; rfl
      · rw [if_neg hi, show x.sink.len.toNat - i = 0 by omega, show x.sink.len.toNat - (i + 1) = 0 by omega]; rfl
    have ew : Xfer.sent x me i (r :: r' :: rs).length = w :: Xfer.sent x me (i + 1) (r' :: rs).length := by rw [← hw]; rfl
    rw [et, es, ew]
    simp only [frameList, List.zipWith_cons_cons, List.append_assoc, List.singleton_append]

/-! What memory holds. -/

theorem bufAddr_eq (b : Buf) (i : Nat) : bufAddr b i = b.base.toNat + i := rfl

/-- The bytes of a buffer are as many as asked for. -/
theorem bufBytesAt_length (b : Buf) (m : Memory) (n : Nat) : ∀ i, (bufBytesAt b m i n).length = n := by
  induction n with
  | zero => intro; rfl
  | succ n ih => intro i; simp [bufBytesAt, ih]

/-- A buffer that holds `ws` reads as `ws`. -/
theorem bufBytesAt_holds {m : Memory} {b : Buf} {ws : List Byte} (h : holdsBytes m b ws) : bufBytesAt b m 0 ws.length = ws := by
  have : ∀ n i, i + n = ws.length → bufBytesAt b m i n = ws.drop i := by
    intro n
    induction n with
    | zero => intro i hi; simp [bufBytesAt, show ws.length ≤ i by omega]
    | succ n ih =>
      intro i hi
      rw [bufBytesAt, ih (i+1) (by omega), h i (by omega)]
      rw [List.getElem_cons_drop]
  simpa using this ws.length 0 (by omega)

/-- What an address reads as after a run of stores. -/
theorem storeBytes_get {b : Buf} (rs : List Byte) : ∀ (i : Nat) (m : Memory) (a : Nat), m.wf = true → b.base.toNat + i + rs.length ≤ Config.hostSpace → (storeBytes b i rs m).get a =
    if h : b.base.toNat + i ≤ a ∧ a < b.base.toNat + i + rs.length then rs[a - (b.base.toNat + i)] else m.get a := by
  induction rs with
  | nil => intro i m a _ _; rw [dif_neg (by simp)]; rfl
  | cons r rs ih =>
    intro i m a hm hb
    simp only [List.length_cons] at hb
    rw [storeBytes, ih _ _ _ (Memory.wf_set _ hm (by rw [bufAddr_eq]; omega)) (by omega)]
    by_cases h : a = b.base.toNat + i
    · subst h
      rw [dif_neg (by omega), dif_pos (by simp)]
      rw [bufAddr_eq, Memory.get_set_same hm]; simp
    · by_cases h2 : b.base.toNat + i ≤ a ∧ a < b.base.toNat + i + (r :: rs).length
      · rw [dif_pos h2, dif_pos (by simp at h2; omega)]
        rw [List.getElem_cons]
        rw [dif_neg (by omega)]
        congr 1
      · rw [dif_neg h2, dif_neg (by simp at h2; omega), Memory.get_set_other]
        rw [bufAddr_eq]; exact h

/-- A buffer that fits ends inside the address space. -/
theorem Buf.fits_iff {b : Buf} : b.fits = true ↔ b.base.toNat + b.len.toNat ≤ Config.hostSpace := by simp [Buf.fits]

/-- A buffer holds the bytes stored in it. -/
theorem storeBytes_holds (b : Buf) (rs : List Byte) (m : Memory) (hm : m.wf = true) (hf : b.fits = true) (hl : rs.length ≤ b.len.toNat) : holdsBytes (storeBytes b 0 rs m) b rs := by
  have := Buf.fits_iff.mp hf
  intro i h
  rw [storeBytes_get _ _ _ _ hm (by omega), dif_pos (by simp [bufAddr_eq]; omega)]
  simp [bufAddr_eq]

/-- Stores in a buffer leave every address outside it. -/
theorem storeBytes_frame (b : Buf) (rs : List Byte) (m : Memory) (n : Nat) (hn : rs.length ≤ n) (a : Nat) (ha : ¬ inBuf b n a)  (hm : m.wf = true) (hf : b.fits = true) (hl : rs.length ≤ b.len.toNat) :
   (storeBytes b 0 rs m).get a = m.get a := by
  have := Buf.fits_iff.mp hf
  rw [storeBytes_get _ _ _ _ hm (by omega), dif_neg]
  simp only [inBuf] at ha
  omega

end Sys2Proof.Machine
end

