-- ==== Sys2Proof/Laws/Construct.lean ====
section
/-! SUPPORT. What it takes for CONSTRUCT to leave `M_EN` for its last write (43_divider_construct R236): the terms of Safety
unfolded once, and what one access of a `RegModify` keeps of them. -/

namespace Sys2Proof.Machine

theorem State.constructing_iff {s : State} : s.constructing = true ↔ s.hw.mEn = false ∧ s.host.engine = none ∧
    ∃ a st m, s.host.running = some { act := .construct a st m, txn := none, stale := false } ∧
      m.configures s.params = true ∧ m.enablesLast s.params (decide (st = .mode)) = true := by
  unfold State.constructing
  simp only [Bool.and_eq_true, Bool.not_eq_true', Option.isNone_iff_eq_none, and_assoc]
  refine and_congr_right fun _ => and_congr_right fun _ => ?_
  constructor
  · intro h
    split at h
    · rename_i a st m hr
      exact ⟨_, _, _, hr, by simpa using h⟩
    · cases h
  · rintro ⟨a, st, m, hr, h⟩
    rw [hr]
    simpa using h

/-- Configuration fields may be asked of a `RegModify`. -/
theorem Modify.configures_modifiable {p : Params} {m : Modify} (h : m.configures p = true) : Modifiable p m.todo := by
  simp only [Modify.configures, Bool.and_eq_true, decide_eq_true_eq, List.all_eq_true] at h
  refine ⟨h.1, fun x hx => ?_, fun x hx e => ?_, fun x hx e => ?_, fun x hx => (h.2 x hx).2⟩
  · have := (h.2 x hx).1
    revert this; cases x.1 <;> simp [Field.guarded, fieldSpace]
  · have := (h.2 x hx).1
    rw [e] at this; cases this
  · have := (h.2 x hx).1
    rw [e] at this; cases this

theorem Modify.configures_of {p : Params} {todo : List (Field × Word)} (hm : Modifiable p todo)
    (hg : ∀ x ∈ todo, Field.guarded x.1 = true) : (modifyOf todo).configures p = true := by
  simp only [Modify.configures, modifyOf, Bool.and_eq_true, decide_eq_true_eq, List.all_eq_true]
  exact ⟨decide_eq_true hm.nodup, fun x hx => ⟨hg x hx, hm.fits x hx⟩⟩

theorem Modify.configures_filter {p : Params} {m : Modify} (h : m.configures p = true) (q : Field × Word → Bool)
    (r : Option Word) : ({ todo := m.todo.filter q, read := r } : Modify).configures p = true := by
  simp only [Modify.configures, Bool.and_eq_true, decide_eq_true_eq, List.all_eq_true] at h ⊢
  exact ⟨h.1.sublist (List.filter_sublist.map _), fun x hx => h.2 x (List.mem_of_mem_filter hx)⟩

theorem Modify.enablesLast_iff {p : Params} {b : Bool} {m : Modify} : m.enablesLast p b = true ↔
    m.todo.lookup .mEn = (if b then some 1 else none) ∧
    (b = true → m.todo.Pairwise fun x y => p.together .mEn x.1 = true → p.together .mEn y.1 = true) ∧
    (∀ x rest t, m.todo = x :: rest → m.read = some t → p.together .mEn x.1 = true → p.isSet .mEn t = false) := by
  obtain ⟨todo, rd⟩ := m
  unfold Modify.enablesLast
  simp only [Bool.and_eq_true, decide_eq_true_eq, and_assoc]
  refine and_congr_right fun _ => and_congr ?_ ?_
  · cases b <;> simp
  · cases todo with
    | nil => simp
    | cons x rest =>
      cases rd with
      | none => simp
      | some t =>
        simp only [Bool.not_eq_true', Bool.and_eq_false_iff, List.cons.injEq, Option.some.injEq]
        constructor
        · rintro h x' r' t' ⟨rfl, rfl⟩ rfl ht
          rcases h with h | h
          · rw [h] at ht; cases ht
          · exact h
        · intro h
          cases ht : p.together .mEn x.1
          · exact .inl rfl
          · exact .inr (h x rest t ⟨rfl, rfl⟩ rfl ht)

/-- One access of such a `RegModify`, begun with `M_EN` 0: it stays such a one, or is done with `M_EN` set or not as it was to do;
Layer C and the parameters stay. -/
theorem modifyAccess_enablesLast {s t : State} {m : Modify} {q : ModifyStep} {b : Bool} (h : ParamsOk s.params)
    (he : s.hw.mEn = false) (hc : m.configures s.params = true)
    (hl : m.enablesLast s.params b = true) (ha : modifyAccess m s = .next (q, t)) :
    t.host = s.host ∧ t.params = s.params ∧
    match q with
    | .again m' => t.hw.mEn = false ∧ m'.configures s.params = true ∧ m'.enablesLast s.params b = true
    | .done => t.hw.mEn = b := by
  have hm := Modify.configures_modifiable hc
  obtain ⟨l1, l2, l3⟩ := Modify.enablesLast_iff.mp hl
  obtain ⟨todo, rd⟩ := m
  dsimp only at l1 l2 l3 hm
  cases todo with
  | nil =>
    cases ha
    refine ⟨rfl, rfl, ?_⟩
    cases b
    · exact he
    · cases l1
  | cons x rest =>
    have hx := hm.spi x (by simp)
    cases rd with
    | none =>
      obtain ⟨w, d, hr, hv⟩ := regRead_plain h hx (hm.txd x (by simp)) (hm.rxd x (by simp))
      simp only [modifyAccess, hr, andThen_next] at ha
      cases ha
      refine ⟨rfl, rfl, he, hc, Modify.enablesLast_iff.mpr ⟨l1, l2, ?_⟩⟩
      rintro x' r' t' e e' ht
      cases e; cases e'
      refine isSet_eq (b := false) ?_
      rw [hv .mEn (h.together_symm rfl ht) (fieldFits_of_ne (by decide) (by decide)), State.value, he]
    | some v =>
      obtain ⟨u, hr, ha⟩ := andThen_eq_next.mp ha
      obtain ⟨-, -, -, -, hu⟩ := regWrite_eq_next.mp hr
      have key : u.hw.mEn = if s.params.together x.1 .mEn = true then b else false := by
        rw [hu]
        obtain ⟨uu, e1, -⟩ := Hw.storeU_eq (p := s.params) (w := Modify.word s.params x.1 (x :: rest) v)
          (fs := s.params.wordOf x.1)
          (h := s.hw.writeFields s.params (Modify.word s.params x.1 (x :: rest) v) (s.params.wordOf x.1)) (s.params.offset x.1)
        rw [State.withHw_hw, e1]
        dsimp only
        rw [writeFields_mEn]
        simp only [Params.mem_wordOf, he]
        by_cases ht : s.params.together x.1 .mEn = true
        · rw [if_pos ht, if_pos ht, get_modifyWord h hm ht, l1]
          cases b
          · have := l3 x rest v rfl rfl (h.together_symm hx ht)
            simp only [Params.isSet] at this
            rw [show (if false = true then some (1:Word) else none) = none from rfl, Option.getD_none]
            have h0 : s.params.get .mEn v = 0 := by simpa using this
            rw [h0]; rfl
          · simp
        · rw [if_neg ht, if_neg ht]
      have hl2 : (rest.filter fun y => !s.params.together x.1 y.1) = (x :: rest).filter fun y => !s.params.together x.1 y.1 := by
        rw [List.filter_cons, h.together_self hx]; rfl
      have hlk := lookup_filter (x :: rest) (fun g => !s.params.together x.1 g) .mEn
      rw [hl2] at ha
      generalize hleft : ((x :: rest).filter fun y => !s.params.together x.1 y.1) = left at *
      have hcl : ∀ r, ({ todo := left, read := r } : Modify).configures s.params = true := fun r =>
        hleft ▸ Modify.configures_filter hc _ r
      cases left with
      | nil =>
        cases ha
        refine ⟨by rw [hu]; rfl, by rw [hu]; rfl, ?_⟩
        dsimp only
        rw [key]
        split
        · rfl
        · rename_i ht
          simp only [ht, Bool.not_false, l1] at hlk
          cases b
          · rfl
          · cases hlk
      | cons y left =>
        cases ha
        have hnt : s.params.together x.1 .mEn = true → b = false := by
          intro ht
          cases b with
          | false => rfl
          | true =>
            exfalso
            have hy : y ∈ (x :: rest).filter fun y => !s.params.together x.1 y.1 := by rw [hleft]; simp
            obtain ⟨hy1, hy2⟩ := List.mem_filter.mp hy
            rcases List.mem_cons.mp hy1 with rfl | hy1
            · rw [h.together_self hx] at hy2; cases hy2
            · have h1 := (List.pairwise_cons.mp (l2 rfl)).1 y hy1 (h.together_symm hx ht)
              rw [← h.together_congr ht, h1] at hy2
              cases hy2
        refine ⟨by rw [hu]; rfl, by rw [hu]; rfl, ?_, hcl _, Modify.enablesLast_iff.mpr ⟨?_, ?_, ?_⟩⟩
        · rw [key]; split
          · exact hnt (by assumption)
          · rfl
        · dsimp only
          rw [hlk]
          by_cases ht : s.params.together x.1 .mEn = true
          · rw [hnt ht]; simp [ht]
          · simp [ht, l1]
        · intro hb
          dsimp only
          rw [← hleft]
          exact (l2 hb).filter _
        · intro _ _ _ _ e; cases e

end Sys2Proof.Machine
end

