-- ==== Sys2Proof/Laws/Decode.lean ====
section
/-! SUPPORT. Each operand's decoder undoes its encoder, whatever bytes follow. -/

namespace Sys2Proof

@[simp] theorem decodedThen_ok {α β : Type} (a : α) (rest : List Byte) (f : α → List Byte → Decoded β) :
    decodedThen (.ok (a, rest)) f = f a rest := rfl

@[simp] theorem decodedThen_error {α β : Type} (e : DecodeError) (f : α → List Byte → Decoded β) :
    decodedThen (.error e : Decoded α) f = .error e := rfl

/-- A composition decodes exactly when both parts do. -/
theorem decodedThen_eq_ok {α β : Type} {p : Decoded α} {f : α → List Byte → Decoded β} {b : β} {rest : List Byte} :
    decodedThen p f = .ok (b, rest) ↔ ∃ a mid, p = .ok (a, mid) ∧ f a mid = .ok (b, rest) := by
  cases p with
  | error e => simp
  | ok x => obtain ⟨a, mid⟩ := x; simp

@[simp] theorem takeByte_cons (b : Byte) (t : List Byte) : takeByte (b :: t) = .ok (b, t) := rfl

/-- Two bytes put together are the number they were cut from. -/
theorem append_halfBytes (w : BitVec 16) : w.extractLsb' 8 8 ++ w.extractLsb' 0 8 = w := by
  ext i hi
  simp only [BitVec.getElem_append, BitVec.getElem_extractLsb']
  split
  · rw [Nat.zero_add, BitVec.getLsbD_eq_getElem]
  · rw [show 8 + (i - 8) = i by omega, BitVec.getLsbD_eq_getElem]

/-- Four bytes put together are the word they were cut from. -/
theorem append_wordBytes (w : Word) :
    w.extractLsb' 24 8 ++ w.extractLsb' 16 8 ++ w.extractLsb' 8 8 ++ w.extractLsb' 0 8 = w := by
  ext i hi
  simp only [BitVec.getElem_append, BitVec.getElem_extractLsb']
  split
  · rw [Nat.zero_add, BitVec.getLsbD_eq_getElem]
  · split
    · rw [show 8 + (i - 8) = i by omega, BitVec.getLsbD_eq_getElem]
    · split
      · rw [show 16 + (i - 8 - 8) = i by omega, BitVec.getLsbD_eq_getElem]
      · rw [show 24 + (i - 8 - 8 - 8) = i by omega, BitVec.getLsbD_eq_getElem]

/-- Two halves put together are the 64-bit number they were cut from. -/
theorem append_halves (d : DWord) : d.extractLsb' 32 32 ++ d.extractLsb' 0 32 = d := by
  ext i hi
  simp only [BitVec.getElem_append, BitVec.getElem_extractLsb']
  split
  · rw [Nat.zero_add, BitVec.getLsbD_eq_getElem]
  · rw [show 32 + (i - 32) = i by omega, BitVec.getLsbD_eq_getElem]

@[simp] theorem takeHalf_halfBytes (w : BitVec 16) (t : List Byte) : takeHalf (halfBytes w ++ t) = .ok (w, t) := by
  change Except.ok (_, t) = _
  rw [append_halfBytes]

@[simp] theorem takeWord_wordBytes (w : Word) (t : List Byte) : takeWord (wordBytes w ++ t) = .ok (w, t) := by
  change Except.ok (_, t) = _
  rw [append_wordBytes]

@[simp] theorem takeDWord_dwordBytes (d : DWord) (t : List Byte) : takeDWord (dwordBytes d ++ t) = .ok (d, t) := by
  simp [takeDWord, dwordBytes, List.append_assoc, append_halves]

@[simp] theorem takeBuf_bufBytes (b : Buf) (t : List Byte) : takeBuf (bufBytes b ++ t) = .ok (b, t) := by
  simp [takeBuf, bufBytes, List.append_assoc]

@[simp] theorem takeBufs_bufBytes (r w : Buf) (t : List Byte) :
    takeBufs (bufBytes r ++ (bufBytes w ++ t)) = .ok ((r, w), t) := by
  simp [takeBufs]

@[simp] theorem takeMode_modeByte (m : BusMode) (t : List Byte) : takeMode (modeByte m :: t) = .ok (m, t) := by
  obtain ⟨p, q⟩ := m
  cases p <;> cases q <;> rfl

@[simp] theorem takeBitOrder_bitOrderByte (o : BitOrder) (t : List Byte) :
    takeBitOrder (bitOrderByte o :: t) = .ok (o, t) := by
  cases o <;> rfl

@[simp] theorem takeDuration_durationBytes (d : Duration) (t : List Byte) :
    takeDuration (durationBytes d ++ t) = .ok (d, t) := by
  obtain ⟨u, a⟩ := d
  cases u <;> simp [takeDuration, durationBytes, unitByte]

@[simp] theorem takeConstructArgs_constructBytes (a : ConstructArgs) (t : List Byte) :
    takeConstructArgs (constructBytes a ++ t) = .ok (a, t) := by
  simp [takeConstructArgs, constructBytes, List.append_assoc]

/-- The tag of an Operation, and the operands after it (R124). -/
theorem takeOperation_operationBytes (op : Operation) (t : List Byte) :
    ∃ tag body, operationBytes op ++ t = tag :: body ∧ tag ≠ 0 ∧ takeOperation tag body = .ok (op, t) := by
  cases op with
  | read b => exact ⟨0x30, bufBytes b ++ t, rfl, by decide, by simp [takeOperation]⟩
  | write b => exact ⟨0x31, bufBytes b ++ t, rfl, by decide, by simp [takeOperation]⟩
  | transfer r w =>
    exact ⟨0x32, bufBytes r ++ (bufBytes w ++ t), by simp [operationBytes], by decide, by simp [takeOperation]⟩
  | transferInPlace b => exact ⟨0x33, bufBytes b ++ t, rfl, by decide, by simp [takeOperation]⟩
  | delay d => exact ⟨0x34, durationBytes d ++ t, rfl, by decide, by simp [takeOperation]⟩

end Sys2Proof
end

