-- ==== Sys2Proof/Laws/Turns.lean ====
section
/-! SUPPORT. The host turns of a counter read and of a `RegModify`: what they come to, whatever command makes them. -/

namespace Sys2Proof.Machine

@[simp] theorem andThen_runFor_zero (o : Out State) : andThen o (runFor 0) = o := by
  cases o <;> rfl

/-- A host turn of a command, its slot used up. -/
theorem runFor_turn {k : Nat} {s : State} {r : Running} {rest : List Slot} (hr : s.host.running = some r)
    (hs : r.stale = false) (hp : s.program = .hostTurn :: rest) :
    runFor (k + 1) s =
      andThen (access r.act (s.withProgram rest)) fun x => andThen (settle x.1 r.txn x.2) (runFor k) := by
  rw [runFor_succ, step_hostTurn hp, advance_some (s := s.withProgram rest) hr hs]
  cases access r.act (s.withProgram rest) <;> rfl

/-! `CounterRead()` (R148, R212). -/

/-- A command that reads the counter and goes on with its value. -/
def ReadsCounter (mk : CounterPhase → Activity) (fin : DWord → Progress) : Prop :=
  ∀ c s, access (mk c) s =
    match counterAccess c s with
    | .again c' => .next (.more (mk c'), s)
    | .value v => .next (fin v, s)

theorem now_readsCounter : ReadsCounter .now fun v => .done (.dword v) := fun _ _ => rfl

theorem elapsedSince_readsCounter (st : DWord) : ReadsCounter (.elapsedSince st) fun v => .done (.dword (v - st)) :=
  fun _ _ => rfl

theorem delay_readsCounter (n : DWord) (st : Option DWord) : ReadsCounter (.delay n st) fun v => delayProgress n st v :=
  fun _ _ => rfl

/-- The two halves of the counter are the counter. -/
theorem counter_halves (c : DWord) : c.extractLsb' 32 32 ++ c.extractLsb' 0 32 = c := by
  apply BitVec.eq_of_getLsbD_eq
  intro i hi
  rw [BitVec.getLsbD_append]
  by_cases h : i < 32
  · simp [h]
  · simp [h, show i - 32 < 32 by omega, show 32 + (i - 32) = i by omega]

/-- With no other agent moving, the host turns of one `CounterRead()` come to the counter's value. -/
theorem counter_run {mk : CounterPhase → Activity} {fin : DWord → Progress} (hm : ReadsCounter mk fin) {s : State}
    {txn : Option Txn} {rest : List Slot} (hr : s.host.running = some { act := mk .first, txn := txn })
    (hp : s.program = hostTurns (counterTurns s.params) ++ rest) :
    ∃ c, runFor (counterTurns s.params) s =
      settle (fin s.hw.cycle) txn ((s.withProgram rest).withRunning (some { act := mk c, txn := txn })) := by
  unfold counterTurns at hp ⊢
  cases hc : s.params.counterRead with
  | atomic64 =>
    rw [hc] at hp
    refine ⟨.first, ?_⟩
    rw [runFor_turn (k := 0) (rest := rest) hr rfl hp, hm]
    simp only [counterAccess, State.withProgram_params, hc, andThen_next, State.withProgram_hw]
    rw [andThen_runFor_zero, ← hr]
    rfl
  | split32 =>
    rw [hc] at hp
    refine ⟨.high (s.hw.cycle.extractLsb' 32 32) (s.hw.cycle.extractLsb' 0 32), ?_⟩
    rw [runFor_turn (k := 2) (rest := hostTurns 2 ++ rest) hr rfl hp, hm]
    simp only [counterAccess, State.withProgram_params, hc, andThen_next, State.value, settle_more]
    rw [runFor_turn (k := 1) (rest := hostTurns 1 ++ rest) rfl rfl rfl, hm]
    simp only [counterAccess, State.withProgram_params, State.withRunning_params, hc, andThen_next, State.value, settle_more]
    rw [runFor_turn (k := 0) (rest := rest) rfl rfl rfl, hm]
    simp only [counterAccess, State.withProgram_params, State.withRunning_params, hc, andThen_next, State.value,
      State.withProgram_hw, State.withRunning_hw, if_true, counter_halves]
    rw [andThen_runFor_zero]
    rfl

/-! `RegModify` (R151). -/

/-- A command that makes a `RegModify` and goes on when it is done. -/
def MakesModify (mk : Modify → Activity) (fin : State → Progress × State) : Prop :=
  ∀ m s, access (mk m) s = andThen (modifyAccess m s) fun x =>
    match x.1 with
    | .again m' => .next (.more (mk m'), x.2)
    | .done => .next (fin x.2)

theorem setBitOrder_makesModify : MakesModify .setBitOrder fun s => (.done .unit, s) := by
  intro m s
  change andThen _ _ = andThen _ _
  congr 1
  funext x
  obtain ⟨q, t⟩ := x
  cases q <;> rfl

theorem clearFifos_makesModify : MakesModify .clearFifos fun s => (.done .unit, s) := by
  intro m s
  change andThen _ _ = andThen _ _
  congr 1
  funext x
  obtain ⟨q, t⟩ := x
  cases q <;> rfl

theorem construct_makesModify (a : ConstructArgs) (st : ConstructStage) :
    MakesModify (.construct a st) (constructNext a st) :=
  fun _ _ => rfl

/-! What the commands write (R234 to R236, R239, R240). -/

theorem byte_lt (v : Byte) : (v.setWidth 32).toNat < 2 ^ 8 := by
  have := v.isLt
  rw [BitVec.toNat_setWidth, Nat.mod_eq_of_lt (by omega)]
  exact this

theorem roleFields_modifiable (p : Params) : Modifiable p roleFields := by
  constructor <;> simp [roleFields, fieldSpace, Field.width]

theorem period0Fields_modifiable (p : Params) (v : Byte) : Modifiable p (period0Fields v) := by
  have := byte_lt v
  constructor <;> simp [period0Fields, fieldSpace, Field.width]
  omega

theorem period1Fields_modifiable (p : Params) (v : Byte) : Modifiable p (period1Fields v) := by
  have := byte_lt v
  constructor <;> simp [period1Fields, fieldSpace, Field.width]
  omega

theorem modeFields_modifiable (p : Params) (m : BusMode) : Modifiable p (modeFields m) := by
  have h1 := bitWord_lt (cpolOf m)
  have h2 := bitWord_lt (cphaOf m)
  constructor <;> simp [modeFields, fieldSpace, Field.width]
  omega

theorem orderFields_modifiable (p : Params) (o : BitOrder) : Modifiable p (orderFields o) := by
  have h1 := bitWord_lt (bitordOf o)
  constructor <;> simp [orderFields, fieldSpace, Field.width]
  omega

theorem clearFields_modifiable (p : Params) : Modifiable p clearFields := by
  constructor <;> simp [clearFields, fieldSpace, Field.width]

/-- The words of a list of fields: one more than those of the fields outside the first one's word. -/
theorem modifyTurns_cons {p : Params} (h : ParamsOk p) {x : Field × Word} {rest : List (Field × Word)}
    (hs : ∀ y ∈ x :: rest, fieldSpace y.1 = .spi) :
    modifyTurns p (x :: rest) = 2 + modifyTurns p (rest.filter fun y => !p.together x.1 y.1) := by
  have ht : ∀ y ∈ rest, p.together x.1 y.1 = decide (p.offset y.1 = p.offset x.1) := fun y hy => by
    rw [h.together_eq, hs y (List.mem_cons_of_mem _ hy)]; simp
  unfold modifyTurns
  rw [← List.card_toFinset, ← List.card_toFinset]
  have e : ((x :: rest).map fun y => p.offset y.1).toFinset =
      insert (p.offset x.1) ((rest.filter fun y => !p.together x.1 y.1).map fun y => p.offset y.1).toFinset := by
    ext o
    simp only [List.map_cons, List.toFinset_cons, Finset.mem_insert, List.mem_toFinset, List.mem_map, List.mem_filter]
    constructor
    · rintro (rfl | ⟨y, hy, rfl⟩)
      · exact .inl rfl
      · by_cases hc : p.offset y.1 = p.offset x.1
        · exact .inl hc
        · exact .inr ⟨y, ⟨hy, by rw [ht y hy]; simpa using hc⟩, rfl⟩
    · rintro (rfl | ⟨y, ⟨hy, -⟩, rfl⟩)
      · exact .inl rfl
      · exact .inr ⟨y, hy, rfl⟩
  rw [e, Finset.card_insert_of_notMem]
  · omega
  · simp only [List.mem_toFinset, List.mem_map, List.mem_filter, not_exists, not_and]
    rintro y ⟨hy, hc⟩ ho
    rw [ht y hy] at hc
    simp [ho] at hc

/-- The words are as many in whichever order they are written. -/
theorem modifyTurns_lastWord (p : Params) (f : Field) (todo : List (Field × Word)) :
    modifyTurns p (lastWord p f todo) = modifyTurns p todo := by
  unfold modifyTurns
  rw [((lastWord_perm p f todo).map fun x => p.offset x.1).dedup.length_eq]

/-- The two host turns of one word of a `RegModify`. -/
theorem modifyWord_run {mk : Modify → Activity} {fin : State → Progress × State} (hk : MakesModify mk fin) {k : Nat}
    {x : Field × Word} {more : List (Field × Word)} {s : State} {txn : Option Txn} {rest : List Slot} (hp : ParamsOk s.params)
    (hm : Modifiable s.params (x :: more))
    (hg : s.hw.busy = false ∨ (s.params.wordOf x.1).any Field.guarded = false)
    (hr : s.host.running = some { act := mk (modifyOf (x :: more)), txn := txn })
    (hpr : s.program = .hostTurn :: .hostTurn :: rest) :
    ∃ d R u, u = { s with hw := s.hw.assign ((x :: more).filter fun y => s.params.together x.1 y.1), program := rest, draws := d,
                          host := { s.host with running := R } } ∧
      runFor (k + 1 + 1) s = andThen
        (match more.filter fun y => !s.params.together x.1 y.1 with
         | [] => settle (fin u).1 txn (fin u).2
         | left => .next (u.withRunning (some { act := mk (modifyOf left), txn := txn }))) (runFor k) := by
  obtain ⟨d, e1⟩ := modifyAccess_read (s := s.withProgram (.hostTurn :: rest)) hp hm
  have e2 := fun s' hh hp' => modifyAccess_write (s := s.withProgram (.hostTurn :: rest)) (s' := s') hp hm hh hp' hg
  refine ⟨s.draws + d, some ⟨mk ⟨x :: more, some ((s.withProgram (.hostTurn :: rest)).wordAt x.1)⟩, txn, false⟩, _, rfl, ?_⟩
  rw [runFor_turn hr rfl hpr]
  dsimp only
  rw [hk, show modifyOf (x :: more) = { todo := x :: more, read := none } from rfl, e1]
  simp only [andThen_next, settle_more]
  rw [runFor_turn (rest := rest) rfl rfl rfl]
  dsimp only
  rw [hk, e2 ((((s.withProgram (.hostTurn :: rest)).drawn d).withRunning
    (some ⟨mk ⟨x :: more, some ((s.withProgram (.hostTurn :: rest)).wordAt x.1)⟩, txn, false⟩)).withProgram rest) rfl rfl]
  simp only [andThen_next, State.withProgram_params, State.withProgram_hw]
  generalize more.filter _ = left
  cases left <;> rfl

/-- The host turns of a `RegModify` assign its fields and leave every other piece of Layer H, under any usable `LAYOUT`. -/
theorem modify_run {mk : Modify → Activity} {fin : State → Progress × State} (hk : MakesModify mk fin) (n : Nat) :
    ∀ (todo : List (Field × Word)) (s : State) (txn : Option Txn) (rest : List Slot), todo.length ≤ n → todo ≠ [] →
      ParamsOk s.params → Modifiable s.params todo →
      (s.hw.busy = false ∨ ∀ x ∈ todo, (s.params.wordOf x.1).any Field.guarded = false) →
      s.host.running = some { act := mk (modifyOf todo), txn := txn } →
      s.program = hostTurns (modifyTurns s.params todo) ++ rest →
      ∃ d R u, u = { s with hw := s.hw.assign todo, program := rest, draws := d, host := { s.host with running := R } } ∧
        runFor (modifyTurns s.params todo) s = settle (fin u).1 txn (fin u).2 := by
  induction n with
  | zero => intro todo s txn rest hl hn; exact absurd (List.length_eq_zero_iff.mp (by omega)) hn
  | succ n ih =>
    intro todo s txn rest hl hn hp hm hg hr hpr
    obtain _ | ⟨x, more⟩ := todo
    · exact absurd rfl hn
    have hx : s.params.together x.1 x.1 = true := hp.together_self (hm.spi x (by simp))
    have hleft : (x :: more).filter (fun y => !s.params.together x.1 y.1) = more.filter fun y => !s.params.together x.1 y.1 := by
      rw [List.filter_cons, hx]; rfl
    have ha := Hw.assign_filter (x :: more) (s.params.together x.1) s.hw
    have hml := hm.filter fun y => !s.params.together x.1 y.1
    have hsub : ∀ y ∈ more.filter (fun y => !s.params.together x.1 y.1), y ∈ x :: more := fun y hy =>
      List.mem_cons_of_mem _ (List.mem_of_mem_filter hy)
    have hlen := List.length_filter_le (fun y => !s.params.together x.1 y.1) more
    rw [modifyTurns_cons hp hm.spi, Nat.add_comm 2] at hpr ⊢
    have hpr' : s.program = .hostTurn :: .hostTurn ::
        (hostTurns (modifyTurns s.params (more.filter fun y => !s.params.together x.1 y.1)) ++ rest) := by
      rw [hpr]; simp [hostTurns, List.replicate_succ]
    obtain ⟨d, R, u, hu, e⟩ := modifyWord_run (k := modifyTurns s.params (more.filter fun y => !s.params.together x.1 y.1)) hk hp hm
      (hg.imp_right fun h => h x (by simp)) hr hpr'
    rw [e]
    rw [hleft] at ha hml
    generalize more.filter (fun y => !s.params.together x.1 y.1) = left at *
    cases left with
    | nil =>
      refine ⟨d, R, u, ?_, ?_⟩
      · rw [hu, ← ha]; rfl
      · exact andThen_runFor_zero _
    | cons y left =>
      simp only [List.length_cons] at hl
      have hub : u.hw.busy = s.hw.busy := by rw [hu]; rfl
      obtain ⟨d', R', v, hv, e'⟩ := ih (y :: left) (u.withRunning (some { act := mk (modifyOf (y :: left)), txn := txn })) txn rest
        (by omega) (by simp) (by rw [hu]; exact hp) (by rw [hu]; exact hml)
        (by rw [State.withRunning_hw, hub, hu]; exact hg.imp_right fun h z hz => h z (hsub z hz)) rfl (by rw [hu]; rfl)
      refine ⟨d', R', v, ?_, ?_⟩
      · rw [hv, hu, ← ha]; rfl
      · rw [andThen_next, ← e', hu]; rfl

/-! The polls (R260, R261). -/

/-- A command whose accesses are those of a poll `acc`, and what it does with the poll's steps. -/
structure Polls (acc : PollPhase → State → Out (PollStep × State)) (mk : PollPhase → Activity)
    (fin : PollStep → State → Out (Progress × State)) : Prop where
  access : ∀ p s, access (mk p) s = andThen (acc p s) fun x => fin x.1 x.2
  again  : ∀ p s, fin (.again p) s = .next (.more (mk p), s)

theorem trySend_polls (w : Byte) : Polls (sendAccess w) (.trySend w) fun q s => .next (pollProgress (.trySend w) q, s) :=
  ⟨fun _ _ => rfl, fun _ _ => rfl⟩

theorem tryRecv_polls : Polls recvAccess .tryRecv fun q s => .next (pollProgress .tryRecv q, s) :=
  ⟨fun _ _ => rfl, fun _ _ => rfl⟩

/-- The state of a polling command. -/
def State.polling (s : State) (act : Activity) (txn : Option Txn) (prog : List Slot) (d : Nat) : State :=
  { s with program := prog, draws := d, host := { s.host with running := some { act := act, txn := txn } } }

section

variable {acc : PollPhase → State → Out (PollStep × State)} {mk : PollPhase → Activity}
  {fin : PollStep → State → Out (Progress × State)} (hp : Polls acc mk fin) {s : State} {txn : Option Txn}

include hp

/-- A host turn of a poll. -/
theorem Polls.turn {ph : PollPhase} {q : PollStep} {rest : List Slot} {d e : Nat} {h : Hw}
    (ha : acc ph (s.polling (mk ph) txn rest d) = .next (q, ((s.polling (mk ph) txn rest d).withHw h).drawn e)) :
    step (s.polling (mk ph) txn (.hostTurn :: rest) d) =
      andThen (fin q ((s.withHw h).polling (mk ph) txn rest (d + e))) fun x => settle x.1 txn x.2 := by
  rw [step_hostTurn (rest := rest) rfl]
  change advance (s.polling (mk ph) txn rest d) = _
  rw [advance_some (s := s.polling (mk ph) txn rest d) rfl rfl]
  change andThen (Sys2Proof.Machine.access (mk ph) _) _ = _
  rw [hp.access, ha]
  rfl

/-- A host turn of a poll that goes on. -/
theorem Polls.turn_again {ph ph' : PollPhase} {rest : List Slot} {d e : Nat}
    (ha : acc ph (s.polling (mk ph) txn rest d) = .next (.again ph', (s.polling (mk ph) txn rest d).drawn e)) :
    step (s.polling (mk ph) txn (.hostTurn :: rest) d) = .next (s.polling (mk ph') txn rest (d + e)) := by
  rw [hp.turn (h := s.hw) (e := e) ha, hp.again]
  rfl

/-- A host turn that ends a poll. -/
theorem Polls.turn_result {ph : PollPhase} {r : Ret} {rest : List Slot} {d e : Nat} {h : Hw}
    (ha : acc ph (s.polling (mk ph) txn rest d) = .next (.result r, ((s.polling (mk ph) txn rest d).withHw h).drawn e)) :
    runFor 1 (s.polling (mk ph) txn (.hostTurn :: rest) d) =
      andThen (fin (.result r) ((s.withHw h).polling (mk ph) txn rest (d + e))) fun x => settle x.1 txn x.2 := by
  rw [runFor_one, hp.turn ha]

end

/-- What a send poll comes to in a state that no one else moves: its result, the host turns it takes, and Layer H after it. -/
def sendOutcome (w : Byte) (s : State) : Ret × Nat × Hw :=
  if s.hw.txovf then (.err .txOverflow, 1, s.hw)
  else if s.hw.txudf then (.err .txUnderflow, sendTurns s.params - 2, s.hw)
  else if s.hw.txf.length = s.params.fifoDepth then (.wouldBlock, sendTurns s.params - 1, s.hw)
  else (.ok, sendTurns s.params, { s.hw with txf := s.hw.txf ++ [w] })

/-- What a receive poll comes to. -/
def recvOutcome (s : State) : Ret × Nat × Hw :=
  if s.hw.rxovf then (.err .rxOverflow, 1, s.hw)
  else if s.hw.rxudf then (.err .rxUnderflow, recvTurns s.params - 2, s.hw)
  else match s.hw.rxf with
    | [] => (.wouldBlock, recvTurns s.params - 1, s.hw)
    | b :: rest => (.okByte b, recvTurns s.params, { s.hw with rxf := rest })

/-- The host turns of a send poll. -/
theorem send_run {w : Byte} {mk : PollPhase → Activity} {fin : PollStep → State → Out (Progress × State)}
    (hk : Polls (sendAccess w) mk fin) {s : State} (hp : ParamsOk s.params) (ht : s.hw.txf.length ≤ s.params.fifoDepth)
    (txn : Option Txn) (rest : List Slot) (d : Nat) :
    ∃ ph d', runFor (sendOutcome w s).2.1 (s.polling (mk .flags) txn (hostTurns (sendOutcome w s).2.1 ++ rest) d) =
      andThen (fin (.result (sendOutcome w s).1) ((s.withHw (sendOutcome w s).2.2).polling (mk ph) txn rest d'))
        fun x => settle x.1 txn x.2 := by
  have fl := fun rest => sendAccess_flags (s := s.polling (mk .flags) txn rest d) hp w
  have un := fun rest d => sendAccess_underflow (s := s.polling (mk .underflow) txn rest d) hp w
  have ct := fun rest d => sendAccess_count (s := s.polling (mk .count) txn rest d) hp ht w
  have da := fun rest d => sendAccess_data (s := s.polling (mk .data) txn rest d) hp w
  simp only [State.polling] at fl un ct
  unfold sendOutcome
  generalize hH : ({ s.hw with txf := s.hw.txf ++ [w] } : Hw) = H
  by_cases h1 : s.hw.txovf = true
  · obtain ⟨e, he⟩ := fl rest
    simp only [h1, if_true] at he ⊢
    exact ⟨_, _, hk.turn_result (h := s.hw) he⟩
  by_cases h2 : s.hw.txudf = true
  · unfold sendTurns
    by_cases hg : s.params.together .txovf .txudf = true
    · obtain ⟨e, he⟩ := fl rest
      simp only [h1, h2, hg, if_true, if_false, Bool.false_eq_true] at he ⊢
      exact ⟨_, _, hk.turn_result (h := s.hw) he⟩
    · obtain ⟨e, he⟩ := fl (.hostTurn :: rest)
      obtain ⟨e', he'⟩ := un rest (d + e)
      simp only [h1, h2, hg, if_true, if_false, Bool.false_eq_true] at he he' ⊢
      exact ⟨_, _, (runFor_step (hk.turn_again he)).trans (hk.turn_result (h := s.hw) he')⟩
  have count : ∀ k P r h', (∀ d, ∃ ph d', runFor k (s.polling (mk .count) txn (P ++ rest) d) =
      andThen (fin (.result r) ((s.withHw h').polling (mk ph) txn rest d')) fun x => settle x.1 txn x.2) →
      ∃ ph d', runFor (sendTurns s.params - 2 + k)
        (s.polling (mk .flags) txn (hostTurns (sendTurns s.params - 2) ++ (P ++ rest)) d) =
      andThen (fin (.result r) ((s.withHw h').polling (mk ph) txn rest d')) fun x => settle x.1 txn x.2 := by
    intro k P r h' h
    unfold sendTurns
    by_cases hg : s.params.together .txovf .txudf = true
    · obtain ⟨e, he⟩ := fl (P ++ rest)
      simp only [h1, h2, hg, if_true, if_false, Bool.false_eq_true] at he
      obtain ⟨ph, d', hr⟩ := h (d + e)
      rw [if_pos hg, Nat.add_comm]
      exact ⟨ph, d', (runFor_step (hk.turn_again he)).trans hr⟩
    · obtain ⟨e, he⟩ := fl (.hostTurn :: (P ++ rest))
      obtain ⟨e', he'⟩ := un (P ++ rest) (d + e)
      simp only [h1, h2, hg, if_false, Bool.false_eq_true] at he he'
      obtain ⟨ph, d', hr⟩ := h (d + e + e')
      rw [if_neg hg, Nat.add_comm]
      exact ⟨ph, d', (runFor_step (hk.turn_again he)).trans ((runFor_step (hk.turn_again he')).trans hr)⟩
  have hn : 2 ≤ sendTurns s.params := by unfold sendTurns; split <;> omega
  have h3 : 3 ≤ sendTurns s.params := by unfold sendTurns; split <;> omega
  by_cases hl : s.hw.txf.length = s.params.fifoDepth
  · simp only [h1, h2, hl, if_true, if_false, Bool.false_eq_true]
    rw [show sendTurns s.params - 1 = sendTurns s.params - 2 + 1 by omega,
      show hostTurns (sendTurns s.params - 2 + 1) ++ rest = hostTurns (sendTurns s.params - 2) ++ ([.hostTurn] ++ rest) by
        simp only [hostTurns, List.replicate_add, List.append_assoc]; rfl]
    refine count 1 [.hostTurn] _ _ fun d => ?_
    obtain ⟨e, he⟩ := ct rest d
    simp only [hl, if_true] at he
    exact ⟨_, _, hk.turn_result (h := s.hw) he⟩
  · simp only [h1, h2, hl, if_false, Bool.false_eq_true]
    rw [show sendTurns s.params = sendTurns s.params - 2 + 2 by omega,
      show hostTurns (sendTurns s.params - 2 + 2) ++ rest = hostTurns (sendTurns s.params - 2) ++ ([.hostTurn, .hostTurn] ++ rest) by
        simp only [hostTurns, List.replicate_add, List.append_assoc]; rfl]
    have := count 2 [.hostTurn, .hostTurn] .ok H fun d => ?_
    · rw [Nat.sub_add_cancel hn] at this ⊢
      exact this
    · obtain ⟨e, he⟩ := ct (.hostTurn :: rest) d
      have he' := da rest (d + e)
      simp only [hl, if_false] at he
      have hH' : s.hw.pushTx s.params.fifoDepth w = H := (Hw.pushTx_room w (by omega)).trans hH
      exact ⟨_, _, (runFor_step (hk.turn_again he)).trans (hk.turn_result (h := H) (e := 0) (by rw [← hH']; exact he'))⟩

/-- The host turns of a receive poll. -/
theorem recv_run {mk : PollPhase → Activity} {fin : PollStep → State → Out (Progress × State)}
    (hk : Polls recvAccess mk fin) {s : State} (hp : ParamsOk s.params) (ht : s.hw.rxf.length ≤ s.params.fifoDepth)
    (txn : Option Txn) (rest : List Slot) (d : Nat) :
    ∃ ph d', runFor (recvOutcome s).2.1 (s.polling (mk .flags) txn (hostTurns (recvOutcome s).2.1 ++ rest) d) =
      andThen (fin (.result (recvOutcome s).1) ((s.withHw (recvOutcome s).2.2).polling (mk ph) txn rest d'))
        fun x => settle x.1 txn x.2 := by
  have fl := fun rest => recvAccess_flags (s := s.polling (mk .flags) txn rest d) hp
  have un := fun rest d => recvAccess_underflow (s := s.polling (mk .underflow) txn rest d) hp
  have ct := fun rest d => recvAccess_count (s := s.polling (mk .count) txn rest d) hp ht
  have da := fun rest d => recvAccess_data (s := s.polling (mk .data) txn rest d) hp
  simp only [State.polling] at fl un ct
  unfold recvOutcome
  by_cases h1 : s.hw.rxovf = true
  · obtain ⟨e, he⟩ := fl rest
    simp only [h1, if_true] at he ⊢
    exact ⟨_, _, hk.turn_result (h := s.hw) he⟩
  by_cases h2 : s.hw.rxudf = true
  · unfold recvTurns
    by_cases hg : s.params.together .rxovf .rxudf = true
    · obtain ⟨e, he⟩ := fl rest
      simp only [h1, h2, hg, if_true, if_false, Bool.false_eq_true] at he ⊢
      exact ⟨_, _, hk.turn_result (h := s.hw) he⟩
    · obtain ⟨e, he⟩ := fl (.hostTurn :: rest)
      obtain ⟨e', he'⟩ := un rest (d + e)
      simp only [h1, h2, hg, if_true, if_false, Bool.false_eq_true] at he he' ⊢
      exact ⟨_, _, (runFor_step (hk.turn_again he)).trans (hk.turn_result (h := s.hw) he')⟩
  have count : ∀ k P r h', (∀ d, ∃ ph d', runFor k (s.polling (mk .count) txn (P ++ rest) d) =
      andThen (fin (.result r) ((s.withHw h').polling (mk ph) txn rest d')) fun x => settle x.1 txn x.2) →
      ∃ ph d', runFor (recvTurns s.params - 2 + k)
        (s.polling (mk .flags) txn (hostTurns (recvTurns s.params - 2) ++ (P ++ rest)) d) =
      andThen (fin (.result r) ((s.withHw h').polling (mk ph) txn rest d')) fun x => settle x.1 txn x.2 := by
    intro k P r h' h
    unfold recvTurns
    by_cases hg : s.params.together .rxovf .rxudf = true
    · obtain ⟨e, he⟩ := fl (P ++ rest)
      simp only [h1, h2, hg, if_true, if_false, Bool.false_eq_true] at he
      obtain ⟨ph, d', hr⟩ := h (d + e)
      rw [if_pos hg, Nat.add_comm]
      exact ⟨ph, d', (runFor_step (hk.turn_again he)).trans hr⟩
    · obtain ⟨e, he⟩ := fl (.hostTurn :: (P ++ rest))
      obtain ⟨e', he'⟩ := un (P ++ rest) (d + e)
      simp only [h1, h2, hg, if_false, Bool.false_eq_true] at he he'
      obtain ⟨ph, d', hr⟩ := h (d + e + e')
      rw [if_neg hg, Nat.add_comm]
      exact ⟨ph, d', (runFor_step (hk.turn_again he)).trans ((runFor_step (hk.turn_again he')).trans hr)⟩
  have hn : 2 ≤ recvTurns s.params := by unfold recvTurns; split <;> omega
  have h3 : 3 ≤ recvTurns s.params := by unfold recvTurns; split <;> omega
  cases hl : s.hw.rxf with
  | nil =>
    simp only [h1, h2, if_false, Bool.false_eq_true]
    rw [show recvTurns s.params - 1 = recvTurns s.params - 2 + 1 by omega,
      show hostTurns (recvTurns s.params - 2 + 1) ++ rest = hostTurns (recvTurns s.params - 2) ++ ([.hostTurn] ++ rest) by
        simp only [hostTurns, List.replicate_add, List.append_assoc]; rfl]
    refine count 1 [.hostTurn] _ _ fun d => ?_
    obtain ⟨e, he⟩ := ct rest d
    simp only [hl, if_true] at he
    exact ⟨_, _, hk.turn_result (h := s.hw) he⟩
  | cons b bs =>
    dsimp only
    generalize hH : ({ s.hw with rxf := bs } : Hw) = H
    simp only [h1, h2, if_false, Bool.false_eq_true]
    rw [show recvTurns s.params = recvTurns s.params - 2 + 2 by omega,
      show hostTurns (recvTurns s.params - 2 + 2) ++ rest = hostTurns (recvTurns s.params - 2) ++ ([.hostTurn, .hostTurn] ++ rest) by
        simp only [hostTurns, List.replicate_add, List.append_assoc]; rfl]
    have := count 2 [.hostTurn, .hostTurn] (.okByte b) H fun d => ?_
    · rw [Nat.sub_add_cancel hn] at this ⊢
      exact this
    · obtain ⟨e, he⟩ := ct (.hostTurn :: rest) d
      have he' := da rest (d + e)
      simp only [hl, if_false, reduceCtorEq] at he
      have hH' : s.hw.popRx = (some b, H) := by rw [← hH]; unfold Hw.popRx; rw [hl]
      exact ⟨_, _, (runFor_step (hk.turn_again he)).trans (hk.turn_result (h := H) (e := 2) (by
        rw [he', show (s.polling (mk .data) txn rest (d + e)).hw = s.hw from rfl, hH']; rfl))⟩

end Sys2Proof.Machine
end

