-- ==== Sys2Proof/Laws/Operations.lean ====
section
/-! SUPPORT. The operations of a transaction (45_transaction): a delay's whole run, an operation's whole run, and the runner's step
from one operation to the next. -/

namespace Sys2Proof.Machine

/-! A delay (R203, R306). -/

/-- The run of a delay under any `COUNTER_READ`: the capture, `m` ticks, one more read. -/
theorem delay_run {n : DWord} {txn : Option Txn} {s : State} {m : Nat} {rest : List Slot} (hm : m < 18446744073709551616)
    (h0 : s.host.running = some { act := .delay n none .first, txn := txn })
    (hp : s.program = hostTurns (counterTurns s.params) ++ (ticks m ++ (hostTurns (counterTurns s.params) ++ rest))) :
    ∃ R, runFor (counterTurns s.params + (m + counterTurns s.params)) s =
      settle (if n.toNat < m then .done .unit else .more (.delay n (some s.hw.cycle) .first)) txn
        (State.withRunning R { s with hw := { s.hw with cycle := s.hw.cycle + BitVec.ofNat 64 m }, program := rest }) := by
  obtain ⟨c, e⟩ := counter_run (delay_readsCounter n none) h0 hp
  simp only [delayProgress, settle_more] at e
  rw [runFor_add e, runFor_add (runFor_ticks m (rest := hostTurns (counterTurns s.params) ++ rest) rfl)]
  obtain ⟨c, e⟩ := counter_run (delay_readsCounter n (some s.hw.cycle)) (txn := txn) (rest := rest)
    (s := State.withHw { s.hw with cycle := s.hw.cycle + BitVec.ofNat 64 m }
      ((s.withRunning (some { act := .delay n (some s.hw.cycle) .first, txn := txn })).withProgram
        (hostTurns (counterTurns s.params) ++ rest))) rfl rfl
  refine ⟨some { act := .delay n (some s.hw.cycle) c, txn := txn }, Eq.trans e ?_⟩
  have e : ((s.hw.cycle + BitVec.ofNat 64 m) - s.hw.cycle).toNat = m := by
    rw [BitVec.add_comm, BitVec.add_sub_cancel]; simp; omega
  simp only [delayProgress, State.withHw_hw, BitVec.lt_def, e]
  rfl

/-- The same run from the step that begins the delay. -/
theorem delay_begin {n : DWord} {txn : Option Txn} {s : State} {m : Nat} {rest : List Slot} (hm : m < 18446744073709551616)
    (hp : s.program = hostTurns (counterTurns s.params - 1) ++ (ticks m ++ (hostTurns (counterTurns s.params) ++ rest))) :
    ∃ t0 R, advance (s.withRunning (some { act := .delay n none .first, txn := txn })) = .next t0 ∧
      runFor (counterTurns s.params - 1 + (m + counterTurns s.params)) t0 =
        settle (if n.toNat < m then .done .unit else .more (.delay n (some s.hw.cycle) .first)) txn
          (State.withRunning R { s with hw := { s.hw with cycle := s.hw.cycle + BitVec.ofNat 64 m }, program := rest }) := by
  obtain ⟨R, e⟩ := delay_run (s := (s.withRunning (some { act := .delay n none .first, txn := txn })).withProgram
    (.hostTurn :: s.program)) hm rfl (rest := rest) (by
      rw [hp]; cases h : s.params.counterRead <;> simp [counterTurns, h, hostTurns, List.replicate_succ])
  change runFor (counterTurns s.params + (m + counterTurns s.params)) _ = _ at e
  rw [show counterTurns s.params + (m + counterTurns s.params) = (counterTurns s.params - 1 + (m + counterTurns s.params)) + 1 by
    cases h : s.params.counterRead <;> simp [counterTurns, h] <;> omega,
    runFor_hostTurn _ (s.withRunning (some { act := .delay n none .first, txn := txn })) s.program rfl] at e
  have ⟨t0, h⟩ : ∃ t0, advance (s.withRunning (some { act := .delay n none .first, txn := txn })) = .next t0 := by
    rw [advance_some rfl rfl]
    cases h : s.params.counterRead <;> simp [access, counterAccess, h, delayProgress]
  rw [h] at e
  exact ⟨t0, R, h, e⟩

/-! An operation (R302 to R306). -/

/-- The buffers of an operation; a delay has none. -/
def opXfer : Operation → Xfer
  | .read b => ⟨b, emptyBuf⟩
  | .write b => ⟨emptyBuf, b⟩
  | .transfer r w => ⟨r, w⟩
  | .transferInPlace b => ⟨b, b⟩
  | .delay _ => ⟨emptyBuf, emptyBuf⟩

theorem emptyBuf_fits : emptyBuf.fits = true := by decide

theorem opXfer_fits {op : Operation} (h : opValid op = true) : (opXfer op).sink.fits = true ∧ (opXfer op).source.fits = true := by
  cases op <;> simp_all [opValid, opXfer, emptyBuf_fits]

theorem opXfer_steps (op : Operation) : xferSteps (opXfer op) = opSteps op := by
  cases op <;> simp [opXfer, opSteps, xferSteps, emptyBuf]

theorem opXfer_separate {op : Operation} (h : opValid op = true) : (opXfer op).Separate := by
  intro j k hjk hk hj
  cases op with
  | read b => simp [opXfer, emptyBuf] at hk
  | write b => simp [opXfer, emptyBuf] at hj
  | delay d => simp [opXfer, emptyBuf] at hj
  | transferInPlace b => simp only [opXfer, bufAddr_eq]; omega
  | transfer r w =>
    simp only [opValid, Bool.and_eq_true, Bool.not_eq_true', overlap] at h
    simp only [opXfer, bufAddr_eq] at *
    intro e
    have h2 := h.2
    simp at h2
    omega

/-- An operation that is no delay begins as its transfer does. -/
theorem beginOperation_xfer {op : Operation} (h : opValid op = true) (hd : ∀ d, op ≠ .delay d) (s : State) :
    beginOperation op s = beginXfer (opXfer op) 0 s := by
  cases op with
  | transfer r w =>
    simp only [opValid, Bool.and_eq_true, Bool.not_eq_true'] at h
    simp [beginOperation, beginTransfer, opXfer, h.2]
  | delay d => exact absurd rfl (hd d)
  | read b => rfl
  | write b => rfl
  | transferInPlace b => rfl

/-- The bytes a transfer sends are its source's, then filler. -/
theorem Xfer.sent_eq (x : Xfer) (m : Memory) (n : Nat) : ∀ i, Xfer.sent x m i n =
    bufBytesAt x.source m i (min n (x.source.len.toNat - i)) ++ List.replicate (n - (x.source.len.toNat - i)) Config.filler := by
  induction n with
  | zero => intro i; simp [Xfer.sent, bufBytesAt]
  | succ n ih =>
    intro i
    rw [Xfer.sent, ih (i+1), Xfer.byteAt]
    split
    · rw [show min (n+1) (x.source.len.toNat - i) = min n (x.source.len.toNat - (i+1)) + 1 by omega, bufBytesAt,
        show n + 1 - (x.source.len.toNat - i) = n - (x.source.len.toNat - (i+1)) by omega]; rfl
    · rw [show x.source.len.toNat - i = 0 by omega, show x.source.len.toNat - (i+1) = 0 by omega]
      simp [bufBytesAt, List.replicate_succ]

theorem opXfer_sent (op : Operation) (m : Memory) : Xfer.sent (opXfer op) m 0 (opSteps op) = opSends op m := by
  rw [Xfer.sent_eq]
  cases op with
  | read b => simp [opXfer, opSends, emptyBuf, opSteps, bufBytesAt]
  | write b => simp [opXfer, opSends, opSteps]
  | transferInPlace b => simp [opXfer, opSends, opSteps]
  | delay d => rfl
  | transfer r w => simp only [opXfer, opSends, opSteps, Nat.sub_zero]; rw [Nat.min_eq_right (by omega)]

theorem opXfer_stores (op : Operation) {rs : List Byte} (hl : rs.length = opSteps op) (m : Memory) :
    storeBytes (opXfer op).sink 0 (rs.take ((opXfer op).sink.len.toNat - 0)) m = opStores op rs m := by
  cases op with
  | read b => simp only [opXfer, opStores, opSteps] at *; rw [List.take_of_length_le (by omega)]
  | transferInPlace b => simp only [opXfer, opStores, opSteps] at *; rw [List.take_of_length_le (by omega)]
  | write b => rfl
  | delay d => rfl
  | transfer r w => rfl

theorem opSends_length (op : Operation) (m : Memory) : (opSends op m).length = opSteps op := by
  cases op <;> simp [opSends, opSteps, bufBytesAt_length]

/-- The state in which an operation has come to its end. -/
def opEnd (hz : Word) (op : Operation) (rs : List Byte) (rest : List Slot) (d : Nat) (s : State) : State :=
  { s with hw := { s.hw with cycle := s.hw.cycle + BitVec.ofNat 64 (opTicks hz op) },
           frames := s.frames ++ frameList s.hw.snapshot (opSends op s.mem) rs,
           mem := opStores op rs s.mem, program := rest, draws := d }

/-- A delay's count is far from the counter's width. -/
theorem opTicks_lt (hz : Word) (op : Operation) : opTicks hz op < 18446744073709551616 := by
  cases op with
  | delay d =>
    have h1 := d.amount.isLt
    have h2 := hz.isLt
    have h3 : d.amount.toNat * hz.toNat ≤ 4294967295 * 4294967295 := Nat.mul_le_mul (by omega) (by omega)
    have h4 : 1000 ≤ unitsPerSecond d.unit := by cases d.unit <;> decide
    have h5 := Nat.div_le_div_left (a := d.amount.toNat * hz.toNat) h4 (by decide)
    simp only [opTicks, cyclesOf_toNat]
    omega
  | _ => simp [opTicks]

/-- An operation that makes accesses, from its first one on: under its schedule it comes to its end, and hands over. -/
theorem operation_run {op : Operation} {s : State} {a : Activity} {hz : Word} {rs : List Byte} (ho : opValid op = true)
    (hop : s.hw.operational = true) (hc : s.hw.clean = true) (hp : ParamsOk s.params) (hz' : embeddedHz s = hz)
    (hl : rs.length = opSteps op) (hb : beginOperation op s = .next (some a)) (txn : Option Txn) (rest : List Slot) :
    ∃ r R d, (r = .ok ∨ r = .unit ∧ ∃ u, op = .delay u) ∧
      runFor (opSchedule s.params hz op rs).length
          ((s.withRunning (some { act := a, txn := txn })).withProgram (opSchedule s.params hz op rs ++ rest)) =
        settle (.done r) txn ((opEnd hz op rs rest d s).withRunning R) := by
  by_cases hd : ∃ d, op = .delay d
  · obtain ⟨d, rfl⟩ := hd
    simp only [beginOperation, hz', Host.Outcome.next.injEq, Option.some.injEq] at hb
    subst hb
    have : rs = [] := List.length_eq_zero_iff.mp hl
    subst this
    obtain ⟨R, e⟩ := delay_run (opTicks_lt hz (.delay d)) (n := cyclesOf d.unit d.amount hz) (txn := txn)
      (s := (s.withRunning (some { act := .delay (cyclesOf d.unit d.amount hz) none .first, txn := txn })).withProgram
        (opSchedule s.params hz (.delay d) [] ++ rest)) (rest := rest) rfl (by simp [opSchedule])
    rw [if_pos (by simp [opTicks])] at e
    refine ⟨.unit, R, s.draws, .inr ⟨rfl, d, rfl⟩, ?_⟩
    simp only [opSchedule, List.length_append, hostTurns, ticks, List.length_replicate] at e ⊢
    refine e.trans ?_
    congr 1
    simp only [opEnd, opSends, opStores, frameList, List.zipWith_nil_left, List.append_nil]
    rfl
  · rw [not_exists] at hd
    have hst := opXfer_steps op
    rw [beginOperation_xfer ho hd] at hb
    have hsch : opSchedule s.params hz op rs = bytesSchedule s.params rs := by
      cases op with
      | delay d => exact absurd rfl (hd d)
      | _ => rfl
    rw [hsch]
    obtain ⟨hf1, hf2⟩ := opXfer_fits ho
    cases rs with
    | nil =>
      rw [beginXfer_none (by simp only [List.length_nil] at hl; omega)] at hb
      cases hb
    | cons r rs =>
      rw [beginXfer_next hf2 (by simp only [List.length_cons] at hl; omega)] at hb
      cases hb
      obtain ⟨R, d, e⟩ := xfer_run (opXfer op) (opXfer_separate ho) hf1 hf2 rs r 0
        ((s.withRunning (some ((opXfer op).begun 0 s.mem txn))).withProgram (bytesSchedule s.params (r :: rs) ++ rest)) txn rest
        (by simp only [List.length_cons] at hl; omega) hop hc hp rfl rfl
      refine ⟨.ok, R, d, .inl rfl, e.trans ?_⟩
      have e0 : opTicks hz op = 0 := by
        cases op with
        | delay d => exact absurd rfl (hd d)
        | _ => rfl
      have e1 := opXfer_sent op s.mem
      rw [← hl] at e1
      congr 1
      simp only [Xfer.endState, opEnd, State.withRunning, State.withProgram, e0, e1, opXfer_stores op hl,
        BitVec.add_zero]

/-! From one operation to the next (R301). -/

/-- What an operation begins with does not depend on the running command or the slots. -/
theorem beginOperation_free (op : Operation) (s : State) (R : Option Running) (p : List Slot) :
    beginOperation op ((s.withRunning R).withProgram p) = beginOperation op s := by
  cases op <;> rfl

/-- The next operation does not depend on the running command. -/
theorem nextOperation_running (ops : List Operation) (k : Nat) (s : State) (R : Option Running) :
    nextOperation ops k (s.withRunning R) = nextOperation ops k s := by
  induction ops generalizing k with
  | nil => rfl
  | cons op ops ih =>
    rw [nextOperation, nextOperation, show beginOperation op (s.withRunning R) = beginOperation op s from
      beginOperation_free op s R s.program]
    cases beginOperation op s with
    | next a => cases a with
      | some a => rfl
      | none => exact ih _
    | fault e => rfl
    | refused e => rfl

/-- The slots pass through the choice of the next operation. -/
theorem nextOperation_program (ops : List Operation) (k : Nat) (s : State) (p : List Slot) :
    nextOperation ops k (s.withProgram p) = andThen (nextOperation ops k s) fun u => .next (u.withProgram p) := by
  induction ops generalizing k with
  | nil => rfl
  | cons op ops ih =>
    rw [nextOperation, nextOperation, show beginOperation op (s.withProgram p) = beginOperation op s from
      beginOperation_free op s s.host.running p]
    cases beginOperation op s with
    | next a => cases a with
      | some a => rfl
      | none => exact ih _
    | fault e => rfl
    | refused e => rfl

end Sys2Proof.Machine
end

