-- ==== Sys2Proof/Laws/PerInstr.lean ====
section
/-! SUPPORT. One lemma per instruction about its encoding: its selector fits the format its row has in the opcode table, and its
bytes are the selector, low byte first, then the operands (30_encoding R100, R110, R111). -/

namespace Sys2Proof.Laws.Selector

/-- A format A instruction's descriptor has ten bits and a word offset, and stands in two bytes, the low byte first; a format K
instruction's tag has eight bits and stands in one byte; the operands follow. -/
def Statement (i : Sys2Proof.Instr) : Prop :=
  match i.format with
  | .A => i.code < 1024 ∧ i.code % 4 = 0 ∧
      encode i = BitVec.ofNat 8 i.code :: BitVec.ofNat 8 (i.code / 256) :: i.operandBytes
  | .K => 0 < i.code ∧ i.code < 256 ∧ encode i = BitVec.ofNat 8 i.code :: i.operandBytes

/-- The two bytes of a 16-bit number. -/
theorem halfBytes_ofNat (n : Nat) : halfBytes (BitVec.ofNat 16 n) = [BitVec.ofNat 8 n, BitVec.ofNat 8 (n / 256)] := by
  unfold halfBytes
  congr 1
  · apply BitVec.eq_of_toNat_eq
    simp
  · congr 1
    apply BitVec.eq_of_toNat_eq
    simp [Nat.shiftRight_eq_div_pow]
    omega

/-- A format A instruction's bytes. -/
theorem encode_A {i : Sys2Proof.Instr} (h : i.format = .A) :
    encode i = BitVec.ofNat 8 i.code :: BitVec.ofNat 8 (i.code / 256) :: i.operandBytes := by
  unfold encode
  rw [h]
  change halfBytes _ ++ _ = _
  rw [halfBytes_ofNat]
  rfl

theorem rdConfig : Statement .rdConfig :=
  ⟨by simp [Instr.code], by simp [Instr.code], encode_A rfl⟩

theorem wrConfig (w : Word) : Statement (.wrConfig w) :=
  ⟨by simp [Instr.code], by simp [Instr.code], encode_A rfl⟩

theorem rdBusy : Statement .rdBusy :=
  ⟨by simp [Instr.code], by simp [Instr.code], encode_A rfl⟩

theorem wrBusy (w : Word) : Statement (.wrBusy w) :=
  ⟨by simp [Instr.code], by simp [Instr.code], encode_A rfl⟩

theorem rdPeriod0 : Statement .rdPeriod0 :=
  ⟨by simp [Instr.code], by simp [Instr.code], encode_A rfl⟩

theorem wrPeriod0 (w : Word) : Statement (.wrPeriod0 w) :=
  ⟨by simp [Instr.code], by simp [Instr.code], encode_A rfl⟩

theorem rdPeriod1 : Statement .rdPeriod1 :=
  ⟨by simp [Instr.code], by simp [Instr.code], encode_A rfl⟩

theorem wrPeriod1 (w : Word) : Statement (.wrPeriod1 w) :=
  ⟨by simp [Instr.code], by simp [Instr.code], encode_A rfl⟩

theorem rdFifo0 : Statement .rdFifo0 :=
  ⟨by simp [Instr.code], by simp [Instr.code], encode_A rfl⟩

theorem wrFifo0 (w : Word) : Statement (.wrFifo0 w) :=
  ⟨by simp [Instr.code], by simp [Instr.code], encode_A rfl⟩

theorem rdFifo1 : Statement .rdFifo1 :=
  ⟨by simp [Instr.code], by simp [Instr.code], encode_A rfl⟩

theorem wrFifo1 (w : Word) : Statement (.wrFifo1 w) :=
  ⟨by simp [Instr.code], by simp [Instr.code], encode_A rfl⟩

theorem rdTxData : Statement .rdTxData :=
  ⟨by simp [Instr.code], by simp [Instr.code], encode_A rfl⟩

theorem wrTxData (w : Word) : Statement (.wrTxData w) :=
  ⟨by simp [Instr.code], by simp [Instr.code], encode_A rfl⟩

theorem rdRxData : Statement .rdRxData :=
  ⟨by simp [Instr.code], by simp [Instr.code], encode_A rfl⟩

theorem wrRxData (w : Word) : Statement (.wrRxData w) :=
  ⟨by simp [Instr.code], by simp [Instr.code], encode_A rfl⟩

theorem rdCycle : Statement .rdCycle :=
  ⟨by simp [Instr.code], by simp [Instr.code], encode_A rfl⟩

theorem rdCycleHi : Statement .rdCycleHi :=
  ⟨by simp [Instr.code], by simp [Instr.code], encode_A rfl⟩

theorem wrCycle (w : Word) : Statement (.wrCycle w) :=
  ⟨by simp [Instr.code], by simp [Instr.code], encode_A rfl⟩

theorem wrCycleHi (w : Word) : Statement (.wrCycleHi w) :=
  ⟨by simp [Instr.code], by simp [Instr.code], encode_A rfl⟩

theorem construct (a : ConstructArgs) : Statement (.construct a) :=
  ⟨by simp [Instr.code], by simp [Instr.code], rfl⟩

theorem setBitOrder (o : BitOrder) : Statement (.setBitOrder o) :=
  ⟨by simp [Instr.code], by simp [Instr.code], rfl⟩

theorem clearFifos : Statement .clearFifos :=
  ⟨by simp [Instr.code], by simp [Instr.code], rfl⟩

theorem read (b : Buf) : Statement (.read b) :=
  ⟨by simp [Instr.code], by simp [Instr.code], rfl⟩

theorem write (b : Buf) : Statement (.write b) :=
  ⟨by simp [Instr.code], by simp [Instr.code], rfl⟩

theorem transfer (r w : Buf) : Statement (.transfer r w) :=
  ⟨by simp [Instr.code], by simp [Instr.code], rfl⟩

theorem transferInPlace (b : Buf) : Statement (.transferInPlace b) :=
  ⟨by simp [Instr.code], by simp [Instr.code], rfl⟩

theorem flush : Statement .flush :=
  ⟨by simp [Instr.code], by simp [Instr.code], rfl⟩

theorem runTransaction (ops : List Operation) : Statement (.runTransaction ops) :=
  ⟨by simp [Instr.code], by simp [Instr.code], rfl⟩

theorem release : Statement .release :=
  ⟨by simp [Instr.code], by simp [Instr.code], rfl⟩

theorem now : Statement .now :=
  ⟨by simp [Instr.code], by simp [Instr.code], rfl⟩

theorem elapsedSince (start : DWord) : Statement (.elapsedSince start) :=
  ⟨by simp [Instr.code], by simp [Instr.code], rfl⟩

theorem delayCycles (n : DWord) : Statement (.delayCycles n) :=
  ⟨by simp [Instr.code], by simp [Instr.code], rfl⟩

theorem delayNs (d : Word) : Statement (.delayNs d) :=
  ⟨by simp [Instr.code], by simp [Instr.code], rfl⟩

theorem delayUs (d : Word) : Statement (.delayUs d) :=
  ⟨by simp [Instr.code], by simp [Instr.code], rfl⟩

theorem delayMs (d : Word) : Statement (.delayMs d) :=
  ⟨by simp [Instr.code], by simp [Instr.code], rfl⟩

theorem delayNew (hz : Word) : Statement (.delayNew hz) :=
  ⟨by simp [Instr.code], by simp [Instr.code], rfl⟩

theorem trySend (w : Byte) : Statement (.trySend w) :=
  ⟨by simp [Instr.code], by simp [Instr.code], rfl⟩

theorem tryRecv : Statement .tryRecv :=
  ⟨by simp [Instr.code], by simp [Instr.code], rfl⟩

theorem byteStep (w : Byte) : Statement (.byteStep w) :=
  ⟨by simp [Instr.code], by simp [Instr.code], rfl⟩

theorem clockDivider (src f : Word) : Statement (.clockDivider src f) :=
  ⟨by simp [Instr.code], by simp [Instr.code], rfl⟩

theorem opRead (b : Buf) : Statement (.opRead b) :=
  ⟨by simp [Instr.code], by simp [Instr.code], rfl⟩

theorem opWrite (b : Buf) : Statement (.opWrite b) :=
  ⟨by simp [Instr.code], by simp [Instr.code], rfl⟩

theorem opTransfer (r w : Buf) : Statement (.opTransfer r w) :=
  ⟨by simp [Instr.code], by simp [Instr.code], rfl⟩

theorem opTransferInPlace (b : Buf) : Statement (.opTransferInPlace b) :=
  ⟨by simp [Instr.code], by simp [Instr.code], rfl⟩

theorem opDelay (d : Duration) : Statement (.opDelay d) :=
  ⟨by simp [Instr.code], by simp [Instr.code], rfl⟩

theorem frameStart : Statement .frameStart :=
  ⟨by simp [Instr.code], by simp [Instr.code], rfl⟩

theorem frameComplete (r : Byte) : Statement (.frameComplete r) :=
  ⟨by simp [Instr.code], by simp [Instr.code], rfl⟩

theorem tick : Statement .tick :=
  ⟨by simp [Instr.code], by simp [Instr.code], rfl⟩

theorem reset : Statement .reset :=
  ⟨by simp [Instr.code], by simp [Instr.code], rfl⟩

end Sys2Proof.Laws.Selector
end

