-- ==== Sys2Proof/Laws/Rows.lean ====
section
/-! SUPPORT. The register rows: what a read row and a write row answer, and the words, widths and bits of the default `LAYOUT`. -/

namespace Sys2Proof.Machine

/-! The rows under any `LAYOUT` (R138, R150). -/

/-- A read row of a free host whose word holds the fields `fs`. -/
theorem readRow_eq {s : State} (hf : hostFree s = true) {f : Field} {fs : List Field} (hw : s.params.wordOf f = fs)
    (h1 : fs.isEmpty = false) (h2 : fs.contains .txd = false) :
    readRow f s = .next ((s.afterRead fs).withRet
      (.word (fs.foldl (fun w f => s.params.put f (s.value f) w) (s.background (s.params.offset f) fs)))) := by
  subst hw
  unfold Params.wordOf at h1 h2
  rw [readRow, asHost_free hf, regRead_eq, readWord]
  simp only [h1, h2]
  rfl

/-- A write row of a free host whose word holds the fields `fs`. -/
theorem writeRow_eq {s : State} (hf : hostFree s = true) {f : Field} {w : Word} {fs : List Field} (hw : s.params.wordOf f = fs)
    (h1 : fs.isEmpty = false) (h2 : fs.contains .rxd = false) (h3 : (s.hw.busy && fs.any Field.guarded) = false)
    (h4 : changesDma (s.params.offset f) w s = false) :
    writeRow f w s = .next ((s.withHw ((s.hw.writeFields s.params w fs).storeU s.params (s.params.offset f) w fs)).withRet .unit) := by
  subst hw
  rw [writeRow, asHost_free hf, regWrite_eq_next.mpr ⟨h1, by rw [← Params.contains_wordOf]; exact h2, h3, h4, rfl⟩]
  rfl

/-- The unmodelled bits that a write of `w` stores: `w` outside the fields. -/
def unmodelledOf (s : State) (o : BitVec 8) (fs : List Field) (w : Word) : Word :=
  fs.foldl (fun w g => s.params.put g (s.params.get g (s.hw.u.at o)) w) w

/-- A write row of a word with stored unmodelled bits. -/
theorem writeRow_unmodelled {s : State} (hf : hostFree s = true) {f : Field} {w : Word} {fs : List Field} {o : BitVec 8}
    (hw : s.params.wordOf f = fs) (ho : s.params.offset f = o) (h1 : fs.isEmpty = false) (h2 : fs.contains .rxd = false)
    (h3 : (s.hw.busy && fs.any Field.guarded) = false) (h4 : changesDma o w s = false) (h5 : storesU fs = true) :
    writeRow f w s = .next ((s.withHw
      { s.hw.writeFields s.params w fs with u := s.hw.u.put o (unmodelledOf s o fs w) }).withRet .unit) := by
  subst ho
  rw [writeRow_eq hf hw h1 h2 h3 h4]
  unfold Hw.storeU
  rw [if_pos h5, writeFields_u]
  rfl

/-! Bits of a field. -/

theorem put_bit {p : Params} {l : Layout} (h : p.layout = l) (f : Field) (v w : Word) {i : Nat} (hi : i < 32) :
    (p.put f v w).getLsbD i =
      if (l.place f).lo ≤ i ∧ i < (l.place f).lo + Field.width p.cntBits f then v.getLsbD (i - (l.place f).lo)
      else w.getLsbD i := by
  subst h; exact setBits_getLsbD _ _ hi

theorem get_bit {p : Params} {l : Layout} (h : p.layout = l) (f : Field) (w : Word) (i : Nat) :
    (p.get f w).getLsbD i = (decide (i < Field.width p.cntBits f) && w.getLsbD ((l.place f).lo + i)) := by
  subst h; exact getBits_getLsbD _ _ _ _

theorem bitWord_getLsbD (b : Bool) (i : Nat) : (bitWord b).getLsbD i = (decide (i = 0) && b) := by
  cases b
  · simp [bitWord]
  · unfold bitWord; simp only [if_true, Bool.and_true]
    rcases i with _ | i
    · rfl
    · simp

/-! The default `LAYOUT` (R101 to R109). -/

section

variable {p : Params} (h : p.layout = .default)

include h

theorem wordOf_config : p.wordOf .mEn = [.mEn, .sEn, .fsize, .cpol, .cpha, .bitord, .cont, .role] := by
  rw [Params.wordOf, Params.offset, h]; decide

theorem wordOf_busy : p.wordOf .busy = [.busy] := by rw [Params.wordOf, Params.offset, h]; decide

theorem wordOf_period0 : p.wordOf .ph0 = [.ph0, .ph1] := by rw [Params.wordOf, Params.offset, h]; decide

theorem wordOf_period1 : p.wordOf .idle = [.idle] := by rw [Params.wordOf, Params.offset, h]; decide

theorem wordOf_flags : p.wordOf .txovf = [.txclr, .rxclr, .txovf, .txudf, .rxovf, .rxudf] := by
  rw [Params.wordOf, Params.offset, h]; decide

theorem wordOf_triggers : p.wordOf .txclr = [.txclr, .rxclr, .txovf, .txudf, .rxovf, .rxudf] := by
  rw [Params.wordOf, Params.offset, h]; decide

theorem wordOf_counts : p.wordOf .txcnt = [.txcnt, .rxcnt] := by rw [Params.wordOf, Params.offset, h]; decide

/-- The counts have three bits, which `Params.ok` makes `CNT_BITS`. -/
theorem cntBits_default (ho : Params.ok p = true) : p.cntBits = 3 := by
  have := (paramsOk ho).width .txcnt
  rw [h] at this; simpa [Layout.place, Layout.default, Field.width] using this.symm

end

/-- Only FIFO0 holds the DMA request enables. -/
theorem changesDma_other {s : State} {o : BitVec 8} {w : Word} (hl : s.params.layout = .default) (h : o ≠ 0x80) :
    changesDma o w s = false := by
  unfold changesDma
  rw [hl, show decide (Layout.default.dma.offset = o) = false from decide_eq_false (Ne.symm h)]
  simp

end Sys2Proof.Machine
end

