-- ==== Sys2Proof/Laws/Running.lean ====
section
/-! SUPPORT. What a step is while a command runs: a host turn, the engine's part, a tick, or a reset, and never a stop of the
fetch. -/

namespace Sys2Proof.Machine

/-- The outcomes of a step while a command runs. -/
inductive RunKind (s : State) : Out State → Prop where
  | host (p : List Slot) (d : Nat) : RunKind s (advance { s with program := p, draws := d })
  | engine (t : State) : EngineMoved s t → RunKind s (.next t)
  | tick (t : State) : t.hw = s.hw.tick → t.host = s.host → t.params = s.params → RunKind s (.next t)
  | reset (t : State) : resetNext s = true → t.host.running = s.host.running.map (fun r => { r with stale := true }) →
      RunKind s (.next t)

/-- While a command runs a step has one of these outcomes. -/
theorem run_kind {s : State} (hr : s.host.running ≠ none) : RunKind s (step s) := by
  have hsome : s.host.running.isSome = true := by cases h : s.host.running <;> simp_all
  have turn : ∀ (u : Turn) (p : List Slot) (d : Nat), RunKind s (takeTurn u { s with program := p, draws := d }) := by
    intro u p d
    cases u with
    | host => exact .host p d
    | engine =>
      simp only [takeTurn]
      refine .engine _ ?_
      rcases State.engineTurn_cases { s with program := p, draws := d } with ⟨-, e⟩ | ⟨r, -, e⟩
      · exact (EngineMoved.start e).of_before rfl rfl rfl rfl rfl
      · exact (EngineMoved.complete r e).of_before rfl rfl rfl rfl rfl
    | counter => exact .tick _ rfl rfl rfl
  unfold step
  cases hf : fetch s with
  | turn u s' =>
    simp only
    have : ∃ p d, s' = { s with program := p, draws := d } := by
      have code : ∀ f bs rest, fetchCode f bs rest s = .turn u s' → ∃ p d, s' = { s with program := p, draws := d } := by
        intro f bs rest h
        unfold fetchCode at h
        split at h
        · split at h
          · cases h; exact ⟨s.program, s.draws + 1, rfl⟩
          · split at h <;> cases h
        · rw [if_pos hsome] at h
          cases h; exact ⟨s.program, s.draws + 1, rfl⟩
      unfold fetch at hf
      split at hf
      · cases hf; exact ⟨_, _, rfl⟩
      · cases hf; exact ⟨_, _, rfl⟩
      · exact code _ _ _ hf
    obtain ⟨p, d, rfl⟩ := this
    exact turn _ p d
  | instr i s' =>
    simp only
    obtain ⟨⟨p, rfl⟩, -, h⟩ := fetch_instr hf
    rcases h with h | ha
    · exact absurd h hr
    · cases i with
      | frameStart => exact .engine _ ((EngineMoved.start rfl).of_before rfl rfl rfl rfl rfl)
      | frameComplete r => exact .engine _ ((EngineMoved.complete r rfl).of_before rfl rfl rfl rfl rfl)
      | tick => exact .tick _ rfl rfl rfl
      | reset => exact .reset _ (by unfold resetNext; rw [hf]) rfl
      | _ => cases ha
  | stop r =>
    exfalso
    unfold fetch at hf
    split at hf
    · cases hf
    · cases hf
    · unfold fetchCode at hf
      split at hf
      · split at hf
        · cases hf
        · rename_i i _ _ hn
          have ha : autonomous i = true := by simpa [hsome] using hn
          have : i.wellFormed = true := by cases i <;> first | rfl | cases ha
          rw [if_pos this] at hf; cases hf
      · rw [if_pos hsome] at hf; cases hf

end Sys2Proof.Machine
end

