-- ==== Sys2Proof/Tests/Slice0.lean ====
section
/-! SUPPORT. Small tests, each result taken from the spec (95_test_vectors where a row is named), and for every statement
that has hypotheses a concrete state that meets them. -/

namespace Sys2Proof.Tests

open Sys2Proof Sys2Proof.Machine

/-! Well-formedness: one ill-formed term for each check. -/

/-- A buffer that ends one byte past the host's address space. -/
def badBuf : Buf := { base := 0xFFFFFFFF, len := 2 }

/-- The last two bytes of the host's address space. -/
def topBuf : Buf := { base := 0xFFFFFFFE, len := 2 }

/-- Two bytes at 0x100. -/
def bufA : Buf := { base := 0x100, len := 2 }

/-- Two bytes at 0x200. -/
def bufB : Buf := { base := 0x200, len := 2 }

/-- One byte at 0x300. -/
def bufC : Buf := { base := 0x300, len := 1 }

theorem test_wellFormed_edge : (Instr.read topBuf).wellFormed = true := by decide
theorem test_illFormed_read : (Instr.read badBuf).wellFormed = false := by decide
theorem test_illFormed_write : (Instr.write badBuf).wellFormed = false := by decide
theorem test_illFormed_transfer_read : (Instr.transfer badBuf bufA).wellFormed = false := by decide
theorem test_illFormed_transfer_write : (Instr.transfer bufA badBuf).wellFormed = false := by decide
theorem test_illFormed_transferInPlace : (Instr.transferInPlace badBuf).wellFormed = false := by decide
theorem test_illFormed_opRead : (Instr.opRead badBuf).wellFormed = false := by decide
theorem test_illFormed_opWrite : (Instr.opWrite badBuf).wellFormed = false := by decide
theorem test_illFormed_opTransfer_read : (Instr.opTransfer badBuf bufA).wellFormed = false := by decide
theorem test_illFormed_opTransfer_write : (Instr.opTransfer bufA badBuf).wellFormed = false := by decide
theorem test_illFormed_opTransferInPlace : (Instr.opTransferInPlace badBuf).wellFormed = false := by decide
theorem test_illFormed_list_read : (Instr.runTransaction [.write bufA, .read badBuf]).wellFormed = false := by decide
theorem test_illFormed_list_write : (Instr.runTransaction [.write badBuf]).wellFormed = false := by decide
theorem test_illFormed_list_transfer_read : (Instr.runTransaction [.transfer badBuf bufA]).wellFormed = false := by decide
theorem test_illFormed_list_transfer_write : (Instr.runTransaction [.transfer bufA badBuf]).wellFormed = false := by decide
theorem test_illFormed_list_inPlace : (Instr.runTransaction [.transferInPlace badBuf]).wellFormed = false := by decide

/-! Decoding: the table's word of every row (30_encoding R110, R111), operands zero. -/

theorem test_decode_rdConfig : decodeTableWord 10 0x000 = some .rdConfig := by decide
theorem test_decode_wrConfig : decodeTableWord 10 0x100 = some (.wrConfig 0) := by decide
theorem test_decode_rdBusy : decodeTableWord 10 0x008 = some .rdBusy := by decide
theorem test_decode_wrBusy : decodeTableWord 10 0x108 = some (.wrBusy 0) := by decide
theorem test_decode_rdPeriod0 : decodeTableWord 10 0x010 = some .rdPeriod0 := by decide
theorem test_decode_wrPeriod0 : decodeTableWord 10 0x110 = some (.wrPeriod0 0) := by decide
theorem test_decode_rdPeriod1 : decodeTableWord 10 0x014 = some .rdPeriod1 := by decide
theorem test_decode_wrPeriod1 : decodeTableWord 10 0x114 = some (.wrPeriod1 0) := by decide
theorem test_decode_rdFifo0 : decodeTableWord 10 0x080 = some .rdFifo0 := by decide
theorem test_decode_wrFifo0 : decodeTableWord 10 0x180 = some (.wrFifo0 0) := by decide
theorem test_decode_rdFifo1 : decodeTableWord 10 0x084 = some .rdFifo1 := by decide
theorem test_decode_wrFifo1 : decodeTableWord 10 0x184 = some (.wrFifo1 0) := by decide
theorem test_decode_rdTxData : decodeTableWord 10 0x088 = some .rdTxData := by decide
theorem test_decode_wrTxData : decodeTableWord 10 0x188 = some (.wrTxData 0) := by decide
theorem test_decode_rdRxData : decodeTableWord 10 0x08C = some .rdRxData := by decide
theorem test_decode_wrRxData : decodeTableWord 10 0x18C = some (.wrRxData 0) := by decide
theorem test_decode_rdCycle : decodeTableWord 10 0x200 = some .rdCycle := by decide
theorem test_decode_rdCycleHi : decodeTableWord 10 0x204 = some .rdCycleHi := by decide
theorem test_decode_wrCycle : decodeTableWord 10 0x300 = some (.wrCycle 0) := by decide
theorem test_decode_wrCycleHi : decodeTableWord 10 0x304 = some (.wrCycleHi 0) := by decide
theorem test_decode_construct :
    decodeTableWord 8 0x01 = some (.construct ⟨0, 0, ⟨.idleLow, .captureOnFirstTransition⟩, 0, 0, 0⟩) := by decide
theorem test_decode_setBitOrder : decodeTableWord 8 0x02 = some (.setBitOrder .msbFirst) := by decide
theorem test_decode_clearFifos : decodeTableWord 8 0x03 = some .clearFifos := by decide
theorem test_decode_read : decodeTableWord 8 0x04 = some (.read ⟨0, 0⟩) := by decide
theorem test_decode_write : decodeTableWord 8 0x05 = some (.write ⟨0, 0⟩) := by decide
theorem test_decode_transfer : decodeTableWord 8 0x06 = some (.transfer ⟨0, 0⟩ ⟨0, 0⟩) := by decide
theorem test_decode_transferInPlace : decodeTableWord 8 0x07 = some (.transferInPlace ⟨0, 0⟩) := by decide
theorem test_decode_flush : decodeTableWord 8 0x08 = some .flush := by decide
theorem test_decode_runTransaction : decodeTableWord 8 0x09 = some (.runTransaction []) := by decide
theorem test_decode_release : decodeTableWord 8 0x0A = some .release := by decide
theorem test_decode_now : decodeTableWord 8 0x10 = some .now := by decide
theorem test_decode_elapsedSince : decodeTableWord 8 0x11 = some (.elapsedSince 0) := by decide
theorem test_decode_delayCycles : decodeTableWord 8 0x12 = some (.delayCycles 0) := by decide
theorem test_decode_delayNs : decodeTableWord 8 0x13 = some (.delayNs 0) := by decide
theorem test_decode_delayUs : decodeTableWord 8 0x14 = some (.delayUs 0) := by decide
theorem test_decode_delayMs : decodeTableWord 8 0x15 = some (.delayMs 0) := by decide
theorem test_decode_delayNew : decodeTableWord 8 0x16 = some (.delayNew 0) := by decide
theorem test_decode_trySend : decodeTableWord 8 0x20 = some (.trySend 0) := by decide
theorem test_decode_tryRecv : decodeTableWord 8 0x21 = some .tryRecv := by decide
theorem test_decode_byteStep : decodeTableWord 8 0x22 = some (.byteStep 0) := by decide
theorem test_decode_clockDivider : decodeTableWord 8 0x23 = some (.clockDivider 0 0) := by decide
theorem test_decode_opRead : decodeTableWord 8 0x30 = some (.opRead ⟨0, 0⟩) := by decide
theorem test_decode_opWrite : decodeTableWord 8 0x31 = some (.opWrite ⟨0, 0⟩) := by decide
theorem test_decode_opTransfer : decodeTableWord 8 0x32 = some (.opTransfer ⟨0, 0⟩ ⟨0, 0⟩) := by decide
theorem test_decode_opTransferInPlace : decodeTableWord 8 0x33 = some (.opTransferInPlace ⟨0, 0⟩) := by decide
theorem test_decode_opDelay : decodeTableWord 8 0x34 = some (.opDelay ⟨.ns, 0⟩) := by decide
theorem test_decode_frameStart : decodeTableWord 8 0x40 = some .frameStart := by decide
theorem test_decode_frameComplete : decodeTableWord 8 0x41 = some (.frameComplete 0) := by decide
theorem test_decode_tick : decodeTableWord 8 0x42 = some .tick := by decide
theorem test_decode_reset : decodeTableWord 8 0x43 = some .reset := by decide

/-- A data word's bytes stand low byte first. -/
theorem test_decode_operand_word :
    decode .A [0x00, 0x01, 0x31, 0x04, 0x00, 0x80] = .ok (.wrConfig 0x80000431, []) := by decide

/-- A 64-bit operand. -/
theorem test_decode_operand_dword :
    decode .K [0x11, 0xFB, 0xFF, 0xFF, 0xFF, 0xFE, 0xFF, 0xFF, 0xFF] = .ok (.elapsedSince 0xFFFFFFFEFFFFFFFB, []) := by decide

/-- Mode 3 of R115, 1 MHz from two 32 MHz clocks. -/
theorem test_decode_operand_construct :
    decode .K [0x01, 7, 0, 0, 0, 8, 0, 0, 0, 3, 0x40, 0x42, 0x0F, 0, 0, 0x48, 0xE8, 1, 0, 0x48, 0xE8, 1] =
      .ok (.construct ⟨7, 8, ⟨.idleHigh, .captureOnSecondTransition⟩, 1000000, 32000000, 32000000⟩, []) := by decide

/-- A list of three operations, and a byte after it. -/
theorem test_decode_operand_list :
    decode .K [0x09, 0x31, 0, 1, 0, 0, 2, 0, 0, 0, 0x34, 2, 5, 0, 0, 0, 0x30, 0, 2, 0, 0, 2, 0, 0, 0, 0, 0x42] =
      .ok (.runTransaction [.write bufA, .delay ⟨.ms, 5⟩, .read bufB], [0x42]) := by decide

/-- A39: no register at 0x04, no access at an offset that is not a multiple of 4 (R72, R73). -/
theorem test_decode_refuses_descriptor :
    decode .A [0x04, 0x00] = .error .noRegister ∧ decode .A [0x02, 0x00] = .error .misalignedOffset ∧
    decode .A [0x00, 0x04] = .error .descriptorTooWide ∧ decode .A [0x88] = .error .truncated := by decide

/-- Bytes that are no command, each refused by its own name. -/
theorem test_decode_refuses_tag :
    decode .K [0x0B] = .error .unknownTag ∧ decode .K [0x02, 2] = .error .badBitOrder ∧
    decode .K [0x34, 3, 0, 0, 0, 0] = .error .badUnit ∧ decode .K [0x09, 0x04] = .error .badOperation := by decide

/-- A mode byte past the four modes, and a buffer cut short. -/
theorem test_decode_refuses_operand :
    decode .K [0x04, 0, 0, 0, 0, 0] = .error .truncated ∧
    decode .K [0x01, 0, 0, 0, 0, 0, 0, 0, 0, 4, 0, 0, 0, 0] = .error .badMode := by decide

/-! Small states. -/

/-- The hardware of a state. -/
def hwOf (o : Out State) : Option Hw :=
  match o with
  | .next s => some s.hw
  | _ => none

/-- The result the host has. -/
def retOf (o : Out State) : Option Ret :=
  match o with
  | .next s => some s.host.ret
  | _ => none

/-- The running command's next access. -/
def actOf (o : Out State) : Option Activity :=
  match o with
  | .next s => s.host.running.map Running.act
  | _ => none

/-- The refusal of an outcome. -/
def refusalOf (o : Out State) : Option Refusal :=
  match o with
  | .refused r => some r
  | _ => none

/-- The hardware after C1: mode 0, master, enabled. -/
def hwOn : Hw := { Hw.reset with role := true, mEn := true }

/-- An instance with a 32 MHz core. -/
def bus : BusEngine := { handle := 7, pinSet := 8, coreFreqHz := 32000000, stale := false }

/-- After construction in mode 0, clean (C1, C14). -/
def on : State := { State.reset with hw := hwOn, host := { State.reset.host with engine := some bus } }

/-- The state with other hardware. -/
def withHw (h : Hw) (s : State) : State := { s with hw := h }

/-- The slots replaced. -/
def prog (p : List Slot) (s : State) : State := { s with program := p }

/-- The running command of a state replaced. -/
def run (a : Activity) (s : State) : State := { s with host := { s.host with running := some { act := a, txn := none } } }

/-- The same within a transaction. -/
def runTxn (a : Activity) (t : Txn) (s : State) : State :=
  { s with host := { s.host with running := some { act := a, txn := some t } } }

/-- A host that has a command running. -/
def busyHost : State := run .flush on

/-- The snapshot of mode 0 with period values of 0x0F. -/
def snap0 : Snapshot := { cpol := false, cpha := false, bitord := false, ph0 := 0x0F, ph1 := 0x0F, idle := 0x0F }

/-- A byte 0xA5 in flight. -/
def inFlight : State := { on with hw := { hwOn with eng := .shifting 0xA5 snap0 } }

/-- The parameters under `split32`. -/
def split : Params := { Params.default with counterRead := .split32 }

/-- A `LAYOUT` with the second flags, the receive trigger and `PH1` in words of their own, and `MODE` bits moved. -/
def spread : Params :=
  { Params.default with
      spiBase := 0x10000000,
      layout := { Layout.default with
        cpol  := ⟨.spi, 0x00, 31, 31⟩,
        ph1   := ⟨.spi, 0x18, 9, 2⟩,
        txudf := ⟨.spi, 0x90, 0, 0⟩,
        rxudf := ⟨.spi, 0x90, 1, 1⟩,
        rxclr := ⟨.spi, 0x94, 7, 7⟩ } }

/-- A `LAYOUT` with `CPHA`, `FSIZE`, `CONT` and `S_EN` in a word of their own and `CPOL` beside `M_EN`. -/
def split3 : Params :=
  { Params.default with
      layout := { Layout.default with
        cpha  := ⟨.spi, 0x04, 5, 5⟩,
        fsize := ⟨.spi, 0x04, 3, 2⟩,
        cont  := ⟨.spi, 0x04, 9, 9⟩,
        sEn   := ⟨.spi, 0x04, 1, 1⟩ } }

/-- FIFOs of nine entries with counts of four bits. -/
def deep : Params :=
  { Params.default with
      fifoDepth := 9, cntBits := 4,
      layout := { Layout.default with txcnt := ⟨.spi, 0x84, 3, 0⟩, rxcnt := ⟨.spi, 0x84, 11, 8⟩ } }

/-- All four flags set, two bytes to send, one received (A18). -/
def flagged : State :=
  { on with hw := { hwOn with txovf := true, txudf := true, rxovf := true, rxudf := true, txf := [1, 2], rxf := [9] } }

/-- Both FIFOs full. -/
def full : State := { on with hw := { hwOn with txf := [1, 2, 3, 4], rxf := [1, 2, 3, 4] } }

/-! The parameters (R7). -/

theorem test_params_ok : Params.ok Params.default = true ∧ Params.ok split = true := by decide
theorem test_params_ok_layouts : Params.ok spread = true ∧ Params.ok split3 = true ∧ Params.ok deep = true := by decide
/-- Two fields on one bit, a count too narrow for the depth, and another field in the word of `TXD` are no parameters. -/
theorem test_params_not_ok :
    Params.ok { spread with layout := { spread.layout with txudf := ⟨.spi, 0x80, 4, 4⟩ } } = false ∧
    Params.ok { deep with fifoDepth := 16 } = false ∧
    Params.ok { spread with layout := { spread.layout with rxclr := ⟨.spi, 0x88, 8, 8⟩ } } = false := by decide

/-! One step of each instruction. -/

/-- A1. -/
theorem test_rdConfig_reset : retOf (exec .rdConfig State.reset) = some (.word 0) := by decide
/-- A3. -/
theorem test_rdConfig_bitord :
    retOf (exec .rdConfig (withHw { hwOn with bitord := true } on)) = some (.word 0x441) := by decide
/-- A2. -/
theorem test_wrConfig_mode3 : hwOf (exec (.wrConfig 0x431) State.reset) =
    some { Hw.reset with mEn := true, cpol := true, cpha := true, role := true } := by decide
/-- A5. -/
theorem test_wrConfig_midFrame : refusalOf (exec (.wrConfig 0x401) inFlight) = some .configWriteInFlight := by decide
/-- A34, E11: bit 0 follows the engine, not the FIFO. -/
theorem test_rdBusy_bit0 :
    (∃ w, retOf (exec .rdBusy (withHw { hwOn with txf := [0xA5] } on)) = some (.word w) ∧ w.getLsbD 0 = false) ∧
    (∃ w, retOf (exec .rdBusy inFlight) = some (.word w) ∧ w.getLsbD 0 = true) :=
  have h : ∀ v w, (Params.default.put .busy (bitWord v) w).getLsbD 0 = v := by
    intro v w
    cases v <;> simp [Params.put, setBits, maskBits, bitWord, Params.default, Layout.place, Layout.default, Field.width]
  ⟨⟨_, rfl, h false _⟩, ⟨_, rfl, h true _⟩⟩
/-- A35. -/
theorem test_wrBusy_ignored : hwOf (exec (.wrBusy 1) on) = some hwOn := by decide
/-- A6. -/
theorem test_rdPeriod0_unmodelled :
    retOf (exec .rdPeriod0 (withHw { Hw.reset with u := Hw.reset.u.put 0x10 0x1234 } on)) = some (.word 0x0F0F1234) := by
  decide
/-- A7. -/
theorem test_wrPeriod0_unequal : hwOf (exec (.wrPeriod0 0x1F0F0000) on) = some { hwOn with ph1 := 0x1F } := by decide
/-- A9. -/
theorem test_rdPeriod1 : retOf (exec .rdPeriod1 on) = some (.word 0x0F) := by decide
/-- A10. -/
theorem test_wrPeriod1 : hwOf (exec (.wrPeriod1 7) on) = some { hwOn with idle := 7 } := by decide
/-- A11, A12, A13, A14. -/
theorem test_rdFifo0_each :
    retOf (exec .rdFifo0 (withHw { hwOn with txovf := true } on)) = some (.word 0x10) ∧
    retOf (exec .rdFifo0 (withHw { hwOn with txudf := true } on)) = some (.word 0x20) ∧
    retOf (exec .rdFifo0 (withHw { hwOn with rxovf := true } on)) = some (.word 0x40) ∧
    retOf (exec .rdFifo0 (withHw { hwOn with rxudf := true } on)) = some (.word 0x80) := by decide
/-- A16, A18 and A19. -/
theorem test_wrFifo0 : hwOf (exec (.wrFifo0 4) flagged) = some { flagged.hw with txf := [], txovf := false, txudf := false } ∧
    hwOf (exec (.wrFifo0 0xF0) flagged) = some flagged.hw ∧
    hwOf (exec (.wrFifo0 8) flagged) = some { flagged.hw with rxf := [], rxovf := false, rxudf := false } := by decide
/-- R340: the DMA request enables stay as they are. -/
theorem test_wrFifo0_dma : refusalOf (exec (.wrFifo0 5) flagged) = some .dmaEnable := by decide
/-- A21; and nine bytes waiting under a count of four bits. -/
theorem test_rdFifo1 :
    retOf (exec .rdFifo1 (withHw { hwOn with txf := [0xA5], rxf := [1, 2, 3] } on)) = some (.word 0x301) ∧
    retOf (exec .rdFifo1 { on with hw := { hwOn with txf := [1, 2, 3, 4, 5, 6, 7, 8, 9] }, params := deep }) =
      some (.word 9) := by decide
/-- A22. -/
theorem test_rdFifo1_free : retOf (exec .rdFifo1 { on with
    hw := { hwOn with txf := [0xA5], rxf := [1, 2, 3] }, params := { Params.default with txcntSense := .free } }) =
    some (.word 0x303) := by decide
/-- A25. -/
theorem test_wrFifo1_counts : hwOf (exec (.wrFifo1 0x707) full) = some full.hw := by decide
/-- A26. -/
theorem test_wrTxData_low : hwOf (exec (.wrTxData 0xFFFFFFA5) on) = some { hwOn with txf := [0xA5] } := by decide
/-- A27. -/
theorem test_wrTxData_full : hwOf (exec (.wrTxData 5) full) = some { full.hw with txovf := true } := by decide
/-- A30. -/
theorem test_rdRxData : hwOf (exec .rdRxData (withHw { hwOn with rxf := [0x11, 0x22] } on)) =
    some { hwOn with rxf := [0x22] } := by decide
/-- A31. -/
theorem test_rdRxData_empty : hwOf (exec .rdRxData on) = some { hwOn with rxudf := true } := by decide
/-- A36. -/
theorem test_rdCycle : retOf (exec .rdCycle (withHw { hwOn with cycle := 0xFFFFFFFFFFFFFFFB } on)) =
    some (.dword 0xFFFFFFFFFFFFFFFB) := by decide
/-- A37. -/
theorem test_rdCycleHi : retOf (exec .rdCycleHi { on with hw := { hwOn with cycle := 0x1FFFFFFFF }, params := split }) =
    some (.word 1) ∧
    retOf (exec .rdCycle { on with hw := { hwOn with cycle := 0x1FFFFFFFF }, params := split }) =
    some (.word 0xFFFFFFFF) := by decide
/-- A38. -/
theorem test_refused_accesses :
    refusalOf (exec .rdTxData on) = some .readOfWriteOnlyPort ∧ refusalOf (exec (.wrRxData 0) on) = some .writeOfReadOnlyPort ∧
    refusalOf (exec (.wrCycle 0) on) = some .writeOfCounter ∧ refusalOf (exec (.wrCycleHi 0) on) = some .writeOfCounter := by
  decide

/-- CONSTRUCT's operands of C1. -/
def args1 : ConstructArgs := ⟨7, 8, ⟨.idleLow, .captureOnFirstTransition⟩, 1000000, 32000000, 32000000⟩

/-- C1: the first access reads CONFIG. -/
theorem test_construct_first : actOf (exec (.construct args1) State.reset) =
    some (.construct args1 .role ⟨roleFields, some 0⟩) := by decide
/-- C4: the last write of mode 3 is 0x431. -/
theorem test_construct_mode3 :
    Modify.word Params.default .cpol (modeFields ⟨.idleHigh, .captureOnSecondTransition⟩) 0x400 = 0x431 := by decide
/-- R236, D27: with step 3's fields in two words, the word of `M_EN` is the last one written, though `CPOL` stands in it too. -/
theorem test_construct_enables_last :
    (lastWord split3 .mEn (modeFields ⟨.idleHigh, .captureOnSecondTransition⟩)).map Prod.fst =
      [.cpha, .fsize, .cont, .sEn, .cpol, .mEn] ∧
    lastWord Params.default .mEn (modeFields args1.mode) = modeFields args1.mode := by decide
/-- C8: the second access sets bit 6. -/
theorem test_setBitOrder : hwOf (advance (run (.setBitOrder ⟨orderFields .lsbFirst, some 0x401⟩) on)) =
    some { hwOn with bitord := true } := by decide
/-- C12: the second access clears both sides. -/
theorem test_clearFifos : hwOf (advance (run (.clearFifos ⟨clearFields, some 0xF0⟩) flagged)) = some hwOn := by decide
/-- R151: with the triggers in two words the second access clears one side, and two accesses are left. -/
theorem test_clearFifos_spread :
    (let o := advance { run (.clearFifos ⟨clearFields, some 0⟩) flagged with params := spread }
     (hwOf o, actOf o)) =
      (some { flagged.hw with txf := [], txovf := false, txudf := false }, some (.clearFifos ⟨[(.rxclr, 1)], none⟩)) := by
  decide
/-- C14. -/
theorem test_release : retOf (exec .release on) = some (.parts 7 8) := by decide
/-- X20: the first poll of a read, with the filler to send. -/
theorem test_read_first : actOf (exec (.read bufA) on) = some (.xfer ⟨bufA, ⟨0, 0⟩⟩ 0 0 .send .count) := by decide
/-- X28: an empty read makes no poll, so a flag is not seen. -/
theorem test_read_empty : retOf (exec (.read ⟨0, 0⟩) flagged) = some .ok := by decide
/-- X21: the first byte comes from memory. -/
theorem test_write_first : actOf (exec (.write bufA) { on with mem := [(0x100, 0xA5)] }) =
    some (.xfer ⟨⟨0, 0⟩, bufA⟩ 0 0xA5 .send .count) := by decide
/-- X32. -/
theorem test_write_txOverflow : retOf (exec (.write bufA) (withHw { hwOn with txovf := true } on)) =
    some (.err .txOverflow) := by decide
/-- X22 and R88. -/
theorem test_transfer : actOf (exec (.transfer bufA bufB) { on with mem := [(0x200, 0x01)] }) =
    some (.xfer ⟨bufA, bufB⟩ 0 0x01 .send .count) ∧
    refusalOf (exec (.transfer bufA ⟨0x101, 1⟩) on) = some .overlappingBuffers := by decide
/-- X26: the byte received in byte-step 0 replaces byte 0, and byte 1 is sent next. -/
theorem test_transferInPlace : (match advance (run (.xfer ⟨bufA, bufA⟩ 0 1 .recv .data)
      { on with hw := { hwOn with rxf := [0xFF] }, mem := [(0x100, 1), (0x101, 2)] }) with
    | .next s => some (s.mem, s.host.running.map Running.act)
    | _ => none) = some ([(0x100, 0xFF), (0x101, 2)], some (.xfer ⟨bufA, bufA⟩ 1 2 .send .flags)) := by
  rw [advance_some rfl rfl]
  simp only [access, xferAccess, byteAccess]
  rw [recvAccess_data (paramsOk test_params_ok.1)]
  rfl
/-- X29, X30. -/
theorem test_flush : retOf (exec .flush on) = some .ok ∧ actOf (exec .flush inFlight) = some .flush := by
  obtain ⟨d, h⟩ := flushAccess (s := busyHost) (paramsOk test_params_ok.1)
  obtain ⟨e, k⟩ := flushAccess (s := run .flush inFlight) (paramsOk test_params_ok.1)
  constructor
  · change retOf (advance busyHost) = _
    rw [advance_some rfl rfl]
    change retOf (andThen (access .flush busyHost) _) = _
    rw [h]; rfl
  · change actOf (advance (run .flush inFlight)) = _
    rw [advance_some rfl rfl]
    change actOf (andThen (access .flush (run .flush inFlight)) _) = _
    rw [k]; rfl
/-- R1, R5. -/
theorem test_runTransaction : retOf (exec (.runTransaction []) on) = some .ok ∧
    retOf (exec (.runTransaction [.write bufA, .delay ⟨.ms, 5⟩, .read bufB]) (withHw { hwOn with txovf := true } on)) =
      some (.err .txOverflow) := by decide
/-- T3. -/
theorem test_now : retOf (exec .now (withHw { hwOn with cycle := 0x1000 } on)) = some (.dword 0x1000) := by decide
/-- T5. -/
theorem test_elapsedSince : retOf (exec (.elapsedSince 0xFFFFFFFFFFFFFFFB) (withHw { hwOn with cycle := 0x0A } on)) =
    some (.dword 15) := by decide
/-- T7: the read of 103 does not end it, the read of 104 does. -/
theorem test_delayCycles :
    delayProgress 3 (some 100) 103 = .more (.delay 3 (some 100) .first) ∧ delayProgress 3 (some 100) 104 = .done .unit := by
  decide
/-- T12, T13: 31 ns round down to no cycle, 32 ns to one. -/
theorem test_delayNs : actOf (exec (.delayNs 31) on) = some (.delay 0 (some 0) .first) ∧
    actOf (exec (.delayNs 32) on) = some (.delay 1 (some 0) .first) := by decide
/-- T17. -/
theorem test_delayUs : actOf (exec (.delayUs 10) on) = some (.delay 320 (some 0) .first) := by decide
/-- T22: the product is not cut to 32 bits. -/
theorem test_delayMs : actOf (exec (.delayMs 4294967295) on) = some (.delay 137438953440000 (some 0) .first) := by decide
theorem test_delayNew : retOf (exec (.delayNew 144000000) State.reset) = some .cycleDelay := by decide
/-- X8: a flag wins over a full FIFO. -/
theorem test_trySend_flag : retOf (exec (.trySend 0xA5) (withHw { full.hw with txovf := true } on)) =
    some (.err .txOverflow) := by decide
/-- X16: overflow is tested first. -/
theorem test_tryRecv_flag : retOf (exec .tryRecv flagged) = some (.err .rxOverflow) := by decide
/-- X11: the byte handed back is the low byte. -/
theorem test_tryRecv_byte : retOf (advance (run (.tryRecv .data) (withHw { hwOn with rxf := [0x11] } on))) =
    some (.okByte 0x11) := by
  rw [advance_some rfl rfl]
  simp only [access]
  rw [recvAccess_data (paramsOk test_params_ok.1)]
  rfl
/-- X19: after the push the receive half begins. -/
theorem test_byteStep : actOf (advance (run (.byteStep 0xA5 .send .data) on)) = some (.byteStep 0xA5 .recv .flags) := by
  decide
/-- D10, D11. -/
theorem test_clockDivider_slow : retOf (exec (.clockDivider 32000000 62257) on) = some (.okByte 0xFF) ∧
    retOf (exec (.clockDivider 32000000 62256) on) = some .outOfRange := by decide
/-- D20, D21. -/
theorem test_clockDivider_wide : retOf (exec (.clockDivider 4294967295 4294967295) on) = some .outOfRange ∧
    retOf (exec (.clockDivider 4294967295 2147483647) on) = some (.okByte 0) := by decide
theorem test_opRead : actOf (exec (.opRead bufA) on) = some (.xfer ⟨bufA, ⟨0, 0⟩⟩ 0 0 .send .count) := by decide
theorem test_opWrite : actOf (exec (.opWrite bufA) { on with mem := [(0x100, 0xA5)] }) =
    some (.xfer ⟨⟨0, 0⟩, bufA⟩ 0 0xA5 .send .count) := by decide
theorem test_opTransfer : actOf (exec (.opTransfer bufC bufA) { on with mem := [(0x100, 0x01)] }) =
    some (.xfer ⟨bufC, bufA⟩ 0 0x01 .send .count) := by decide
theorem test_opTransferInPlace : actOf (exec (.opTransferInPlace bufC) { on with mem := [(0x300, 0x09)] }) =
    some (.xfer ⟨bufC, bufC⟩ 0 0x09 .send .count) := by decide
/-- R3: 10 us are 320 cycles of the instance's own clock, whatever CycleDelay the host holds. -/
theorem test_opDelay : actOf (exec (.opDelay ⟨.us, 10⟩) { on with host := { on.host with delay := some 1 } }) =
    some (.delay 320 (some 0) .first) := by decide
/-- E11. -/
theorem test_frameStart : hwOf (exec .frameStart (withHw { hwOn with txf := [0xA5, 0x3C] } on)) =
    some { hwOn with txf := [0x3C], eng := .shifting 0xA5 snap0 } := by decide
/-- E5, E6, E7, E8, E9. -/
theorem test_frameStart_disabled : ∀ h ∈ [{ hwOn with role := false, txf := [0xA5] }, { hwOn with sEn := true, txf := [0xA5] },
    { hwOn with cont := true, txf := [0xA5] }, { hwOn with fsize := 1, txf := [0xA5] }, hwOn],
    hwOf (exec .frameStart (withHw h on)) = some h := by decide
/-- E12. -/
theorem test_frameComplete : (match exec (.frameComplete 0x11) inFlight with
    | .next s => some (s.hw, s.frames)
    | _ => none) = some ({ hwOn with rxf := [0x11] }, [⟨0xA5, 0x11, snap0, true⟩]) := by decide
/-- E13. -/
theorem test_frameComplete_full : (match exec (.frameComplete 0xB5) (withHw { full.hw with eng := .shifting 5 snap0 } on) with
    | .next s => some (s.hw, s.frames)
    | _ => none) = some ({ full.hw with rxovf := true }, [⟨5, 0xB5, snap0, false⟩]) := by decide
/-- T2. -/
theorem test_tick_wraps : hwOf (exec .tick (withHw { hwOn with cycle := 0xFFFFFFFFFFFFFFFF } on)) = some hwOn := by decide
/-- H1: the frame in flight is abandoned with no record. -/
theorem test_reset :
    let o := exec .reset (withHw { flagged.hw with eng := .shifting 5 snap0 } on)
    (hwOf o).map (fun h => (h.clean, h.mEn, h.role)) = some (true, false, false) ∧
    (match o with
      | .next s => some s.frames
      | _ => none) = some [] := by decide
/-- R362: a command that a RESET came in the middle of is refused at its next access. -/
theorem test_reset_midCommand : (match exec .reset busyHost with
    | .next s => refusalOf (advance s)
    | _ => none) = some .resetInCommand := by decide
/-- The word of a table row, placed, is what the next step runs. -/
theorem test_withFetchWord : hwOf (step (State.reset.withFetchWord 8 0x42)) = some { Hw.reset with cycle := 1 } := by decide

/-! Witnesses: for each statement with hypotheses, states and operands that meet them, clause by clause. -/

theorem witness_DecodeReadsListedSelectors :
    decode .A [0x88, 0x01, 0xA5, 0, 0, 0, 0x77] = .ok (.wrTxData 0xA5, [0x77]) ∧
    decode .K [0x43] = .ok (.reset, []) ∧
    (∀ c ∈ listedCodes .A, ¬ selectorBytes .A c <+: [0x04, 0x01]) ∧
    (∀ c ∈ listedCodes .K, ¬ selectorBytes .K c <+: [0x00]) := by decide

theorem witness_UnlistedDescriptorsAreRefusedByName :
    0x004 ∉ listedCodes .A ∧ 0x001 ∉ listedCodes .A ∧ 0x3FC ∉ listedCodes .A ∧ 0x3FF ∉ listedCodes .A ∧
    0x400 ∉ listedCodes .A ∧ 0x401 ∉ listedCodes .A ∧ 0xFFFF ∉ listedCodes .A := by decide

theorem witness_StepRunsTheDecodedInstruction :
    decode .K (encode (.byteStep 0xA5)) = .ok (.byteStep 0xA5, []) ∧ (Instr.byteStep 0xA5).wellFormed = true ∧
    (prog [.code .K (encode (.byteStep 0xA5))] on).host.running = none ∧
    decode .K (encode .tick) = .ok (.tick, []) ∧ autonomous .tick = true ∧ busyHost.host.running ≠ none := by decide

theorem witness_StepGivesTurnsOrRefuses :
    decode .K [0x03] = .ok (.clearFifos, []) ∧ busyHost.host.running ≠ none ∧ autonomous .clearFifos = false ∧
    (prog [.code .K [0x00]] busyHost).program = .code .K [0x00] :: [] ∧ (prog [.code .K [0x00]] busyHost).host.running ≠ none ∧
    decode .K [0x00] = .error .unknownTag ∧ on.host.running = none ∧
    decode .K (encode (.read badBuf)) = .ok (.read badBuf, []) ∧ (Instr.read badBuf).wellFormed = false := by decide

/-- A command that goes on, one that writes, one that stores a byte, and one met by a RESET. -/
theorem witness_TurnsAreOneAgentsMove :
    on.host.running = none ∧ on.hw.eng = .idle ∧ inFlight.hw.eng = .shifting 0xA5 snap0 ∧
    (let s := run (.byteStep 0xA5 .send .data) on
     s.host.running = some { act := .byteStep 0xA5 .send .data, txn := none } ∧ ∃ t, takeTurn .host s = .next t) ∧
    (let s := run (.xfer ⟨bufA, emptyBuf⟩ 0 0 .recv .data) full
     s.host.running = some { act := .xfer ⟨bufA, emptyBuf⟩ 0 0 .recv .data, txn := none } ∧ ∃ t, takeTurn .host s = .next t) ∧
    ∃ (s : State) (r : Running), s.host.running = some r ∧ r.stale = true :=
  ⟨rfl, rfl, rfl, ⟨rfl, _, rfl⟩, ⟨rfl, _, rfl⟩, ⟨busyHost.resetEvent, _, rfl, rfl⟩⟩

/-- The default record, and one that fixes every unspecified value. -/
theorem witness_ResetEventTakesTheResetRecord :
    on.params.reset = .default ∧ on.params.reset.ph0 = none ∧ on.params.reset.ph1 = none ∧ on.params.reset.idle = none ∧
    on.params.reset.cycle = none ∧ (∀ k : Fin 64, on.params.reset.u[k] = none) ∧
    ∃ s : State, s.params.reset.ph0 = some 0x0F ∧ s.params.reset.ph1 = some 0x0F ∧ s.params.reset.idle = some 0x0F ∧
      s.params.reset.cycle = some 0x1000 ∧ s.params.reset.u[32] = some 0xFFFFFF00 :=
  ⟨rfl, rfl, rfl, rfl, rfl, by decide,
    { on with params := { on.params with reset := { ResetRecord.default with
        ph0 := some 0x0F, ph1 := some 0x0F, idle := some 0x0F, cycle := some 0x1000,
        u := Vector.replicate 64 (some 0xFFFFFF00) } } }, rfl, rfl, rfl, rfl, by decide⟩

theorem witness_ReadsAfterResetShowTheResetState :
    flagged.params.reset = .default ∧ flagged.params.layout = .default ∧ Params.ok flagged.params = true ∧
    hostFree flagged = true ∧ exec .reset flagged = .next flagged.resetEvent :=
  ⟨rfl, rfl, test_params_ok.1, rfl, rfl⟩

/-- Both senses of the transmit count. -/
theorem witness_ReadsAfterReset_senses :
    on.params.txcntSense = .occupancy ∧ ({ Params.default with txcntSense := .free } : Params).txcntSense = .free := by decide

/-- Under the default `LAYOUT` and under one with words of its own: a read and a write row of a word with flags and triggers, the
ports, and a configuration word with a frame in flight and without. -/
theorem witness_WordAccessesComposeTheirFields :
    (hostFree flagged = true ∧ flagged.wf = true ∧ hostFree { flagged with params := spread } = true ∧
      State.wf { flagged with params := spread } = true) ∧
    (rowRead .rdFifo0 = some .txovf ∧ rowRead .rdRxData = some .rxd ∧ rowWrite (.wrFifo0 0xC) = some (.txclr, 0xC) ∧
      rowWrite (.wrTxData 5) = some (.txd, 5) ∧ rowWrite (.wrConfig 0x401) = some (.mEn, 0x401)) ∧
    flagged.hw.busy = false ∧ inFlight.hw.busy = true ∧
    (∀ g, inFlight.params.together .txclr g = true → Field.guarded g = false) ∧
    changesDma (flagged.params.offset .txclr) 0xC flagged = false ∧
    changesDma (spread.offset .txclr) 0xC { flagged with params := spread } = false :=
  ⟨⟨by decide, by decide, by decide, by decide⟩, by decide, by decide, by decide, by intro g; cases g <;> decide, by decide,
    by decide⟩

/-- ConfigurationReadsItsFields, FifoFlagsReadWithoutClearing, FifoTriggersClearTheirSide, TransmitWritePushesOrOverflows and
BusyReadsTheEngine ask for a free host and the default `LAYOUT` only. -/
theorem witness_hostFree : hostFree State.reset = true ∧ hostFree flagged = true ∧ hostFree inFlight = true ∧
    State.reset.params.layout = .default ∧ flagged.params.layout = .default ∧ inFlight.params.layout = .default := by decide

theorem witness_ConfigurationWritesStoreTheirFields :
    hostFree flagged = true ∧ flagged.hw.busy = false ∧ flagged.params.layout = .default := by decide

/-- The host's own write, a CONSTRUCT over a stale instance, and a SET_BIT_ORDER. -/
theorem witness_ConfigurationWritesAreRefusedMidFrame :
    Params.ok inFlight.params = true ∧ hostFree inFlight = true ∧ inFlight.hw.eng = .shifting 0xA5 snap0 ∧
    (∀ a ∈ [Activity.construct args1 .role ⟨roleFields, some 0x401⟩, .setBitOrder ⟨orderFields .lsbFirst, some 0x401⟩],
      (run a inFlight).hw.eng = .shifting 0xA5 snap0 ∧ Params.ok (run a inFlight).params = true ∧
      (run a inFlight).host.running = some { act := a, txn := none }) ∧
    roleFields = (.role, 1) :: [] ∧ Field.guarded .role = true ∧
    orderFields .lsbFirst = (.bitord, 1) :: [] ∧ Field.guarded .bitord = true := by decide

/-- R340: both clauses, the enables at 0 and one of them at 1. -/
theorem witness_FifoTriggersClearTheirSide :
    (0x0C#32).extractLsb' 0 2 = (flagged.hw.u.at 0x80).extractLsb' 0 2 ∧
    (0x0D#32).extractLsb' 0 2 ≠ (flagged.hw.u.at 0x80).extractLsb' 0 2 := by decide

theorem witness_FifoCountsRead : hostFree full = true ∧ full.wf = true ∧ full.params.layout = .default ∧
    full.params.txcntSense = .occupancy ∧
    State.wf { full with params := { full.params with txcntSense := .free } } = true := by decide

theorem witness_WritesOfReadOnlyFieldsAreIgnored :
    hostFree full = true ∧ full.params.layout = .default ∧ Params.ok full.params = true := by decide

theorem witness_ReceiveReadPopsOrUnderflows :
    hostFree full = true ∧ full.hw.rxf = 1 :: [2, 3, 4] ∧ full.params.layout = .default ∧
    hostFree on = true ∧ on.hw.rxf = [] ∧ on.params.layout = .default := by decide

theorem witness_CounterReads : hostFree on = true ∧ on.params.counterRead = .atomic64 ∧
    hostFree { on with params := split } = true ∧ split.counterRead = .split32 := by decide

theorem witness_WrittenWordsReadBack : hostFree flagged = true ∧ flagged.hw.eng = .idle ∧ flagged.params.layout = .default ∧
    Params.ok flagged.params = true ∧ (0xFFFFFF00#32).extractLsb' 0 2 = (flagged.hw.u.at 0x80).extractLsb' 0 2 := by decide

/-- A read with an effect, one without, and writes that do and do not reach a side of the FIFOs. -/
theorem witness_RegisterAccessesFrame : (Instr.rdRxData).format = .A ∧ (Instr.wrFifo0 0xC).format = .A ∧
    (∃ t, exec .rdRxData full = .next t) ∧ (∃ t, exec .rdFifo1 full = .next t) ∧ (∃ t, exec (.wrFifo0 0xC) flagged = .next t) ∧
    rowWrite .rdFifo1 = none ∧ (∀ f, rowRead .rdFifo1 = some f → full.params.together f .rxd = false) ∧
    rowWrite (.wrPeriod0 7) = some (.ph0, 7) ∧ (∃ t, exec (.wrPeriod0 7) flagged = .next t) ∧
    Field.guarded .role = true ∧ flagged.params.together .ph0 .role = false ∧ flagged.params.together .ph0 .txclr = false ∧
    flagged.params.together .ph0 .txd = false ∧ flagged.params.together .ph0 .rxclr = false ∧
    wordIndex 0x80 ≠ wordIndex (flagged.params.offset .ph0) :=
  ⟨rfl, rfl, ⟨_, rfl⟩, ⟨_, rfl⟩, ⟨_, rfl⟩, rfl, by intro f h; cases h; decide, rfl, ⟨_, rfl⟩, rfl, by decide, by decide,
    by decide, by decide, by decide⟩

theorem witness_FrameStartTakesTheOldestByte :
    let s := withHw { hwOn with txf := [0xA5, 0x3C] } on
    s.hw.role = true ∧ s.hw.mEn = true ∧ s.hw.sEn = false ∧ s.hw.cont = false ∧ s.hw.fsize = 0 ∧ s.hw.eng = .idle ∧
    s.hw.txf = 0xA5 :: [0x3C] := by decide

/-- Each disjunct alone. -/
theorem witness_EngineStepsNotEnabledChangeNothing :
    State.reset.hw.role = false ∧ State.reset.hw.mEn = false ∧ (withHw { hwOn with sEn := true } on).hw.sEn = true ∧
    (withHw { hwOn with cont := true } on).hw.cont = true ∧ (withHw { hwOn with fsize := 1 } on).hw.fsize ≠ 0 ∧
    inFlight.hw.eng ≠ .idle ∧ on.hw.txf = [] ∧ on.hw.eng = .idle := by decide

/-- The last place free, and none free. -/
theorem witness_FrameCompleteStoresOrOverflows :
    let s := withHw { hwOn with rxf := [1, 2, 3], eng := .shifting 5 snap0 } on
    let t := withHw { hwOn with rxf := [1, 2, 3, 4], eng := .shifting 5 snap0 } on
    s.hw.eng = .shifting 5 snap0 ∧ s.hw.rxf.length < s.params.fifoDepth ∧
    t.hw.eng = .shifting 5 snap0 ∧ t.params.fifoDepth ≤ t.hw.rxf.length := by decide

theorem witness_BytesInTheEngineAreConserved :
    exec .frameStart full = .next (withHw full.hw.frameStart full) ∧ inFlight.hw.eng ≠ .idle ∧
    exec (.frameComplete 0x11) inFlight = .next (inFlight.frameComplete 0x11) ∧ Params.ok full.params = true ∧
    (∃ t, exec (.wrTxData 5) full = .next t) ∧ ∃ t, exec .rdRxData full = .next t :=
  ⟨rfl, by decide, rfl, by decide, ⟨_, rfl⟩, ⟨_, rfl⟩⟩

theorem witness_CounterMovesOnlyByTicksAndHistoryGrows :
    let s := prog [.code .K (encode .tick)] on
    let u := prog [.code .K (encode (.frameComplete 0x11))] inFlight
    step s = .next ((s.withProgram []).withHw s.hw.tick) ∧ resetNext s = false ∧ tickNext s = true ∧
    step u = .next ((u.withProgram []).frameComplete 0x11) ∧ resetNext u = false ∧ tickNext u = false :=
  ⟨rfl, rfl, rfl, rfl, rfl, rfl⟩

theorem witness_CounterCommandsReturn : hostFree on = true ∧ on.params.counterRead = .atomic64 := by decide

/-- One tick carries into the high half before the low read, or between the low read and the second high read (A37), or not at
all; and a delay at its last access. -/
theorem witness_SplitCounterReadIsConsistent :
    (∀ p ∈ [(1, 0, 0x1FFFFFFFF), (0, 1, 0x1FFFFFFFF), (0, 1, 0)],
      let s := prog (ticks p.1 ++ (.hostTurn :: (ticks p.2.1 ++ (.hostTurn :: []))))
        { on with params := split, hw := { hwOn with cycle := p.2.2 } }
      hostFree s = true ∧ s.params.counterRead = .split32 ∧ p.1 + p.2.1 < 4294967296 ∧
      s.program = ticks p.1 ++ (.hostTurn :: (ticks p.2.1 ++ (.hostTurn :: [])))) ∧
    (let s := run (.delay 3 (some 100) (.high 0 104)) { on with params := split }
     s.params.counterRead = .split32 ∧
      s.host.running = some { act := .delay 3 (some 100) (.high 0 104), txn := none }) := by decide

/-- The slots of a delay that `m` ticks pass in. -/
def delaySlots (p : Params) (m : Nat) : List Slot :=
  hostTurns (counterTurns p - 1) ++ (ticks m ++ (hostTurns (counterTurns p) ++ []))

/-- T7: three ticks do not end a delay of 3, four do; under both forms of the counter read. -/
theorem witness_DelayCyclesWaitsForMoreThanItsCount :
    on.params.counterRead = .atomic64 ∧ hostFree on = true ∧ split.counterRead = .split32 ∧
    (run (.delay 3 (some 100) .first) on).host.running = some { act := .delay 3 (some 100) .first, txn := none } ∧
    (∀ p ∈ [Params.default, split], ∀ m ∈ [3, 4],
      let s := prog (delaySlots p m) { on with params := p }
      hostFree s = true ∧ m < 18446744073709551616 ∧ s.program =
        hostTurns (counterTurns s.params - 1) ++ (ticks m ++ (hostTurns (counterTurns s.params) ++ []))) := by decide

/-- The host's own CycleDelay, and without one the instance's; under both forms of the counter read. -/
theorem witness_DurationDelaysConvertFirst :
    hostFree on = true ∧ (on.host.delay = none ∧ ∃ e, on.host.engine = some e ∧ e.coreFreqHz = 32000000) ∧
    (State.withDelay 144000000 on).host.delay = some 144000000 ∧ hostFree (State.withDelay 144000000 on) = true ∧
    hostFree { on with params := split } = true :=
  ⟨rfl, ⟨rfl, bus, rfl, rfl⟩, rfl, rfl, rfl⟩

/-- R3's 320 cycles: 320 ticks are not enough, 321 are. -/
theorem witness_TransactionDelayUsesTheEmbeddedDelay :
    hostFree on = true ∧ on.host.engine = some bus ∧
    (∀ m ∈ [320, 321], m < 18446744073709551616) ∧
    (prog (delaySlots split 320) { on with params := split }).program =
      hostTurns (counterTurns split - 1) ++ (ticks 320 ++ (hostTurns (counterTurns split) ++ [])) :=
  ⟨rfl, rfl, by decide, rfl⟩

/-- D4, D9, D11, D6, D13: lengths 1, 256, 257 and 0, and a zero frequency. -/
theorem witness_ClockDividerRoundsDownOrFails :
    hostFree on = true ∧
    (32000000#32).toNat / (2 * (16000000#32).toNat) = 1 ∧ (32000000#32).toNat / (2 * (62500#32).toNat) = 256 ∧
    256 < (32000000#32).toNat / (2 * (62256#32).toNat) ∧ (32000000#32).toNat / (2 * (20000000#32).toNat) = 0 ∧
    (62500#32) ≠ 0 := by decide

/-- D10. -/
theorem witness_GeneratedClockIsNeverSlower :
    exec (.clockDivider 32000000 62257) on = .next (on.withRet (.okByte 0xFF)) ∧
    (on.withRet (.okByte 0xFF)).host.ret = .okByte 0xFF :=
  ⟨rfl, rfl⟩

/-- C1 at its slowest and its fastest; under the default `LAYOUT` and with `PH1` in a word of its own. -/
theorem witness_ConstructConfiguresTheEngine :
    Params.default.layout = .default ∧ constructTurns spread = 10 ∧
    (∀ p ∈ [Params.default, spread],
      let s := prog (hostTurns (constructTurns p - 1) ++ []) { State.reset with params := p }
      hostFree s = true ∧ s.host.engine = none ∧ s.hw.eng = .idle ∧ s.wf = true ∧
        s.program = hostTurns (constructTurns s.params - 1) ++ []) ∧
    (62500#32 ≠ 0 ∧ args1.fSpi.toNat / (2 * (62500#32).toNat) = 256) ∧
    (16000000#32 ≠ 0 ∧ args1.fSpi.toNat / (2 * (16000000#32).toNat) = 1) := by decide

/-- A `construct` about to begin with `M_EN` 0; one whose next access is the last write of step 3, with the steps' fields in one word
and in two; and one whose divider is out of range, before the write that ends it. -/
theorem witness_ConstructConfiguresTheEngine_last :
    (∃ t, exec (.construct args1) State.reset = .next t) ∧ State.reset.hw.mEn = false ∧ Params.ok State.reset.params = true ∧
    (∀ x ∈ [(Params.default, modeFields args1.mode, ConstructStage.mode, args1, true),
        (split3, [(.cpol, 0), (.mEn, 1)], .mode, args1, true),
        (Params.default, roleFields, .role, { args1 with freq := 20000000 }, false)],
      let s := prog [.hostTurn] (run (.construct x.2.2.2.1 x.2.2.1 ⟨x.2.1, some 0x400⟩) { State.reset with params := x.1 })
      Params.ok s.params = true ∧ s.constructing = true ∧ resetNext s = false ∧
        (hwOf (step s)).map Hw.mEn = some x.2.2.2.2) :=
  ⟨⟨_, rfl⟩, rfl, rfl, by decide⟩

/-- C7 and D11, under both policies. -/
theorem witness_ConstructFailsBeforeThePeriods :
    let s := prog [.hostTurn] State.reset
    hostFree s = true ∧ s.host.engine = none ∧ s.hw.eng = .idle ∧ s.wf = true ∧ s.program = .hostTurn :: [] ∧
    args1.fSpi.toNat / (2 * (20000000#32).toNat) = 0 ∧ 256 < args1.fSpi.toNat / (2 * (62256#32).toNat) ∧
    s.params.failPolicy = .error ∧ ({ s.params with failPolicy := .abort } : Params).failPolicy = .abort := by decide

/-- With the engine idle; and CLEAR_FIFOS with a frame in flight, the triggers in one word and in two. -/
theorem witness_HousekeepingCommands :
    (let s := prog [.hostTurn] flagged
     hostFree s = true ∧ s.host.engine = some bus ∧ s.wf = true ∧ s.hw.eng = .idle ∧ s.program = .hostTurn :: []) ∧
    (∀ p ∈ [(Params.default, 1), (spread, 3)],
      let s := prog (hostTurns p.2 ++ []) { inFlight with params := p.1 }
      hostFree s = true ∧ s.host.engine = some bus ∧ s.wf = true ∧
      (∀ g ∈ Field.all, (s.params.together .txclr g = true ∨ s.params.together .rxclr g = true) → Field.guarded g = false) ∧
      p.2 = (if s.params.together .txclr .rxclr then 1 else 3) ∧ s.program = hostTurns p.2 ++ []) := by decide

/-- No instance; a live one and a stale one; an ended host program; a running command; no CycleDelay; both forms of the counter. -/
theorem witness_HostMisuseIsRefused :
    hostFree State.reset = true ∧ State.reset.host.engine = none ∧ State.reset.host.delay = none ∧
    hostFree on = true ∧ on.host.engine = some bus ∧ bus.stale = false ∧
    hostFree on.resetEvent = true ∧ on.resetEvent.host.engine = some { bus with stale := true } ∧
    Params.ok on.resetEvent.params = true ∧ on.params.counterRead = .atomic64 ∧
    autonomous .rdConfig = false ∧ (State.endHost on).host.ended = true ∧
    busyHost.host.ended = false ∧ busyHost.host.running ≠ none ∧ hostReady on = true :=
  ⟨rfl, rfl, rfl, rfl, rfl, rfl, rfl, rfl, test_params_ok.1, rfl, rfl, rfl, rfl, by decide, rfl⟩

/-- Buffers that share their last and first byte; and a transaction that reaches them after a delay that is over. -/
theorem witness_HostMisuse_overlap : (∃ x, inBuf bufA bufA.len.toNat x ∧ inBuf ⟨0x101, 1⟩ (1#32).toNat x) ∧
    (let s := runTxn (.delay 3 (some 100) .first) ⟨[.transfer bufA ⟨0x101, 1⟩], 0⟩ (withHw { hwOn with cycle := 104 } on)
     s.params.counterRead = .atomic64 ∧ (3#64).toNat < (s.hw.cycle - 100).toNat ∧ s.host.running =
      some { act := .delay 3 (some 100) .first, txn := some { rest := .transfer bufA ⟨0x101, 1⟩ :: [], k := 0 } }) :=
  ⟨⟨0x101, ⟨by decide, by decide⟩, ⟨by decide, by decide⟩⟩, rfl, by decide, rfl⟩

/-- X4, X5, X3 and X2; with the flags in one word and in two. -/
theorem witness_TrySendPollsThenPushes :
    hostReady flagged = true ∧ flagged.wf = true ∧ flagged.hw.txovf = true ∧
    (∀ p ∈ [Params.default, spread],
      (let s := prog (hostTurns (sendTurns p - 3) ++ []) { on with params := p, hw := { hwOn with txudf := true } }
       hostReady s = true ∧ s.wf = true ∧ s.hw.txovf = false ∧ s.hw.txudf = true ∧
        s.program = hostTurns (sendTurns s.params - 3) ++ []) ∧
      (let s := prog (hostTurns (sendTurns p - 2) ++ []) { full with params := p }
       hostReady s = true ∧ s.wf = true ∧ s.hw.txovf = false ∧ s.hw.txudf = false ∧ s.hw.txf.length = s.params.fifoDepth ∧
        s.program = hostTurns (sendTurns s.params - 2) ++ []) ∧
      (let s := prog (hostTurns (sendTurns p - 1) ++ []) { on with params := p, hw := { hwOn with txf := [1, 2, 3] } }
       hostReady s = true ∧ s.wf = true ∧ s.hw.txf.length < s.params.fifoDepth ∧
        s.program = hostTurns (sendTurns s.params - 1) ++ [])) := by decide

/-- X14, X15, X12 and X11; with the flags in one word and in two. -/
theorem witness_TryRecvPollsThenPops :
    hostReady flagged = true ∧ flagged.wf = true ∧ flagged.hw.rxovf = true ∧
    (∀ p ∈ [Params.default, spread],
      (let s := prog (hostTurns (recvTurns p - 3) ++ []) { on with params := p, hw := { hwOn with rxudf := true } }
       hostReady s = true ∧ s.wf = true ∧ s.hw.rxovf = false ∧ s.hw.rxudf = true ∧
        s.program = hostTurns (recvTurns s.params - 3) ++ []) ∧
      (let s := prog (hostTurns (recvTurns p - 2) ++ []) { on with params := p }
       hostReady s = true ∧ s.wf = true ∧ s.hw.rxovf = false ∧ s.hw.rxudf = false ∧ s.hw.rxf = [] ∧
        s.program = hostTurns (recvTurns s.params - 2) ++ []) ∧
      (let s := prog (hostTurns (recvTurns p - 1) ++ []) { on with params := p, hw := { hwOn with rxf := [0x11] } }
       hostReady s = true ∧ s.wf = true ∧ s.hw.rxf = 0x11 :: [] ∧
        s.program = hostTurns (recvTurns s.params - 1) ++ [])) := by decide

/-- X19; and each half at the read that finds no room, or nothing received. -/
theorem witness_ByteStepSpinsAndExchangesOneByte :
    (∀ p ∈ [Params.default, spread],
      let s := prog (afterStart p [0x11] ++ []) { on with params := p }
      s.readyClean = true ∧ s.program = afterStart s.params [0x11] ++ []) ∧
    full.wf = true ∧ full.hw.txf.length = full.params.fifoDepth ∧ on.wf = true ∧ on.hw.rxf = [] ∧
    (run (.byteStep 5 .send .count) full).host.running = some { act := .byteStep 5 .send .count, txn := none } ∧
    (runTxn (.xfer ⟨emptyBuf, bufA⟩ 0 5 .recv .count) ⟨[], 0⟩ on).host.running =
      some { act := .xfer ⟨emptyBuf, bufA⟩ 0 5 .recv .count, txn := some ⟨[], 0⟩ } := by decide

/-- H3, and X31's receive half with the engine disabled and the byte still waiting. -/
theorem witness_StarvedReceiveNeverEnds :
    (run (.byteStep 0xA5 .recv .flags) on).starved = true ∧ (run (.byteStep 0xA5 .recv .flags) on).receiving = true ∧
    (run (.xfer ⟨emptyBuf, bufA⟩ 0 0xA5 .recv .count) (withHw { Hw.reset with txf := [0xA5] } on)).starved = true ∧
    (run (.xfer ⟨emptyBuf, bufA⟩ 0 0xA5 .recv .count) (withHw { Hw.reset with txf := [0xA5] } on)).receiving = true ∧
    resetNext (prog [.hostTurn] (run (.byteStep 0xA5 .recv .flags) on)) = false := by decide

/-- X20, at the top of the host's address space, and the empty buffer. -/
theorem witness_ReadFillsItsBuffer :
    let s := prog (afterStart on.params [0x11, 0x22] ++ []) on
    s.readyClean = true ∧ topBuf.fits = true ∧ [0x11#8, 0x22#8].length = topBuf.len.toNat ∧
    s.program = afterStart s.params [0x11, 0x22] ++ [] ∧
    on.readyClean = true ∧ emptyBuf.fits = true ∧ ([] : List Byte).length = emptyBuf.len.toNat ∧
    on.program = afterStart on.params [] ++ [] := by decide

/-- The bytes 0xA5, 0x3C at 0x100. -/
def memA : Memory := [(0x100, 0xA5), (0x101, 0x3C)]

theorem holds_memA : holdsBytes memA bufA [0xA5, 0x3C] := by
  intro i h
  match i, h with
  | 0, _ => rfl
  | 1, _ => rfl

/-- X21. -/
theorem witness_WriteSendsItsBuffer :
    let s := prog (afterStart on.params [0x11, 0x22] ++ []) { on with mem := memA }
    s.readyClean = true ∧ bufA.fits = true ∧ [0xA5#8, 0x3C#8].length = bufA.len.toNat ∧
    [0x11#8, 0x22#8].length = bufA.len.toNat ∧ holdsBytes s.mem bufA [0xA5, 0x3C] ∧
    s.program = afterStart s.params [0x11, 0x22] ++ [] :=
  ⟨by decide, by decide, by decide, by decide, holds_memA, by decide⟩

/-- R4's transfer: one byte to read, two to write. -/
theorem witness_TransferExchangesBuffers :
    let s := prog (afterStart on.params [0xA1, 0xA2] ++ []) { on with mem := memA }
    s.readyClean = true ∧ bufC.fits = true ∧ bufA.fits = true ∧ overlap bufC bufA = false ∧
    [0xA5#8, 0x3C#8].length = bufA.len.toNat ∧ holdsBytes s.mem bufA [0xA5, 0x3C] ∧
    [0xA1#8, 0xA2#8].length = max bufC.len.toNat bufA.len.toNat ∧ s.program = afterStart s.params [0xA1, 0xA2] ++ [] :=
  ⟨by decide, by decide, by decide, by decide, by decide, holds_memA, by decide, by decide⟩

/-- X25. -/
theorem witness_TransferInPlaceReplacesItsBuffer :
    let s := prog (afterStart on.params [0x11, 0x22] ++ []) { on with mem := memA }
    s.readyClean = true ∧ bufA.fits = true ∧ [0xA5#8, 0x3C#8].length = bufA.len.toNat ∧
    [0x11#8, 0x22#8].length = bufA.len.toNat ∧ holdsBytes s.mem bufA [0xA5, 0x3C] ∧
    s.program = afterStart s.params [0x11, 0x22] ++ [] :=
  ⟨by decide, by decide, by decide, by decide, holds_memA, by decide⟩

theorem witness_EmptyCommandsReturnAtOnce :
    hostReady flagged = true ∧ emptyBuf.len = 0 ∧ ({ base := 0xFFFFFFFF, len := 0 } : Buf).len = 0 := by decide

/-- X29, X30. -/
theorem witness_FlushWaitsForTheEngine :
    hostReady on = true ∧ on.wf = true ∧ on.hw.eng = .idle ∧ hostReady inFlight = true ∧ inFlight.wf = true ∧
    inFlight.hw.eng ≠ .idle ∧ (prog [.hostTurn] inFlight).program = .hostTurn :: [] ∧
    (prog [.code .K (encode (.frameComplete 0x11)), .hostTurn] inFlight).program =
      .code .K (encode (.frameComplete 0x11)) :: .hostTurn :: [] := by decide

/-- X32, X34, X33, S7 and a transaction (R5); the underflow flags in the overflow flags' word and in another. -/
theorem witness_ErrorsEndTheCommandAtOnce :
    flagged.wf = true ∧ flagged.hw.txovf = true ∧ flagged.hw.rxovf = true ∧
    (run (.trySend 0xA5 .flags) flagged).host.running = some { act := .trySend 0xA5 .flags, txn := none } ∧
    (runTxn (.xfer ⟨emptyBuf, bufA⟩ 0 0xA5 .send .flags) ⟨[], 0⟩ flagged).host.running =
      some { act := .xfer ⟨emptyBuf, bufA⟩ 0 0xA5 .send .flags, txn := some ⟨[], 0⟩ } ∧
    (run (.tryRecv .flags) flagged).host.running = some { act := .tryRecv .flags, txn := none } ∧
    Params.default.together .txovf .txudf = true ∧ Params.default.together .rxovf .rxudf = true ∧
    (let s := run (.byteStep 0xA5 .send .underflow) { on with params := spread, hw := { hwOn with txudf := true } }
     s.wf = true ∧ s.hw.txovf = false ∧ s.hw.txudf = true ∧ s.params.together .txovf .txudf = false) ∧
    (let s := run (.tryRecv .underflow) { on with params := spread, hw := { hwOn with rxudf := true } }
     s.wf = true ∧ s.hw.rxovf = false ∧ s.hw.rxudf = true ∧ s.params.together .rxovf .rxudf = false) ∧
    hostReady flagged = true ∧ bufA.fits = true ∧ bufA.len ≠ 0 := by decide

/-- Before a command, within its byte-steps, and within a transaction's delay. -/
theorem witness_TransfersStayBalanced :
    on.balanced = true ∧ on.host.running = none ∧
    hostReady on = true ∧ on.hw.operational = true ∧ on.hw.clean = true ∧ Params.ok on.params = true ∧
    (∃ t, exec (.read bufA) on = .next t) ∧ (∃ t, exec (.runTransaction [.delay ⟨.us, 10⟩, .read bufA]) on = .next t) ∧
    (run (.xfer ⟨bufA, emptyBuf⟩ 0 0 .recv .count) inFlight).balanced = true ∧
    (runTxn (.delay 3 (some 0) .first) ⟨[], 0⟩ on).balanced = true ∧
    (let s := prog [.code .K (encode .tick)] (run (.xfer ⟨bufA, emptyBuf⟩ 0 0 .recv .count) inFlight)
     s.balanced = true ∧ s.host.running ≠ none ∧ step s = .next ((s.withProgram []).withHw s.hw.tick) ∧
      resetNext s = false) :=
  ⟨rfl, rfl, rfl, rfl, rfl, rfl, ⟨_, rfl⟩, ⟨_, rfl⟩, rfl, rfl, rfl, by decide, rfl, rfl⟩

/-- R4: a transfer, then a delay, then an exchange in place; under both forms of the counter read. -/
theorem witness_TransactionsRunInOrder :
    let ops := [Operation.transfer bufC bufA, .delay ⟨.ns, 100⟩, .transferInPlace bufC]
    ops.all opValid = true ∧ [0xA1#8, 0xA2#8, 0xA3#8].length = opsSteps ops ∧ opsTicks 32000000 ops = 4 ∧
    (∀ p ∈ [Params.default, split],
      let s := prog ((opsSchedule p 32000000 ops [0xA1, 0xA2, 0xA3]).drop 1 ++ []) { on with mem := memA, params := p }
      s.readyClean = true ∧ s.host.engine = some bus ∧
        s.program = (opsSchedule s.params bus.coreFreqHz ops [0xA1, 0xA2, 0xA3]).drop 1 ++ []) := by decide

theorem witness_StepsKeepTheStateWellFormed :
    let s := prog [.code .A (encode (.wrTxData 5))] full
    s.wf = true ∧ ∃ t, step s = .next t :=
  ⟨rfl, _, rfl⟩

/-- A TICK leaves every flag set, and WR_FIFO0 of one trigger is next for that side only. -/
theorem witness_FlagsAreSticky :
    (let s := prog [.code .K (encode .tick)] flagged
     step s = .next ((s.withProgram []).withHw s.hw.tick) ∧ resetNext s = false ∧ triggerNext .txclr s = false ∧
      triggerNext .rxclr s = false ∧ s.hw.txudf = true ∧ s.hw.txovf = true ∧ s.hw.rxovf = true ∧ s.hw.rxudf = true) ∧
    (let s := prog [.code .A (encode (.wrFifo0 4))] flagged
     (∃ t, step s = .next t) ∧ resetNext s = false ∧ triggerNext .txclr s = true ∧ triggerNext .rxclr s = false) ∧
    on.hw.txudf = false :=
  ⟨⟨rfl, rfl, rfl, rfl, rfl, rfl, rfl, rfl⟩, ⟨⟨_, rfl⟩, rfl, rfl, rfl⟩, rfl⟩

theorem witness_BuffersThatFitNeverFault :
    on.fits = true ∧ (runTxn (.xfer ⟨topBuf, emptyBuf⟩ 1 0 .recv .data) ⟨[.write topBuf], 0⟩ on).fits = true ∧
    (let s := prog [.code .K (encode .tick)] on
     s.fits = true ∧ step s = .next ((s.withProgram []).withHw s.hw.tick)) :=
  ⟨rfl, rfl, rfl, rfl⟩

/-- H5: the first CLEAR_FIFOS begins and ends; FLUSH begins and ends in one step with the engine idle, and begins and goes on with a
frame in flight; the second CLEAR_FIFOS ends; and a free engine between them. -/
theorem witness_RecoverySequenceEndsClean :
    Params.ok flagged.params = true ∧
    (let s := prog [.code .K (encode .clearFifos)] flagged
     (∃ t, step s = .next t) ∧ resetNext s = false ∧ ∃ u, fetch s = .instr .clearFifos u) ∧
    (let s := prog [.hostTurn] (run (.clearFifos ⟨clearFields, some 0xF0⟩) flagged)
     s.clearing = true ∧ resetNext s = false ∧ ∃ t, step s = .next t ∧ t.host.running = none) ∧
    (let s := prog [.code .K (encode .flush)] on
     s.recovering = true ∧ s.hw.txf = [] ∧ s.hw.eng = .idle ∧ resetNext s = false ∧ ∃ u, fetch s = .instr .flush u) ∧
    (let s := prog [.hostTurn] (run .flush inFlight)
     s.flushing = true ∧ s.recovering = true ∧ s.hw.txf = [] ∧ resetNext s = false) ∧
    (let s := prog [.code .K (encode (.frameComplete 0x11))] inFlight
     s.recovering = true ∧ s.hw.txf = [] ∧ resetNext s = false ∧ ∃ t, step s = .next t) ∧
    (let s := prog [.hostTurn] (run (.clearFifos ⟨clearFields, some 0⟩) (withHw { hwOn with rxf := [0x11] } on))
     s.clearing = true ∧ s.hw.txf = [] ∧ s.hw.eng = .idle ∧ resetNext s = false ∧
      ∃ t, step s = .next t ∧ t.host.running = none) :=
  ⟨rfl, ⟨⟨_, rfl⟩, rfl, _, rfl⟩, ⟨rfl, rfl, _, rfl, rfl⟩, ⟨rfl, rfl, rfl, rfl, _, rfl⟩, ⟨rfl, rfl, rfl, rfl⟩,
    ⟨rfl, rfl, rfl, _, rfl⟩, ⟨rfl, rfl, rfl, rfl, _, rfl, rfl⟩⟩

/-- A step of CLEAR_FIFOS with one side done, and the steps on which FLUSH goes on and ends. -/
theorem witness_RecoverySequence_steps :
    (let s := run (.clearFifos ⟨[(.rxclr, 1)], none⟩) { on with params := spread }
     s.clearing = true ∧ Params.ok s.params = true ∧ ∃ t, takeTurn .host s = .next t ∧ t.host.running ≠ none) ∧
    (∃ t, takeTurn .host (run .flush inFlight) = .next t) ∧ ∃ t, takeTurn .host (run .flush on) = .next t := by
  have flush : ∀ s : State, ParamsOk s.params → s.host.running = some { act := .flush, txn := none } →
      ∃ t, takeTurn .host s = .next t := by
    intro s hp hr
    obtain ⟨d, h⟩ := flushAccess hp
    change ∃ t, advance s = .next t
    rw [advance_some hr rfl]
    dsimp only
    rw [h, andThen_next]
    cases s.hw.busy
    · exact ⟨_, settle_done _ _⟩
    · exact ⟨_, settle_more _ _ _⟩
  exact ⟨⟨rfl, by decide, _, rfl, by decide⟩, flush _ (paramsOk test_params_ok.1) rfl, flush _ (paramsOk test_params_ok.1) rfl⟩

/-! A fair run (R180): the three agents in turn, from a byte-step begun while a frame is in flight and a byte waits. -/

/-- The agents in turn. -/
def roundRobin (n : Nat) : Turn :=
  match n % 3 with
  | 0 => .host
  | 1 => .engine
  | _ => .counter

/-- The start of the run. -/
def fairStart : State :=
  run (.byteStep 0x3C .send .flags) { on with hw := { hwOn with txf := [0x11], eng := .shifting 0xA5 snap0 } }

/-- The run. -/
def fairRun : Nat → State
  | 0 => fairStart
  | n + 1 =>
    match takeTurn (roundRobin n) ((fairRun n).drawn 1) with
    | .next t => t
    | _ => fairRun n

/-- What holds all along the run. -/
structure Along (s : State) : Prop where
  params      : s.params = .default
  operational : s.hw.operational = true
  tx          : s.hw.txf.length ≤ 4
  rx          : s.hw.rxf.length ≤ 4
  running     : s.host.running = none ∨ ∃ h p, s.host.running = some { act := .byteStep 0x3C h p, txn := none }

theorem Along.of_hw {s t : State} {r : Option Running} (h : Along s) (hp : t.params = s.params) (ho : t.hw.operational = true)
    (ht : t.hw.txf.length ≤ 4) (hr : t.hw.rxf.length ≤ 4) (hrun : t.host.running = r)
    (hr' : r = none ∨ ∃ h p, r = some { act := .byteStep 0x3C h p, txn := none }) : Along t :=
  ⟨hp.trans h.params, ho, ht, hr, hrun ▸ hr'⟩

/-- A byte-step's access answers, and keeps the rest. -/
theorem Along.access {s : State} (h : Along s) (hf : Half) (p : PollPhase) :
    ∃ q t, byteAccess 0x3C hf p s = .next (q, t) ∧ t.params = s.params ∧ t.hw.operational = true ∧ t.hw.txf.length ≤ 4 ∧
      t.hw.rxf.length ≤ 4 := by
  have ok : ParamsOk s.params := by rw [h.params]; exact paramsOk test_params_ok.1
  have hd : s.params.fifoDepth = 4 := by rw [h.params]; rfl
  cases hf with
  | send =>
    cases p with
    | flags =>
      obtain ⟨d, e⟩ := sendAccess_flags ok 0x3C
      exact ⟨_, s.drawn d, by rw [byteAccess, e]; rfl, rfl, h.operational, h.tx, h.rx⟩
    | underflow =>
      obtain ⟨d, e⟩ := sendAccess_underflow ok 0x3C
      exact ⟨_, s.drawn d, by rw [byteAccess, e]; rfl, rfl, h.operational, h.tx, h.rx⟩
    | count =>
      obtain ⟨d, e⟩ := sendAccess_count ok (by rw [hd]; exact h.tx) 0x3C
      exact ⟨_, s.drawn d, by rw [byteAccess, e]; rfl, rfl, h.operational, h.tx, h.rx⟩
    | data =>
      refine ⟨_, s.withHw (s.hw.pushTx s.params.fifoDepth 0x3C), by rw [byteAccess, sendAccess_data ok 0x3C]; rfl, rfl, ?_, ?_, ?_⟩ <;>
        simp only [State.withHw_hw, Hw.pushTx] <;> split
      · exact h.operational
      · exact h.operational
      · simp only [List.length_append, List.length_cons, List.length_nil]; omega
      · exact h.tx
      · exact h.rx
      · exact h.rx
  | recv =>
    cases p with
    | flags =>
      obtain ⟨d, e⟩ := recvAccess_flags ok
      exact ⟨_, s.drawn d, by rw [byteAccess, e]; rfl, rfl, h.operational, h.tx, h.rx⟩
    | underflow =>
      obtain ⟨d, e⟩ := recvAccess_underflow ok
      exact ⟨_, s.drawn d, by rw [byteAccess, e]; rfl, rfl, h.operational, h.tx, h.rx⟩
    | count =>
      obtain ⟨d, e⟩ := recvAccess_count ok (by rw [hd]; exact h.rx)
      exact ⟨_, s.drawn d, by rw [byteAccess, e]; rfl, rfl, h.operational, h.tx, h.rx⟩
    | data =>
      refine ⟨_, (s.withHw s.hw.popRx.2).drawn 2, by rw [byteAccess, recvAccess_data ok]; rfl, rfl, ?_, ?_, ?_⟩ <;>
        simp only [State.drawn_hw, State.withHw_hw, Hw.popRx] <;> split
      · exact h.operational
      · exact h.operational
      · exact h.tx
      · exact h.tx
      · rename_i hr; have := h.rx; rw [hr, List.length_cons] at this; exact Nat.le_of_succ_le this
      · exact h.rx

/-- A turn of any agent answers a next state of the same kind. -/
theorem Along.turn {s : State} (h : Along s) (u : Turn) : ∃ t, takeTurn u s = .next t ∧ Along t := by
  cases u with
  | host =>
    rcases h.running with hr | ⟨hf, p, hr⟩
    · exact ⟨s, advance_none hr, h⟩
    · obtain ⟨q, t, e, hp, ho, ht, hx⟩ := h.access hf p
      have e' : takeTurn .host s = settle (byteProgress 0x3C q) none t := by
        change advance s = _
        rw [advance_some hr rfl]
        simp only [Sys2Proof.Machine.access]
        rw [e]
        rfl
      rw [e']
      cases q with
      | again h' p' => exact ⟨_, settle_more _ _ _, h.of_hw hp ho ht hx rfl (.inr ⟨h', p', rfl⟩)⟩
      | byte b => exact ⟨_, settle_done _ _, h.of_hw hp ho ht hx rfl (.inl rfl)⟩
      | error x => exact ⟨_, settle_error _ _ _, h.of_hw hp ho ht hx rfl (.inl rfl)⟩
  | engine =>
    refine ⟨_, rfl, ?_⟩
    have hd : s.params.fifoDepth = 4 := by rw [h.params]; rfl
    rcases State.engineTurn_cases s with ⟨-, e⟩ | ⟨r, -, e⟩ <;> rw [e]
    · have hk : s.hw.frameStart.operational = true ∧ s.hw.frameStart.txf.length ≤ 4 ∧ s.hw.frameStart.rxf.length ≤ 4 := by
        unfold Hw.frameStart
        split
        · split
          · rename_i hx; have := h.tx; rw [hx, List.length_cons] at this; exact ⟨h.operational, Nat.le_of_succ_le this, h.rx⟩
          · exact ⟨h.operational, h.tx, h.rx⟩
        · exact ⟨h.operational, h.tx, h.rx⟩
      exact ⟨h.params, hk.1, hk.2.1, hk.2.2, h.running⟩
    · unfold State.frameComplete
      split
      · exact h
      · refine ⟨h.params, ?_, ?_, ?_, h.running⟩ <;> simp only [Hw.pushRx] <;> split
        · exact h.operational
        · exact h.operational
        · exact h.tx
        · exact h.tx
        · simp only [List.length_append, List.length_cons, List.length_nil]; omega
        · exact h.rx
  | counter => exact ⟨_, rfl, h.params, h.operational, h.tx, h.rx, h.running⟩

theorem fairRun_along (n : Nat) : Along (fairRun n) := by
  induction n with
  | zero => exact ⟨rfl, rfl, by decide, by decide, .inr ⟨_, _, rfl⟩⟩
  | succ n ih =>
    obtain ⟨t, e, h⟩ := Along.turn (s := (fairRun n).drawn 1) ⟨ih.params, ih.operational, ih.tx, ih.rx, ih.running⟩ (roundRobin n)
    rw [fairRun, e]
    exact h

theorem fairRun_isRun : IsRun roundRobin fairRun := by
  intro n
  have ih := fairRun_along n
  obtain ⟨t, e, h⟩ := Along.turn (s := (fairRun n).drawn 1) ⟨ih.params, ih.operational, ih.tx, ih.rx, ih.running⟩ (roundRobin n)
  rw [fairRun, e]

theorem roundRobin_fair (enabled : State → Bool) (a : Turn) : WeaklyFair enabled a roundRobin fairRun := by
  intro n _
  cases a with
  | host => exact ⟨3 * n, by omega, by simp [roundRobin]⟩
  | engine => exact ⟨3 * n + 1, by omega, by simp [roundRobin, Nat.add_mod]⟩
  | counter => exact ⟨3 * n + 2, by omega, by simp [roundRobin, Nat.add_mod]⟩

/-- All hypotheses of ProgressUnderFairness together. -/
theorem witness_ProgressUnderFairness :
    FairRun roundRobin fairRun ∧ HostFair roundRobin fairRun ∧ (fairRun 0).hw.eng ≠ .idle ∧
    (∀ n, (fairRun n).hw.operational = true) ∧
    (∀ n x, (fairRun n).write = some x → firesTrigger (fairRun n).params .txclr x = false) ∧
    (fairRun 0).wf = true ∧ (fairRun 0).hw.noFlags = true ∧
    (fairRun 0).host.running = some { act := .byteStep 0x3C .send .flags, txn := none } := by
  refine ⟨⟨fairRun_isRun, roundRobin_fair _ _, roundRobin_fair _ _, roundRobin_fair _ _⟩, roundRobin_fair _ _, by decide,
    fun n => (fairRun_along n).operational, fun n x h => ?_, by decide, rfl, rfl⟩
  have ha := fairRun_along n
  rw [ha.params]
  have hx : x.1 = .txd := by
    rcases ha.running with hr | ⟨hf, p, hr⟩
    · simp [State.write, hr] at h
    · simp only [State.write, hr] at h
      cases hf <;> cases p <;> simp only [Activity.write, Option.some.injEq, reduceCtorEq] at h
      rw [← h]
  have ht : Params.default.together .txd .txclr = false := by decide
  unfold firesTrigger
  rw [hx, ht]
  rfl

end Sys2Proof.Tests
end

section
/-! PROOFS. Register words under any usable `LAYOUT`: what a read row and a write row do to each field of their word (R138, R150). -/

namespace Sys2Proof.Machine

/-! Which word a row names (log 27). -/

/-- A read row is a read of its field's word, which is not `TXD`'s. -/
theorem exec_rowRead {i : Instr} {f : Field} (h : rowRead i = some f) (s : State) :
    exec i s = readRow f s ∧ fieldSpace f = .spi ∧ f ≠ .txd := by
  cases i with
  | rdConfig | rdBusy | rdPeriod0 | rdPeriod1 | rdFifo0 | rdFifo1 | rdRxData => cases h; exact ⟨rfl, rfl, by decide⟩
  | _ => cases h

/-- A write row is a write of its field's word, which is not `RXD`'s. -/
theorem exec_rowWrite {i : Instr} {f : Field} {w : Word} (h : rowWrite i = some (f, w)) (s : State) :
    exec i s = writeRow f w s ∧ fieldSpace f = .spi ∧ f ≠ .rxd := by
  cases i with
  | wrConfig _ | wrBusy _ | wrPeriod0 _ | wrPeriod1 _ | wrFifo0 _ | wrFifo1 _ | wrTxData _ =>
    cases h; exact ⟨rfl, rfl, by decide⟩
  | _ => cases h

/-- What the invariants of R57 say of the parameters and the FIFOs. -/
theorem State.wf_fifos {s : State} (h : s.wf = true) :
    ParamsOk s.params ∧ s.hw.txf.length ≤ s.params.fifoDepth ∧ s.hw.rxf.length ≤ s.params.fifoDepth := by
  simp only [State.wf, Bool.and_eq_true, decide_eq_true_eq] at h
  obtain ⟨⟨⟨hp, ht⟩, hr⟩, -⟩ := h
  exact ⟨paramsOk hp, ht, hr⟩

/-! Read rows. -/

/-- A read row of a free host returns its field's word (R138). -/
theorem readRow_next {s : State} (h : ParamsOk s.params) (hf : hostFree s = true) {f : Field} (hs : fieldSpace f = .spi)
    (ht : f ≠ .txd) : readRow f s = .next ((s.afterRead (s.params.wordOf f)).withRet (.word (s.wordAt f))) := by
  rw [readRow, asHost_free hf, regRead_next h hs ht, andThen_next]

/-- A read pops where it is `RXD`'s word that is read, and changes nothing else but the free values used up (R144). -/
theorem afterRead_wordOf {s : State} (h : ParamsOk s.params) {f : Field} (hs : fieldSpace f = .spi) :
    ∃ d, s.afterRead (s.params.wordOf f) = (s.withHw (if f = .rxd then s.hw.popRx.2 else s.hw)).drawn d := by
  by_cases hr : f = .rxd
  · subst hr
    exact ⟨2, by rw [h.wordOf_rxd]; rfl⟩
  · rw [if_neg hr]
    exact afterRead_plain _ s (by rw [Params.contains_wordOf]; exact h.not_rxd hs hr)

/-! The fields of CONFIG, PERIOD0 and PERIOD1 after a write. -/

/-- A one-bit field that stores a value reads the value's lowest bit. -/
theorem bitWord_getLsbD_and (v : Word) : bitWord (v.getLsbD 0) = v &&& maskBits 1 := by
  apply word_ext
  intro i hi
  rw [bitWord_getLsbD, BitVec.getLsbD_and, maskBits_getLsbD]
  rcases i with _ | i <;> simp

/-- A field of `n` bits that stores a value reads the value's low `n` bits. -/
theorem setWidth_setWidth_and {n : Nat} (v : Word) : (v.setWidth n).setWidth 32 = v &&& maskBits n := by
  apply word_ext
  intro i hi
  simp only [BitVec.getLsbD_setWidth, BitVec.getLsbD_and, maskBits_getLsbD, hi, decide_true, Bool.true_and, Bool.and_comm]

/-- A guarded field reads the low bits that were written to it, as many as it has (R131, R133, R135). -/
theorem value_writeField_same {g : Field} (hg : Field.guarded g = true) (s : State) (d n : Nat) (h : Hw) (v : Word) :
    (s.withHw (h.writeField d g v)).value g = v &&& maskBits (Field.width n g) := by
  cases g with
  | mEn | sEn | cpol | cpha | bitord | cont | role => exact bitWord_getLsbD_and v
  | fsize | ph0 | ph1 | idle => exact setWidth_setWidth_and v
  | _ => cases hg

/-- A guarded field keeps what it reads when another field is written. -/
theorem value_writeField_other {g k : Field} (hg : Field.guarded g = true) (hk : k ≠ g) (s : State) (d : Nat) (h : Hw)
    (v : Word) : (s.withHw (h.writeField d k v)).value g = (s.withHw h).value g := by
  obtain ⟨hrole, hmEn, hsEn, hcpol, hcpha, hcont, hfsize, hbitord, hph0, hph1, hidle, -⟩ := h.writeField_frame d k v
  cases g with
  | role => exact congrArg bitWord (hrole hk)
  | mEn => exact congrArg bitWord (hmEn hk)
  | sEn => exact congrArg bitWord (hsEn hk)
  | cpol => exact congrArg bitWord (hcpol hk)
  | cpha => exact congrArg bitWord (hcpha hk)
  | cont => exact congrArg bitWord (hcont hk)
  | bitord => exact congrArg bitWord (hbitord hk)
  | fsize => exact congrArg (BitVec.setWidth 32) (hfsize hk)
  | ph0 => exact congrArg (BitVec.setWidth 32) (hph0 hk)
  | ph1 => exact congrArg (BitVec.setWidth 32) (hph1 hk)
  | idle => exact congrArg (BitVec.setWidth 32) (hidle hk)
  | _ => cases hg

/-- The unmodelled bits are no part of a guarded field. -/
theorem value_withU {g : Field} (hg : Field.guarded g = true) (s : State) (h : Hw) (u : UBits) :
    (s.withHw { h with u := u }).value g = (s.withHw h).value g := by
  cases g with
  | rxd => cases hg
  | _ => rfl

/-- After a write of a word each guarded field reads as it stands in the word written, where it is a field of that word, and as
before where it is not. -/
theorem value_writeFields {p : Params} (h : ParamsOk p) {f g : Field} (hg : Field.guarded g = true) (s : State) (w : Word) :
    (s.withHw (s.hw.writeFields p w (p.wordOf f))).value g = if p.together f g then p.get g w else s.value g := by
  have hw : Field.width p.cntBits g ≤ 32 := by have := h.lo_width g; omega
  rw [writeFields_comp (fun h => (s.withHw h).value g) g (fun v => v &&& maskBits (Field.width p.cntBits g))
    (fun h v => value_writeField_same hg s _ _ h v) (fun h v k _ hk => value_writeField_other hg hk s _ h v)]
  simp only [Params.mem_wordOf]
  rw [and_maskBits (show (p.get g w).toNat < _ from getBits_lt w hw)]
  rfl

/-! The FIFOs and the flags after a write. -/

/-- A trigger fires exactly when it is a field of the word and its bit is 1 (R34, R35). -/
theorem mem_wordOf_and_iff_firesTrigger {p : Params} {f g : Field} {w : Word} :
    (g ∈ p.wordOf f ∧ (p.get g w).getLsbD 0 = true) ↔ firesTrigger p g (f, w) = true := by
  rw [Params.mem_wordOf, firesTrigger, Bool.and_eq_true]

/-- What a trigger's field does to a piece of Layer H, with the trigger named as it fires. -/
theorem ite_firesTrigger {α : Type} {p : Params} {f g : Field} {w : Word} (x y : α) :
    (if g ∈ p.wordOf f ∧ (p.get g w).getLsbD 0 = true then x else y) = if firesTrigger p g (f, w) then x else y :=
  if_congr mem_wordOf_and_iff_firesTrigger rfl rfl

/-- No trigger fires in a write of `TXD`'s word. -/
theorem ParamsOk.firesTrigger_txd {p : Params} (h : ParamsOk p) {g : Field} (hg : g ≠ .txd) (w : Word) :
    firesTrigger p g (.txd, w) = false := by
  simp [firesTrigger, h.txd_alone, Ne.symm hg]

/-- A write of `TXD`'s word pushes (R142). -/
theorem ParamsOk.writeFields_txd {p : Params} (h : ParamsOk p) (w : Word) (x : Hw) :
    x.writeFields p w (p.wordOf .txd) = x.pushTx p.fifoDepth ((p.get .txd w).setWidth 8) := by
  rw [h.wordOf_txd]; rfl

/-- The transmit FIFO after a write of a word: emptied by its trigger, or one byte longer by a push that has room. -/
theorem ParamsOk.writeFields_wordOf_txf {p : Params} (h : ParamsOk p) {f : Field} (hs : fieldSpace f = .spi) (w : Word) (x : Hw) :
    (x.writeFields p w (p.wordOf f)).txf =
      if firesTrigger p .txclr (f, w) then []
      else if f = .txd ∧ x.txf.length < p.fifoDepth then x.txf ++ [(p.get .txd w).setWidth 8] else x.txf := by
  by_cases hf : f = .txd
  · subst hf
    rw [h.writeFields_txd, h.firesTrigger_txd (by decide), Hw.pushTx]
    split <;> simp [*]
  · have ht : Field.txd ∉ p.wordOf f := by rw [Params.mem_wordOf, h.not_txd hs hf]; decide
    simp only [writeFields_txf w x ht, ite_firesTrigger, hf, false_and, if_false]

/-- `TXOVF` after a write of a word: cleared by its trigger, or set by a push that has no room. -/
theorem ParamsOk.writeFields_wordOf_txovf {p : Params} (h : ParamsOk p) {f : Field} (hs : fieldSpace f = .spi) (w : Word) (x : Hw) :
    (x.writeFields p w (p.wordOf f)).txovf =
      if firesTrigger p .txclr (f, w) then false
      else x.txovf || (decide (f = .txd) && decide (p.fifoDepth ≤ x.txf.length)) := by
  by_cases hf : f = .txd
  · subst hf
    rw [h.writeFields_txd, h.firesTrigger_txd (by decide), Hw.pushTx]
    split
    · simp [Nat.not_le.mpr ‹_›]
    · simp [Nat.not_lt.mp ‹_›]
  · have ht : Field.txd ∉ p.wordOf f := by rw [Params.mem_wordOf, h.not_txd hs hf]; decide
    simp only [writeFields_txovf w x ht, ite_firesTrigger, hf, decide_false, Bool.false_and, Bool.or_false]

/-! Write rows. -/

/-- A write row that nothing refuses has the effect of every field of its word, and stores unmodelled bits (R138, R139, R340). -/
theorem writeRow_next {s : State} (h : ParamsOk s.params) (hf : hostFree s = true) {f : Field} {w : Word}
    (hs : fieldSpace f = .spi) (hr : f ≠ .rxd)
    (hg : s.hw.busy = false ∨ ∀ g, s.params.together f g = true → Field.guarded g = false)
    (hd : changesDma (s.params.offset f) w s = false) :
    ∃ u, writeRow f w s = .next ((s.withHw { s.hw.writeFields s.params w (s.params.wordOf f) with u := u }).withRet .unit) := by
  obtain ⟨u, hu, -⟩ := Hw.storeU_eq (p := s.params) (fs := s.params.wordOf f) w (s.hw.writeFields s.params w (s.params.wordOf f))
    (s.params.offset f)
  refine ⟨u, ?_⟩
  rw [writeRow_eq hf rfl (h.wordOf_ne_nil hs) (by rw [Params.contains_wordOf]; exact h.not_rxd hs hr) ?_ hd, hu]
  rcases hg with hb | hg
  · rw [hb, Bool.false_and]
  · rw [Bool.and_eq_false_iff, List.any_eq_false]
    exact .inr fun g hm => by rw [hg g (Params.mem_wordOf.mp hm)]; decide

/-- Settles O11: a read row puts its word together from the fields' values, and a write row folds the fields' own writes, each of
which touches a piece of Layer H of its own. -/
theorem wordAccessesComposeTheirFields : Obligations.WordAccessesComposeTheirFields := by
  intro s hf hwf
  obtain ⟨h, htx, hrx⟩ := State.wf_fifos hwf
  refine ⟨fun i f hi => ?_, fun i f w hi hg hd => ?_⟩
  · obtain ⟨he, hs, ht⟩ := exec_rowRead hi s
    obtain ⟨d, ha⟩ := afterRead_wordOf h hs
    rw [he, readRow_next h hf hs ht, ha]
    refine ⟨s.wordAt f, _, rfl, rfl, fun g hg => ?_, rfl, rfl, rfl, rfl⟩
    exact get_wordAt h (fieldFits_of_counts htx hrx g) hg
  · obtain ⟨he, hs, hr⟩ := exec_rowWrite hi s
    obtain ⟨u, hu⟩ := writeRow_next h hf hs hr hg hd
    exact ⟨_, he.trans hu, rfl, fun g hgu => (value_withU hgu s _ u).trans (value_writeFields h hgu s w),
      h.writeFields_wordOf_txf hs w s.hw, h.writeFields_wordOf_txovf hs w s.hw,
      (writeFields_txudf w s.hw).trans (ite_firesTrigger _ _), (writeFields_rxf w s.hw).trans (ite_firesTrigger _ _),
      (writeFields_rxovf w s.hw).trans (ite_firesTrigger _ _), (writeFields_rxudf w s.hw).trans (ite_firesTrigger _ _),
      writeFields_eng w s.hw, writeFields_cycle w s.hw, rfl, rfl, rfl⟩

end Sys2Proof.Machine
end

section
/-! PROOFS. What a step is for each kind of slot (R5, R6): the instruction it decodes to, an agent's turn, or a refusal. -/

namespace Sys2Proof.Machine

/-! The fetch of a code slot, case by case. -/

theorem fetch_code {s : State} {f : Format} {bs : List Byte} {rest : List Slot} (h : s.program = .code f bs :: rest) :
    fetch s = fetchCode f bs rest s := by
  rw [fetch, h]

/-- A host instruction waits while a command runs (R373; log 12). -/
theorem fetchCode_waits {s : State} {f : Format} {bs tail : List Byte} {i : Instr} (rest : List Slot)
    (hd : decode f bs = .ok (i, tail)) (hr : s.host.running ≠ none) (ha : autonomous i = false) :
    fetchCode f bs rest s = freeTurn s := by
  simp [fetchCode, hd, ha, Option.isSome_iff_ne_none.mpr hr]

/-- An instruction that its agent may take now runs if its buffers fit, and is ill-formed if they do not (log 13). -/
theorem fetchCode_taken {s : State} {f : Format} {bs tail : List Byte} {i : Instr} (rest : List Slot)
    (hd : decode f bs = .ok (i, tail)) (ha : s.host.running = none ∨ autonomous i = true) :
    fetchCode f bs rest s = if i.wellFormed then .instr i (s.withProgram rest) else .stop .illFormed := by
  rcases ha with ha | ha <;> simp [fetchCode, hd, ha]

/-- Bytes that are no instruction wait while a command runs and are refused otherwise (R72, R73; log 12, log 24). -/
theorem fetchCode_undecodable {s : State} {f : Format} {bs : List Byte} {e : DecodeError} (rest : List Slot)
    (hd : decode f bs = .error e) :
    fetchCode f bs rest s = if s.host.running.isSome then freeTurn s else .stop (.undecodable e) := by
  simp only [fetchCode, hd]

/-! The step on what is fetched. -/

theorem step_instr {s u : State} {i : Instr} (h : fetch s = .instr i u) : step s = exec i u := by
  rw [step, h]

theorem step_freeTurn {s : State} (h : fetch s = freeTurn s) : step s = takeTurn (Config.freeTurn s.draws) (s.drawn 1) := by
  rw [step, h, freeTurn]

theorem step_stop {s : State} {r : Refusal} (h : fetch s = .stop r) : step s = .refused r := by
  rw [step, h]

/-- Settles O5: the fetch takes a well-formed instruction off its slot. -/
theorem stepRunsTheDecodedInstruction : Obligations.StepRunsTheDecodedInstruction := by
  intro s f bs tail rest i hp hd hw ha
  exact step_instr (by rw [fetch_code hp, fetchCode_taken rest hd ha, if_pos hw])

/-- Settles O6: the cases of the fetch that run no instruction. -/
theorem stepGivesTurnsOrRefuses : Obligations.StepGivesTurnsOrRefuses := by
  intro s
  refine ⟨fun rest hp => step_hostTurn hp, fun hp => step_freeTurn (by rw [fetch, hp]), fun f bs rest hp => ⟨?_, ?_, ?_, ?_⟩⟩
  · intro i tail hd hr ha
    exact step_freeTurn (by rw [fetch_code hp, fetchCode_waits rest hd hr ha])
  · intro e hd hr
    exact step_freeTurn (by rw [fetch_code hp, fetchCode_undecodable rest hd, if_pos (Option.isSome_iff_ne_none.mpr hr)])
  · intro e hd hr
    exact step_stop (by rw [fetch_code hp, fetchCode_undecodable rest hd, hr]; rfl)
  · intro i tail hd hr hw
    exact step_stop (by rw [fetch_code hp, fetchCode_taken rest hd (.inl hr), hw]; rfl)

end Sys2Proof.Machine
end

section
/-! PROOFS. A turn is one agent's move (R5, R6): which one register access a host turn makes, and what it leaves besides. -/

namespace Sys2Proof.Machine

/-! One access of a command is one register access or none, and it is made in the state the turn began in. -/

/-- What one access leaves, `wr` being the word write it is, if it is one: free values used up, a byte popped, or that write. -/
inductive Accessed (wr : Option (Field × Word)) (s : State) : State → Prop where
  | draw (d : Nat) : Accessed wr s (s.drawn d)
  | pop (d : Nat) : Accessed wr s ((s.withHw s.hw.popRx.2).drawn d)
  | write (f : Field) (w : Word) (h : Hw) : wr = some (f, w) → regWrite f w s = .next (s.withHw h) → Accessed wr s (s.withHw h)

/-- Layer H is as before, or as a read of `RXD` or the write leaves it. -/
theorem Accessed.hw_cases {wr : Option (Field × Word)} {s t : State} (h : Accessed wr s t) :
    t.hw = s.hw ∨ t.hw = s.hw.popRx.2 ∨ ∃ f w, wr = some (f, w) ∧ regWrite f w s = .next (s.withHw t.hw) := by
  cases h with
  | draw d => exact .inl rfl
  | pop d => exact .inr (.inl rfl)
  | write f w h hc hw => exact .inr (.inr ⟨f, w, hc, hw⟩)

/-- An access changes nothing of Layer C, memory or the slots. -/
theorem Accessed.rest {wr : Option (Field × Word)} {s t : State} (h : Accessed wr s t) :
    t.host = s.host ∧ t.mem = s.mem ∧ t.program = s.program := by
  cases h <;> exact ⟨rfl, rfl, rfl⟩

/-- A read, and whatever the host makes of the word in the same step. -/
theorem accessed_of_regRead {α : Type} {f : Field} {k : Word × State → Out (α × State)} {s t : State} {q : α}
    (h : andThen (regRead f s) k = .next (q, t)) (hk : ∀ x, ∃ q, k x = .next (q, x.2)) (wr : Option (Field × Word)) :
    Accessed wr s t := by
  obtain ⟨⟨w, u⟩, hr, h⟩ := andThen_eq_next.mp h
  obtain ⟨q', hq⟩ := hk (w, u)
  have hu : u = t := by rw [hq] at h; cases h; rfl
  subst hu
  rw [regRead_eq_next hr]
  rcases afterRead_cases (s.params.wordOf f) s with ⟨d, e⟩ | ⟨-, e⟩
  · rw [e]; exact .draw d
  · rw [e]; exact .pop 2

/-- A write. -/
theorem accessed_of_regWrite {f : Field} {w : Word} {s t : State} (h : regWrite f w s = .next t) :
    Accessed (some (f, w)) s t := by
  obtain ⟨-, -, -, -, rfl⟩ := regWrite_eq_next.mp h
  exact .write f w _ rfl h

theorem modifyAccess_accessed {m : Modify} {s t : State} {q : ModifyStep} (h : modifyAccess m s = .next (q, t)) :
    Accessed (m.write s.params) s t := by
  obtain ⟨todo, rd⟩ := m
  match todo, rd with
  | [], _ => cases h; exact .draw 0
  | x :: rest, none => exact accessed_of_regRead h (fun _ => ⟨_, rfl⟩) _
  | x :: rest, some v =>
    obtain ⟨u, hr, h⟩ := andThen_eq_next.mp h
    have hu : u = t := by revert h; split <;> (intro h; cases h; rfl)
    exact hu ▸ accessed_of_regWrite hr

theorem overflowAccess_accessed {f g : Field} {eo eu : Err} {s t : State} {q : PollStep}
    (h : overflowAccess f g eo eu s = .next (q, t)) (wr : Option (Field × Word)) : Accessed wr s t :=
  accessed_of_regRead h (fun _ => by split_ifs <;> exact ⟨_, rfl⟩) wr

theorem underflowAccess_accessed {g : Field} {eu : Err} {s t : State} {q : PollStep}
    (h : underflowAccess g eu s = .next (q, t)) (wr : Option (Field × Word)) : Accessed wr s t :=
  accessed_of_regRead h (fun _ => by split_ifs <;> exact ⟨_, rfl⟩) wr

theorem sendAccess_accessed {w : Byte} {ph : PollPhase} {s t : State} {q : PollStep} (h : sendAccess w ph s = .next (q, t)) :
    Accessed (sendWrite s.params w ph) s t := by
  cases ph with
  | flags => exact overflowAccess_accessed h _
  | underflow => exact underflowAccess_accessed h _
  | count => exact accessed_of_regRead h (fun _ => by split_ifs <;> exact ⟨_, rfl⟩) _
  | data =>
    obtain ⟨u, hr, h⟩ := andThen_eq_next.mp h
    cases h
    exact accessed_of_regWrite hr

theorem recvAccess_accessed {ph : PollPhase} {s t : State} {q : PollStep} (h : recvAccess ph s = .next (q, t))
    (wr : Option (Field × Word)) : Accessed wr s t := by
  cases ph with
  | flags => exact overflowAccess_accessed h _
  | underflow => exact underflowAccess_accessed h _
  | count => exact accessed_of_regRead h (fun _ => by split_ifs <;> exact ⟨_, rfl⟩) _
  | data => exact accessed_of_regRead h (fun _ => ⟨_, rfl⟩) _

theorem byteAccess_accessed {w : Byte} {hf : Half} {ph : PollPhase} {s t : State} {q : ByteProgress}
    (h : byteAccess w hf ph s = .next (q, t)) : Accessed (byteWrite s.params w hf ph) s t := by
  cases hf with
  | send => obtain ⟨⟨r, u⟩, ha, h⟩ := andThen_eq_next.mp h; cases h; exact sendAccess_accessed ha
  | recv => obtain ⟨⟨r, u⟩, ha, h⟩ := andThen_eq_next.mp h; cases h; exact recvAccess_accessed ha _

/-! What the host does after the access, in the same turn. -/

/-- What the command `a` changes besides: the BusEngine that CONSTRUCT made, or the byte that the last access of a transfer's
byte-step stores. -/
inductive Kept (a : Activity) (s : State) : State → Prop where
  | nothing : Kept a s s
  | engine (e : Option BusEngine) : Kept a s (s.withEngine e)
  | store (x : Xfer) (i : Nat) (w b : Byte) : a = .xfer x i w .recv .data →
      Kept a s (s.withMem (s.mem.set (bufAddr x.sink i) b))

theorem Kept.rest {a : Activity} {s t : State} (h : Kept a s t) :
    t.hw = s.hw ∧ t.host.delay = s.host.delay ∧ t.program = s.program := by
  cases h <;> exact ⟨rfl, rfl, rfl⟩

/-- Every byte of memory but the stored one stays. -/
theorem Kept.mem {a : Activity} {s t : State} (h : Kept a s t) {n : Nat}
    (hn : ∀ x i w, a = .xfer x i w .recv .data → n ≠ bufAddr x.sink i) : t.mem.get n = s.mem.get n := by
  cases h with
  | nothing => rfl
  | engine e => rfl
  | store x i w b ha => exact Memory.get_set_other _ _ (hn x i w ha)

theorem constructNext_kept (a : Activity) (args : ConstructArgs) (st : ConstructStage) (s : State) :
    Kept a s (constructNext args st s).2 := by
  cases st with
  | mode => exact .engine _
  | role | period0 _ | period1 => exact .nothing

/-- A transfer stores where its access ended a byte-step, a data access of the receive half (R263). -/
theorem xferAccess_accessed {x : Xfer} {i : Nat} {w : Byte} {hf : Half} {ph : PollPhase} {s t : State} {q : Progress}
    (h : xferAccess x i w hf ph s = .next (q, t)) :
    ∃ u, Accessed (byteWrite s.params w hf ph) s u ∧ Kept (.xfer x i w hf ph) u t := by
  obtain ⟨⟨r, u⟩, ha, h⟩ := andThen_eq_next.mp h
  refine ⟨u, byteAccess_accessed ha, ?_⟩
  cases r with
  | again h' p' => cases h; exact .nothing
  | error e => cases h; exact .nothing
  | byte b =>
    obtain ⟨v, hv, h⟩ := andThen_eq_next.mp h
    obtain ⟨_, _, h⟩ := andThen_eq_next.mp h
    cases h
    rcases xferStore_eq_next hv with ⟨rfl, -⟩ | ⟨-, -, rfl⟩
    · exact .nothing
    · obtain ⟨rfl, rfl, -⟩ := byteAccess_byte ha
      exact .store x i w b rfl

/-- One access of a command is one register access, or none, and what the host keeps of it. -/
theorem access_accessed {a : Activity} {s t : State} {q : Progress} (h : access a s = .next (q, t)) :
    ∃ u, Accessed (a.write s.params) s u ∧ Kept a u t := by
  cases a with
  | construct args st m =>
    obtain ⟨⟨r, u⟩, ha, h⟩ := andThen_eq_next.mp h
    refine ⟨u, modifyAccess_accessed ha, ?_⟩
    cases r with
    | again m' => cases h; exact .nothing
    | done =>
      have ht : (constructNext args st u).2 = t := congrArg Prod.snd (Host.Outcome.next.inj h)
      exact ht ▸ constructNext_kept _ args st u
  | setBitOrder m =>
    obtain ⟨⟨r, u⟩, ha, h⟩ := andThen_eq_next.mp h; cases h; exact ⟨_, modifyAccess_accessed ha, .nothing⟩
  | clearFifos m =>
    obtain ⟨⟨r, u⟩, ha, h⟩ := andThen_eq_next.mp h; cases h; exact ⟨_, modifyAccess_accessed ha, .nothing⟩
  | trySend w ph =>
    rw [activity_write_trySend]
    obtain ⟨⟨r, u⟩, ha, h⟩ := andThen_eq_next.mp h; cases h; exact ⟨_, sendAccess_accessed ha, .nothing⟩
  | tryRecv ph =>
    obtain ⟨⟨r, u⟩, ha, h⟩ := andThen_eq_next.mp h; cases h; exact ⟨_, recvAccess_accessed ha _, .nothing⟩
  | byteStep w hf ph =>
    rw [activity_write_byteStep]
    obtain ⟨⟨r, u⟩, ha, h⟩ := andThen_eq_next.mp h; cases h; exact ⟨_, byteAccess_accessed ha, .nothing⟩
  | xfer x i w hf ph => rw [activity_write_xfer]; exact xferAccess_accessed h
  | flush => exact ⟨t, accessed_of_regRead h (fun _ => ⟨_, rfl⟩) _, .nothing⟩
  | now c | elapsedSince _ c | delay _ _ c =>
    simp only [access] at h
    split at h <;> (cases h; exact ⟨_, .draw 0, .nothing⟩)

/-- The next operation of a transaction leaves the host's CycleDelay. -/
theorem nextOperation_delay {ops : List Operation} {k : Nat} {s t : State} (h : nextOperation ops k s = .next t) :
    t.host.delay = s.host.delay := by
  induction ops generalizing k with
  | nil => cases h; rfl
  | cons op ops ih =>
    rw [nextOperation] at h
    split at h
    · cases h; rfl
    · exact ih h
    · cases h
    · cases h

/-- What a command has come to leaves the host's CycleDelay. -/
theorem settle_delay {p : Progress} {txn : Option Txn} {s t : State} (h : settle p txn s = .next t) :
    t.host.delay = s.host.delay := by
  cases p with
  | more a => cases h; rfl
  | hostEnds => cases h; rfl
  | done r =>
    simp only [settle, commandDone] at h
    split at h
    · cases h; rfl
    · cases h; rfl
    · exact nextOperation_delay h

/-- Everything a host turn with a command running leaves: one access of the command, and what the host keeps of it. -/
theorem advance_accessed {s t : State} {r : Running} (hr : s.host.running = some r) (h : advance s = .next t) :
    ∃ u v, Accessed (r.act.write s.params) s u ∧ Kept r.act u v ∧ t.hw = v.hw ∧ t.mem = v.mem ∧ t.program = v.program ∧
      t.host.delay = v.host.delay := by
  obtain ⟨-, q, v, ha, hs⟩ := advance_eq_next hr h
  obtain ⟨u, hu, hk⟩ := access_accessed ha
  have hdelay := settle_delay hs
  obtain ⟨g, rfl⟩ := settle_eq_next hs
  exact ⟨u, v, hu, hk, rfl, rfl, rfl, hdelay⟩

/-- Settles O7: a host turn is one access of the command and what the host keeps of it; the engine's turn and the counter's are the
instructions of that name. -/
theorem turnsAreOneAgentsMove : Obligations.TurnsAreOneAgentsMove := by
  intro s
  refine ⟨advance_none, fun r hr => ⟨advance_stale hr, fun t ht => ?_⟩, rfl, fun he => ?_, fun b snap he => ?_⟩
  · have ht : advance s = .next t := ht
    have hm := advance_moved ht
    obtain ⟨hcycle, heng⟩ := hm.hw.cycle_eng
    obtain ⟨u, v, hu, hk, hhw, hmem, hprog, hdelay⟩ := advance_accessed hr ht
    obtain ⟨uhost, umem, uprog⟩ := hu.rest
    obtain ⟨khw, kdelay, kprog⟩ := hk.rest
    refine ⟨?_, hcycle, heng, hm.frames, hprog.trans (kprog.trans uprog), hm.params, ?_, fun n hn => ?_⟩
    · rw [hhw, khw]; exact hu.hw_cases
    · rw [hdelay, kdelay, uhost]
    · rw [hmem, hk.mem hn, umem]
  · simp only [takeTurn, State.engineTurn, he]; rfl
  · simp only [takeTurn, State.engineTurn, he]; rfl

end Sys2Proof.Machine
end

section
/-! PROOFS. What every step keeps: the counter and the frame history (R51, R149, R200), the invariants of R57, and the sticky flags
(R174); and the state that a reset leaves (R58, R360). -/

namespace Sys2Proof.Machine

/-! The engine's part of a step, case by case. -/

/-- A received byte is pushed where there is room, and lost with `RXOVF` set where there is none (R173). -/
theorem Hw.pushRx_cases (d : Nat) (b : Byte) (h : Hw) :
    h.rxf.length < d ∧ h.pushRx d b = { h with rxf := h.rxf ++ [b] } ∨ h.pushRx d b = { h with rxovf := true } := by
  rcases Nat.lt_or_ge h.rxf.length d with hr | hr
  · exact .inl ⟨hr, Hw.pushRx_room b hr⟩
  · exact .inr (Hw.pushRx_full b hr)

/-- Everything the engine can do to Layer H and the history: nothing, begin a frame with the oldest byte, or end one with its
record (R171, R173). -/
theorem EngineMoved.hw_frames_cases {s t : State} (h : EngineMoved s t) :
    t.hw = s.hw ∧ t.frames = s.frames ∨
    (∃ b rest, s.hw.txf = b :: rest ∧ t.hw = { s.hw with txf := rest, eng := .shifting b s.hw.snapshot } ∧
      t.frames = s.frames) ∨
    ∃ r record, t.hw = { s.hw.pushRx s.params.fifoDepth r with eng := .idle } ∧ t.frames = s.frames ++ [record] := by
  rcases h.step with ⟨hw, hf⟩ | ⟨r, hw, hf⟩
  · rcases s.hw.frameStart_cases with e | ⟨b, rest, -, -, ht, e⟩
    · exact .inl ⟨hw.trans e, hf⟩
    · exact .inr (.inl ⟨b, rest, ht, hw.trans e, hf⟩)
  · cases he : s.hw.eng with
    | idle => rw [State.frameComplete_idle r he] at hw hf; exact .inl ⟨hw, hf⟩
    | shifting b snap => rw [State.frameComplete_shifting r he] at hw hf; exact .inr (.inr ⟨r, _, hw, hf⟩)

/-- The engine leaves the counter (R149). -/
theorem EngineMoved.cycle {s t : State} (h : EngineMoved s t) : t.hw.cycle = s.hw.cycle := by
  rcases h.hw_frames_cases with ⟨hw, -⟩ | ⟨b, rest, -, hw, -⟩ | ⟨r, record, hw, -⟩
  · rw [hw]
  · rw [hw]
  · rcases Hw.pushRx_cases s.params.fifoDepth r s.hw with ⟨-, e⟩ | e <;> rw [hw, e]

/-- The engine adds one record to the history, or none (R51, R173). -/
theorem EngineMoved.frames {s t : State} (h : EngineMoved s t) : ∃ l, t.frames = s.frames ++ l ∧ l.length ≤ 1 := by
  rcases h.hw_frames_cases with ⟨-, hf⟩ | ⟨b, rest, -, -, hf⟩ | ⟨r, record, -, hf⟩
  · exact ⟨[], by simpa using hf, by simp⟩
  · exact ⟨[], by simpa using hf, by simp⟩
  · exact ⟨[record], hf, by simp⟩

/-- The engine keeps both FIFOs within their depth (R57). -/
theorem EngineMoved.lengths {s t : State} (h : EngineMoved s t)
    (hl : s.hw.txf.length ≤ s.params.fifoDepth ∧ s.hw.rxf.length ≤ s.params.fifoDepth) :
    t.hw.txf.length ≤ s.params.fifoDepth ∧ t.hw.rxf.length ≤ s.params.fifoDepth := by
  obtain ⟨htx, hrx⟩ := hl
  rcases h.hw_frames_cases with ⟨hw, -⟩ | ⟨b, rest, ht, hw, -⟩ | ⟨r, record, hw, -⟩
  · rw [hw]; exact ⟨htx, hrx⟩
  · rw [hw]; exact ⟨Nat.le_of_succ_le (by rwa [ht] at htx), hrx⟩
  · rcases Hw.pushRx_cases s.params.fifoDepth r s.hw with ⟨hroom, e⟩ | e
    · rw [hw, e]; exact ⟨htx, by simpa using hroom⟩
    · rw [hw, e]; exact ⟨htx, hrx⟩

/-- The engine leaves every flag but `RXOVF`, which it can only set (R173, R174). -/
theorem EngineMoved.flags {s t : State} (h : EngineMoved s t) :
    t.hw.txovf = s.hw.txovf ∧ t.hw.txudf = s.hw.txudf ∧ (s.hw.rxovf = true → t.hw.rxovf = true) ∧
      t.hw.rxudf = s.hw.rxudf := by
  rcases h.hw_frames_cases with ⟨hw, -⟩ | ⟨b, rest, -, hw, -⟩ | ⟨r, record, hw, -⟩
  · rw [hw]; exact ⟨rfl, rfl, id, rfl⟩
  · rw [hw]; exact ⟨rfl, rfl, id, rfl⟩
  · rcases Hw.pushRx_cases s.params.fifoDepth r s.hw with ⟨-, e⟩ | e
    · rw [hw, e]; exact ⟨rfl, rfl, id, rfl⟩
    · rw [hw, e]; exact ⟨rfl, rfl, fun _ => rfl, rfl⟩

/-! The counter and the history. -/

/-- Settles O31: of the kinds of step only a tick moves the counter, and only the engine extends the history. -/
theorem counterMovesOnlyByTicksAndHistoryGrows : Obligations.CounterMovesOnlyByTicksAndHistoryGrows := by
  intro s t h hn
  cases step_kind h with
  | host hm ht _ =>
    rw [ht]
    exact ⟨hm.hw.cycle_eng.1, [], by simpa using hm.frames, by simp⟩
  | engine hm ht _ =>
    rw [ht]
    exact ⟨hm.cycle, hm.frames⟩
  | tick hw hf _ _ _ ht _ =>
    rw [ht, hw]
    exact ⟨rfl, [], by simpa using hf, by simp⟩
  | reset p _ hr => rw [hr] at hn; cases hn

/-! The invariants of R57. -/

/-- The invariants, taken apart. -/
theorem State.wf_iff {s : State} :
    s.wf = true ↔ Params.ok s.params = true ∧
      (s.hw.txf.length ≤ s.params.fifoDepth ∧ s.hw.rxf.length ≤ s.params.fifoDepth) ∧ Memory.wf s.mem = true := by
  simp only [State.wf, Bool.and_eq_true, decide_eq_true_eq, and_assoc]

/-- The `RESET` record of usable parameters has FIFOs that fit (R7). -/
theorem Params.ok_resetFifos {p : Params} (h : Params.ok p = true) :
    p.reset.txf.length ≤ p.fifoDepth ∧ p.reset.rxf.length ≤ p.fifoDepth := by
  simp only [Params.ok, Bool.and_eq_true, decide_eq_true_eq] at h
  obtain ⟨⟨-, htx⟩, hrx⟩ := h
  exact ⟨htx, hrx⟩

/-- A host access writes memory inside the address space, if at all, and so keeps its canonical form. -/
theorem HostMoved.mem_wf {wr : Option (Field × Word)} {s t : State} (h : HostMoved wr s t) (hm : Memory.wf s.mem = true) :
    Memory.wf t.mem = true := by
  rcases h.mem with e | ⟨a, v, ha, e⟩
  · rw [e]; exact hm
  · rw [e]; exact Memory.wf_set v hm ha

/-- Settles O57: each kind of step keeps the depths of both FIFOs and the form of the memory, a reset by the bounds that
`Params.ok` sets on its record. -/
theorem stepsKeepTheStateWellFormed : Obligations.StepsKeepTheStateWellFormed := by
  intro s t hwf h
  obtain ⟨hok, hl, hm⟩ := State.wf_iff.mp hwf
  cases step_kind h with
  | host k _ _ => exact ⟨State.wf_iff.mpr (k.params ▸ ⟨hok, k.hw.lengths hl, k.mem_wf hm⟩), k.params⟩
  | engine k _ _ => exact ⟨State.wf_iff.mpr (k.params ▸ k.mem ▸ ⟨hok, k.lengths hl, hm⟩), k.params⟩
  | tick hw _ _ me pa _ _ => exact ⟨State.wf_iff.mpr (by rw [hw, me, pa]; exact ⟨hok, hl, hm⟩), pa⟩
  | reset p e _ => subst e; exact ⟨State.wf_iff.mpr ⟨hok, Params.ok_resetFifos hok, hm⟩, rfl⟩

/-! The flags. -/

/-- Settles O58: a host access clears a flag only by its side's trigger, the engine sets `RXOVF` alone, and neither sets `TXUDF`. -/
theorem flagsAreSticky : Obligations.FlagsAreSticky := by
  intro s t h hn
  cases step_kind h with
  | host hm _ _ => exact ⟨hm.hw.txudf, hm.hw.txFlags, hm.hw.rxFlags⟩
  | engine hm _ _ =>
    obtain ⟨htxovf, htxudf, hrxovf, hrxudf⟩ := hm.flags
    rw [htxovf, htxudf, hrxudf]
    exact ⟨id, fun _ => ⟨id, id⟩, fun _ => ⟨hrxovf, id⟩⟩
  | tick hw _ _ _ _ _ _ =>
    rw [hw]
    exact ⟨id, fun _ => ⟨id, id⟩, fun _ => ⟨id, id⟩⟩
  | reset p _ hr => rw [hr] at hn; cases hn

/-! Reset. -/

/-- The invariants of R57 hold right after reset. -/
theorem State.wf_reset : State.reset.wf = true :=
  State.wf_iff.mpr ⟨by decide, ⟨Nat.zero_le _, Nat.zero_le _⟩, Memory.wf_reset⟩

/-- Settles O8: the reset state gives each field its value of R58. -/
theorem resetStateIsCleanDisabledAndWellFormed : Obligations.ResetStateIsCleanDisabledAndWellFormed :=
  ⟨rfl, rfl, rfl, rfl, rfl, rfl, rfl, rfl, rfl, rfl, rfl, rfl, rfl, rfl, rfl, rfl, rfl, State.wf_reset⟩

/-- A reset value that the platform gives. -/
theorem State.resetValue_some {n : Nat} (s : State) {o : Option (BitVec n)} {v : BitVec n} (h : o = some v) (k : Nat) :
    s.resetValue o k = v := by
  rw [h]; rfl

/-- A reset value that no one gives is a free value (R10, R360). -/
theorem State.resetValue_none {n : Nat} (s : State) {o : Option (BitVec n)} (h : o = none) (k : Nat) :
    s.resetValue o k = (Config.freeValue (s.draws + k)).setWidth n := by
  rw [h]; rfl

/-- The unmodelled bits of one word after a reset event. -/
theorem State.resetU_getElem (s : State) (k : Fin 64) :
    s.resetU[k] = s.resetValue s.params.reset.u[k] (4 + k.val) :=
  Vector.getElem_ofFn k.isLt

/-- The pieces of Layer H that a reset event takes from the `RESET` record as it stands (R360). -/
theorem State.resetHw_record (s : State) :
    s.resetHw.role = s.params.reset.role ∧ s.resetHw.mEn = s.params.reset.mEn ∧ s.resetHw.sEn = s.params.reset.sEn ∧
    s.resetHw.cpol = s.params.reset.cpol ∧ s.resetHw.cpha = s.params.reset.cpha ∧ s.resetHw.cont = s.params.reset.cont ∧
    s.resetHw.fsize = s.params.reset.fsize ∧ s.resetHw.bitord = s.params.reset.bitord ∧
    s.resetHw.txovf = s.params.reset.txovf ∧ s.resetHw.txudf = s.params.reset.txudf ∧
    s.resetHw.rxovf = s.params.reset.rxovf ∧ s.resetHw.rxudf = s.params.reset.rxudf ∧
    s.resetHw.txf = s.params.reset.txf ∧ s.resetHw.rxf = s.params.reset.rxf ∧ s.resetHw.eng = s.params.reset.eng :=
  ⟨rfl, rfl, rfl, rfl, rfl, rfl, rfl, rfl, rfl, rfl, rfl, rfl, rfl, rfl, rfl⟩

/-- Settles O9: the reset event takes the record's value of each piece of Layer H, and a free value of its own where the record has
none. -/
theorem resetEventTakesTheResetRecord : Obligations.ResetEventTakesTheResetRecord := by
  intro s
  refine ⟨s.resetEvent, rfl, fun hd => ?_, s.resetHw_record,
    fun v hv => s.resetValue_some hv 0, fun hv => s.resetValue_none hv 0,
    fun v hv => s.resetValue_some hv 1, fun hv => s.resetValue_none hv 1,
    fun v hv => s.resetValue_some hv 2, fun hv => s.resetValue_none hv 2,
    fun v hv => s.resetValue_some hv 3, fun hv => (s.resetValue_none hv 3).trans (BitVec.setWidth_eq _),
    fun k => ⟨fun v hv => ?_, fun hv => ?_⟩, rfl, rfl, rfl, rfl, rfl⟩
  · have hrecord := s.resetHw_record
    rw [hd] at hrecord
    exact hrecord
  · exact (s.resetU_getElem k).trans (s.resetValue_some hv _)
  · exact (s.resetU_getElem k).trans (s.resetValue_none hv _)

end Sys2Proof.Machine
end

section
/-! PROOFS. The host's address space (R74, log 13): while the buffers in use lie in it no step faults, and they stay there. -/

namespace Sys2Proof.Machine

/-! Outcomes that do not fault. -/

/-- The outcome is no fault, and if it goes on it does so with a value that has the property. -/
structure FaultFree {α : Type} (P : α → Prop) (o : Out α) : Prop where
  noFault : ∀ e, o ≠ .fault e
  keeps   : ∀ a, o = .next a → P a

theorem FaultFree.next {α : Type} {P : α → Prop} {a : α} (h : P a) : FaultFree P (.next a) :=
  ⟨nofun, fun _ e => Host.Outcome.next.inj e ▸ h⟩

theorem FaultFree.refused {α : Type} {P : α → Prop} (r : Refusal) : FaultFree P (.refused r) :=
  ⟨nofun, nofun⟩

theorem FaultFree.andThen {α β : Type} {P : α → Prop} {Q : β → Prop} {o : Out α} {f : α → Out β} (h : FaultFree P o)
    (hf : ∀ a, P a → FaultFree Q (f a)) : FaultFree Q (andThen o f) := by
  cases o with
  | next a => exact hf a (h.keeps a rfl)
  | fault e => exact absurd rfl (h.noFault e)
  | refused r => exact .refused r

theorem asHost_faultFree {P : State → Prop} {s : State} {k : State → Out State} (h : FaultFree P (k s)) :
    FaultFree P (asHost s k) := by
  unfold asHost
  split_ifs
  · exact .refused _
  · exact .refused _
  · exact h

theorem asInstance_faultFree {P : State → Prop} {s : State} {k : State → Out State} (h : FaultFree P (k s)) :
    FaultFree P (asInstance s k) := by
  refine asHost_faultFree ?_
  split_ifs
  · exact h
  · exact .refused _

/-! Buffers in use. -/

/-- The buffers of a running command and of the operations after it lie in the address space. -/
def Running.Fits (r : Running) : Prop :=
  r.act.fits = true ∧ ∀ t, r.txn = some t → ∀ op ∈ t.rest, op.wellFormed = true

theorem State.fits_iff {s : State} : s.fits = true ↔ ∀ r, s.host.running = some r → r.Fits := by
  unfold State.fits
  cases s.host.running with
  | none => simp
  | some r => cases ht : r.txn <;> simp [Running.Fits, ht]

theorem State.fits_of_idle {s : State} (h : s.host.running = none) : s.fits = true :=
  State.fits_iff.mpr fun r hr => by rw [h] at hr; cases hr

theorem State.fits_withRunning {s : State} {r : Running} (h : r.Fits) : (s.withRunning (some r)).fits = true :=
  State.fits_iff.mpr fun _ hr => Option.some.inj hr ▸ h

/-- The buffers in use are those of the running command. -/
theorem State.fits_of_running_eq {s t : State} (h : s.fits = true) (hr : t.host.running = s.host.running) : t.fits = true :=
  State.fits_iff.mpr fun r ht => State.fits_iff.mp h r (hr ▸ ht)

/-- A reset marks the running command stale and leaves its buffers (R362). -/
theorem State.fits_resetEvent {s : State} (h : s.fits = true) : s.resetEvent.fits = true := by
  refine State.fits_iff.mpr fun r hr => ?_
  obtain ⟨q, hq, rfl⟩ := Option.map_eq_some_iff.mp hr
  exact State.fits_iff.mp h q hq

/-- The buffers of what a command has come to lie in the address space. -/
def Progress.fits : Progress → Bool
  | .more a => a.fits
  | .done _ | .hostEnds => true

/-! Register accesses: none faults, and none changes which command runs. -/

theorem regRead_faultFree (f : Field) (s : State) :
    FaultFree (fun x => x.2.host.running = s.host.running) (regRead f s) := by
  refine ⟨regRead_ne_fault f s, fun x hx => ?_⟩
  rw [regRead_eq_next hx]
  rcases afterRead_cases (s.params.wordOf f) s with ⟨d, e⟩ | ⟨-, e⟩ <;> rw [e] <;> rfl

theorem regWrite_faultFree (f : Field) (w : Word) (s : State) :
    FaultFree (fun t => t.host.running = s.host.running) (regWrite f w s) := by
  rw [regWrite_eq, writeWord]
  split_ifs
  · exact .refused _
  · exact .refused _
  · exact .refused _
  · exact .refused _
  · exact .next rfl

theorem readRow_faultFree {s : State} (h : s.fits = true) (f : Field) : FaultFree (fun t => t.fits = true) (readRow f s) :=
  asHost_faultFree ((regRead_faultFree f s).andThen fun _ hx => .next (State.fits_of_running_eq h hx))

theorem writeRow_faultFree {s : State} (h : s.fits = true) (f : Field) (w : Word) :
    FaultFree (fun t => t.fits = true) (writeRow f w s) :=
  asHost_faultFree ((regWrite_faultFree f w s).andThen fun _ hx => .next (State.fits_of_running_eq h hx))

/-! The accesses of the commands that name no buffer. -/

theorem modifyAccess_faultFree (m : Modify) (s : State) : FaultFree (fun _ => True) (modifyAccess m s) := by
  obtain ⟨todo, rd⟩ := m
  match todo, rd with
  | [], _ => exact .next trivial
  | x :: _, none => exact (regRead_faultFree x.1 s).andThen fun _ _ => .next trivial
  | x :: rest, some v =>
    refine (regWrite_faultFree x.1 _ s).andThen fun _ _ => ?_
    split <;> exact .next trivial

theorem overflowAccess_faultFree (f g : Field) (eo eu : Err) (s : State) :
    FaultFree (fun _ => True) (overflowAccess f g eo eu s) :=
  (regRead_faultFree f s).andThen fun _ _ => by split_ifs <;> exact .next trivial

theorem underflowAccess_faultFree (g : Field) (eu : Err) (s : State) :
    FaultFree (fun _ => True) (underflowAccess g eu s) :=
  (regRead_faultFree g s).andThen fun _ _ => by split_ifs <;> exact .next trivial

theorem sendAccess_faultFree (w : Byte) (p : PollPhase) (s : State) : FaultFree (fun _ => True) (sendAccess w p s) := by
  cases p with
  | flags => exact overflowAccess_faultFree _ _ _ _ s
  | underflow => exact underflowAccess_faultFree _ _ s
  | count => exact (regRead_faultFree .txcnt s).andThen fun _ _ => by split_ifs <;> exact .next trivial
  | data => exact (regWrite_faultFree .txd _ s).andThen fun _ _ => .next trivial

theorem recvAccess_faultFree (p : PollPhase) (s : State) : FaultFree (fun _ => True) (recvAccess p s) := by
  cases p with
  | flags => exact overflowAccess_faultFree _ _ _ _ s
  | underflow => exact underflowAccess_faultFree _ _ s
  | count => exact (regRead_faultFree .rxcnt s).andThen fun _ _ => by split_ifs <;> exact .next trivial
  | data => exact (regRead_faultFree .rxd s).andThen fun _ _ => .next trivial

theorem byteAccess_faultFree (w : Byte) (h : Half) (p : PollPhase) (s : State) :
    FaultFree (fun _ => True) (byteAccess w h p s) := by
  cases h with
  | send => exact (sendAccess_faultFree w p s).andThen fun _ _ => .next trivial
  | recv => exact (recvAccess_faultFree p s).andThen fun _ _ => .next trivial

theorem constructNext_fits (a : ConstructArgs) (st : ConstructStage) (s : State) : (constructNext a st s).1.fits = true := by
  cases st with
  | role =>
    simp only [constructNext, afterRole]
    split
    · rfl
    · split <;> rfl
  | period0 _ | period1 | mode => rfl

theorem pollProgress_fits {mk : PollPhase → Activity} (h : ∀ p, (mk p).fits = true) (q : PollStep) :
    (pollProgress mk q).fits = true := by
  cases q with
  | again p => exact h p
  | result r => rfl

theorem modifyProgress_fits {mk : Modify → Activity} (h : ∀ m, (mk m).fits = true) (q : ModifyStep) :
    (modifyProgress mk q).fits = true := by
  cases q with
  | again m => exact h m
  | done => rfl

theorem byteProgress_fits (w : Byte) (q : ByteProgress) : (byteProgress w q).fits = true := by
  cases q <;> rfl

theorem delayProgress_fits (n : DWord) (start : Option DWord) (v : DWord) : (delayProgress n start v).fits = true := by
  cases start with
  | none => rfl
  | some st => simp only [delayProgress]; split_ifs <;> rfl

/-! Transfers: each byte read or stored is a byte of a buffer that fits. -/

theorem beginXfer_faultFree {x : Xfer} (h : (x.sink.fits && x.source.fits) = true) (i : Nat) (s : State) :
    FaultFree (fun o => (orOk o).fits = true) (beginXfer x i s) := by
  rcases Nat.lt_or_ge i (xferSteps x) with hi | hi
  · rw [beginXfer_next (Bool.and_eq_true_iff.mp h).2 hi]
    exact .next h
  · rw [beginXfer_none hi]
    exact .next rfl

theorem xferStore_faultFree {x : Xfer} (h : x.sink.fits = true) (i : Nat) (b : Byte) (s : State) :
    FaultFree (fun _ => True) (xferStore x i b s) := by
  rw [xferStore_next h]
  exact .next trivial

theorem xferAccess_faultFree {x : Xfer} (h : (x.sink.fits && x.source.fits) = true) (i : Nat) (w : Byte) (hf : Half)
    (p : PollPhase) (s : State) : FaultFree (fun y => y.1.fits = true) (xferAccess x i w hf p s) := by
  refine (byteAccess_faultFree w hf p s).andThen fun ⟨q, u⟩ _ => ?_
  cases q with
  | again h' p' => exact .next h
  | error e => exact .next rfl
  | byte b =>
    exact (xferStore_faultFree (Bool.and_eq_true_iff.mp h).1 i b u).andThen fun t _ =>
      (beginXfer_faultFree h (i + 1) t).andThen fun _ ho => .next ho

/-- One access of a command whose buffers fit does not fault, and the command's buffers still fit. -/
theorem access_faultFree {a : Activity} (h : a.fits = true) (s : State) :
    FaultFree (fun x => x.1.fits = true) (access a s) := by
  cases a with
  | construct args st m =>
    refine (modifyAccess_faultFree m s).andThen fun ⟨q, u⟩ _ => ?_
    cases q with
    | again m' => exact .next rfl
    | done => exact .next (constructNext_fits args st u)
  | setBitOrder m | clearFifos m =>
    exact (modifyAccess_faultFree m s).andThen fun _ _ => .next (modifyProgress_fits (fun _ => rfl) _)
  | trySend w p => exact (sendAccess_faultFree w p s).andThen fun _ _ => .next (pollProgress_fits (fun _ => rfl) _)
  | tryRecv p => exact (recvAccess_faultFree p s).andThen fun _ _ => .next (pollProgress_fits (fun _ => rfl) _)
  | byteStep w hf p => exact (byteAccess_faultFree w hf p s).andThen fun _ _ => .next (byteProgress_fits w _)
  | xfer x i w hf p => exact xferAccess_faultFree h i w hf p s
  | flush => exact (regRead_faultFree .busy s).andThen fun _ _ => .next (by dsimp only; split_ifs <;> rfl)
  | now c | elapsedSince _ c => simp only [access]; split <;> exact .next rfl
  | delay n start c =>
    simp only [access]
    split
    · exact .next rfl
    · exact .next (delayProgress_fits n start _)

/-! What follows an access. -/

theorem beginOperation_faultFree {op : Operation} (h : op.wellFormed = true) (s : State) :
    FaultFree (fun o => (orOk o).fits = true) (beginOperation op s) := by
  cases op with
  | read b => exact beginXfer_faultFree (x := ⟨b, emptyBuf⟩) (Bool.and_eq_true_iff.mpr ⟨h, emptyBuf_fits⟩) 0 s
  | write b => exact beginXfer_faultFree (x := ⟨emptyBuf, b⟩) (Bool.and_eq_true_iff.mpr ⟨emptyBuf_fits, h⟩) 0 s
  | transfer r w =>
    simp only [beginOperation, beginTransfer]
    split_ifs
    · exact .refused _
    · exact beginXfer_faultFree (x := ⟨r, w⟩) h 0 s
  | transferInPlace b => exact beginXfer_faultFree (x := ⟨b, b⟩) (Bool.and_eq_true_iff.mpr ⟨h, h⟩) 0 s
  | delay d => exact .next rfl

theorem nextOperation_faultFree {ops : List Operation} (h : ∀ op ∈ ops, op.wellFormed = true) (k : Nat) (s : State) :
    FaultFree (fun t => t.fits = true) (nextOperation ops k s) := by
  induction ops generalizing k with
  | nil => exact .next (State.fits_of_idle rfl)
  | cons op rest ih =>
    obtain ⟨hop, hrest⟩ := List.forall_mem_cons.mp h
    have hb := beginOperation_faultFree hop s
    rw [nextOperation]
    split
    · rename_i a ha
      exact .next (State.fits_withRunning ⟨hb.keeps _ ha, fun _ ht => Option.some.inj ht ▸ hrest⟩)
    · exact ih hrest (k + 1)
    · rename_i e he
      exact absurd he (hb.noFault e)
    · exact .refused _

theorem settle_faultFree {p : Progress} {txn : Option Txn} (hp : p.fits = true)
    (ht : ∀ t, txn = some t → ∀ op ∈ t.rest, op.wellFormed = true) (s : State) :
    FaultFree (fun t => t.fits = true) (settle p txn s) := by
  cases p with
  | more a => exact .next (State.fits_withRunning ⟨hp, ht⟩)
  | hostEnds => exact .next (State.fits_of_idle rfl)
  | done r =>
    simp only [settle, commandDone]
    split
    · exact .next (State.fits_of_idle rfl)
    · exact .next (State.fits_of_idle rfl)
    · exact nextOperation_faultFree (ht _ rfl) _ s

/-- A host turn. -/
theorem advance_faultFree {s : State} (h : s.fits = true) : FaultFree (fun t => t.fits = true) (advance s) := by
  cases hr : s.host.running with
  | none => rw [advance_none hr]; exact .next h
  | some r =>
    obtain ⟨hact, htxn⟩ := State.fits_iff.mp h r hr
    cases hs : r.stale with
    | true => rw [advance_stale hr hs]; exact .refused _
    | false =>
      rw [advance_some hr hs]
      exact (access_faultFree hact s).andThen fun x hx => settle_faultFree hx htxn x.2

/-! What a step begins. -/

theorem start_faultFree {a : Activity} (h : a.fits = true) (s : State) :
    FaultFree (fun t => t.fits = true) (start a s) :=
  advance_faultFree (State.fits_withRunning ⟨h, fun _ ht => by cases ht⟩)

/-- A transfer command begins as the operation of the same name does (R264 to R267, R302 to R305). -/
theorem startXfer_faultFree {op : Operation} (h : op.wellFormed = true) (s : State) :
    FaultFree (fun t => t.fits = true) (startXfer (beginOperation op s) s) :=
  (beginOperation_faultFree h s).andThen fun o ho => by
    cases o with
    | some a => exact start_faultFree ho s
    | none => exact .next (State.fits_of_idle rfl)

theorem startOperations_faultFree {ops : List Operation} (h : ∀ op ∈ ops, op.wellFormed = true) (s : State) :
    FaultFree (fun t => t.fits = true) (startOperations ops s) :=
  (nextOperation_faultFree h 0 s).andThen fun _ ht => advance_faultFree ht

theorem delayFor_faultFree (u : TimeUnit) (d : Word) (s : State) :
    FaultFree (fun t => t.fits = true) (delayFor u d s) := by
  refine asHost_faultFree ?_
  split
  · exact start_faultFree rfl s
  · exact .refused _

/-- An instruction whose buffers fit. -/
theorem exec_faultFree {i : Instr} {s : State} (hw : i.wellFormed = true) (h : s.fits = true) :
    FaultFree (fun t => t.fits = true) (exec i s) := by
  have kept {t : State} (ht : t.host.running = s.host.running) : t.fits = true := State.fits_of_running_eq h ht
  cases i with
  | rdConfig | rdBusy | rdPeriod0 | rdPeriod1 | rdFifo0 | rdFifo1 | rdRxData => exact readRow_faultFree h _
  | wrConfig w | wrBusy w | wrPeriod0 w | wrPeriod1 w | wrFifo0 w | wrFifo1 w | wrTxData w => exact writeRow_faultFree h _ w
  | rdTxData | wrRxData _ | wrCycle _ | wrCycleHi _ => exact .refused _
  | rdCycle =>
    rw [exec, execRdCycle]
    refine asHost_faultFree ?_
    split <;> exact .next (kept rfl)
  | rdCycleHi =>
    rw [exec, execRdCycleHi]
    refine asHost_faultFree ?_
    split
    · exact .refused _
    · exact .next (kept rfl)
  | construct a =>
    rw [exec, execConstruct]
    refine asHost_faultFree ?_
    split_ifs
    · exact start_faultFree rfl _
    · exact .refused _
  | release =>
    rw [exec, execRelease]
    refine asHost_faultFree ?_
    split
    · exact .next (kept rfl)
    · exact .refused _
  | clockDivider src f =>
    rw [exec, execClockDivider]
    refine asHost_faultFree ?_
    split <;> exact .next (kept rfl)
  | setBitOrder _ | clearFifos | flush | trySend _ | tryRecv | byteStep _ =>
    exact asInstance_faultFree (start_faultFree rfl s)
  | now | elapsedSince _ | delayCycles _ => exact asHost_faultFree (start_faultFree rfl s)
  | delayNs d | delayUs d | delayMs d => exact delayFor_faultFree _ d s
  | delayNew hz =>
    rw [exec, execDelayNew]
    exact asHost_faultFree (.next (kept rfl))
  | read b => exact asInstance_faultFree (startXfer_faultFree (op := .read b) hw s)
  | write b => exact asInstance_faultFree (startXfer_faultFree (op := .write b) hw s)
  | transfer r w => exact asInstance_faultFree (startXfer_faultFree (op := .transfer r w) hw s)
  | transferInPlace b => exact asInstance_faultFree (startXfer_faultFree (op := .transferInPlace b) hw s)
  | runTransaction ops => exact asInstance_faultFree (startOperations_faultFree (List.all_eq_true.mp hw) s)
  | opRead _ | opWrite _ | opTransfer _ _ | opTransferInPlace _ | opDelay _ =>
    refine asInstance_faultFree (startOperations_faultFree ?_ s)
    exact List.forall_mem_singleton.mpr hw
  | frameStart | tick => exact .next (kept rfl)
  | frameComplete r => exact .next (kept (congrArg HostSide.running (EngineMoved.complete r rfl).host))
  | reset => exact .next (State.fits_resetEvent h)

/-- One agent's turn. -/
theorem takeTurn_faultFree {s : State} (h : s.fits = true) (t : Turn) : FaultFree (fun t => t.fits = true) (takeTurn t s) := by
  cases t with
  | host => exact advance_faultFree h
  | counter => exact .next (State.fits_of_running_eq h rfl)
  | engine =>
    have hm : EngineMoved s s.engineTurn := by
      rcases s.engineTurn_cases with ⟨-, e⟩ | ⟨r, -, e⟩
      · exact .start e
      · exact .complete r e
    exact .next (State.fits_of_running_eq h (congrArg HostSide.running hm.host))

/-- Settles O59: the fetch lets only instructions whose buffers fit through, and every access of a command stays inside them. -/
theorem buffersThatFitNeverFault : Obligations.BuffersThatFitNeverFault := by
  intro s h
  suffices hs : FaultFree (fun t => t.fits = true) (step s) from ⟨hs.noFault, hs.keeps⟩
  cases hf : fetch s with
  | instr i u =>
    obtain ⟨⟨p, rfl⟩, hw, -⟩ := fetch_instr hf
    rw [step_instr hf]
    exact exec_faultFree hw (State.fits_of_running_eq h rfl)
  | turn t u =>
    obtain ⟨-, -, hhost, -, -⟩ := fetch_turn hf
    rw [step, hf]
    exact takeTurn_faultFree (State.fits_of_running_eq h (congrArg HostSide.running hhost)) t
  | stop r => rw [step_stop hf]; exact .refused r

end Sys2Proof.Machine
end

section
/-! PROOFS. Descriptors outside the opcode table (R72, R73, R100). -/

namespace Sys2Proof

/-- Settles O3: the table's descriptors are the decoder's arms, so an unlisted one reaches the last arm, which names its fault. -/
theorem unlistedDescriptorsAreRefusedByName : Obligations.UnlistedDescriptorsAreRefusedByName := by
  intro d tail h
  simp only [decode, decodeA, takeHalf_halfBytes, decodedThen_ok]
  generalize d.toNat = n at h ⊢
  split
  case h_21 =>
    by_cases hw : 1024 ≤ n
    · simp [hw]
    · by_cases ha : n % 4 = 0 <;> simp [hw, ha]
  all_goals exact absurd (by decide) h

end Sys2Proof
end

section
/-! PROOFS. What the host's misuse is refused as (R88, R148, R238, R242, R362, R373). -/

namespace Sys2Proof.Machine

/-! Who may not issue. -/

theorem asHost_ended {s : State} (h : s.host.ended = true) (k : State → Out State) :
    asHost s k = .refused .hostProgramEnded := by
  simp [asHost, h]

theorem asHost_running {s : State} (he : s.host.ended = false) (hr : s.host.running ≠ none) (k : State → Out State) :
    asHost s k = .refused .reentrantCall := by
  simp [asHost, he, Option.isSome_iff_ne_none.mpr hr]

theorem asInstance_none {s : State} (h : hostFree s = true) (he : s.host.engine = none) (k : State → Out State) :
    asInstance s k = .refused .noInstance := by
  rw [asInstance, asHost_free h, he]
  rfl

/-- Whatever the host issues is issued as the host does, but for the accesses that no state admits (R143, R145, R149). -/
theorem exec_eq_asHost {i : Instr} (ha : autonomous i = false) (ht : i ≠ .rdTxData)
    (hw : ∀ w, i ≠ .wrRxData w ∧ i ≠ .wrCycle w ∧ i ≠ .wrCycleHi w) (s : State) : ∃ k, exec i s = asHost s k := by
  cases i with
  | frameStart | frameComplete _ | tick | reset => cases ha
  | rdTxData => exact absurd rfl ht
  | wrRxData w => exact absurd rfl (hw w).1
  | wrCycle w => exact absurd rfl (hw w).2.1
  | wrCycleHi w => exact absurd rfl (hw w).2.2
  | rdConfig | rdBusy | rdPeriod0 | rdPeriod1 | rdFifo0 | rdFifo1 | rdRxData => exact ⟨_, (exec_rowRead rfl s).1⟩
  | wrConfig _ | wrBusy _ | wrPeriod0 _ | wrPeriod1 _ | wrFifo0 _ | wrFifo1 _ | wrTxData _ =>
    exact ⟨_, (exec_rowWrite rfl s).1⟩
  | rdCycle => rw [exec, execRdCycle]; exact ⟨_, rfl⟩
  | rdCycleHi => rw [exec, execRdCycleHi]; exact ⟨_, rfl⟩
  | construct a => rw [exec, execConstruct]; exact ⟨_, rfl⟩
  | release => rw [exec, execRelease]; exact ⟨_, rfl⟩
  | clockDivider src f => rw [exec, execClockDivider]; exact ⟨_, rfl⟩
  | delayNew hz => rw [exec, execDelayNew]; exact ⟨_, rfl⟩
  | now | elapsedSince _ | delayCycles _ => exact ⟨_, rfl⟩
  | delayNs _ | delayUs _ | delayMs _ => exact ⟨_, (rfl : delayFor _ _ s = _)⟩
  | _ => exact ⟨_, (rfl : asInstance s _ = _)⟩

/-! CONSTRUCT where a BusEngine exists (R242, R362). -/

/-- CONSTRUCT's first access, a read of the word that holds `ROLE`, answers, and the command then runs on (R234). -/
theorem start_construct_next {s : State} (h : ParamsOk s.params) (a : ConstructArgs) :
    ∃ t, start (.construct a .role (modifyOf roleFields)) s = .next t ∧ t.host.engine = s.host.engine ∧
      t.host.running ≠ none := by
  obtain ⟨d, hm⟩ := modifyAccess_read
    (s := s.withRunning (some { act := .construct a .role (modifyOf roleFields), txn := none })) h
    (roleFields_modifiable s.params)
  change modifyAccess (modifyOf roleFields) _ = _ at hm
  refine ⟨_, by rw [start_eq, construct_makesModify, hm]; rfl, ?_, ?_⟩
  · rfl
  · exact Option.some_ne_none _

/-- Where no live BusEngine owns the peripheral CONSTRUCT begins, and there is none until it ends (log 14). -/
theorem exec_construct_begins {s : State} (hf : hostFree s = true) (hp : peripheralFree s = true) (h : ParamsOk s.params)
    (a : ConstructArgs) : ∃ t, exec (.construct a) s = .next t ∧ t.host.engine = none ∧ t.host.running ≠ none := by
  obtain ⟨t, ht, he, hr⟩ := start_construct_next (s := s.withEngine none) h a
  exact ⟨t, by rw [exec, execConstruct, asHost_free hf, if_pos hp, ht], he, hr⟩

/-! Overlapping buffers (R88). -/

theorem overlap_of_inBuf {r w : Buf} {x : Nat} (hr : inBuf r r.len.toNat x) (hw : inBuf w w.len.toNat x) :
    overlap r w = true := by
  unfold inBuf at hr hw
  simp only [overlap, decide_eq_true_eq]
  omega

theorem beginTransfer_overlap {r w : Buf} (h : overlap r w = true) (s : State) :
    beginTransfer r w s = .refused .overlappingBuffers := by
  rw [beginTransfer, if_pos h]

/-- A transaction that reaches a transfer of overlapping buffers is refused there (log 26). -/
theorem nextOperation_overlap {r w : Buf} (h : overlap r w = true) (ops : List Operation) (k : Nat) (s : State) :
    nextOperation (.transfer r w :: ops) k s = .refused .overlappingBuffers := by
  rw [nextOperation, beginOperation, beginTransfer_overlap h]

theorem startOperations_overlap {r w : Buf} (h : overlap r w = true) (ops : List Operation) (s : State) :
    startOperations (.transfer r w :: ops) s = .refused .overlappingBuffers := by
  rw [startOperations, nextOperation_overlap h, andThen_refused]

/-- A delay of a transaction that has run out hands over to the next operation (R203, R301). -/
theorem advance_delay_over {s : State} {n st : DWord} {t : Txn} (hc : s.params.counterRead = .atomic64)
    (hr : s.host.running = some { act := .delay n (some st) .first, txn := some t }) (hn : n.toNat < (s.hw.cycle - st).toNat) :
    advance s = nextOperation t.rest (t.k + 1) s := by
  have hlt : n < s.hw.cycle - st := hn
  rw [advance_some hr rfl]
  simp [access, counterAccess, hc, delayProgress, hlt]

/-! A duration delay where the host holds no CycleDelay (R209; log 16). -/

theorem delayFor_noCycleDelay {s : State} (hf : hostFree s = true) (hd : s.host.delay = none) (he : s.host.engine = none)
    (u : TimeUnit) (d : Word) : delayFor u d s = .refused .noCycleDelay := by
  rw [delayFor, asHost_free hf, delayHz, hd, he]
  rfl

/-- Settles O42: every access and command asks first who may issue it; a transaction refuses an operation where it reaches it. -/
theorem hostMisuseIsRefused : Obligations.HostMisuseIsRefused := by
  intro s i
  refine ⟨fun hf he hi => ?noInstance, fun a e hf he => ⟨fun hs => ?liveInstance, fun hs hp => ?staleInstance⟩,
    fun ha ht hw => ?issuer, fun r w hx => ?overlapping, fun hf hc => ?highHalf, fun hf hd he hi => ?noDelay⟩
  case noInstance =>
    have refusal := asInstance_none hf he
    rcases hi with rfl | ⟨_, rfl⟩ | rfl | rfl | ⟨_, rfl⟩ | ⟨_, rfl⟩ | ⟨_, _, rfl⟩ | ⟨_, rfl⟩ | rfl | ⟨_, rfl⟩ | ⟨_, rfl⟩ |
      ⟨_, rfl⟩ | ⟨_, rfl⟩ | ⟨_, rfl⟩ | ⟨_, _, rfl⟩ | ⟨_, rfl⟩ | ⟨_, rfl⟩
    case inr.inr.inr.inl => rw [exec, execRelease, asHost_free hf, he]
    all_goals exact refusal _
  case liveInstance => simp [exec, execConstruct, asHost_free hf, peripheralFree, he, hs]
  case staleInstance => exact exec_construct_begins hf (by simp [peripheralFree, he, hs]) (paramsOk hp) a
  case issuer =>
    obtain ⟨k, hk⟩ := exec_eq_asHost ha ht hw s
    exact ⟨fun he => hk.trans (asHost_ended he k), fun he hr => hk.trans (asHost_running he hr k)⟩
  case overlapping =>
    obtain ⟨x, hr, hw⟩ := hx
    have ho := overlap_of_inBuf hr hw
    refine ⟨fun hready => ⟨?_, ?_, fun ops => ?_⟩, fun n st ops k hc hrun hn => ?_⟩
    · rw [exec, execTransfer, asInstance_ready hready, beginTransfer_overlap ho]; rfl
    · rw [exec, execOpTransfer, asInstance_ready hready, startOperations_overlap ho]
    · rw [exec, execRunTransaction, asInstance_ready hready, startOperations_overlap ho]
    · rw [takeTurn, advance_delay_over hc hrun hn, nextOperation_overlap ho]
  case highHalf => simp only [exec, execRdCycleHi, asHost_free hf, hc]
  case noDelay =>
    have refusal := delayFor_noCycleDelay hf hd he
    obtain ⟨d, rfl | rfl | rfl⟩ := hi <;> exact refusal _ d

end Sys2Proof.Machine
end

section
/-! PROOFS. The decoder against the encoder and the opcode table (R100, R110, R111): decoding undoes encoding, and only a listed
selector is read, as the instruction of its row. -/

namespace Sys2Proof

/-! Decoding undoes encoding. -/

/-- An operation list needs one unit of fuel more than it has operations: one for each tag, one for the end (R124). -/
theorem takeOperations_operationsBytes {fuel : Nat} {ops : List Operation} (h : ops.length < fuel) (t : List Byte) :
    takeOperations fuel (operationsBytes ops ++ t) = .ok (ops, t) := by
  induction ops generalizing fuel with
  | nil =>
    obtain ⟨fuel, rfl⟩ := Nat.exists_eq_add_one.mpr h
    rfl
  | cons op ops ih =>
    obtain ⟨fuel, rfl⟩ := Nat.exists_eq_add_one.mpr (Nat.zero_lt_of_lt h)
    obtain ⟨tag, body, hbytes, htag, hop⟩ := takeOperation_operationBytes op (operationsBytes ops ++ t)
    rw [operationsBytes, List.append_assoc, hbytes, takeOperations, takeByte_cons, decodedThen_ok, if_neg htag, hop,
      decodedThen_ok, ih (Nat.lt_of_succ_lt_succ h), decodedThen_ok]

theorem length_lt_operationsBytes (ops : List Operation) : ops.length < (operationsBytes ops).length := by
  induction ops with
  | nil => exact Nat.one_pos
  | cons op ops ih =>
    have hop : 0 < (operationBytes op).length := by cases op <;> exact Nat.succ_pos _
    simp only [operationsBytes, List.length_append, List.length_cons]
    omega

/-- The decoder's own fuel, the number of bytes it may read, is enough for the list those bytes begin with. -/
theorem takeOperations_length_operationsBytes (ops : List Operation) (t : List Byte) :
    takeOperations (operationsBytes ops ++ t).length (operationsBytes ops ++ t) = .ok (ops, t) := by
  have h := length_lt_operationsBytes ops
  exact takeOperations_operationsBytes (by rw [List.length_append]; omega) t

/-- A row of the decoder with one operand, where the operand decodes. -/
theorem decodedThen_row {α : Type} {mk : α → Instr} {p : Decoded α} {a : α} {t : List Byte} (h : p = .ok (a, t)) :
    decodedThen p (fun a bs => .ok (mk a, bs)) = .ok (mk a, t) := by
  rw [h, decodedThen_ok]

theorem takeBufs_append (r w : Buf) (t : List Byte) : takeBufs (bufBytes r ++ bufBytes w ++ t) = .ok ((r, w), t) := by
  rw [List.append_assoc, takeBufs_bufBytes]

/-- Settles O1: the selector leads to the instruction's own row of the decoder, and the operand there is read back. -/
theorem decodeUndoesEncode : Obligations.DecodeUndoesEncode := by
  intro i tail
  cases i with
  | rdConfig | rdBusy | rdPeriod0 | rdPeriod1 | rdFifo0 | rdFifo1 | rdTxData | rdRxData | rdCycle | rdCycleHi
  | clearFifos | flush | release | now | tryRecv | frameStart | tick | reset => rfl
  | trySend _ | byteStep _ | frameComplete _ => exact decodedThen_row (takeByte_cons _ tail)
  | wrConfig w | wrBusy w | wrPeriod0 w | wrPeriod1 w | wrFifo0 w | wrFifo1 w | wrTxData w | wrRxData w
  | wrCycle w | wrCycleHi w =>
    simp [encode, selectorBytes, Instr.format, Instr.code, Instr.operandBytes, decode, decodeA]
  | delayNs w | delayUs w | delayMs w | delayNew w => exact decodedThen_row (takeWord_wordBytes w tail)
  | elapsedSince n | delayCycles n => exact decodedThen_row (takeDWord_dwordBytes n tail)
  | read b | write b | transferInPlace b | opRead b | opWrite b | opTransferInPlace b =>
    exact decodedThen_row (takeBuf_bufBytes b tail)
  | transfer r w => exact decodedThen_row (mk := fun p => .transfer p.1 p.2) (takeBufs_append r w tail)
  | opTransfer r w => exact decodedThen_row (mk := fun p => .opTransfer p.1 p.2) (takeBufs_append r w tail)
  | opDelay d => exact decodedThen_row (takeDuration_durationBytes d tail)
  | setBitOrder o => exact decodedThen_row (takeBitOrder_bitOrderByte o tail)
  | construct a => exact decodedThen_row (takeConstructArgs_constructBytes a tail)
  | clockDivider src f =>
    calc decode .K (encode (.clockDivider src f) ++ tail)
      _ = decodedThen (takeWord (wordBytes src ++ (wordBytes f ++ tail))) fun src bs =>
            decodedThen (takeWord bs) fun f bs => .ok (.clockDivider src f, bs) := rfl
      _ = .ok (.clockDivider src f, tail) := by simp
  | runTransaction ops => exact decodedThen_row (takeOperations_length_operationsBytes ops tail)

/-! Only listed selectors are read. -/

/-- Whatever instruction `p` reads is of the row of format `f` with the code `n`. -/
def ReadsRow (f : Format) (n : Nat) (p : Decoded Instr) : Prop :=
  ∀ i rest, p = .ok (i, rest) → i.format = f ∧ i.code = n

theorem readsRow_ok {f : Format} {n : Nat} {i : Instr} (hf : i.format = f) (hn : i.code = n) (bs : List Byte) :
    ReadsRow f n (.ok (i, bs)) := by
  rintro _ _ ⟨⟩
  exact ⟨hf, hn⟩

theorem readsRow_error (f : Format) (n : Nat) (e : DecodeError) : ReadsRow f n (.error e) :=
  fun _ _ h => nomatch h

theorem readsRow_decodedThen {α : Type} {f : Format} {n : Nat} {p : Decoded α} {g : α → List Byte → Decoded Instr}
    (h : ∀ a bs, ReadsRow f n (g a bs)) : ReadsRow f n (decodedThen p g) := by
  intro i rest hi
  obtain ⟨a, mid, -, hg⟩ := decodedThen_eq_ok.mp hi
  exact h a mid i rest hg

/-- The row the decoder goes to is the one of the descriptor (R110). -/
theorem decodeA_readsRow (d : BitVec 16) (t : List Byte) : ReadsRow .A d.toNat (decode .A (halfBytes d ++ t)) := by
  simp only [decode, decodeA, takeHalf_halfBytes, decodedThen_ok]
  generalize d.toNat = n
  split
  case h_21 => split_ifs <;> exact readsRow_error _ _ _
  case h_1 | h_3 | h_5 | h_7 | h_9 | h_11 | h_13 | h_15 | h_17 | h_18 => exact readsRow_ok rfl rfl _
  all_goals exact readsRow_decodedThen fun _ => readsRow_ok rfl rfl

/-- The row the decoder goes to is the one of the tag (R111). -/
theorem decodeK_readsRow (tag : Byte) (t : List Byte) : ReadsRow .K tag.toNat (decode .K (tag :: t)) := by
  simp only [decode, decodeK, takeByte_cons, decodedThen_ok]
  generalize tag.toNat = n
  split
  case h_31 => exact readsRow_error _ _ _
  case h_3 | h_8 | h_10 | h_11 | h_19 | h_27 | h_29 | h_30 => exact readsRow_ok rfl rfl _
  case h_21 => exact readsRow_decodedThen fun _ _ => readsRow_decodedThen fun _ => readsRow_ok rfl rfl
  all_goals exact readsRow_decodedThen fun _ => readsRow_ok rfl rfl

/-- Two bytes are those of the 16-bit number they put together. -/
theorem halfBytes_append (b0 b1 : Byte) : halfBytes (b1 ++ b0) = [b0, b1] := by
  rw [halfBytes, BitVec.extractLsb'_append_eq_right, BitVec.extractLsb'_append_eq_left]

theorem eq_halfBytes_append_of_takeHalf {bs t : List Byte} {d : BitVec 16} (h : takeHalf bs = .ok (d, t)) :
    bs = halfBytes d ++ t := by
  match bs, h with
  | b0 :: b1 :: _, rfl => rw [halfBytes_append]; rfl

/-- What decodes has the format it was read in, and its bytes begin with its selector (R110, R111). -/
theorem decode_selector {f : Format} {bs rest : List Byte} {i : Instr} (h : decode f bs = .ok (i, rest)) :
    i.format = f ∧ selectorBytes f i.code <+: bs := by
  cases f with
  | A =>
    obtain ⟨d, t, hd, -⟩ := decodedThen_eq_ok.mp h
    obtain rfl := eq_halfBytes_append_of_takeHalf hd
    obtain ⟨hf, hc⟩ := decodeA_readsRow d t i rest h
    exact ⟨hf, t, by simp [selectorBytes, hc]⟩
  | K =>
    cases bs with
    | nil => cases h
    | cons tag t =>
      obtain ⟨hf, hc⟩ := decodeK_readsRow tag t i rest h
      exact ⟨hf, t, by simp [selectorBytes, hc]⟩

theorem code_mem_listedCodes (i : Instr) : i.code ∈ Machine.listedCodes i.format := by
  cases i <;> simp [Instr.format, Instr.code, Machine.listedCodes]

/-- Settles O2: an arm of the decoder reads the instruction of its own row, so bytes that begin with no listed selector are none. -/
theorem decodeReadsListedSelectors : Obligations.DecodeReadsListedSelectors := by
  refine ⟨fun f bs rest i h => decode_selector h, code_mem_listedCodes, fun f bs hunlisted => ?_⟩
  cases hd : decode f bs with
  | error e => exact ⟨e, rfl⟩
  | ok r =>
    obtain ⟨i, rest⟩ := r
    obtain ⟨rfl, hsel⟩ := decode_selector hd
    exact absurd hsel (hunlisted i.code (code_mem_listedCodes i))

/-! Words of the table. -/

/-- Settles O4: the decoder, run on each word. -/
theorem specWordsDecode : Obligations.SpecWordsDecode := by
  unfold Obligations.SpecWordsDecode
  decide

end Sys2Proof
end

section
/-! PROOFS. Register accesses under any `LAYOUT`: what each leaves as it was (R130 to R148), and which are refused (R139, R143, R145,
R149). -/

namespace Sys2Proof.Machine

/-! Refusals. -/

/-- Settles O23: the arms of these four rows are refusals, whatever the state. -/
theorem forbiddenAccessesAreRefused : Obligations.ForbiddenAccessesAreRefused :=
  fun _ _ => ⟨rfl, rfl, rfl, rfl⟩

/-- A field of CONFIG, PERIOD0 or PERIOD1 stands in the SPI space and is no data port. -/
theorem guarded_spi {f : Field} (h : Field.guarded f = true) : fieldSpace f = .spi ∧ f ≠ .rxd := by
  cases f with
  | mEn | sEn | fsize | cpol | cpha | bitord | cont | role | ph0 | ph1 | idle => exact ⟨rfl, nofun⟩
  | _ => cases h

/-- While a frame is in flight no word is written that holds a field of CONFIG, PERIOD0 or PERIOD1 (R139). -/
theorem regWrite_midFrame {s : State} (h : ParamsOk s.params) (hb : s.hw.busy = true) {f : Field} (hg : Field.guarded f = true)
    (w : Word) : regWrite f w s = .refused .configWriteInFlight := by
  obtain ⟨hs, hr⟩ := guarded_spi hg
  have hempty := h.wordOf_ne_nil hs
  have hport : (s.params.wordOf f).contains .rxd = false := by rw [Params.contains_wordOf]; exact h.not_rxd hs hr
  have hguard : (s.params.wordOf f).any Field.guarded = true :=
    List.any_eq_true.mpr ⟨f, Params.mem_wordOf.mpr (h.together_self hs), hg⟩
  unfold Params.wordOf at hempty hport hguard
  simp only [regWrite_eq, writeWord, hempty, hport, hguard, hb, Bool.and_self, Bool.false_eq_true, if_false, if_true]

theorem writeRow_midFrame {s : State} (h : ParamsOk s.params) (hf : hostFree s = true) (hb : s.hw.busy = true) {f : Field}
    (hg : Field.guarded f = true) (w : Word) : writeRow f w s = .refused .configWriteInFlight := by
  rw [writeRow, asHost_free hf, regWrite_midFrame h hb hg, andThen_refused]

/-- The write of a `RegModify` mid-frame (R139, R151). -/
theorem access_modify_midFrame {mk : Modify → Activity} {fin : State → Progress × State} (hk : MakesModify mk fin) {s : State}
    (h : ParamsOk s.params) (hb : s.hw.busy = true) {f : Field} (hg : Field.guarded f = true) (v : Word)
    (left : List (Field × Word)) (t : Word) :
    access (mk { todo := (f, v) :: left, read := some t }) s = .refused .configWriteInFlight := by
  rw [hk]
  simp only [modifyAccess, regWrite_midFrame h hb hg, andThen_refused]

/-- Settles O14: the rows and the two commands all write through a word that holds a guarded field. -/
theorem configurationWritesAreRefusedMidFrame : Obligations.ConfigurationWritesAreRefusedMidFrame := by
  intro s w b snap hok he
  have h := paramsOk hok
  have hb : s.hw.busy = true := Hw.busy_iff.mpr ⟨b, snap, he⟩
  refine ⟨fun hf => ⟨writeRow_midFrame h hf hb rfl w, writeRow_midFrame h hf hb rfl w, writeRow_midFrame h hf hb rfl w⟩, ?_⟩
  rintro r m f v left t hr hs hact rfl hg
  have haccess : access r.act s = .refused .configWriteInFlight := by
    rcases hact with ⟨a, st, e⟩ | e
    · rw [e]; exact access_modify_midFrame (construct_makesModify a st) h hb hg v left t
    · rw [e]; exact access_modify_midFrame setBitOrder_makesModify h hb hg v left t
  rw [takeTurn, advance_some hr hs, haccess, andThen_refused]

/-! The frame of format A. -/

/-- Everything a row of format A that answers can do: it uses up free values, pops the receive FIFO where its word holds `RXD`, or
writes its word. -/
inductive RowDone (i : Instr) (s : State) : State → Prop where
  | draw (d : Nat) (r : Ret) : rowWrite i = none → RowDone i s ((s.drawn d).withRet r)
  | pop (f : Field) (r : Ret) : rowWrite i = none → rowRead i = some f → s.params.together f .rxd = true →
      RowDone i s (((s.withHw s.hw.popRx.2).drawn 2).withRet r)
  | write (f : Field) (w : Word) : rowWrite i = some (f, w) →
      RowDone i s ((s.withHw ((s.hw.writeFields s.params w (s.params.wordOf f)).storeU s.params (s.params.offset f) w
        (s.params.wordOf f))).withRet .unit)

theorem rowDone_of_read {i : Instr} {f : Field} (hi : rowRead i = some f) (hw : rowWrite i = none) {s t : State}
    (h : exec i s = .next t) : RowDone i s t := by
  rw [(exec_rowRead hi s).1] at h
  obtain ⟨-, h⟩ := asHost_eq_next h
  obtain ⟨⟨w, u⟩, hread, h⟩ := andThen_eq_next.mp h
  cases h
  rw [regRead_eq_next hread]
  rcases afterRead_cases (s.params.wordOf f) s with ⟨d, e⟩ | ⟨hx, e⟩
  · rw [e]; exact .draw d _ hw
  · rw [e]; exact .pop f _ hw hi (Params.contains_wordOf ▸ hx)

theorem rowDone_of_write {i : Instr} {f : Field} {w : Word} (hi : rowWrite i = some (f, w)) {s t : State}
    (h : exec i s = .next t) : RowDone i s t := by
  rw [(exec_rowWrite hi s).1] at h
  obtain ⟨-, h⟩ := asHost_eq_next h
  obtain ⟨u, hwrite, h⟩ := andThen_eq_next.mp h
  obtain ⟨-, -, -, -, rfl⟩ := regWrite_eq_next.mp hwrite
  cases h
  exact .write f w hi

/-- A row of format A that answers has done one of these. -/
theorem exec_rowDone {i : Instr} (hi : i.format = .A) {s t : State} (h : exec i s = .next t) : RowDone i s t := by
  cases i with
  | rdConfig | rdBusy | rdPeriod0 | rdPeriod1 | rdFifo0 | rdFifo1 | rdRxData => exact rowDone_of_read rfl rfl h
  | wrConfig _ | wrBusy _ | wrPeriod0 _ | wrPeriod1 _ | wrFifo0 _ | wrFifo1 _ | wrTxData _ => exact rowDone_of_write rfl h
  | rdTxData | wrRxData _ | wrCycle _ | wrCycleHi _ => cases h
  | rdCycle | rdCycleHi =>
    simp only [exec, execRdCycle, execRdCycleHi] at h
    obtain ⟨-, h⟩ := asHost_eq_next h
    split at h <;> cases h <;> exact .draw 0 _ rfl
  | _ => cases hi

/-- A row changes of Layer H what one access can touch, and of the rest only the result and the free values used up. -/
theorem RowDone.touch {i : Instr} {s t : State} (h : RowDone i s t) :
    ∃ x d r, t = ((s.withHw x).drawn d).withRet r ∧ x.cycle = s.hw.cycle ∧ x.eng = s.hw.eng := by
  cases h with
  | draw d r _ => exact ⟨_, d, r, rfl, rfl, rfl⟩
  | pop f r _ _ _ => exact ⟨_, 2, r, rfl, (Touch.pop (p := s.params) (wr := none)).cycle_eng⟩
  | write f w _ =>
    refine ⟨_, 0, .unit, rfl, Hw.storeU_prop (q := fun x => x.cycle = s.hw.cycle ∧ x.eng = s.hw.eng) ?_ fun _ hq => hq⟩
    exact ⟨writeFields_cycle _ _, writeFields_eng _ _⟩

/-- A read row changes Layer H only by a pop, where its word holds `RXD` (R144). -/
theorem RowDone.hw_read {i : Instr} {s t : State} (h : RowDone i s t) (hw : rowWrite i = none) :
    t.hw = s.hw ∨ t.hw = s.hw.popRx.2 ∧ ∃ f, rowRead i = some f ∧ s.params.together f .rxd = true := by
  cases h with
  | draw d r _ => exact .inl rfl
  | pop f r _ hr hx => exact .inr ⟨rfl, f, hr, hx⟩
  | write f w hi => rw [hi] at hw; cases hw

/-- A guarded field that is no field of the word keeps what it reads. -/
theorem value_writeFields_other {g : Field} (hg : Field.guarded g = true) {p : Params} {fs : List Field} (hm : g ∉ fs) (s : State)
    (w : Word) : (s.withHw (s.hw.writeFields p w fs)).value g = s.value g :=
  writeFields_same (fun h => (s.withHw h).value g)
    (fun h v _ hk => value_writeField_other hg (ne_of_mem_of_not_mem hk hm) s p.fifoDepth h v) w s.hw

/-- A write stores the unmodelled bits of its own word alone (R56). -/
theorem Hw.storeU_at_other {p : Params} {o o' : BitVec 8} (h : wordIndex o' ≠ wordIndex o) (w : Word) (fs : List Field) (x : Hw) :
    (x.storeU p o w fs).u.at o' = x.u.at o' := by
  unfold Hw.storeU
  split
  · exact UBits.at_put_other _ (Ne.symm h)
  · rfl

theorem not_mem_wordOf {p : Params} {f g : Field} (h : p.together f g = false) : g ∉ p.wordOf f := by
  rw [Params.mem_wordOf, h]; decide

/-- A trigger that is no field of the word clears nothing. -/
theorem ite_trigger_absent {α : Type} {p : Params} {f g : Field} {w : Word} (h : p.together f g = false) (x y : α) :
    (if g ∈ p.wordOf f ∧ (p.get g w).getLsbD 0 = true then x else y) = y :=
  if_neg fun e => not_mem_wordOf h e.1

/-- What a write of a word leaves of Layer H: the pieces that no field of the word stores, clears or pushes, and the unmodelled bits
of the other words. -/
structure WriteFrame (p : Params) (f : Field) (s t : State) : Prop where
  guarded : ∀ g, Field.guarded g = true → p.together f g = false → t.value g = s.value g
  tx      : p.together f .txclr = false → t.hw.txudf = s.hw.txudf ∧
    (p.together f .txd = false → t.hw.txf = s.hw.txf ∧ t.hw.txovf = s.hw.txovf)
  rx      : p.together f .rxclr = false → t.hw.rxf = s.hw.rxf ∧ t.hw.rxovf = s.hw.rxovf ∧ t.hw.rxudf = s.hw.rxudf
  u       : ∀ o, wordIndex o ≠ wordIndex (p.offset f) → t.hw.u.at o = s.hw.u.at o

theorem RowDone.writeFrame {i : Instr} {s t : State} (h : RowDone i s t) {f : Field} {w : Word} (hi : rowWrite i = some (f, w)) :
    WriteFrame s.params f s t := by
  cases h with
  | draw d r hn => rw [hn] at hi; cases hi
  | pop g r hn _ _ => rw [hn] at hi; cases hi
  | write f' w' hi' =>
    obtain ⟨rfl, rfl⟩ : f' = f ∧ w' = w := by rw [hi'] at hi; cases hi; exact ⟨rfl, rfl⟩
    have hu := fun o' ho => Hw.storeU_at_other (p := s.params) (o := s.params.offset f') (o' := o') ho w' (s.params.wordOf f')
      (s.hw.writeFields s.params w' (s.params.wordOf f'))
    obtain ⟨u, e, -⟩ := Hw.storeU_eq (p := s.params) (fs := s.params.wordOf f') w'
      (s.hw.writeFields s.params w' (s.params.wordOf f')) (s.params.offset f')
    rw [e] at hu ⊢
    refine ⟨fun g hg hfg => ?_, fun hc => ⟨?_, fun hd => ⟨?_, ?_⟩⟩, fun hc => ⟨?_, ?_, ?_⟩, fun o ho => ?_⟩
    · exact (value_withU hg s _ u).trans (value_writeFields_other hg (not_mem_wordOf hfg) s w')
    · exact (writeFields_txudf w' s.hw).trans (ite_trigger_absent hc _ _)
    · exact (writeFields_txf w' s.hw (not_mem_wordOf hd)).trans (ite_trigger_absent hc _ _)
    · exact (writeFields_txovf w' s.hw (not_mem_wordOf hd)).trans (ite_trigger_absent hc _ _)
    · exact (writeFields_rxf w' s.hw).trans (ite_trigger_absent hc _ _)
    · exact (writeFields_rxovf w' s.hw).trans (ite_trigger_absent hc _ _)
    · exact (writeFields_rxudf w' s.hw).trans (ite_trigger_absent hc _ _)
    · exact (hu o ho).trans (congrArg (UBits.at · o) (writeFields_u w' s.hw))

/-- Settles O25: a row of format A draws, pops or writes one word. -/
theorem registerAccessesFrame : Obligations.RegisterAccessesFrame := by
  intro i s t hi ht
  have h := exec_rowDone hi ht
  have hread : rowWrite i = none → (∀ f, rowRead i = some f → s.params.together f .rxd = false) → t.hw = s.hw := by
    intro hw hx
    rcases h.hw_read hw with e | ⟨-, f, hf, hfx⟩
    · exact e
    · rw [hx f hf] at hfx; cases hfx
  have hpop : rowWrite i = none → t.hw = s.hw ∨ t.hw = s.hw.popRx.2 := fun hw => (h.hw_read hw).imp_right And.left
  have hwrite : ∀ f w, rowWrite i = some (f, w) → WriteFrame s.params f s t := fun f w hf => h.writeFrame hf
  obtain ⟨x, d, r, rfl, hcycle, heng⟩ := h.touch
  refine ⟨fun _ => rfl, rfl, rfl, rfl, hcycle, heng, rfl, rfl, rfl, rfl, hread, hpop, fun f w hf => ?_⟩
  obtain ⟨hguarded, htx, hrx, hu⟩ := hwrite f w hf
  exact ⟨hguarded, htx, hrx, hu⟩

end Sys2Proof.Machine
end

section
/-! PROOFS. The register rows bit by bit under the default `LAYOUT` (R101 to R109, R130 to R148). -/

namespace Sys2Proof.Machine

/-! Where the fields of the default `LAYOUT` stand. -/

theorem paramsOk_default : ParamsOk Params.default :=
  paramsOk (by decide)

/-- The word of the field has the fields of the default `LAYOUT`, each at its place and with its width. -/
structure DefaultWord (p : Params) (f : Field) : Prop where
  layout : p.layout = .default
  widths : ∀ g, Params.default.together f g = true → Field.width p.cntBits g = Field.width Params.default.cntBits g

/-- `CNT_BITS` gives only the counts their width. -/
theorem defaultWord_of_no_count {p : Params} (hl : p.layout = .default) {f : Field}
    (ht : Params.default.together f .txcnt = false) (hr : Params.default.together f .rxcnt = false) : DefaultWord p f := by
  refine ⟨hl, fun g hg => ?_⟩
  cases g with
  | txcnt => rw [ht] at hg; cases hg
  | rxcnt => rw [hr] at hg; cases hg
  | _ => rfl

theorem defaultWord_of_ok {p : Params} (hl : p.layout = .default) (ho : Params.ok p = true) (f : Field) : DefaultWord p f :=
  ⟨hl, fun g _ => by rw [cntBits_default hl ho]; rfl⟩

variable {p : Params} {f : Field}

theorem DefaultWord.offset (h : DefaultWord p f) : p.offset f = (Layout.default.place f).offset := by
  rw [Params.offset, h.layout]

theorem DefaultWord.mem_wordOf (h : DefaultWord p f) {g : Field} : g ∈ p.wordOf f ↔ Params.default.together f g = true := by
  rw [Params.mem_wordOf, Params.together, Params.offset, h.layout]
  rfl

theorem DefaultWord.covers_iff (h : DefaultWord p f) {g : Field} (hg : Params.default.together f g = true) {i : Nat} :
    covers p g i ↔ (Layout.default.place g).lo ≤ i ∧ i ≤ (Layout.default.place g).hi := by
  have hw : (Layout.default.place g).hi + 1 = (Layout.default.place g).lo + Field.width Params.default.cntBits g :=
    paramsOk_default.width g
  rw [covers, h.layout, h.widths g hg]
  omega

/-- No bit of a word belongs to two fields. -/
theorem DefaultWord.covers_unique (h : DefaultWord p f) {g k : Field} (hg : Params.default.together f g = true)
    (hk : Params.default.together f k = true) {i : Nat} (hgi : covers p g i) (hki : covers p k i) : k = g := by
  rw [h.covers_iff hg] at hgi
  rw [h.covers_iff hk] at hki
  by_contra hne
  have hapart : placesApart (Layout.default.place k) (Layout.default.place g) = true := paramsOk_default.apart k g hne
  have hspace : (Layout.default.place k).space = (Layout.default.place g).space :=
    ((paramsOk_default.space k).trans (paramsOk_default.together_spi hk)).trans
      ((paramsOk_default.space g).trans (paramsOk_default.together_spi hg)).symm
  have hoffset : (Layout.default.place k).offset = (Layout.default.place g).offset :=
    (paramsOk_default.together_offset hk).trans (paramsOk_default.together_offset hg).symm
  simp only [placesApart, hspace, hoffset, ne_eq, not_true_eq_false, decide_false, Bool.false_or, Bool.or_eq_true,
    decide_eq_true_eq] at hapart
  omega

/-- The field `g` has the bits `lo` to `lo + n - 1` of the word of `f`. -/
def fieldBits (f g : Field) (lo n : Nat) : Bool :=
  Params.default.together f g && decide ((Layout.default.place g).lo = lo) && decide ((Layout.default.place g).hi + 1 = lo + n)

theorem fieldBits_iff {f g : Field} {lo n : Nat} : fieldBits f g lo n = true ↔
    Params.default.together f g = true ∧ (Layout.default.place g).lo = lo ∧ (Layout.default.place g).hi + 1 = lo + n := by
  simp only [fieldBits, Bool.and_eq_true, decide_eq_true_eq, and_assoc]

/-- No field of the word has one of the bits `lo` to `lo + n - 1`: they are unmodelled. -/
def unmodelledBits (f : Field) (lo n : Nat) : Bool :=
  decide (lo + n ≤ 32) && Field.all.all fun g => !Params.default.together f g ||
    decide ((Layout.default.place g).hi < lo) || decide (lo + n ≤ (Layout.default.place g).lo)

theorem DefaultWord.not_covers (h : DefaultWord p f) {lo n : Nat} (hu : unmodelledBits f lo n = true) {i : Nat} (hi : i < n) :
    lo + i < 32 ∧ ∀ g ∈ p.wordOf f, ¬ covers p g (lo + i) := by
  simp only [unmodelledBits, Bool.and_eq_true, decide_eq_true_eq, List.all_eq_true, Bool.or_eq_true, Bool.not_eq_true'] at hu
  obtain ⟨hinside, hapart⟩ := hu
  refine ⟨by omega, fun g hg hc => ?_⟩
  have ht := h.mem_wordOf.mp hg
  rw [h.covers_iff ht] at hc
  rcases hapart g (Field.mem_all g) with (e | e) | e
  · rw [ht] at e; cases e
  · omega
  · omega

/-! Words put together from their fields. -/

/-- A bit of one field alone is the field's, whatever the other fields hold. -/
theorem foldl_put_getLsbD {val : Field → Word} {fs : List Field} {g : Field} {i : Nat} (hi : i < 32) (hg : g ∈ fs)
    (hc : covers p g i) (hd : ∀ k ∈ fs, covers p k i → k = g) (w : Word) :
    (fs.foldl (fun w k => p.put k (val k) w) w).getLsbD i = (val g).getLsbD (i - (p.layout.place g).lo) := by
  induction fs generalizing w with
  | nil => cases hg
  | cons k fs ih =>
    rw [List.foldl_cons]
    by_cases hm : g ∈ fs
    · exact ih hm (fun x hx => hd x (List.mem_cons_of_mem _ hx)) _
    · have hk : g = k := (List.mem_cons.mp hg).resolve_right hm
      subst hk
      rw [foldl_put_outside hi fs fun x hx hxc => hm (hd x (List.mem_cons_of_mem _ hx) hxc ▸ hx)]
      exact (setBits_getLsbD _ _ hi).trans (if_pos hc)

/-- The unmodelled bits of such a word are the background's. -/
theorem DefaultWord.extract_foldl_put (h : DefaultWord p f) {lo n : Nat} (hu : unmodelledBits f lo n = true) (val : Field → Word)
    (w : Word) : ((p.wordOf f).foldl (fun w g => p.put g (val g) w) w).extractLsb' lo n = w.extractLsb' lo n := by
  apply BitVec.eq_of_getLsbD_eq
  intro i hi
  obtain ⟨h32, hout⟩ := h.not_covers hu hi
  simp only [BitVec.getLsbD_extractLsb', hi, decide_true, Bool.true_and]
  exact foldl_put_outside h32 _ hout w

/-- A read row of a free host, its fields named. -/
theorem readRow_word {s : State} (hf : hostFree s = true) {fs : List Field} (hw : s.params.wordOf f = fs)
    (h1 : fs.isEmpty = false) (h2 : fs.contains .txd = false) :
    readRow f s = .next ((s.afterRead fs).withRet (.word (s.wordAt f))) := by
  subst hw
  exact readRow_eq hf rfl h1 h2

/-! Words that store their unmodelled bits: no data port and no `BUSY` (R102, R107, R108). -/

/-- The word has fields, and its unmodelled bits are stored. -/
structure StoredWord (p : Params) (f : Field) : Prop where
  nonempty : (p.wordOf f).isEmpty = false
  stores   : storesU (p.wordOf f) = true

theorem StoredWord.no_port (h : StoredWord p f) : (p.wordOf f).contains .busy = false ∧ (p.wordOf f).contains .txd = false ∧
    (p.wordOf f).contains .rxd = false := by
  simpa only [storesU, Bool.and_eq_true, Bool.not_eq_true', and_assoc] using h.stores

/-- Layer H after a write of the field's word: every field's effect, and the unmodelled bits stored (R56, R138). -/
def State.written (s : State) (f : Field) (w : Word) : Hw :=
  { s.hw.writeFields s.params w (s.params.wordOf f) with
    u := s.hw.u.put (s.params.offset f) (unmodelledOf s (s.params.offset f) (s.params.wordOf f) w) }

section

variable {s : State} (h : StoredWord s.params f) (hf : hostFree s = true)

include h hf

/-- A read row of such a word changes nothing. -/
theorem StoredWord.readRow_next : readRow f s = .next (s.withRet (.word (s.wordAt f))) := by
  obtain ⟨hbusy, htxd, hrxd⟩ := h.no_port
  rw [readRow_word hf rfl h.nonempty htxd, State.afterRead, hbusy, hrxd]
  rfl

/-- A write row of such a word that nothing refuses. -/
theorem StoredWord.writeRow_next {w : Word} (hg : (s.hw.busy && (s.params.wordOf f).any Field.guarded) = false)
    (hd : changesDma (s.params.offset f) w s = false) :
    writeRow f w s = .next ((s.withHw (s.written f w)).withRet .unit) :=
  writeRow_unmodelled hf rfl rfl h.nonempty h.no_port.2.2 hg hd h.stores

/-- A write row that would change the DMA request enables (R340). -/
theorem StoredWord.writeRow_dma {w : Word} (hg : (s.hw.busy && (s.params.wordOf f).any Field.guarded) = false)
    (hd : changesDma (s.params.offset f) w s = true) : writeRow f w s = .refused .dmaEnable := by
  have hempty := h.nonempty
  obtain ⟨-, -, hport⟩ := h.no_port
  unfold Params.wordOf at hempty hport hg
  rw [writeRow, asHost_free hf, regWrite_eq, writeWord]
  simp only [hempty, hport, hg, hd, Bool.false_eq_true, if_false, if_true, andThen_refused]

end

/-! Reads. -/

section

variable {s : State} (h : DefaultWord s.params f)

include h

/-- A field reads as its value at its bits. -/
theorem DefaultWord.extract_wordAt {g : Field} {lo n : Nat} (hb : fieldBits f g lo n = true) :
    (s.wordAt f).extractLsb' lo n = (s.value g).setWidth n := by
  obtain ⟨hg, hlo, hhi⟩ := fieldBits_iff.mp hb
  have hinside : (Layout.default.place g).hi < 32 := paramsOk_default.inside g
  apply BitVec.eq_of_getLsbD_eq
  intro i hi
  have hc : covers s.params g (lo + i) := (h.covers_iff hg).mpr (by omega)
  simp only [BitVec.getLsbD_extractLsb', BitVec.getLsbD_setWidth, hi, decide_true, Bool.true_and]
  rw [State.wordAt, foldl_put_getLsbD (by omega) (h.mem_wordOf.mpr hg) hc
    fun k hk hkc => h.covers_unique hg (h.mem_wordOf.mp hk) hc hkc, h.layout, hlo, Nat.add_sub_cancel_left]

/-- A one-bit field reads as its flag. -/
theorem DefaultWord.flag_wordAt {g : Field} {i : Nat} {b : Bool} (hb : fieldBits f g i 1 = true) (hv : s.value g = bitWord b) :
    (s.wordAt f).getLsbD i = b := by
  have e := congrArg (BitVec.getLsbD · 0) (h.extract_wordAt hb)
  rw [hv] at e
  cases b <;> simpa [bitWord] using e

/-- A field of `n` bits reads as the number it stores. -/
theorem DefaultWord.number_wordAt {g : Field} {lo n : Nat} {v : BitVec n} (hb : fieldBits f g lo n = true) (hn : n ≤ 32)
    (hv : s.value g = v.setWidth 32) : (s.wordAt f).extractLsb' lo n = v := by
  rw [h.extract_wordAt hb, hv, BitVec.setWidth_setWidth_of_le _ hn, BitVec.setWidth_eq]

/-- A count reads as its number. -/
theorem DefaultWord.count_wordAt {g : Field} {lo n k : Nat} (hb : fieldBits f g lo n = true) (hn : n ≤ 32)
    (hv : s.value g = BitVec.ofNat 32 k) (hk : k < 2 ^ n) : ((s.wordAt f).extractLsb' lo n).toNat = k := by
  have h32 : 2 ^ n ≤ 2 ^ 32 := Nat.pow_le_pow_right (by decide) hn
  rw [h.extract_wordAt hb, hv, BitVec.toNat_setWidth, BitVec.toNat_ofNat, Nat.mod_eq_of_lt (Nat.lt_of_lt_of_le hk h32),
    Nat.mod_eq_of_lt hk]

/-- The other bits read as the background. -/
theorem DefaultWord.extract_wordAt_background {lo n : Nat} (hu : unmodelledBits f lo n = true) :
    (s.wordAt f).extractLsb' lo n = (s.background (s.params.offset f) (s.params.wordOf f)).extractLsb' lo n :=
  h.extract_foldl_put hu _ _

/-- The unmodelled bits of a word that stores none are a draw (R144, R146). -/
theorem DefaultWord.extract_wordAt_draw (hd : ((s.params.wordOf f).contains .busy || (s.params.wordOf f).contains .rxd) = true)
    {lo n : Nat} (hu : unmodelledBits f lo n = true) (hn : lo + n ≤ 32) :
    (s.wordAt f).extractLsb' lo n = (Config.freeValue s.draws).extractLsb' lo n := by
  rw [h.extract_wordAt_background hu, State.background, if_pos hd, State.free, BitVec.extractLsb'_setWidth_of_le hn, Nat.add_zero]

/-- The unmodelled bits of a word that stores them read as they are stored. -/
theorem DefaultWord.extract_wordAt_unmodelled (hs : StoredWord s.params f) {lo n : Nat} (hu : unmodelledBits f lo n = true) :
    (s.wordAt f).extractLsb' lo n = (s.hw.u.at (Layout.default.place f).offset).extractLsb' lo n := by
  rw [h.extract_wordAt_background hu, background_storesU hs.stores, h.offset]

end

/-! Writes. -/

section

variable (h : DefaultWord p f)

include h

/-- The unmodelled bits are stored as they are written. -/
theorem DefaultWord.extract_unmodelledOf {s : State} (hp : s.params = p) {lo n : Nat} (hu : unmodelledBits f lo n = true)
    (o : BitVec 8) (w : Word) : (unmodelledOf s o (s.params.wordOf f) w).extractLsb' lo n = w.extractLsb' lo n := by
  subst hp
  exact h.extract_foldl_put hu _ w

/-- A field of a written word is the word's bits there. -/
theorem DefaultWord.get_setWidth {g : Field} {lo n : Nat} (hb : fieldBits f g lo n = true) (w : Word) :
    (p.get g w).setWidth n = w.extractLsb' lo n := by
  obtain ⟨hg, hlo, hhi⟩ := fieldBits_iff.mp hb
  have hw : (Layout.default.place g).hi + 1 = (Layout.default.place g).lo + Field.width Params.default.cntBits g :=
    paramsOk_default.width g
  apply BitVec.eq_of_getLsbD_eq
  intro i hi
  simp only [BitVec.getLsbD_setWidth, BitVec.getLsbD_extractLsb', get_bit h.layout, h.widths g hg, hlo, hi, decide_true,
    Bool.true_and, show i < Field.width Params.default.cntBits g by omega]

/-- A one-bit field of a written word is the word's bit there. -/
theorem DefaultWord.get_getLsbD {g : Field} {i : Nat} (hb : fieldBits f g i 1 = true) (w : Word) :
    (p.get g w).getLsbD 0 = w.getLsbD i := by
  have e := congrArg (BitVec.getLsbD · 0) (h.get_setWidth hb w)
  simpa using e

end

section

variable {s : State} (h : DefaultWord s.params f) {w : Word}

include h

/-- Only FIFO0 holds the DMA request enables. -/
theorem DefaultWord.changesDma_false (ho : (Layout.default.place f).offset ≠ 0x80) : changesDma (s.params.offset f) w s = false :=
  changesDma_other h.layout (h.offset ▸ ho)

/-- A write row, with the offset that the default `LAYOUT` gives its word. -/
theorem DefaultWord.writeRow_next (hs : StoredWord s.params f) (hf : hostFree s = true)
    (hg : (s.hw.busy && (s.params.wordOf f).any Field.guarded) = false) (hd : changesDma (s.params.offset f) w s = false) :
    writeRow f w s = .next ((s.withHw { s.hw.writeFields s.params w (s.params.wordOf f) with
      u := s.hw.u.put (Layout.default.place f).offset
        (unmodelledOf s (Layout.default.place f).offset (s.params.wordOf f) w) }).withRet .unit) := by
  rw [hs.writeRow_next hf hg hd, State.written, h.offset]

end

end Sys2Proof.Machine
end

section
/-! PROOFS. The register rows under the default `LAYOUT`: what a read returns in each bit, and what a write stores from each (R130 to
R148). -/

namespace Sys2Proof.Machine

/-! The words of the default `LAYOUT` (R101 to R108). -/

section

variable {p : Params} (hl : p.layout = .default)

include hl

theorem wordOf_txd_default : p.wordOf .txd = [.txd] := by rw [Params.wordOf, Params.offset, hl]; decide

theorem wordOf_rxd_default : p.wordOf .rxd = [.rxd] := by rw [Params.wordOf, Params.offset, hl]; decide

theorem storedWord_config : StoredWord p .mEn := by constructor <;> (rw [wordOf_config hl]; rfl)

theorem storedWord_period0 : StoredWord p .ph0 := by constructor <;> (rw [wordOf_period0 hl]; rfl)

theorem storedWord_period1 : StoredWord p .idle := by constructor <;> (rw [wordOf_period1 hl]; rfl)

theorem storedWord_flags : StoredWord p .txovf := by constructor <;> (rw [wordOf_flags hl]; rfl)

theorem storedWord_triggers : StoredWord p .txclr := by constructor <;> (rw [wordOf_triggers hl]; rfl)

theorem storedWord_counts : StoredWord p .txcnt := by constructor <;> (rw [wordOf_counts hl]; rfl)

theorem defaultWord_config : DefaultWord p .mEn := defaultWord_of_no_count hl rfl rfl

theorem defaultWord_period0 : DefaultWord p .ph0 := defaultWord_of_no_count hl rfl rfl

theorem defaultWord_period1 : DefaultWord p .idle := defaultWord_of_no_count hl rfl rfl

theorem defaultWord_flags : DefaultWord p .txovf := defaultWord_of_no_count hl rfl rfl

theorem defaultWord_triggers : DefaultWord p .txclr := defaultWord_of_no_count hl rfl rfl

theorem defaultWord_busy : DefaultWord p .busy := defaultWord_of_no_count hl rfl rfl

theorem defaultWord_txd : DefaultWord p .txd := defaultWord_of_no_count hl rfl rfl

theorem defaultWord_rxd : DefaultWord p .rxd := defaultWord_of_no_count hl rfl rfl

end

/-! Read rows. -/

/-- Settles O12: each field reads as stored at its bits, and no field has the others. -/
theorem configurationReadsItsFields : Obligations.ConfigurationReadsItsFields := by
  intro s hf hl
  refine ⟨?config, ?period0, ?period1⟩
  case config =>
    have h := defaultWord_config hl
    have hs := storedWord_config hl
    exact ⟨s.wordAt .mEn, hs.readRow_next hf, h.flag_wordAt (g := .mEn) rfl rfl, h.flag_wordAt (g := .sEn) rfl rfl,
      h.number_wordAt (g := .fsize) rfl (by decide) rfl, h.flag_wordAt (g := .cpol) rfl rfl,
      h.flag_wordAt (g := .cpha) rfl rfl, h.flag_wordAt (g := .bitord) rfl rfl, h.flag_wordAt (g := .cont) rfl rfl,
      h.flag_wordAt (g := .role) rfl rfl, h.extract_wordAt_unmodelled hs rfl, h.extract_wordAt_unmodelled hs rfl⟩
  case period0 =>
    have h := defaultWord_period0 hl
    have hs := storedWord_period0 hl
    exact ⟨s.wordAt .ph0, hs.readRow_next hf, h.extract_wordAt_unmodelled hs rfl,
      h.number_wordAt (g := .ph0) rfl (by decide) rfl, h.number_wordAt (g := .ph1) rfl (by decide) rfl⟩
  case period1 =>
    have h := defaultWord_period1 hl
    have hs := storedWord_period1 hl
    exact ⟨s.wordAt .idle, hs.readRow_next hf, h.number_wordAt (g := .idle) rfl (by decide) rfl,
      h.extract_wordAt_unmodelled hs rfl⟩

/-- Settles O15: the triggers' value is 0, the flags' what is stored. -/
theorem fifoFlagsReadWithoutClearing : Obligations.FifoFlagsReadWithoutClearing := by
  intro s hf hl
  have h := defaultWord_flags hl
  have hs := storedWord_flags hl
  exact ⟨s.wordAt .txovf, hs.readRow_next hf, h.flag_wordAt (g := .txclr) rfl rfl, h.flag_wordAt (g := .rxclr) rfl rfl,
    h.flag_wordAt (g := .txovf) rfl rfl, h.flag_wordAt (g := .txudf) rfl rfl, h.flag_wordAt (g := .rxovf) rfl rfl,
    h.flag_wordAt (g := .rxudf) rfl rfl, h.extract_wordAt_unmodelled hs rfl, h.extract_wordAt_unmodelled hs rfl⟩

/-- Settles O17: three bits are enough for a count that is at most the depth. -/
theorem fifoCountsRead : Obligations.FifoCountsRead := by
  intro s hf hwf hl
  obtain ⟨hok, ⟨htx, hrx⟩, -⟩ := State.wf_iff.mp hwf
  have h := defaultWord_of_ok hl hok .txcnt
  have hs := storedWord_counts hl
  have hdepth : s.params.fifoDepth < 2 ^ 3 := cntBits_default hl hok ▸ (paramsOk hok).depth_lt
  have htxcnt : ((s.wordAt .txcnt).extractLsb' 0 3).toNat = s.hw.txCount s.params :=
    h.count_wordAt (g := .txcnt) rfl (by decide) rfl (Nat.lt_of_le_of_lt (txCount_le htx) hdepth)
  refine ⟨s.wordAt .txcnt, hs.readRow_next hf, fun hsense => ?_, fun hsense => ?_,
    h.count_wordAt (g := .rxcnt) rfl (by decide) rfl (Nat.lt_of_le_of_lt hrx hdepth), h.extract_wordAt_unmodelled hs rfl,
    h.extract_wordAt_unmodelled hs rfl⟩
  · rw [htxcnt, Hw.txCount, hsense]
  · rw [htxcnt, Hw.txCount, hsense]

/-- Settles O20: the byte popped, or a draw, under bits 31:8 of another draw. -/
theorem receiveReadPopsOrUnderflows : Obligations.ReceiveReadPopsOrUnderflows := by
  intro s hf hl
  have h := defaultWord_rxd hl
  have hread : exec .rdRxData s = .next (((s.withHw s.hw.popRx.2).drawn 2).withRet (.word (s.wordAt .rxd))) :=
    readRow_word hf (wordOf_rxd_default hl) rfl rfl
  have hbyte : (s.wordAt .rxd).extractLsb' 0 8 = s.hw.popRx.1.getD (s.free 8 1) :=
    h.number_wordAt (g := .rxd) rfl (by decide) rfl
  refine ⟨s.wordAt .rxd, fun b rest hb => ?_, fun he => ?_, ?_⟩
  · rw [hread, hbyte, Hw.popRx_cons hb]
    exact ⟨rfl, rfl⟩
  · rw [hread, hbyte, Hw.popRx_nil he]
    exact ⟨rfl, rfl⟩
  · exact h.extract_wordAt_draw (by rw [wordOf_rxd_default hl]; rfl) rfl (by decide)

/-- Settles O21: bit 0 is the engine's, under a draw. -/
theorem busyReadsTheEngine : Obligations.BusyReadsTheEngine := by
  intro s hf hl
  have h := defaultWord_busy hl
  have hbusy : (s.wordAt .busy).getLsbD 0 = s.hw.busy := h.flag_wordAt (g := .busy) rfl rfl
  refine ⟨s.wordAt .busy, readRow_word hf (wordOf_busy hl) rfl rfl, ?_, ?_⟩
  · rw [hbusy, ne_eq, ← Hw.not_busy_iff, Bool.not_eq_false]
  · exact h.extract_wordAt_draw (by rw [wordOf_busy hl]; rfl) rfl (by decide)

/-- Settles O22: the two halves put together are the counter. -/
theorem counterReads : Obligations.CounterReads := by
  intro s hf
  refine ⟨fun hc => ?_, fun hc => ⟨s.value .cycleLo, s.value .cycleHi, ?_, ?_, ?_⟩⟩
  · simp only [exec, execRdCycle, asHost_free hf, hc]
  · simp only [exec, execRdCycle, asHost_free hf, hc]
  · simp only [exec, execRdCycleHi, asHost_free hf, hc]
  · have hlo : (s.value .cycleLo).toNat = s.hw.cycle.toNat % 2 ^ 32 := by simp [State.value]
    have hhi : (s.value .cycleHi).toNat = s.hw.cycle.toNat / 2 ^ 32 := by
      have := s.hw.cycle.isLt
      simp only [State.value, BitVec.extractLsb'_toNat, Nat.shiftRight_eq_div_pow]
      omega
    rw [hlo, hhi]
    omega

/-! Write rows. -/

section

variable {p : Params} (hl : p.layout = .default) (w : Word) (x : Hw)

include hl

theorem writeFields_config : x.writeFields p w (p.wordOf .mEn) = { x with
    mEn := w.getLsbD 0, sEn := w.getLsbD 1, fsize := w.extractLsb' 2 2, cpol := w.getLsbD 4, cpha := w.getLsbD 5,
    bitord := w.getLsbD 6, cont := w.getLsbD 9, role := w.getLsbD 10 } := by
  have h := defaultWord_config hl
  rw [wordOf_config hl, ← h.get_getLsbD (g := .mEn) (i := 0) rfl, ← h.get_getLsbD (g := .sEn) (i := 1) rfl,
    ← h.get_setWidth (g := .fsize) (lo := 2) (n := 2) rfl, ← h.get_getLsbD (g := .cpol) (i := 4) rfl,
    ← h.get_getLsbD (g := .cpha) (i := 5) rfl, ← h.get_getLsbD (g := .bitord) (i := 6) rfl,
    ← h.get_getLsbD (g := .cont) (i := 9) rfl, ← h.get_getLsbD (g := .role) (i := 10) rfl]
  rfl

theorem writeFields_period0 : x.writeFields p w (p.wordOf .ph0) =
    { x with ph0 := w.extractLsb' 16 8, ph1 := w.extractLsb' 24 8 } := by
  have h := defaultWord_period0 hl
  rw [wordOf_period0 hl, ← h.get_setWidth (g := .ph0) (lo := 16) rfl, ← h.get_setWidth (g := .ph1) (lo := 24) rfl]
  rfl

theorem writeFields_period1 : x.writeFields p w (p.wordOf .idle) = { x with idle := w.extractLsb' 0 8 } := by
  rw [wordOf_period1 hl, ← (defaultWord_period1 hl).get_setWidth (g := .idle) (lo := 0) rfl]
  rfl

/-- Each trigger that is 1 clears its side; the flags ignore what is written to them (R137). -/
theorem writeFields_triggers : x.writeFields p w (p.wordOf .txclr) = { x with
    txf := if w.getLsbD 2 then [] else x.txf,
    txovf := if w.getLsbD 2 then false else x.txovf,
    txudf := if w.getLsbD 2 then false else x.txudf,
    rxf := if w.getLsbD 3 then [] else x.rxf,
    rxovf := if w.getLsbD 3 then false else x.rxovf,
    rxudf := if w.getLsbD 3 then false else x.rxudf } := by
  have h := defaultWord_triggers hl
  have e : x.writeFields p w [.txclr, .rxclr, .txovf, .txudf, .rxovf, .rxudf] =
      (x.writeField p.fifoDepth .txclr (p.get .txclr w)).writeField p.fifoDepth .rxclr (p.get .rxclr w) := rfl
  rw [wordOf_triggers hl, e]
  simp only [Hw.writeField, h.get_getLsbD (g := .txclr) (i := 2) rfl, h.get_getLsbD (g := .rxclr) (i := 3) rfl]
  cases w.getLsbD 2 <;> cases w.getLsbD 3 <;> rfl

theorem writeFields_counts : x.writeFields p w (p.wordOf .txcnt) = x := by
  rw [wordOf_counts hl]; rfl

theorem writeFields_txd : x.writeFields p w (p.wordOf .txd) = x.pushTx p.fifoDepth (w.extractLsb' 0 8) := by
  rw [wordOf_txd_default hl, ← (defaultWord_txd hl).get_setWidth (g := .txd) (lo := 0) rfl]
  rfl

/-- The words of the flags and of the counts hold no configuration field (R139). -/
theorem any_guarded_triggers : (p.wordOf .txclr).any Field.guarded = false := by rw [wordOf_triggers hl]; rfl

theorem any_guarded_counts : (p.wordOf .txcnt).any Field.guarded = false := by rw [wordOf_counts hl]; rfl

end

/-- Settles O13: each field of the three words stores its bits. -/
theorem configurationWritesStoreTheirFields : Obligations.ConfigurationWritesStoreTheirFields := by
  intro s w hf hb hl
  have quiet : ∀ fs : List Field, (s.hw.busy && fs.any Field.guarded) = false := fun fs => by rw [hb, Bool.false_and]
  refine ⟨?config, ?period0, ?period1⟩
  case config =>
    have h := defaultWord_config hl
    have hw := h.writeRow_next (storedWord_config hl) hf (quiet _) (h.changesDma_false (w := w) (by decide))
    rw [writeFields_config hl] at hw
    exact ⟨_, hw, h.extract_unmodelledOf rfl rfl _ w, h.extract_unmodelledOf rfl rfl _ w⟩
  case period0 =>
    have h := defaultWord_period0 hl
    have hw := h.writeRow_next (storedWord_period0 hl) hf (quiet _) (h.changesDma_false (w := w) (by decide))
    rw [writeFields_period0 hl] at hw
    exact ⟨_, hw, h.extract_unmodelledOf rfl rfl _ w⟩
  case period1 =>
    have h := defaultWord_period1 hl
    have hw := h.writeRow_next (storedWord_period1 hl) hf (quiet _) (h.changesDma_false (w := w) (by decide))
    rw [writeFields_period1 hl] at hw
    exact ⟨_, hw, h.extract_unmodelledOf rfl rfl _ w⟩

theorem getBits_eq_iff_extract {lo n : Nat} {v w : Word} :
    getBits lo n v = getBits lo n w ↔ v.extractLsb' lo n = w.extractLsb' lo n := by
  have bit : ∀ (u : Word) {i : Nat}, i < n → (getBits lo n u).getLsbD i = (u.extractLsb' lo n).getLsbD i := fun u i hi => by
    simp only [getBits_getLsbD, BitVec.getLsbD_extractLsb', hi, decide_true, Bool.true_and]
  constructor
  · intro e
    exact BitVec.eq_of_getLsbD_eq fun i hi => by rw [← bit v hi, ← bit w hi, e]
  · intro e
    refine word_ext fun i _ => ?_
    by_cases hi : i < n
    · rw [bit v hi, bit w hi, e]
    · simp [getBits_getLsbD, hi]

/-- FIFO0's bits 1:0 are the DMA request enables (R105, R340). -/
theorem changesDma_fifo0 {s : State} (hl : s.params.layout = .default) (w : Word) :
    changesDma 0x80 w s = decide (w.extractLsb' 0 2 ≠ (s.hw.u.at 0x80).extractLsb' 0 2) := by
  have hs : storesU (s.params.layout.fieldsAt 0x80) = true := by rw [hl]; decide
  rw [changesDma, hs, Params.dmaBits, Params.dmaBits, hl, Bool.and_true]
  refine decide_eq_decide.mpr (not_congr ?_)
  exact getBits_eq_iff_extract

/-- Settles O16: the two triggers, and the DMA request enables that may not change. -/
theorem fifoTriggersClearTheirSide : Obligations.FifoTriggersClearTheirSide := by
  intro s w hf hl
  have h := defaultWord_triggers hl
  have hs := storedWord_triggers hl
  have quiet : (s.hw.busy && (s.params.wordOf .txclr).any Field.guarded) = false := by
    rw [any_guarded_triggers hl, Bool.and_false]
  have hdma : changesDma (s.params.offset .txclr) w s = decide (w.extractLsb' 0 2 ≠ (s.hw.u.at 0x80).extractLsb' 0 2) := by
    rw [h.offset]; exact changesDma_fifo0 hl w
  refine ⟨fun hu => ?_, fun hu => hs.writeRow_dma hf quiet (hdma.trans (decide_eq_true hu))⟩
  have hw := h.writeRow_next hs hf quiet (hdma.trans (decide_eq_false (not_not_intro hu)))
  rw [writeFields_triggers hl] at hw
  exact ⟨_, hw, h.extract_unmodelledOf rfl rfl _ w, h.extract_unmodelledOf rfl rfl _ w⟩

/-- Settles O18: no field of FIFO1 and BUSY takes a write, and BUSY's word stores no unmodelled bits. -/
theorem writesOfReadOnlyFieldsAreIgnored : Obligations.WritesOfReadOnlyFieldsAreIgnored := by
  intro s w hf hl hok
  refine ⟨?counts, ?busy⟩
  case counts =>
    have h := defaultWord_of_ok hl hok .txcnt
    have hw := h.writeRow_next (storedWord_counts hl) hf (by rw [any_guarded_counts hl, Bool.and_false])
      (h.changesDma_false (w := w) (by decide))
    rw [writeFields_counts hl] at hw
    exact ⟨_, hw, h.extract_unmodelledOf rfl rfl _ w, h.extract_unmodelledOf rfl rfl _ w⟩
  case busy =>
    exact writeRow_eq hf (wordOf_busy hl) rfl rfl (Bool.and_false _) ((defaultWord_busy hl).changesDma_false (by decide))

/-- Settles O19: `TXD`'s word takes the push of its low byte alone. -/
theorem transmitWritePushesOrOverflows : Obligations.TransmitWritePushesOrOverflows := by
  intro s w hf hl
  have hw := writeRow_eq hf (wordOf_txd_default hl) rfl rfl (Bool.and_false _)
    ((defaultWord_txd hl).changesDma_false (w := w) (by decide))
  rw [← wordOf_txd_default hl, writeFields_txd hl, wordOf_txd_default hl] at hw
  exact hw

/-! A write and then a read. -/

section

variable {s : State} {f : Field} {w : Word}

theorem wordAt_withRet (s : State) (f : Field) (r : Ret) : (s.withRet r).wordAt f = s.wordAt f := rfl

/-- After a write of a word all of whose fields store, the word reads as it was written (R138). -/
theorem wordAt_withHw_written (h : ParamsOk s.params) (hs : StoredWord s.params f)
    (hg : (s.params.wordOf f).all Field.guarded = true) : (s.withHw (s.written f w)).wordAt f = w := by
  have hvalue : ∀ g ∈ s.params.wordOf f, (s.withHw (s.written f w)).value g = s.params.get g w := fun g hm => by
    have hguard := List.all_eq_true.mp hg g hm
    rw [State.written, value_withU hguard, value_writeFields h hguard, if_pos (Params.mem_wordOf.mp hm)]
  have hu : (s.written f w).u.at (s.params.offset f) = unmodelledOf s (s.params.offset f) (s.params.wordOf f) w :=
    UBits.at_put_same _ _ _
  rw [State.wordAt, State.withHw_params, background_storesU hs.stores, State.withHw_hw, hu,
    List.foldl_ext _ (fun v g => s.params.put g (s.params.get g w) v) _ fun v g hm => by rw [hvalue g hm]]
  refine word_ext fun i hi => foldl_put_get w hi _ _ ?_
  by_cases hc : ∃ g ∈ s.params.wordOf f, covers s.params g i
  · exact .inr hc
  · exact .inl (foldl_put_outside hi _ (fun g hm hgc => hc ⟨g, hm, hgc⟩) w)

/-- A write row and then a read row of a word all of whose fields store (R138). -/
theorem read_after_write (h : ParamsOk s.params) (hs : StoredWord s.params f)
    (hg : (s.params.wordOf f).all Field.guarded = true) (hf : hostFree s = true) (hb : s.hw.busy = false)
    (hd : changesDma (s.params.offset f) w s = false) :
    ∃ t, writeRow f w s = .next t ∧ readRow f t = .next (t.withRet (.word w)) := by
  refine ⟨_, hs.writeRow_next hf (by rw [hb, Bool.false_and]) hd, ?_⟩
  have hread := StoredWord.readRow_next (s := (s.withHw (s.written f w)).withRet .unit) hs hf
  rwa [wordAt_withRet, wordAt_withHw_written h hs hg] at hread

/-- A read row after a write that stored `v`: the unmodelled bits read as they were written (R56, R138). -/
theorem readRow_of_put (hf : hostFree s = true) (h : DefaultWord s.params f) (hs : StoredWord s.params f) {u : UBits} {v : Word}
    (hu : s.hw.u = u.put (Layout.default.place f).offset v) :
    ∃ r, readRow f s = .next (s.withRet (.word r)) ∧
      ∀ lo n, unmodelledBits f lo n = true → r.extractLsb' lo n = v.extractLsb' lo n :=
  ⟨s.wordAt f, hs.readRow_next hf, fun lo n hb => by rw [h.extract_wordAt_unmodelled hs hb, hu, UBits.at_put_same]⟩

end

/-- Settles O24: the words of CONFIG, PERIOD0 and PERIOD1 store every field, and the others their unmodelled bits. -/
theorem writtenWordsReadBack : Obligations.WrittenWordsReadBack := by
  intro s w hf he hl hok
  have h := paramsOk hok
  have hb := Hw.not_busy_iff.mpr he
  refine ⟨?config, ?period0, ?period1, fun hu => ?fifo0, ?fifo1⟩
  case config =>
    exact read_after_write h (storedWord_config hl) (by rw [wordOf_config hl]; rfl) hf hb
      ((defaultWord_config hl).changesDma_false (by decide))
  case period0 =>
    exact read_after_write h (storedWord_period0 hl) (by rw [wordOf_period0 hl]; rfl) hf hb
      ((defaultWord_period0 hl).changesDma_false (by decide))
  case period1 =>
    exact read_after_write h (storedWord_period1 hl) (by rw [wordOf_period1 hl]; rfl) hf hb
      ((defaultWord_period1 hl).changesDma_false (by decide))
  case fifo0 =>
    obtain ⟨v, hwrite, hlow, hhigh⟩ := (fifoTriggersClearTheirSide s w hf hl).1 hu
    generalize ht : State.withRet .unit _ = t at hwrite
    obtain ⟨r, hread, hr⟩ := readRow_of_put (s := t) (f := .txovf) (u := s.hw.u) (v := v) (by rw [← ht]; exact hf)
      (by rw [← ht]; exact defaultWord_flags hl) (by rw [← ht]; exact storedWord_flags hl) (by rw [← ht]; rfl)
    exact ⟨t, r, hwrite, hread, (hr 0 2 rfl).trans hlow, (hr 8 24 rfl).trans hhigh⟩
  case fifo1 =>
    obtain ⟨⟨v, hwrite, hmid, hhigh⟩, -⟩ := writesOfReadOnlyFieldsAreIgnored s w hf hl hok
    generalize ht : State.withRet .unit _ = t at hwrite
    obtain ⟨r, hread, hr⟩ := readRow_of_put (s := t) (f := .txcnt) (u := s.hw.u) (v := v) (by rw [← ht]; exact hf)
      (by rw [← ht]; exact defaultWord_of_ok hl hok .txcnt) (by rw [← ht]; exact storedWord_counts hl) (by rw [← ht]; rfl)
    exact ⟨t, r, hwrite, hread, (hr 3 5 rfl).trans hmid, (hr 11 21 rfl).trans hhigh⟩

end Sys2Proof.Machine
end

section
/-! PROOFS. A command that begins and runs to its result with no one else moving: SET_BIT_ORDER, CLEAR_FIFOS and RELEASE (R239 to
R241), TRY_SEND and TRY_RECV (R260, R261). -/

namespace Sys2Proof.Machine

/-! From the turns of a command to what its beginning leads to. -/

/-- The end of a command leaves Layer C as it was before the command began, but for the result. -/
theorem finish_running {s : State} (hr : s.host.running = none) (h : Hw) (rest : List Slot) (d : Nat) (R : Option Running)
    (r : Ret) :
    ({ s with hw := h, program := rest, draws := d, host := { s.host with running := R } } : State).finish r =
      { s with hw := h, program := rest, draws := d, host := { s.host with ret := r } } := by
  simp only [State.finish, State.withRunning, State.withRet, ← hr]

/-- A command that ends with its first access (R122). -/
theorem start_done {a : Activity} {s : State} {r : Ret} {d : Nat} (hr : s.host.running = none)
    (h : access a (s.withRunning (some { act := a, txn := none })) =
      .next (.done r, (s.withRunning (some { act := a, txn := none })).drawn d)) :
    start a s = .next ((s.drawn d).withRet r) := by
  rw [start_eq, h, andThen_next, settle_done]
  exact congrArg _ (finish_running hr s.hw s.program (s.draws + d) _ r)

/-- A command that has its result after `k + 1` turns begins with the first of them, and `k` turns more lead to the result. -/
theorem start_result {a : Activity} {s : State} {k : Nat} {rest : List Slot} {r : Ret} {h : Hw} {d : Nat} {R : Option Running}
    (hr : s.host.running = none) (hp : s.program = hostTurns k ++ rest)
    (hrun : runFor (k + 1) (s.polling a none (hostTurns (k + 1) ++ rest) s.draws) =
      .next (({ s with hw := h, program := rest, draws := d, host := { s.host with running := R } } : State).finish r)) :
    ∃ t0 d, start a s = .next t0 ∧ runFor k t0 =
      .next { s with hw := h, program := rest, draws := d, host := { s.host with ret := r } } := by
  have hslots : hostTurns (k + 1) ++ rest = .hostTurn :: s.program := by rw [hp]; rfl
  rw [hslots, finish_running hr] at hrun
  obtain ⟨t0, hbegin, ht0⟩ := begin_run (u := s.withRunning (some { act := a, txn := none })) hrun
  exact ⟨t0, d, hbegin, ht0⟩

/-! Commands that are one `RegModify` (R151, R239, R240). -/

theorem exec_setBitOrder {s : State} (h : hostReady s = true) (o : BitOrder) :
    exec (.setBitOrder o) s = start (.setBitOrder (modifyOf (orderFields o))) s :=
  asInstance_ready h _

theorem exec_clearFifos {s : State} (h : hostReady s = true) : exec .clearFifos s = start (.clearFifos (modifyOf clearFields)) s :=
  asInstance_ready h _

/-- No field of the word is one of CONFIG, PERIOD0 or PERIOD1. -/
theorem any_guarded_eq_false {p : Params} {f : Field} (h : ∀ g, p.together f g = true → Field.guarded g = false) :
    (p.wordOf f).any Field.guarded = false :=
  List.any_eq_false.mpr fun g hg => by rw [h g (Params.mem_wordOf.mp hg)]; decide

/-- A command that is one `RegModify` assigns its fields and changes nothing else. -/
theorem start_modify {mk : Modify → Activity} (hk : MakesModify mk fun s => (.done .unit, s)) {todo : List (Field × Word)}
    {s : State} {k : Nat} {rest : List Slot} (hr : s.host.running = none) (h : ParamsOk s.params)
    (hm : Modifiable s.params todo)
    (hg : s.hw.busy = false ∨ ∀ x ∈ todo, (s.params.wordOf x.1).any Field.guarded = false)
    (hturns : modifyTurns s.params todo = k + 1) (hp : s.program = hostTurns k ++ rest) :
    ∃ t0 d, start (mk (modifyOf todo)) s = .next t0 ∧ runFor k t0 =
      .next { s with hw := s.hw.assign todo, program := rest, draws := d, host := { s.host with ret := .unit } } := by
  have hne : todo ≠ [] := by rintro rfl; cases hturns
  obtain ⟨d, R, u, rfl, hu⟩ := modify_run hk _ todo (s.polling (mk (modifyOf todo)) none (hostTurns (k + 1) ++ rest) s.draws)
    none rest (Nat.le_refl _) hne h hm hg rfl (by rw [← hturns]; rfl)
  rw [settle_done] at hu
  exact start_result hr hp (hturns ▸ hu)

theorem modifyTurns_nil (p : Params) : modifyTurns p [] = 0 := rfl

/-- SET_BIT_ORDER has one word to read and to write. -/
theorem modifyTurns_orderFields {p : Params} (h : ParamsOk p) (o : BitOrder) : modifyTurns p (orderFields o) = 2 := by
  rw [orderFields, modifyTurns_cons h (orderFields_modifiable p o).spi]
  rfl

/-- CLEAR_FIFOS has one word to read and to write where the triggers share one, and two where not. -/
theorem modifyTurns_clearFields {p : Params} (h : ParamsOk p) :
    modifyTurns p clearFields = (if p.together .txclr .rxclr then 1 else 3) + 1 := by
  have hm := clearFields_modifiable p
  rw [clearFields, modifyTurns_cons h hm.spi]
  cases ht : p.together .txclr .rxclr with
  | true => simp [ht, modifyTurns_nil]
  | false =>
    simp only [ht, List.filter_cons, List.filter_nil, Bool.not_false, if_true]
    rw [modifyTurns_cons h (fun y hy => hm.spi y (List.mem_cons_of_mem _ hy))]
    rfl

theorem Hw.assign_orderFields (o : BitOrder) (h : Hw) : h.assign (orderFields o) = { h with bitord := decide (o = .lsbFirst) } := by
  cases o <;> rfl

theorem Hw.assign_clearFields (h : Hw) : h.assign clearFields =
    { h with txf := [], rxf := [], txovf := false, txudf := false, rxovf := false, rxudf := false } := rfl

/-- Settles O41: the two commands are one `RegModify` each, of `BITORD` and of the two triggers. -/
theorem housekeepingCommands : Obligations.HousekeepingCommands := by
  intro s e hf he
  obtain ⟨-, hr⟩ := hostFree_iff.mp hf
  have hready : hostReady s = true := by simp [hostReady, hf, he]
  refine ⟨fun o rest hwf hidle hp => ?_, fun k rest hwf hg hk hp => ?_, ?_⟩
  · obtain ⟨h, -⟩ := State.wf_fifos hwf
    rw [exec_setBitOrder hready, ← Hw.assign_orderFields]
    exact start_modify setBitOrder_makesModify hr h (orderFields_modifiable _ o)
      (.inl (Hw.not_busy_iff.mpr hidle)) (modifyTurns_orderFields h o) hp
  · obtain ⟨h, -⟩ := State.wf_fifos hwf
    have hguard : s.hw.busy = false ∨ ∀ x ∈ clearFields, (s.params.wordOf x.1).any Field.guarded = false :=
      hg.imp Hw.not_busy_iff.mpr fun hg => List.forall_mem_cons.mpr
        ⟨any_guarded_eq_false fun g ht => hg g (.inl ht),
          List.forall_mem_singleton.mpr (any_guarded_eq_false fun g ht => hg g (.inr ht))⟩
    rw [exec_clearFifos hready, ← Hw.assign_clearFields]
    exact start_modify clearFifos_makesModify hr h (clearFields_modifiable _) hguard (hk ▸ modifyTurns_clearFields h) hp
  · rw [exec, execRelease, asHost_free hf, he]
    rfl

/-! The two polls (R260, R261). -/

theorem exec_trySend {s : State} (h : hostReady s = true) (w : Byte) : exec (.trySend w) s = start (.trySend w .flags) s :=
  asInstance_ready h _

theorem exec_tryRecv {s : State} (h : hostReady s = true) : exec .tryRecv s = start (.tryRecv .flags) s :=
  asInstance_ready h _

/-- TRY_SEND comes to what a send poll comes to that no one else interrupts. -/
theorem exec_trySend_run {s : State} {w : Byte} (hready : hostReady s = true) (hwf : s.wf = true) {r : Ret} {k : Nat} {h : Hw}
    (ho : sendOutcome w s = (r, k + 1, h)) {rest : List Slot} (hp : s.program = hostTurns k ++ rest) :
    ∃ t0 d, exec (.trySend w) s = .next t0 ∧ runFor k t0 =
      .next { s with hw := h, program := rest, draws := d, host := { s.host with ret := r } } := by
  obtain ⟨hok, htx, -⟩ := State.wf_fifos hwf
  obtain ⟨-, hr, -⟩ := hostReady_iff.mp hready
  obtain ⟨ph, d, hrun⟩ := send_run (trySend_polls w) hok htx none rest s.draws
  simp only [ho, andThen_next, pollProgress, settle_done] at hrun
  rw [exec_trySend hready]
  exact start_result hr hp hrun

/-- TRY_RECV comes to what a receive poll comes to that no one else interrupts. -/
theorem exec_tryRecv_run {s : State} (hready : hostReady s = true) (hwf : s.wf = true) {r : Ret} {k : Nat} {h : Hw}
    (ho : recvOutcome s = (r, k + 1, h)) {rest : List Slot} (hp : s.program = hostTurns k ++ rest) :
    ∃ t0 d, exec .tryRecv s = .next t0 ∧ runFor k t0 =
      .next { s with hw := h, program := rest, draws := d, host := { s.host with ret := r } } := by
  obtain ⟨hok, -, hrx⟩ := State.wf_fifos hwf
  obtain ⟨-, hr, -⟩ := hostReady_iff.mp hready
  obtain ⟨ph, d, hrun⟩ := recv_run tryRecv_polls hok hrx none rest s.draws
  simp only [ho, andThen_next, pollProgress, settle_done] at hrun
  rw [exec_tryRecv hready]
  exact start_result hr hp hrun

theorem sendTurns_ge (p : Params) : 3 ≤ sendTurns p := by
  unfold sendTurns; split <;> decide

theorem recvTurns_ge (p : Params) : 3 ≤ recvTurns p := by
  unfold recvTurns; split <;> decide

/-- Settles O43: the four outcomes of the send poll; an overflow ends it at the first read. -/
theorem trySendPollsThenPushes : Obligations.TrySendPollsThenPushes := by
  intro s w rest hready hwf
  obtain ⟨hok, -⟩ := State.wf_fifos hwf
  obtain ⟨-, hr, -⟩ := hostReady_iff.mp hready
  have hturns := sendTurns_ge s.params
  refine ⟨fun ho => ?overflow, fun ho hu hp => ?underflow, fun ho hu hl hp => ?full, fun ho hu hl hp => ?room⟩
  case overflow =>
    obtain ⟨d, hflags⟩ := sendAccess_flags (s := s.withRunning (some { act := .trySend w .flags, txn := none })) hok w
    rw [State.withRunning_hw, ho, if_pos rfl] at hflags
    exact ⟨d, (exec_trySend hready w).trans (start_done hr (by rw [access, hflags]; rfl))⟩
  case underflow =>
    exact exec_trySend_run hready hwf (by simp [sendOutcome, ho, hu]; omega) hp
  case full =>
    exact exec_trySend_run hready hwf (by simp [sendOutcome, ho, hu, hl]; omega) hp
  case room =>
    exact exec_trySend_run hready hwf (by simp [sendOutcome, ho, hu, Nat.ne_of_lt hl]; omega) hp

/-- Settles O44: the four outcomes of the receive poll; an overflow ends it at the first read. -/
theorem tryRecvPollsThenPops : Obligations.TryRecvPollsThenPops := by
  intro s rest hready hwf
  obtain ⟨hok, -⟩ := State.wf_fifos hwf
  obtain ⟨-, hr, -⟩ := hostReady_iff.mp hready
  have hturns := recvTurns_ge s.params
  refine ⟨fun ho => ?overflow, fun ho hu hp => ?underflow, fun ho hu he hp => ?empty, fun b bs ho hu hb hp => ?data⟩
  case overflow =>
    obtain ⟨d, hflags⟩ := recvAccess_flags (s := s.withRunning (some { act := .tryRecv .flags, txn := none })) hok
    rw [State.withRunning_hw, ho, if_pos rfl] at hflags
    exact ⟨d, (exec_tryRecv hready).trans (start_done hr (by rw [access, hflags]; rfl))⟩
  case underflow =>
    exact exec_tryRecv_run hready hwf (by simp [recvOutcome, ho, hu]; omega) hp
  case empty =>
    exact exec_tryRecv_run hready hwf (by simp [recvOutcome, ho, hu, he]; omega) hp
  case data =>
    exact exec_tryRecv_run hready hwf (by simp [recvOutcome, ho, hu, hb]; omega) hp

end Sys2Proof.Machine
end

section
/-! PROOFS. The engine's two steps (R170 to R175): what an enabled one does, that one that is not enabled does nothing, and the
bytes that they and the two data ports conserve (R176). -/

namespace Sys2Proof.Machine

/-! FRAME_START and FRAME_COMPLETE. -/

theorem Hw.operational_iff {h : Hw} : h.operational = true ↔
    h.role = true ∧ h.mEn = true ∧ h.sEn = false ∧ h.cont = false ∧ h.fsize = 0 := by
  simp [Hw.operational, and_assoc]

/-- Settles O26: the five settings of R170 are what makes the engine operational. -/
theorem frameStartTakesTheOldestByte : Obligations.FrameStartTakesTheOldestByte := by
  intro s b rest hrole hmEn hsEn hcont hfsize he ht
  have ho : s.hw.operational = true := Hw.operational_iff.mpr ⟨hrole, hmEn, hsEn, hcont, hfsize⟩
  rw [exec, execFrameStart, Hw.frameStart_enabled ho he ht]
  rfl

/-- Settles O27: each reason is one of the guards of its step. -/
theorem engineStepsNotEnabledChangeNothing : Obligations.EngineStepsNotEnabledChangeNothing := by
  refine fun s => ⟨fun hoff => ?_, fun r he => ?_⟩
  · have hdisabled : s.hw.operational = false ∨ s.hw.eng ≠ .idle ∨ s.hw.txf = [] := by
      cases ho : s.hw.operational with
      | false => exact .inl rfl
      | true =>
        obtain ⟨hrole, hmEn, hsEn, hcont, hfsize⟩ := Hw.operational_iff.mp ho
        exact .inr (by simpa [hrole, hmEn, hsEn, hcont, hfsize] using hoff)
    rw [exec, execFrameStart, Hw.frameStart_disabled hdisabled]
    rfl
  · rw [exec, execFrameComplete, State.frameComplete_idle r he]

/-- Settles O28: the record says whether there was room. -/
theorem frameCompleteStoresOrOverflows : Obligations.FrameCompleteStoresOrOverflows := by
  refine fun s r b snap he => ⟨fun hroom => ?_, fun hfull => ?_⟩
  · rw [exec, execFrameComplete, State.frameComplete_shifting r he, Hw.pushRx_room r hroom, Hw.rxRoom, decide_eq_true hroom]
  · rw [exec, execFrameComplete, State.frameComplete_shifting r he, Hw.pushRx_full r hfull, Hw.rxRoom,
      decide_eq_false (Nat.not_lt.mpr hfull)]

/-! The bytes between the two data ports (R176). -/

/-- The byte that a frame begins with is in flight instead of waiting. -/
theorem Hw.outstanding_frameStart (h : Hw) : h.frameStart.outstanding = h.outstanding := by
  rcases h.frameStart_cases with e | ⟨b, rest, -, he, ht, e⟩
  · rw [e]
  · rw [e]
    simp only [Hw.outstanding, Hw.busy, he, ht, List.length_cons, if_true, Bool.false_eq_true, if_false]

/-- The end of a frame puts one received byte in the place of the byte in flight, or loses it with `RXOVF`. -/
theorem Hw.outstanding_endFrame {h : Hw} (hb : h.busy = true) (d : Nat) (r : Byte) :
    ({ h.pushRx d r with eng := .idle } : Hw).outstanding = h.outstanding ∧ (h.pushRx d r).rxovf = h.rxovf ∨
      ({ h.pushRx d r with eng := .idle } : Hw).outstanding + 1 = h.outstanding ∧ (h.pushRx d r).rxovf = true ∧
        (h.pushRx d r).rxf = h.rxf := by
  have hidle (x : Hw) : ({ x with eng := .idle } : Hw).outstanding = x.txf.length + x.rxf.length := rfl
  have hbusy : h.outstanding = h.txf.length + 1 + h.rxf.length := by rw [Hw.outstanding, if_pos hb]
  rw [hidle, hbusy]
  rcases Hw.pushRx_cases d r h with ⟨-, e⟩ | e
  · refine .inl ⟨?_, by rw [e]⟩
    simp only [e, List.length_append, List.length_singleton]
    omega
  · refine .inr ⟨?_, by rw [e], by rw [e]⟩
    simp only [e]
    omega

/-- Whether a frame is in flight is a matter of the engine alone (R45). -/
theorem Hw.busy_congr {h h' : Hw} (he : h'.eng = h.eng) : h'.busy = h.busy := by
  unfold Hw.busy
  rw [he]

/-- While the engine stays, what is outstanding changes as the FIFOs do. -/
theorem Hw.outstanding_of_eng_eq {h h' : Hw} (he : h'.eng = h.eng) :
    h'.outstanding + (h.txf.length + h.rxf.length) = h.outstanding + (h'.txf.length + h'.rxf.length) := by
  rw [Hw.outstanding, Hw.outstanding, Hw.busy_congr he]
  omega

/-- A byte written is one more outstanding, or lost with `TXOVF`. -/
theorem Hw.outstanding_pushTx (d : Nat) (b : Byte) (h : Hw) :
    (h.pushTx d b).outstanding = h.outstanding + 1 ∧ (h.pushTx d b).txovf = h.txovf ∨
      (h.pushTx d b).outstanding = h.outstanding ∧ (h.pushTx d b).txovf = true := by
  rcases Hw.pushTx_cases d b h with e | e
  · refine .inl ⟨?_, by rw [e]⟩
    have := Hw.outstanding_of_eng_eq (h := h) (h' := { h with txf := h.txf ++ [b] }) rfl
    simp only [List.length_append, List.length_singleton] at this
    rw [e]
    omega
  · exact .inr ⟨by rw [e]; rfl, by rw [e]⟩

/-- A byte read is one fewer outstanding; with none to read `RXUDF` is set. -/
theorem Hw.outstanding_popRx (h : Hw) :
    h.popRx.2.outstanding + 1 = h.outstanding ∧ h.popRx.2.rxudf = h.rxudf ∨
      h.popRx.2.outstanding = h.outstanding ∧ h.popRx.2.rxudf = true := by
  cases hr : h.rxf with
  | cons b rest =>
    rw [Hw.popRx_cons hr]
    refine .inl ⟨?_, rfl⟩
    have := Hw.outstanding_of_eng_eq (h := h) (h' := { h with rxf := rest }) rfl
    simp only [hr, List.length_cons] at this
    dsimp only
    omega
  | nil =>
    rw [Hw.popRx_nil hr]
    exact .inr ⟨rfl, rfl⟩

/-- Settles O29: each step moves the byte it takes, or sets the flag that says it is lost. -/
theorem bytesInTheEngineAreConserved : Obligations.BytesInTheEngineAreConserved := by
  refine fun s t => ⟨fun h => ?start, fun r he h => ?complete, fun w hok h => ?push, fun hok h => ?pop⟩
  case start =>
    cases h
    exact ⟨s.hw.outstanding_frameStart, rfl⟩
  case complete =>
    cases h
    cases hs : s.hw.eng with
    | idle => exact absurd hs he
    | shifting b snap =>
      rw [State.frameComplete_shifting r hs]
      exact ⟨List.length_append, Hw.outstanding_endFrame (Hw.busy_iff.mpr ⟨b, snap, hs⟩) s.params.fifoDepth r⟩
  case push =>
    obtain ⟨-, h⟩ := asHost_eq_next (show writeRow .txd w s = .next t from h)
    rw [regWrite_txd (paramsOk hok)] at h
    cases h
    exact Hw.outstanding_pushTx _ _ s.hw
  case pop =>
    obtain ⟨-, h⟩ := asHost_eq_next (show readRow .rxd s = .next t from h)
    obtain ⟨w, hr, -⟩ := regRead_rxd (paramsOk hok)
    rw [hr] at h
    cases h
    exact s.hw.outstanding_popRx

end Sys2Proof.Machine
end

section
/-! PROOFS. A receive half with nothing to receive and nothing under way spins for ever (R175, R333, R365). -/

namespace Sys2Proof.Machine

theorem State.starved_iff {s : State} : s.starved = true ↔
    (s.hw.operational = false ∨ s.hw.txf = []) ∧ s.hw.rxf = [] ∧ s.hw.eng = .idle ∧ s.hw.noFlags = true ∧
      Params.ok s.params = true := by
  simp [State.starved, and_assoc]

/-- Whether the host is starved is a matter of Layer H and the parameters, and the counter does not matter. -/
theorem State.starved_of_tick {s t : State} (h : s.starved = true) (hw : t.hw = s.hw.tick) (hp : t.params = s.params) :
    t.starved = true := by
  rw [State.starved, hw, hp]
  exact h

/-- A starved engine has no step to take (R175). -/
theorem EngineMoved.hw_of_starved {s t : State} (h : EngineMoved s t) (hs : s.starved = true) : t.hw = s.hw := by
  obtain ⟨hoff, -, he, -, -⟩ := State.starved_iff.mp hs
  rcases h.step with ⟨hw, -⟩ | ⟨r, hw, -⟩
  · rw [hw, Hw.frameStart_disabled (hoff.imp_right .inr)]
  · rw [hw, State.frameComplete_idle r he]

/-- The two commands that have a receive half, at each access of it. -/
inductive ReceiveHalf : (PollPhase → Activity) → Prop
  | byteStep (w : Byte) : ReceiveHalf (.byteStep w .recv)
  | xfer (x : Xfer) (i : Nat) (w : Byte) : ReceiveHalf (.xfer x i w .recv)

theorem State.receiving_iff {s : State} : s.receiving = true ↔
    ∃ act txn p, ReceiveHalf act ∧ p ≠ .data ∧ s.host.running = some { act := act p, txn := txn } := by
  constructor
  · intro h
    unfold State.receiving at h
    split at h
    next w p txn hr => exact ⟨_, txn, p, .byteStep w, of_decide_eq_true h, hr⟩
    next x i w p txn hr => exact ⟨_, txn, p, .xfer x i w, of_decide_eq_true h, hr⟩
    next => cases h
  · rintro ⟨act, txn, p, hact, hp, hr⟩
    unfold State.receiving
    rw [hr]
    cases hact <;> exact decide_eq_true hp

/-- A poll of the receive half that is to go on leaves the command in that half. -/
theorem ReceiveHalf.access_again {act : PollPhase → Activity} (h : ReceiveHalf act) {p p' : PollPhase} {q : PollStep}
    {s t : State} (ha : recvAccess p s = .next (q, t)) (hq : afterRecv q = .again .recv p') :
    access (act p) s = .next (.more (act p'), t) := by
  cases h with
  | byteStep w => simp only [access, byteAccess, ha, andThen_next, hq, byteProgress]
  | xfer x i w => simp only [access, xferAccess, byteAccess, ha, andThen_next, hq]

/-- With no flag set and nothing received a receive poll never comes to its data access (R261). -/
theorem recvAccess_spins {s : State} (h : ParamsOk s.params) (hf : s.hw.noFlags = true) (hr : s.hw.rxf = []) {p : PollPhase}
    (hp : p ≠ .data) :
    ∃ q d p', recvAccess p s = .next (q, s.drawn d) ∧ afterRecv q = .again .recv p' ∧ p' ≠ .data := by
  obtain ⟨-, -, ho, hu⟩ := Hw.noFlags_iff.mp hf
  cases p with
  | flags =>
    obtain ⟨d, hd⟩ := recvAccess_flags h
    simp only [ho, hu, Bool.false_eq_true, if_false] at hd
    cases htog : s.params.together .rxovf .rxudf with
    | true =>
      rw [htog, if_pos rfl] at hd
      exact ⟨_, d, .count, hd, rfl, by decide⟩
    | false =>
      rw [htog, if_neg (by decide)] at hd
      exact ⟨_, d, .underflow, hd, rfl, by decide⟩
  | underflow =>
    obtain ⟨d, hd⟩ := recvAccess_underflow h
    rw [hu, if_neg (by decide)] at hd
    exact ⟨_, d, .count, hd, rfl, by decide⟩
  | count =>
    obtain ⟨d, hd⟩ := recvAccess_count h (by rw [hr]; exact Nat.zero_le _)
    rw [if_pos hr] at hd
    exact ⟨_, d, .flags, hd, rfl, by decide⟩
  | data => exact absurd rfl hp

/-- A host turn of a starved receive half is one more access of its poll. -/
theorem advance_starved {s : State} (hs : s.starved = true) (hr : s.receiving = true) :
    ∃ t, advance s = .next t ∧ t.starved = true ∧ t.receiving = true := by
  obtain ⟨act, txn, p, hact, hp, hrun⟩ := State.receiving_iff.mp hr
  obtain ⟨-, hrx, -, hf, hok⟩ := State.starved_iff.mp hs
  obtain ⟨q, d, p', ha, hq, hp'⟩ := recvAccess_spins (paramsOk hok) hf hrx hp
  refine ⟨(s.drawn d).withRunning (some { act := act p', txn := txn }), ?_, hs,
    State.receiving_iff.mpr ⟨act, txn, p', hact, hp', rfl⟩⟩
  rw [advance_some hrun rfl, hact.access_again ha hq, andThen_next, settle_more]

/-- Settles O46: whoever moves, Layer H stays but for the counter, and the host polls again. -/
theorem starvedReceiveNeverEnds : Obligations.StarvedReceiveNeverEnds := by
  intro s hs hr
  obtain ⟨act, txn, p, -, -, hrun⟩ := State.receiving_iff.mp hr
  have hreceiving {t : State} (h : t.host = s.host) : t.receiving = true := by
    rw [State.receiving, h]
    exact hr
  have hkind := run_kind (s := s) (by rw [hrun]; exact Option.some_ne_none _)
  generalize step s = o at hkind
  cases hkind with
  | host prog d =>
    obtain ⟨t, ht, hst, hre⟩ := advance_starved (s := { s with program := prog, draws := d }) hs hr
    exact ⟨t, ht, fun _ => ⟨hst, hre⟩⟩
  | engine t hm =>
    refine ⟨t, rfl, fun _ => ⟨?_, hreceiving hm.host⟩⟩
    rw [State.starved, hm.hw_of_starved hs, hm.params]
    exact hs
  | tick t hw hh hp => exact ⟨t, rfl, fun _ => ⟨State.starved_of_tick hs hw hp, hreceiving hh⟩⟩
  | reset t hreset => exact ⟨t, rfl, fun hn => absurd hreset (by rw [hn]; decide)⟩

end Sys2Proof.Machine
end

section
/-! PROOFS. Progress under fairness (R180, R211): a rule for what an agent's turns lead to, and with it that frames complete, that
bytes given to an operational engine are sent, and that a byte-step ends. -/

namespace Sys2Proof.Machine

/-! What a fair agent's turns lead to. -/

/-- Weak fairness as a proof rule: while `P` holds the agent is enabled, every step keeps `P` or reaches `Q`, and the agent's own
turn reaches `Q`; so `Q` is reached. -/
theorem WeaklyFair.leadsTo {enabled : State → Bool} {a : Turn} {σ : Nat → Turn} {f : Nat → State}
    (h : WeaklyFair enabled a σ f) {P Q : Nat → Prop} (hen : ∀ n, P n → enabled (f n) = true)
    (hstep : ∀ n, P n → P (n + 1) ∨ Q (n + 1)) (hturn : ∀ n, P n → σ n = a → Q (n + 1)) {n : Nat} (hn : P n) :
    ∃ m, n ≤ m ∧ Q m := by
  by_contra hno
  have hnever (m : Nat) (hm : n ≤ m) : ¬ Q m := fun hq => hno ⟨m, hm, hq⟩
  have hP (m : Nat) (hm : n ≤ m) : P m :=
    Nat.le_induction hn (fun k hk ih => (hstep k ih).resolve_right (hnever (k + 1) (Nat.le_succ_of_le hk))) m hm
  obtain ⟨m, hm, ha⟩ := h n fun m hm => hen m (hP m hm)
  exact hnever (m + 1) (Nat.le_succ_of_le hm) (hturn m (hP m hm) ha)

/-! The turns of a run. -/

/-- Only the engine's own turn touches the frame in flight and the history. -/
theorem takeTurn_eng_frames {u : Turn} {s t : State} (hu : u ≠ .engine) (h : takeTurn u s = .next t) :
    t.hw.eng = s.hw.eng ∧ t.frames = s.frames := by
  cases u with
  | host =>
    have hm : HostMoved s.write s t := advance_moved h
    exact ⟨hm.hw.cycle_eng.2, hm.frames⟩
  | engine => exact absurd rfl hu
  | counter => cases h; exact ⟨rfl, rfl⟩

theorem State.engineTurn_moved (s : State) : EngineMoved s s.engineTurn := by
  rcases s.engineTurn_cases with ⟨-, e⟩ | ⟨r, -, e⟩
  · exact .start e
  · exact .complete r e

/-- With a frame in flight the engine's turn ends it (R173). -/
theorem State.engineTurn_busy {s : State} (hb : s.hw.busy = true) :
    s.engineTurn.hw.eng = .idle ∧ s.engineTurn.frames.length = s.frames.length + 1 := by
  obtain ⟨b, snap, he⟩ := Hw.busy_iff.mp hb
  rcases s.engineTurn_cases with ⟨hi, -⟩ | ⟨r, -, e⟩
  · rw [hi] at he; cases he
  · rw [e, State.frameComplete_shifting r he]
    exact ⟨rfl, List.length_append⟩

theorem startEnabled_iff {s : State} :
    startEnabled s = true ↔ s.hw.operational = true ∧ s.hw.eng = .idle ∧ s.hw.txf ≠ [] := by
  simp [startEnabled, Hw.not_busy_iff, and_assoc]

/-- With FRAME_START enabled the engine's turn begins a frame (R171). -/
theorem State.engineTurn_start {s : State} (h : startEnabled s = true) :
    s.engineTurn.hw.busy = true ∧ s.engineTurn.frames = s.frames := by
  obtain ⟨ho, he, ht⟩ := startEnabled_iff.mp h
  obtain ⟨b, rest, ht⟩ := List.exists_cons_of_ne_nil ht
  have e : s.engineTurn = s.withHw s.hw.frameStart := by rw [State.engineTurn, he]
  rw [e, Hw.frameStart_enabled ho he ht]
  exact ⟨rfl, rfl⟩

/-! Frames complete, and bytes given are sent. -/

section

variable {σ : Nat → Turn} {f : Nat → State}

/-- What the engine's turn makes of a run's state. -/
theorem IsRun.engineTurn (hrun : IsRun σ f) {n : Nat} (hσ : σ n = .engine) : f (n + 1) = ((f n).drawn 1).engineTurn := by
  have h := hrun n
  rw [hσ] at h
  exact (Host.Outcome.next.inj h).symm

/-- A frame in flight is eventually complete. -/
theorem frame_completes (hrun : IsRun σ f) (hfair : WeaklyFair completeEnabled .engine σ f) {n : Nat}
    (hb : (f n).hw.busy = true) : ∃ m, n ≤ m ∧ (f m).hw.eng = .idle ∧ (f n).frames.length < (f m).frames.length := by
  have hturn (m : Nat) (hm : (f m).hw.busy = true ∧ (f m).frames.length = (f n).frames.length) (hσ : σ m = .engine) :
      (f (m + 1)).hw.eng = .idle ∧ (f n).frames.length < (f (m + 1)).frames.length := by
    rw [hrun.engineTurn hσ]
    obtain ⟨he, hl⟩ := State.engineTurn_busy (s := (f m).drawn 1) hm.1
    exact ⟨he, by rw [hl, ← hm.2]; exact Nat.lt_succ_self _⟩
  refine hfair.leadsTo (P := fun m => (f m).hw.busy = true ∧ (f m).frames.length = (f n).frames.length)
    (fun m hm => hm.1) (fun m hm => ?_) hturn ⟨hb, rfl⟩
  by_cases hσ : σ m = .engine
  · exact .inr (hturn m hm hσ)
  · obtain ⟨he, hfr⟩ := takeTurn_eng_frames hσ (hrun m)
    exact .inl ⟨(Hw.busy_congr he).trans hm.1, by rw [hfr]; exact hm.2⟩

/-- A frame that can start, and that nothing but the engine can keep from starting, is eventually in flight. -/
theorem frame_starts (hrun : IsRun σ f) (hfair : WeaklyFair startEnabled .engine σ f) {k : Nat}
    (hstart : ∀ m, (f m).hw.eng = .idle → (f m).frames.length = k → startEnabled (f m) = true) {n : Nat}
    (he : (f n).hw.eng = .idle) (hk : (f n).frames.length = k) :
    ∃ m, n ≤ m ∧ (f m).hw.busy = true ∧ (f m).frames.length = k := by
  have hturn (m : Nat) (hm : (f m).hw.eng = .idle ∧ (f m).frames.length = k) (hσ : σ m = .engine) :
      (f (m + 1)).hw.busy = true ∧ (f (m + 1)).frames.length = k := by
    rw [hrun.engineTurn hσ]
    obtain ⟨hb, hfr⟩ := State.engineTurn_start (s := (f m).drawn 1) (hstart m hm.1 hm.2)
    exact ⟨hb, by rw [hfr]; exact hm.2⟩
  refine hfair.leadsTo (P := fun m => (f m).hw.eng = .idle ∧ (f m).frames.length = k)
    (fun m hm => hstart m hm.1 hm.2) (fun m hm => ?_) hturn ⟨he, hk⟩
  by_cases hσ : σ m = .engine
  · exact .inr (hturn m hm hσ)
  · obtain ⟨he', hfr⟩ := takeTurn_eng_frames hσ (hrun m)
    exact .inl ⟨he'.trans hm.1, by rw [hfr]; exact hm.2⟩

end

/-- A host access only adds to the bytes that wait, unless it fires `TXCLR`. -/
theorem Touch.txf_prefix {p : Params} {wr : Option (Field × Word)} {h h' : Hw} (t : Touch p wr h h')
    (hf : fires p .txclr wr = false) : h.txf <+: h'.txf := by
  cases t with
  | same => exact List.prefix_rfl
  | pop => unfold Hw.popRx; split <;> exact List.prefix_rfl
  | write f w e _ =>
    subst e
    refine Hw.storeU_prop (q := fun x => h.txf <+: x.txf) ?_ (fun _ hq => hq)
    refine writeFields_keeps (fun x => h.txf <+: x.txf) List.prefix_rfl fun x hq g hg => hq.trans ?_
    cases g with
    | txd =>
      rcases Hw.pushTx_cases p.fifoDepth ((p.get .txd w).setWidth 8) x with e | e <;> rw [Hw.writeField, e]
      · exact List.prefix_append _ _
    | txclr =>
      have hoff := fires_false hf hg
      simp only [Hw.writeField, hoff, Bool.false_eq_true, if_false]
      exact List.prefix_rfl
    | rxclr => simp only [Hw.writeField]; split <;> exact List.prefix_rfl
    | _ => exact List.prefix_rfl

/-- The bytes sent are the first of those given. -/
theorem State.sent_prefix_givenBytes (s : State) : s.frames.map FrameRecord.tx <+: s.givenBytes :=
  (List.prefix_append _ _).trans (List.prefix_append _ _)

/-- The engine's turn moves a byte along and loses none (R176). -/
theorem State.givenBytes_engineTurn (s : State) : s.engineTurn.givenBytes = s.givenBytes := by
  rcases s.engineTurn_cases with ⟨he, e⟩ | ⟨r, he, e⟩
  · rw [e]
    rcases s.hw.frameStart_cases with e | ⟨b, rest, -, -, ht, e⟩ <;> rw [e]
    · rfl
    · simp [State.givenBytes, he, ht]
  · cases hs : s.hw.eng with
    | idle => exact absurd hs he
    | shifting b snap =>
      rw [e, State.frameComplete_shifting r hs]
      rcases Hw.pushRx_cases s.params.fifoDepth r s.hw with ⟨-, e⟩ | e <;> simp [State.givenBytes, hs, e]

/-- A turn only adds to the bytes given, unless it fires `TXCLR`. -/
theorem takeTurn_givenBytes {u : Turn} {s t : State} (h : takeTurn u s = .next t)
    (hf : fires s.params .txclr s.write = false) : s.givenBytes <+: t.givenBytes := by
  cases u with
  | host =>
    have hm : HostMoved s.write s t := advance_moved h
    rw [State.givenBytes, State.givenBytes, hm.hw.cycle_eng.2, hm.frames]
    exact (List.prefix_append_right_inj _).mpr (hm.hw.txf_prefix hf)
  | engine => cases h; rw [s.givenBytes_engineTurn]
  | counter => cases h; exact List.prefix_rfl

/-- With more bytes given than sent and no frame in flight, a byte waits. -/
theorem State.txf_ne_nil_of_unsent {s : State} (h : s.frames.length < s.givenBytes.length) (he : s.hw.eng = .idle) :
    s.hw.txf ≠ [] := by
  intro ht
  simp [State.givenBytes, he, ht] at h

/-- With an engine that stays operational and no `TXCLR`, what has been given is eventually sent, in order. -/
theorem givenBytes_sent {σ : Nat → Turn} {f : Nat → State} (h : FairRun σ f) (ho : ∀ n, (f n).hw.operational = true)
    (hclr : ∀ n, fires (f n).params .txclr (f n).write = false) :
    ∃ n, (f 0).givenBytes <+: (f n).frames.map FrameRecord.tx := by
  obtain ⟨hrun, hstart, hcomplete, -⟩ := h
  have hgiven (n : Nat) : (f 0).givenBytes <+: (f n).givenBytes := by
    induction n with
    | zero => exact List.prefix_rfl
    | succ n ih => exact ih.trans (takeTurn_givenBytes (s := (f n).drawn 1) (hrun n) (hclr n))
  have hsent (k : Nat) (hk : k ≤ (f 0).givenBytes.length) : ∃ n, k ≤ (f n).frames.length := by
    induction k with
    | zero => exact ⟨0, Nat.zero_le _⟩
    | succ k ih =>
      obtain ⟨n, hn⟩ := ih (Nat.le_of_succ_le hk)
      rcases Nat.eq_or_lt_of_le hn with hn | hn
      · have hbusy : ∃ m, (f m).hw.busy = true ∧ (f m).frames.length = k := by
          cases hb : (f n).hw.busy with
          | true => exact ⟨n, hb, hn.symm⟩
          | false =>
            obtain ⟨m, -, hm⟩ := frame_starts hrun hstart (fun m he hl => startEnabled_iff.mpr ⟨ho m, he,
              State.txf_ne_nil_of_unsent (by rw [hl]; exact Nat.lt_of_lt_of_le hk (hgiven m).length_le) he⟩)
              (Hw.not_busy_iff.mp hb) hn.symm
            exact ⟨m, hm⟩
        obtain ⟨m, hb, hl⟩ := hbusy
        obtain ⟨m', -, -, hlt⟩ := frame_completes hrun hcomplete hb
        exact ⟨m', hl ▸ hlt⟩
      · exact ⟨n, hn⟩
  obtain ⟨n, hn⟩ := hsent _ (Nat.le_refl _)
  exact ⟨n, List.prefix_of_prefix_length_le (hgiven n) (f n).sent_prefix_givenBytes (by rw [List.length_map]; exact hn)⟩

end Sys2Proof.Machine
end

section
/-! PROOFS. A byte-step ends in a fair run (R180, R263, log 10): a bound that no turn raises and that the turn of one agent, the
engine while it has work and the host when it has none, always lowers. -/

namespace Sys2Proof.Machine

/-! What is left to do. -/

/-- The steps the engine still has to take for the bytes that wait and the one in flight. -/
def Hw.engineWork (h : Hw) : Nat :=
  2 * h.txf.length + (if h.busy then 1 else 0)

theorem Hw.engineWork_eq_zero {h : Hw} : h.engineWork = 0 ↔ h.eng = .idle ∧ h.txf = [] := by
  rw [← Hw.not_busy_iff, ← List.length_eq_zero_iff, Hw.engineWork]
  cases h.busy <;> simp

theorem Hw.engineWork_congr {h h' : Hw} (he : h'.eng = h.eng) (ht : h'.txf = h.txf) : h'.engineWork = h.engineWork := by
  rw [Hw.engineWork, Hw.engineWork, Hw.busy_congr he, ht]

theorem Hw.engineWork_le {h : Hw} {d : Nat} (ht : h.txf.length ≤ d) : h.engineWork ≤ 2 * d + 1 := by
  unfold Hw.engineWork
  split <;> omega

/-- The turn of an operational engine takes one step of its work, if it has any. -/
theorem State.engineTurn_work {s : State} (ho : s.hw.operational = true) :
    s.engineTurn.hw.engineWork + 1 = s.hw.engineWork ∨ s.hw.engineWork = 0 ∧ s.engineTurn = s := by
  rcases s.engineTurn_cases with ⟨he, e⟩ | ⟨r, he, e⟩
  · cases ht : s.hw.txf with
    | nil =>
      refine .inr ⟨Hw.engineWork_eq_zero.mpr ⟨he, ht⟩, ?_⟩
      rw [e, Hw.frameStart_disabled (.inr (.inr ht))]
      rfl
    | cons b rest =>
      left
      rw [e, State.withHw_hw, Hw.frameStart_enabled ho he ht]
      simp only [Hw.engineWork, Hw.busy, he, ht, List.length_cons, if_true, Bool.false_eq_true, if_false]
      omega
  · cases hs : s.hw.eng with
    | idle => exact absurd hs he
    | shifting b snap =>
      left
      rw [e, State.frameComplete_shifting r hs]
      rcases Hw.pushRx_cases s.params.fifoDepth r s.hw with ⟨-, e⟩ | e <;>
        simp only [e, Hw.engineWork, Hw.busy, hs, if_true, Bool.false_eq_true, if_false]

/-- The accesses a poll still has to make after this one. -/
def PollPhase.accessesLeft : PollPhase → Nat
  | .flags => 3
  | .underflow => 2
  | .count => 1
  | .data => 0

/-- What a poll that has room, or a byte, comes to after an access that is not its last: an error, or a later access. One
without, where `wait` says so, may come to WouldBlock. -/
inductive PollGoesOn (p : PollPhase) (wait : Prop) : PollStep → Prop
  | error (e : Err) : PollGoesOn p wait (.result (.err e))
  | again (p' : PollPhase) : p'.accessesLeft < p.accessesLeft → PollGoesOn p wait (.again p')
  | wouldBlock : wait → PollGoesOn p wait (.result .wouldBlock)

/-- The read of the two flags, whichever way the `LAYOUT` has put them. -/
theorem pollGoesOn_flags (wait : Prop) (ovf together udf : Bool) (eo eu : Err) : PollGoesOn .flags wait
    (if ovf then .result (.err eo) else if together then (if udf then .result (.err eu) else .again .count)
      else .again .underflow) := by
  split_ifs
  · exact .error eo
  · exact .error eu
  · exact .again .count (by decide)
  · exact .again .underflow (by decide)

theorem pollGoesOn_underflow (wait : Prop) (udf : Bool) (eu : Err) :
    PollGoesOn .underflow wait (if udf then .result (.err eu) else .again .count) := by
  split_ifs
  · exact .error eu
  · exact .again .count (by decide)

theorem pollGoesOn_count (wait : Prop) [Decidable wait] :
    PollGoesOn .count wait (if wait then .result .wouldBlock else .again .data) := by
  split_ifs with h
  · exact .wouldBlock h
  · exact .again .data (by decide)

/-- A send poll waits while the transmit FIFO is full (R260). -/
theorem sendAccess_goesOn {s : State} (h : ParamsOk s.params) (ht : s.hw.txf.length ≤ s.params.fifoDepth) (w : Byte)
    {p : PollPhase} (hp : p ≠ .data) :
    ∃ q d, sendAccess w p s = .next (q, s.drawn d) ∧ PollGoesOn p (s.hw.txf.length = s.params.fifoDepth) q := by
  cases p with
  | flags =>
    obtain ⟨d, hd⟩ := sendAccess_flags h w
    exact ⟨_, d, hd, pollGoesOn_flags _ _ _ _ _ _⟩
  | underflow =>
    obtain ⟨d, hd⟩ := sendAccess_underflow h w
    exact ⟨_, d, hd, pollGoesOn_underflow _ _ _⟩
  | count =>
    obtain ⟨d, hd⟩ := sendAccess_count h ht w
    exact ⟨_, d, hd, pollGoesOn_count _⟩
  | data => exact absurd rfl hp

/-- A receive poll waits while nothing has been received (R261). -/
theorem recvAccess_goesOn {s : State} (h : ParamsOk s.params) (hr : s.hw.rxf.length ≤ s.params.fifoDepth)
    {p : PollPhase} (hp : p ≠ .data) :
    ∃ q d, recvAccess p s = .next (q, s.drawn d) ∧ PollGoesOn p (s.hw.rxf = []) q := by
  cases p with
  | flags =>
    obtain ⟨d, hd⟩ := recvAccess_flags h
    exact ⟨_, d, hd, pollGoesOn_flags _ _ _ _ _ _⟩
  | underflow =>
    obtain ⟨d, hd⟩ := recvAccess_underflow h
    exact ⟨_, d, hd, pollGoesOn_underflow _ _ _⟩
  | count =>
    obtain ⟨d, hd⟩ := recvAccess_count h hr
    exact ⟨_, d, hd, pollGoesOn_count _⟩
  | data => exact absurd rfl hp

/-! A byte-step on an operational engine. -/

/-- BYTE_STEP runs on an operational engine and is at this access; in its receive half the byte it has pushed, or one before it, is
still outstanding. -/
structure ByteStepping (w : Byte) (half : Half) (p : PollPhase) (s : State) : Prop where
  params      : ParamsOk s.params
  tx          : s.hw.txf.length ≤ s.params.fifoDepth
  rx          : s.hw.rxf.length ≤ s.params.fifoDepth
  operational : s.hw.operational = true
  running     : s.host.running = some { act := .byteStep w half p, txn := none }
  outstanding : half = .recv → 0 < s.hw.outstanding

/-- When the engine has no work, the poll does not wait: the transmit FIFO has room, and a byte outstanding has been received. -/
theorem ByteStepping.no_wait {w : Byte} {half : Half} {p : PollPhase} {s : State} (h : ByteStepping w half p s)
    (hq : s.hw.engineWork = 0) : s.hw.txf.length ≠ s.params.fifoDepth ∧ (half = .recv → s.hw.rxf ≠ []) := by
  obtain ⟨he, ht⟩ := Hw.engineWork_eq_zero.mp hq
  refine ⟨?_, fun hh hr => ?_⟩
  · rw [ht, List.length_nil]
    exact Nat.ne_of_lt h.params.depth_pos
  · have := h.outstanding hh
    rw [Hw.outstanding, Hw.busy, he, ht, hr] at this
    exact absurd this (by decide)

/-- An access that is not the last of its half: the poll goes on in the same half, nearer to its end where it need not wait, or ends
the byte-step with an error. -/
theorem ByteStepping.byteAccess_goesOn {w : Byte} {half : Half} {p : PollPhase} {s : State} (h : ByteStepping w half p s)
    (hp : p ≠ .data) :
    ∃ q d, byteAccess w half p s = .next (q, s.drawn d) ∧ ((∃ e, q = .error e) ∨
      ∃ p', q = .again half p' ∧ (s.hw.engineWork = 0 → p'.accessesLeft < p.accessesLeft)) := by
  cases half with
  | send =>
    obtain ⟨q, d, ha, hq⟩ := sendAccess_goesOn h.params h.tx w hp
    refine ⟨afterSend q, d, by rw [byteAccess, ha, andThen_next], ?_⟩
    cases hq with
    | error e => exact .inl ⟨e, rfl⟩
    | again p' hlt => exact .inr ⟨p', rfl, fun _ => hlt⟩
    | wouldBlock hwait => exact .inr ⟨.flags, rfl, fun hz => absurd hwait (h.no_wait hz).1⟩
  | recv =>
    obtain ⟨q, d, ha, hq⟩ := recvAccess_goesOn h.params h.rx hp
    refine ⟨afterRecv q, d, by rw [byteAccess, ha, andThen_next], ?_⟩
    cases hq with
    | error e => exact .inl ⟨e, rfl⟩
    | again p' hlt => exact .inr ⟨p', rfl, fun _ => hlt⟩
    | wouldBlock hwait => exact .inr ⟨.flags, rfl, fun hz => absurd hwait ((h.no_wait hz).2 rfl)⟩

theorem ByteStepping.advance_eq {w : Byte} {half : Half} {p : PollPhase} {s t : State} {q : ByteProgress}
    (h : ByteStepping w half p s) (ha : byteAccess w half p s = .next (q, t)) :
    advance s = settle (byteProgress w q) none t := by
  rw [advance_some h.running rfl, access, ha]
  rfl

/-- The push of the send half leaves a byte outstanding, whether it stores its own or the FIFO is full. -/
theorem ByteStepping.pushed {w : Byte} {s : State} (h : ByteStepping w .send .data s) :
    ByteStepping w .recv .flags ((s.withHw (s.hw.pushTx s.params.fifoDepth w)).withRunning
      (some { act := .byteStep w .recv .flags, txn := none })) := by
  have hpos := h.params.depth_pos
  rcases Nat.lt_or_ge s.hw.txf.length s.params.fifoDepth with hlt | hge
  · rw [Hw.pushTx_room w hlt]
    refine ⟨h.params, ?_, h.rx, h.operational, rfl, fun _ => ?_⟩
    · rw [State.withRunning_hw, State.withHw_hw, List.length_append]
      exact hlt
    · simp only [State.withRunning_hw, State.withHw_hw, Hw.outstanding, List.length_append, List.length_singleton]
      omega
  · rw [Hw.pushTx_full w hge]
    refine ⟨h.params, h.tx, h.rx, h.operational, rfl, fun _ => ?_⟩
    simp only [State.withRunning_hw, State.withHw_hw, Hw.outstanding]
    omega

/-- A host turn of a byte-step answers: it ends the byte-step, goes on with the poll, or goes over to the receive half. -/
theorem ByteStepping.advance_cases {w : Byte} {half : Half} {p : PollPhase} {s : State} (h : ByteStepping w half p s) :
    ∃ t, advance s = .next t ∧ t.params = s.params ∧ (t.host.running = none ∨
      (∃ p', ByteStepping w half p' t ∧ t.hw = s.hw ∧
        (s.hw.engineWork = 0 → p'.accessesLeft < p.accessesLeft)) ∨
      half = .send ∧ ByteStepping w .recv .flags t) := by
  by_cases hp : p = .data
  · subst hp
    cases half with
    | send =>
      have ha : byteAccess w .send .data s =
          .next (.again .recv .flags, s.withHw (s.hw.pushTx s.params.fifoDepth w)) := by
        rw [byteAccess, sendAccess_data h.params, andThen_next]
        rfl
      exact ⟨_, h.advance_eq ha, rfl, .inr (.inr ⟨rfl, h.pushed⟩)⟩
    | recv =>
      have ha : byteAccess w .recv .data s =
          .next (.byte (s.hw.popRx.1.getD (s.free 8 1)), (s.withHw s.hw.popRx.2).drawn 2) := by
        rw [byteAccess, recvAccess_data h.params, andThen_next]
        rfl
      exact ⟨_, h.advance_eq ha, rfl, .inl rfl⟩
  · obtain ⟨q, d, ha, ⟨e, rfl⟩ | ⟨p', rfl, hlt⟩⟩ := h.byteAccess_goesOn hp
    · exact ⟨_, h.advance_eq ha, rfl, .inl rfl⟩
    · refine ⟨_, h.advance_eq ha, rfl, .inr (.inl ⟨p', ?_, rfl, hlt⟩)⟩
      exact ⟨h.params, h.tx, h.rx, h.operational, rfl, h.outstanding⟩

/-- The engine leaves the settings that make it operational. -/
theorem EngineMoved.operational {s t : State} (h : EngineMoved s t) : t.hw.operational = s.hw.operational := by
  rcases h.hw_frames_cases with ⟨hw, -⟩ | ⟨b, rest, -, hw, -⟩ | ⟨r, record, hw, -⟩
  · rw [hw]
  · rw [hw]; rfl
  · rcases Hw.pushRx_cases s.params.fifoDepth r s.hw with ⟨-, e⟩ | e <;> (rw [hw, e]; rfl)

/-- The engine never takes the last outstanding byte away: where it loses one the receive FIFO is full (R173). -/
theorem State.engineTurn_outstanding {s : State} (hd : 0 < s.params.fifoDepth) (h : 0 < s.hw.outstanding) :
    0 < s.engineTurn.hw.outstanding := by
  rcases s.engineTurn_cases with ⟨-, e⟩ | ⟨r, he, e⟩
  · rw [e, State.withHw_hw, Hw.outstanding_frameStart]
    exact h
  · cases hs : s.hw.eng with
    | idle => exact absurd hs he
    | shifting b snap =>
      rw [e, State.frameComplete_shifting r hs]
      rcases Nat.lt_or_ge s.hw.rxf.length s.params.fifoDepth with hlt | hge
      · rw [Hw.pushRx_room r hlt]
        simp only [Hw.outstanding, List.length_append, List.length_singleton]
        omega
      · rw [Hw.pushRx_full r hge]
        simp only [Hw.outstanding]
        omega

/-- The engine's turn leaves the byte-step where it is. -/
theorem ByteStepping.engineTurn {w : Byte} {half : Half} {p : PollPhase} {s : State} (h : ByteStepping w half p s) :
    ByteStepping w half p s.engineTurn := by
  have hm := s.engineTurn_moved
  obtain ⟨htx, hrx⟩ := hm.lengths ⟨h.tx, h.rx⟩
  rw [← hm.params] at htx hrx
  exact ⟨by rw [hm.params]; exact h.params, htx, hrx, hm.operational.trans h.operational, by rw [hm.host]; exact h.running,
    fun hh => State.engineTurn_outstanding h.params.depth_pos (h.outstanding hh)⟩

/-! The bound. -/

/-- A bound on the turns that a byte-step still needs from the agent it waits for: the engine's work while there is any, and then
the accesses of its poll; all of the receive half lies below the send half. -/
def byteStepBound (half : Half) (p : PollPhase) (s : State) : Nat :=
  (match half with
    | .send => 2 * s.params.fifoDepth + 5
    | .recv => 0) +
  if s.hw.engineWork = 0 then p.accessesLeft else s.hw.engineWork + 3

theorem PollPhase.accessesLeft_le (p : PollPhase) : p.accessesLeft ≤ 3 := by
  cases p <;> decide

/-- The agent a byte-step waits for. -/
def Hw.awaited (h : Hw) : Turn :=
  if h.engineWork = 0 then .host else .engine

/-- A byte-step runs, with this bound on what is left of it. -/
def ByteStepWithin (w : Byte) (k : Nat) (s : State) : Prop :=
  ∃ half p, ByteStepping w half p s ∧ byteStepBound half p s = k

/-- A free turn uses up a free value, which no byte-step rests on. -/
theorem ByteStepWithin.drawn {w : Byte} {k : Nat} {s : State} (h : ByteStepWithin w k s) (d : Nat) :
    ByteStepWithin w k (s.drawn d) := by
  obtain ⟨half, p, h, hk⟩ := h
  exact ⟨half, p, ⟨h.params, h.tx, h.rx, h.operational, h.running, h.outstanding⟩, hk⟩

/-- One turn of a byte-step: it ends, or its bound falls, or everything that the bound rests on is as before, and then it was not
the turn of the agent it waits for. -/
theorem ByteStepWithin.turn {w : Byte} {k : Nat} {s t : State} {u : Turn} (h : ByteStepWithin w k s)
    (ht : takeTurn u s = .next t) :
    (t.host.running = none ∨ ∃ j, j < k ∧ ByteStepWithin w j t) ∨
      u ≠ s.hw.awaited ∧ ByteStepWithin w k t ∧ t.hw.eng = s.hw.eng ∧ t.hw.txf = s.hw.txf := by
  obtain ⟨half, p, h, rfl⟩ := h
  have hleft := p.accessesLeft_le
  unfold Hw.awaited
  cases u with
  | counter =>
    cases ht
    refine .inr ⟨by split_ifs <;> decide, ⟨half, p, ?_, rfl⟩, rfl, rfl⟩
    exact ⟨h.params, h.tx, h.rx, h.operational, h.running, h.outstanding⟩
  | engine =>
    cases ht
    rcases State.engineTurn_work h.operational with hw | ⟨hz, e⟩
    · refine .inl (.inr ⟨_, ?_, half, p, h.engineTurn, rfl⟩)
      unfold byteStepBound
      rw [s.engineTurn_moved.params]
      split_ifs <;> omega
    · rw [e]
      exact .inr ⟨by rw [if_pos hz]; decide, ⟨half, p, h, rfl⟩, rfl, rfl⟩
  | host =>
    obtain ⟨t', ht', hparams, hcases⟩ := h.advance_cases
    rw [takeTurn, ht'] at ht
    cases ht
    rcases hcases with hnone | ⟨p', hp', hhw, hlt⟩ | ⟨rfl, hrecv⟩
    · exact .inl (.inl hnone)
    · by_cases hz : s.hw.engineWork = 0
      · refine .inl (.inr ⟨_, ?_, half, p', hp', rfl⟩)
        unfold byteStepBound
        rw [hparams, hhw, if_pos hz, if_pos hz]
        exact Nat.add_lt_add_left (hlt hz) _
      · refine .inr ⟨by rw [if_neg hz]; decide, ⟨half, p', hp', ?_⟩, by rw [hhw], by rw [hhw]⟩
        unfold byteStepBound
        rw [hparams, hhw, if_neg hz, if_neg hz]
    · refine .inl (.inr ⟨_, ?_, .recv, .flags, hrecv, rfl⟩)
      have hwork := Hw.engineWork_le hrecv.tx
      rw [hparams] at hwork
      unfold byteStepBound
      simp only [PollPhase.accessesLeft]
      split_ifs <;> omega

/-- A byte-step ends in a run that is fair to the engine's two steps and to the host: the agent it waits for stays enabled until the
bound falls. -/
theorem byteStep_ends {σ : Nat → Turn} {f : Nat → State} (h : FairRun σ f) (hhost : HostFair σ f) {w : Byte} (k : Nat) :
    ∀ n, ByteStepWithin w k (f n) → ∃ m, (f m).host.running = none := by
  obtain ⟨hrun, hstart, hcomplete, -⟩ := h
  induction k using Nat.strong_induction_on with
  | _ k ih =>
    intro n hn
    have hleads {enabled : State → Bool} {a : Turn} (hfair : WeaklyFair enabled a σ f) (ha : (f n).hw.awaited = a)
        (hen : ∀ s, ByteStepWithin w k s → s.hw.eng = (f n).hw.eng → s.hw.txf = (f n).hw.txf → enabled s = true) :
        ∃ m, n ≤ m ∧ ((f m).host.running = none ∨ ∃ j, j < k ∧ ByteStepWithin w j (f m)) := by
      refine hfair.leadsTo
        (P := fun m => ByteStepWithin w k (f m) ∧ (f m).hw.eng = (f n).hw.eng ∧ (f m).hw.txf = (f n).hw.txf)
        (fun m ⟨hm, he, ht⟩ => hen _ hm he ht) (fun m ⟨hm, he, ht⟩ => ?_) (fun m ⟨hm, he, ht⟩ hσ => ?_) ⟨hn, rfl, rfl⟩
      · rcases (hm.drawn 1).turn (hrun m) with hless | ⟨-, hm', he', ht'⟩
        · exact .inr hless
        · exact .inl ⟨hm', he'.trans he, ht'.trans ht⟩
      · refine ((hm.drawn 1).turn (hrun m)).resolve_right fun hstays => hstays.1 ?_
        rw [hσ, ← ha, Hw.awaited, Hw.awaited, ← Hw.engineWork_congr he ht]
        rfl
    have hnext : ∃ m, n ≤ m ∧ ((f m).host.running = none ∨ ∃ j, j < k ∧ ByteStepWithin w j (f m)) := by
      by_cases hz : (f n).hw.engineWork = 0
      · refine hleads hhost (if_pos hz) fun s ⟨_, _, hs, _⟩ _ _ => ?_
        rw [hs.running]
        rfl
      · cases hb : (f n).hw.busy with
        | true =>
          exact hleads hcomplete (if_neg hz) fun s _ he _ => (Hw.busy_congr he).trans hb
        | false =>
          have hidle := Hw.not_busy_iff.mp hb
          exact hleads hstart (if_neg hz) fun s ⟨_, _, hs, _⟩ he ht => startEnabled_iff.mpr
            ⟨hs.operational, he.trans hidle, fun hnil => hz (Hw.engineWork_eq_zero.mpr ⟨hidle, ht.symm.trans hnil⟩)⟩
    obtain ⟨m, -, hnone | ⟨j, hj, hm⟩⟩ := hnext
    · exact ⟨m, hnone⟩
    · exact ih j hj m hm

/-- Settles O56: the rule of weak fairness for one frame, for the bytes given, and for the byte-step's bound. -/
theorem progressUnderFairness : Obligations.ProgressUnderFairness := by
  intro σ f h
  refine ⟨fun he => ?frame, fun ho hclr => ?bytes, fun w hhost hwf ho _ hr => ?byteStep⟩
  case frame =>
    have hb : (f 0).hw.busy = true := by
      rw [← Bool.not_eq_false, Hw.not_busy_iff]
      exact he
    obtain ⟨hrun, -, hcomplete, -⟩ := h
    obtain ⟨m, -, hm⟩ := frame_completes hrun hcomplete hb
    exact ⟨m, hm⟩
  case bytes =>
    refine givenBytes_sent h ho fun n => ?_
    cases hw : (f n).write with
    | none => rfl
    | some x => exact hclr n x hw
  case byteStep =>
    obtain ⟨hok, htx, hrx⟩ := State.wf_fifos hwf
    exact byteStep_ends h hhost _ 0 ⟨.send, .flags, ⟨hok, htx, hrx, ho, hr, nofun⟩, rfl⟩

end Sys2Proof.Machine
end

section
/-! PROOFS. The counter and CycleDelay (42_cycle_delay): one access of a `CounterRead()` in each of its forms, the high, low, high of
R212 with ticks between, and the delays, which all are one command on a count of cycles. -/

namespace Sys2Proof.Machine

/-! What a command comes to after an access, no transaction running it. -/

/-- A command comes to the same whichever access it made last. -/
theorem settle_withRunning (p : Progress) (R : Option Running) (s : State) :
    settle p none (s.withRunning R) = settle p none s := by
  cases p with
  | more a => rfl
  | done r => rw [settle_done, settle_done]; rfl
  | hostEnds => rfl

/-- A result where no command runs any more is all that is left of the command. -/
theorem settle_done_free {s : State} (h : s.host.running = none) (r : Ret) : settle (.done r) none s = .next (s.withRet r) := by
  simp only [settle_done, State.finish, State.withRunning, State.withRet, h]

/-- A read of a delay after its capture: the delay ends when more than its count has passed (R203). -/
theorem settle_delayProgress (n st v : DWord) (s : State) :
    settle (delayProgress n (some st) v) none s = .next (if n.toNat < (v - st).toNat then (s.withRunning none).withRet .unit
      else s.withRunning (some { act := .delay n (some st) .first, txn := none })) := by
  simp only [delayProgress, BitVec.lt_def]
  split <;> rfl

/-- A command that goes on at the same access is as it was. -/
theorem State.withRunning_self {s : State} {R : Option Running} (h : s.host.running = R) : s.withRunning R = s := by
  subst h
  rfl

/-! One access of a `CounterRead()` (R148, R212). -/

section

variable {s : State}

theorem counterAccess_atomic64 (h : s.params.counterRead = .atomic64) (c : CounterPhase) :
    counterAccess c s = .value s.hw.cycle := by
  rw [counterAccess.eq_def, h]

theorem counterAccess_first (h : s.params.counterRead = .split32) :
    counterAccess .first s = .again (.low (s.hw.cycle.extractLsb' 32 32)) := by
  rw [counterAccess, h]
  rfl

theorem counterAccess_low (h : s.params.counterRead = .split32) (hi : Word) :
    counterAccess (.low hi) s = .again (.high hi (s.hw.cycle.extractLsb' 0 32)) := by
  rw [counterAccess, h]
  rfl

theorem counterAccess_high (h : s.params.counterRead = .split32) (hi lo : Word) :
    counterAccess (.high hi lo) s =
      if s.hw.cycle.extractLsb' 32 32 = hi then .value (hi ++ lo) else .again .first := by
  rw [counterAccess, h]
  rfl

variable {mk : CounterPhase → Activity} {fin : DWord → Progress} {txn : Option Txn} {c : CounterPhase}

/-- A host turn in the middle of a counter read. -/
theorem ReadsCounter.advance_again (hm : ReadsCounter mk fin) {c' : CounterPhase}
    (hr : s.host.running = some { act := mk c, txn := txn }) (hc : counterAccess c s = .again c') :
    advance s = .next (s.withRunning (some { act := mk c', txn := txn })) := by
  rw [advance_some hr rfl, hm, hc]
  rfl

/-- The host turn that ends a counter read. -/
theorem ReadsCounter.advance_value (hm : ReadsCounter mk fin) {v : DWord}
    (hr : s.host.running = some { act := mk c, txn := txn }) (hc : counterAccess c s = .value v) :
    advance s = settle (fin v) txn s := by
  rw [advance_some hr rfl, hm, hc]
  rfl

/-- Under `atomic64` a command begins with its whole counter read. -/
theorem ReadsCounter.start_atomic64 (hm : ReadsCounter mk fin) (h : s.params.counterRead = .atomic64) :
    start (mk .first) s = settle (fin s.hw.cycle) none s := by
  rw [start, hm.advance_value rfl (counterAccess_atomic64 (by exact h) _), settle_withRunning]
  rfl

/-- Under `split32` a command begins with its first high read. -/
theorem ReadsCounter.start_split32 (hm : ReadsCounter mk fin) (h : s.params.counterRead = .split32) :
    start (mk .first) s =
      .next (s.withRunning (some { act := mk (.low (s.hw.cycle.extractLsb' 32 32)), txn := none })) :=
  hm.advance_again rfl (counterAccess_first (by exact h))

/-- The host turn of the second high read: the value, or the reads again (R212). -/
theorem ReadsCounter.advance_high (hm : ReadsCounter mk fin) (h : s.params.counterRead = .split32) {hi lo : Word}
    (hr : s.host.running = some { act := mk (.high hi lo), txn := txn }) :
    advance s = if s.hw.cycle.extractLsb' 32 32 = hi then settle (fin (hi ++ lo)) txn s
      else .next (s.withRunning (some { act := mk .first, txn := txn })) := by
  by_cases he : s.hw.cycle.extractLsb' 32 32 = hi
  · rw [if_pos he]
    exact hm.advance_value hr (by rw [counterAccess_high h, if_pos he])
  · rw [if_neg he]
    exact hm.advance_again hr (by rw [counterAccess_high h, if_neg he])

end

/-! The commands that are one counter read, or several. -/

section

variable {s : State} (hf : hostFree s = true)

include hf

theorem exec_now : exec .now s = start (.now .first) s :=
  asHost_free hf _

theorem exec_elapsedSince (st : DWord) : exec (.elapsedSince st) s = start (.elapsedSince st .first) s :=
  asHost_free hf _

theorem exec_delayCycles (n : DWord) : exec (.delayCycles n) s = start (.delay n none .first) s :=
  asHost_free hf _

end

/-! The high, low, high of R212. -/

/-- Two high reads less than 2^32 ticks apart agree only if the low half did not carry between them; then the first high half is that
of the counter at any low read in between. -/
theorem split_value {x : DWord} {n m : Nat} (hs : n + m < 4294967296)
    (h : (x + BitVec.ofNat 64 (n + m)).extractLsb' 32 32 = x.extractLsb' 32 32) :
    x.extractLsb' 32 32 ++ (x + BitVec.ofNat 64 n).extractLsb' 0 32 = x + BitVec.ofNat 64 n := by
  have hhigh : (x + BitVec.ofNat 64 n).extractLsb' 32 32 = x.extractLsb' 32 32 := by
    have hx := x.isLt
    have h := congrArg BitVec.toNat h
    apply BitVec.eq_of_toNat_eq
    simp only [BitVec.extractLsb'_toNat, Nat.shiftRight_eq_div_pow, BitVec.toNat_add, BitVec.toNat_ofNat] at h ⊢
    omega
  rw [← hhigh, counter_halves]

/-- The state `n` ticks and their slots later, with `rest` still to come. -/
def State.ticked (n : Nat) (rest : List Slot) (s : State) : State :=
  { s with hw := { s.hw with cycle := s.hw.cycle + BitVec.ofNat 64 n }, program := rest }

theorem State.ticked_ticked (n m : Nat) (p q : List Slot) (s : State) : (s.ticked n p).ticked m q = s.ticked (n + m) q := by
  simp only [State.ticked, BitVec.ofNat_add, BitVec.add_assoc]

theorem State.ticked_withRunning (n : Nat) (p : List Slot) (R : Option Running) (s : State) :
    (s.withRunning R).ticked n p = (s.ticked n p).withRunning R := rfl

/-- `n` placed ticks, then a host turn. -/
theorem runFor_ticks_turn {n : Nat} {s : State} {rest : List Slot} (hp : s.program = ticks n ++ .hostTurn :: rest) :
    runFor (n + 1) s = advance (s.ticked n rest) := by
  rw [runFor_add (runFor_ticks n hp), runFor_one, step_hostTurn rfl]
  rfl

/-- A split counter read with `n` ticks before its low access and `m` before its second high one, from the step that begins it: the
command goes on with the counter at the low access, or reads again. -/
theorem ReadsCounter.split_run {mk : CounterPhase → Activity} {fin : DWord → Progress} (hm : ReadsCounter mk fin) {s : State}
    {n m : Nat} {rest : List Slot} {H : HostSide} (hc : s.params.counterRead = .split32) (hs : n + m < 4294967296)
    (hp : s.program = ticks n ++ (.hostTurn :: (ticks m ++ (.hostTurn :: rest))))
    (hfin : settle (fin (s.hw.cycle + BitVec.ofNat 64 n)) none (s.ticked (n + m) rest) =
      .next ((s.ticked (n + m) rest).withHost H)) :
    ∃ t0, start (mk .first) s = .next t0 ∧ runFor (n + 1 + (m + 1)) t0 = .next ((s.ticked (n + m) rest).withHost
      (if (s.hw.cycle + BitVec.ofNat 64 (n + m)).extractLsb' 32 32 = s.hw.cycle.extractLsb' 32 32 then H
       else { s.host with running := some { act := mk .first, txn := none } })) := by
  have hlow (hi : Word) : runFor (n + 1) (s.withRunning (some { act := mk (.low hi), txn := none })) =
      .next ((s.ticked n (ticks m ++ .hostTurn :: rest)).withRunning
        (some { act := mk (.high hi ((s.hw.cycle + BitVec.ofNat 64 n).extractLsb' 0 32)), txn := none })) :=
    (runFor_ticks_turn (by exact hp)).trans (hm.advance_again rfl (counterAccess_low (by exact hc) hi))
  have hhigh (hi lo : Word) : runFor (m + 1) ((s.ticked n (ticks m ++ .hostTurn :: rest)).withRunning
      (some { act := mk (.high hi lo), txn := none })) =
      if (s.hw.cycle + BitVec.ofNat 64 (n + m)).extractLsb' 32 32 = hi then
        settle (fin (hi ++ lo)) none (s.ticked (n + m) rest)
      else .next ((s.ticked (n + m) rest).withRunning (some { act := mk .first, txn := none })) := by
    rw [runFor_ticks_turn rfl, State.ticked_withRunning, State.ticked_ticked, hm.advance_high (by exact hc) rfl,
      settle_withRunning]
    rfl
  refine ⟨_, hm.start_split32 hc, (runFor_add (hlow _)).trans ((hhigh _ _).trans ?_)⟩
  by_cases h : (s.hw.cycle + BitVec.ofNat 64 (n + m)).extractLsb' 32 32 = s.hw.cycle.extractLsb' 32 32
  · rw [if_pos h, if_pos h, split_value hs h, hfin]
  · rw [if_neg h, if_neg h]
    rfl

/-- Settles O33: the three commands are one counter read each, and differ in what they do with its value. -/
theorem splitCounterReadIsConsistent : Obligations.SplitCounterReadIsConsistent := by
  refine ⟨fun s n m rest st k v c hf hc hs hp hv hcyc p hmem => ?reads, fun s k st h l hc hr => ?compares⟩
  case reads =>
    subst hv hcyc
    have hnone : (s.ticked (n + m) rest).host.running = none := (hostFree_iff.mp hf).2
    have hdone (r : Ret) : settle (.done r) none (s.ticked (n + m) rest) =
        .next ((s.ticked (n + m) rest).withHost { s.host with ret := r }) := settle_done_free hnone r
    simp only [List.mem_cons, List.not_mem_nil, or_false] at hmem
    rcases hmem with rfl | rfl | rfl
    · simp only [exec_now hf]
      exact now_readsCounter.split_run hc hs hp (hdone _)
    · simp only [exec_elapsedSince hf]
      exact (elapsedSince_readsCounter st).split_run hc hs hp (hdone _)
    · simp only [exec_delayCycles hf]
      exact (delay_readsCounter k none).split_run hc hs hp rfl
  case compares =>
    rw [takeTurn, (delay_readsCounter k (some st)).advance_high hc hr]
    by_cases hh : s.hw.cycle.extractLsb' 32 32 = h
    · simp only [hh, if_true, true_and, settle_delayProgress]
    · simp only [hh, if_false, false_and]

/-! The delays: all of them are `DELAY_CYCLES` of a count. -/

/-- The first access of a delay leaves it running, with its capture made or still to come. -/
theorem delay_begins (n : DWord) (txn : Option Txn) (s : State) :
    ∃ st c, advance (s.withRunning (some { act := .delay n none .first, txn := txn })) =
      .next (s.withRunning (some { act := .delay n st c, txn := txn })) := by
  cases h : s.params.counterRead with
  | atomic64 => exact ⟨_, _, (delay_readsCounter n none).advance_value rfl (counterAccess_atomic64 (by exact h) _)⟩
  | split32 => exact ⟨_, _, (delay_readsCounter n none).advance_again rfl (counterAccess_first (by exact h))⟩

/-- A delay that `m` ticks pass in, with what it returns when it is over: it is over exactly when they are more than its count. -/
theorem delay_ends {n : DWord} {txn : Option Txn} {s : State} {m : Nat} {rest : List Slot} {r : Ret}
    (hm : m < 18446744073709551616)
    (hp : s.program = hostTurns (counterTurns s.params - 1) ++ (ticks m ++ (hostTurns (counterTurns s.params) ++ rest)))
    (hover : ∀ u, settle (.done .unit) txn u = .next (u.finish r)) :
    ∃ t0 t, advance (s.withRunning (some { act := .delay n none .first, txn := txn })) = .next t0 ∧
      runFor (counterTurns s.params - 1 + (m + counterTurns s.params)) t0 = .next t ∧
      t.hw = { s.hw with cycle := s.hw.cycle + BitVec.ofNat 64 m } ∧ t.program = rest ∧
      (n.toNat < m → t.host.running = none ∧ t.host.ret = r) ∧
      (m ≤ n.toNat → t.host.running = some { act := .delay n (some s.hw.cycle) .first, txn := txn }) := by
  obtain ⟨t0, R, hbegin, hrun⟩ := delay_begin (n := n) (txn := txn) hm hp
  by_cases h : n.toNat < m
  · rw [if_pos h, hover] at hrun
    exact ⟨t0, _, hbegin, hrun, rfl, rfl, fun _ => ⟨rfl, rfl⟩, fun hle => absurd h (Nat.not_lt.mpr hle)⟩
  · rw [if_neg h, settle_more] at hrun
    exact ⟨t0, _, hbegin, hrun, rfl, rfl, fun hlt => absurd hlt h, fun _ => rfl⟩

/-- Settles O34: the first read captures, a later one compares, and the run from the capture through `m` ticks to the next read ends
the delay or leaves it at its capture. -/
theorem delayCyclesWaitsForMoreThanItsCount : Obligations.DelayCyclesWaitsForMoreThanItsCount := by
  intro s n
  refine ⟨fun hf => ⟨fun hc => ?captures, fun hc => ?capturesHalf⟩, fun st hc hr => ?compares, fun m rest hf hm hp => ?run⟩
  case captures =>
    rw [exec_delayCycles hf, (delay_readsCounter n none).start_atomic64 hc]
    rfl
  case capturesHalf =>
    rw [exec_delayCycles hf]
    exact (delay_readsCounter n none).start_split32 hc
  case compares =>
    rw [takeTurn, (delay_readsCounter n (some st)).advance_value hr (counterAccess_atomic64 hc _), settle_delayProgress,
      State.withRunning_self hr]
  case run =>
    rw [exec_delayCycles hf]
    exact delay_ends hm hp (settle_done .unit)

/-- A duration delay is `DELAY_CYCLES` of the count at the frequency of the CycleDelay it runs on (R204 to R206; log 16). -/
theorem delayFor_eq {s : State} {hz : Word} (hf : hostFree s = true) (h : delayHz s = some hz) (u : TimeUnit) (d : Word) :
    delayFor u d s = exec (.delayCycles (cyclesOf u d hz)) s := by
  rw [delayFor, asHost_free hf, h, exec_delayCycles hf]

theorem delayHz_eq_some {s : State} {hz : Word} :
    delayHz s = some hz ↔ s.host.delay = some hz ∨ s.host.delay = none ∧ ∃ e, s.host.engine = some e ∧ e.coreFreqHz = hz := by
  cases h : s.host.delay <;> simp [delayHz, h]

/-- One cycle more than a duration's count is longer than the duration (R208). -/
theorem lt_cyclesOf_succ (u : TimeUnit) (d hz : Word) :
    d.toNat * hz.toNat < ((cyclesOf u d hz).toNat + 1) * unitsPerSecond u := by
  have hpos : 0 < unitsPerSecond u := by cases u <;> decide
  rw [cyclesOf_toNat, Nat.mul_comm (_ + 1)]
  exact Nat.lt_mul_div_succ _ hpos

/-- Settles O35: each of the three is a duration delay in its unit. -/
theorem durationDelaysConvertFirst : Obligations.DurationDelaysConvertFirst := by
  intro s d hz hf hdelay p hp
  have hconverts (u : TimeUnit) :
      ∃ n : DWord, n.toNat = d.toNat * hz.toNat / unitsPerSecond u ∧ d.toNat * hz.toNat < (n.toNat + 1) * unitsPerSecond u ∧
        delayFor u d s = exec (.delayCycles n) s ∧
        ∃ st c, delayFor u d s = .next (s.withRunning (some { act := .delay n st c, txn := none })) := by
    have heq := delayFor_eq hf (delayHz_eq_some.mpr hdelay) u d
    refine ⟨cyclesOf u d hz, cyclesOf_toNat u d hz, lt_cyclesOf_succ u d hz, heq, ?_⟩
    rw [heq, exec_delayCycles hf]
    exact delay_begins (cyclesOf u d hz) none s
  simp only [List.mem_cons, List.not_mem_nil, or_false] at hp
  rcases hp with rfl | rfl | rfl
  · exact hconverts .ns
  · exact hconverts .us
  · exact hconverts .ms

/-- OP_DELAY is a transaction of one delay at the BusEngine's core frequency (R306). -/
theorem exec_opDelay {s : State} {e : BusEngine} (hf : hostFree s = true) (he : s.host.engine = some e) (d : Duration) :
    exec (.opDelay d) s = advance (s.withRunning (some
      { act := .delay (cyclesOf d.unit d.amount e.coreFreqHz) none .first, txn := some { rest := [], k := 0 } })) := by
  have hready : hostReady s = true := by rw [hostReady, hf, he]; rfl
  rw [exec, execOpDelay, asInstance_ready hready]
  simp only [startOperations, nextOperation, beginOperation, embeddedHz, he, andThen_next]

/-- Settles O36: the one operation of the transaction is a delay, and after it the transaction returns `Ok`. -/
theorem transactionDelayUsesTheEmbeddedDelay : Obligations.TransactionDelayUsesTheEmbeddedDelay := by
  intro s d e hf he
  refine ⟨cyclesOf d.unit d.amount e.coreFreqHz, ?_, ?_, fun m rest hm hp => ?_⟩
  · rw [cyclesOf_toNat]
    cases d.unit <;> rfl
  · rw [exec_opDelay hf he]
    exact delay_begins _ _ s
  · rw [exec_opDelay hf he]
    exact delay_ends hm hp fun _ => rfl

/-! TICK, NOW, ELAPSED_SINCE and DELAY_NEW. -/

/-- Settles O30: TICK adds one to the counter and is no host access, so nothing guards it. -/
theorem tickAddsOneModulo : Obligations.TickAddsOneModulo := fun s =>
  ⟨s.hw.cycle + 1, BitVec.toNat_add s.hw.cycle 1, rfl⟩

/-- Settles O32: under `atomic64` NOW and ELAPSED_SINCE end with their one read of the counter. -/
theorem counterCommandsReturn : Obligations.CounterCommandsReturn := by
  intro s st hz hf
  obtain ⟨-, hnone⟩ := hostFree_iff.mp hf
  refine ⟨fun hc => ⟨?now, s.hw.cycle - st, ?difference, ?elapsed⟩, ?new⟩
  case now =>
    rw [exec_now hf, now_readsCounter.start_atomic64 hc, settle_done_free hnone]
  case difference =>
    rw [BitVec.toNat_sub]
    omega
  case elapsed =>
    rw [exec_elapsedSince hf, (elapsedSince_readsCounter st).start_atomic64 hc, settle_done_free hnone]
  case new => rw [exec, execDelayNew, asHost_free hf]; rfl

end Sys2Proof.Machine
end

section
/-! PROOFS. The divider and CONSTRUCT (43_divider_construct): what CLOCK_DIVIDER returns, the run of CONSTRUCT stage by stage with no
one else moving, and that under any schedule `M_EN` is the last thing it writes. -/

namespace Sys2Proof.Machine

/-! CLOCK_DIVIDER (R230). -/

theorem exec_clockDivider_some {s : State} {src f : Word} {v : Byte} (hf : hostFree s = true)
    (h : clockDivider src f = some v) : exec (.clockDivider src f) s = .next (s.withRet (.okByte v)) := by
  rw [exec, execClockDivider, asHost_free hf, h]

theorem exec_clockDivider_none {s : State} {src f : Word} (hf : hostFree s = true) (h : clockDivider src f = none) :
    exec (.clockDivider src f) s = .next (s.withRet .outOfRange) := by
  rw [exec, execClockDivider, asHost_free hf, h]

/-- The divider's value exists for a length of 1 to 256, and is one less (R230). -/
theorem clockDivider_in_range {src f : Word} (h0 : f ≠ 0) (h1 : 1 ≤ src.toNat / (2 * f.toNat))
    (h2 : src.toNat / (2 * f.toNat) ≤ 256) :
    ∃ v, clockDivider src f = some v ∧ v.toNat = src.toNat / (2 * f.toNat) - 1 := by
  have hv := clockDivider_some h0 h1 h2
  exact ⟨_, hv, Nat.eq_sub_of_add_eq (clockDivider_eq_some hv).2⟩

/-- Settles O37: the command returns what the arithmetic of R230 gives. -/
theorem clockDividerRoundsDownOrFails : Obligations.ClockDividerRoundsDownOrFails := by
  intro s src f hf
  refine ⟨fun h0 => ?zero, fun h0 h1 h2 => ?inRange, fun h0 hlen => ?outOfRange⟩
  case zero => exact exec_clockDivider_none hf (clockDivider_none (.inl h0))
  case inRange =>
    obtain ⟨v, hv, hn⟩ := clockDivider_in_range h0 h1 h2
    exact ⟨v, hn, exec_clockDivider_some hf hv⟩
  case outOfRange => exact exec_clockDivider_none hf (clockDivider_none (.inr hlen))

/-! The stages of CONSTRUCT with no one else moving (R234 to R236). -/

/-- CONSTRUCT at the start of a stage that writes `todo`, Layer H being `H`, with these slots to come. -/
def State.atStage (s : State) (a : ConstructArgs) (st : ConstructStage) (todo : List (Field × Word)) (H : Hw)
    (prog : List Slot) (d : Nat) : State :=
  (s.withHw H).polling (.construct a st (modifyOf todo)) none prog d

/-- CONSTRUCT begun where no BusEngine exists comes to what its first stage comes to with one host turn more. -/
theorem exec_construct_run {s t : State} {a : ConstructArgs} {k : Nat} {rest : List Slot} (hf : hostFree s = true)
    (he : s.host.engine = none) (hp : s.program = hostTurns k ++ rest)
    (hrun : runFor (k + 1) (s.atStage a .role roleFields s.hw (hostTurns (k + 1) ++ rest) s.draws) = .next t) :
    ∃ t0, exec (.construct a) s = .next t0 ∧ runFor k t0 = .next t := by
  have hfree : peripheralFree s = true := by rw [peripheralFree, he]
  have hnone : s.withEngine none = s := by rw [State.withEngine, ← he]
  have hslots : hostTurns (k + 1) ++ rest = .hostTurn :: s.program := by rw [hp]; rfl
  rw [exec, execConstruct, asHost_free hf, if_pos hfree, hnone]
  rw [hslots] at hrun
  exact begin_run (u := s.withRunning (some { act := .construct a .role (modifyOf roleFields), txn := none })) hrun

theorem hostTurns_add (j k : Nat) (rest : List Slot) :
    hostTurns (j + k) ++ rest = hostTurns j ++ (hostTurns k ++ rest) := by
  rw [hostTurns, List.replicate_add, List.append_assoc]
  rfl

section

variable {s : State} {a : ConstructArgs} {st : ConstructStage} {todo : List (Field × Word)} {H : Hw}
  (h : ParamsOk s.params) (hm : Modifiable s.params todo) (hne : todo ≠ []) (hidle : H.busy = false)

include h hm hne hidle

/-- The host turns of a stage assign its fields and come to what follows the stage. -/
theorem stage_run (rest : List Slot) (d : Nat) :
    ∃ d' R u, u = { s with hw := H.assign todo, program := rest, draws := d', host := { s.host with running := R } } ∧
      runFor (modifyTurns s.params todo)
        (s.atStage a st todo H (hostTurns (modifyTurns s.params todo) ++ rest) d) =
      settle (constructNext a st u).1 none (constructNext a st u).2 := by
  obtain ⟨d', R, u, hu, hrun⟩ := modify_run (construct_makesModify a st) _ todo
    (s.atStage a st todo H (hostTurns (modifyTurns s.params todo) ++ rest) d) none rest (Nat.le_refl _) hne h hm
    (.inl hidle) rfl rfl
  exact ⟨d', R, u, hu, hrun⟩

/-- A stage that another one follows hands over to it. -/
theorem stage_run_more {st' : ConstructStage} {todo' : List (Field × Word)}
    (hnext : ∀ u : State, u.params = s.params → constructNext a st u = (.more (.construct a st' (modifyOf todo')), u))
    (k : Nat) (rest : List Slot) (d : Nat) :
    ∃ d', runFor (modifyTurns s.params todo + k)
        (s.atStage a st todo H (hostTurns (modifyTurns s.params todo + k) ++ rest) d) =
      runFor k (s.atStage a st' todo' (H.assign todo) (hostTurns k ++ rest) d') := by
  obtain ⟨d', R, u, hu, hrun⟩ := stage_run (a := a) (st := st) h hm hne hidle (hostTurns k ++ rest) d
  rw [hnext u (by rw [hu]), settle_more, hu] at hrun
  refine ⟨d', ?_⟩
  rw [hostTurns_add]
  exact runFor_add hrun

end

/-! What follows step 1 (R235, R238). -/

theorem afterRole_some {a : ConstructArgs} {v : Byte} (h : clockDivider a.fSpi a.freq = some v) (policy : FailPolicy) :
    afterRole a policy = .more (.construct a (.period0 v) (modifyOf (period0Fields v))) := by
  rw [afterRole.eq_def, h]

theorem afterRole_error {a : ConstructArgs} (h : clockDivider a.fSpi a.freq = none) :
    afterRole a .error = .done (.err .frequencyOutOfRange) := by
  rw [afterRole.eq_def, h]

theorem afterRole_abort {a : ConstructArgs} (h : clockDivider a.fSpi a.freq = none) : afterRole a .abort = .hostEnds := by
  rw [afterRole.eq_def, h]

/-! The run that succeeds (R233 to R237). -/

/-- Layer H after CONSTRUCT with the divider's value `v`. -/
def Hw.constructed (m : BusMode) (v : Byte) (h : Hw) : Hw :=
  { h with
    role := true, mEn := true, sEn := false, cont := false, fsize := 0,
    cpol := decide (m.polarity = .idleHigh), cpha := decide (m.phase = .captureOnSecondTransition),
    ph0 := v, ph1 := v, idle := v }

theorem Hw.constructed_operational (m : BusMode) (v : Byte) (h : Hw) : (h.constructed m v).operational = true := rfl

/-- The four stages together assign these fields. -/
theorem Hw.assign_stages (p : Params) (m : BusMode) (v : Byte) (h : Hw) :
    (((h.assign roleFields).assign (period0Fields v)).assign (period1Fields v)).assign (lastWord p .mEn (modeFields m)) =
      h.constructed m v := by
  have hv : (v.setWidth 32).setWidth 8 = v := BitVec.eq_of_toNat_eq (by have := v.isLt; simp)
  have hpol : (bitWord (cpolOf m)).getLsbD 0 = decide (m.polarity = .idleHigh) := by
    rw [bitWord_getLsbD_zero, cpolOf]; cases m.polarity <;> rfl
  have hpha : (bitWord (cphaOf m)).getLsbD 0 = decide (m.phase = .captureOnSecondTransition) := by
    rw [bitWord_getLsbD_zero, cphaOf]; cases m.phase <;> rfl
  rw [Hw.assign_lastWord, Hw.constructed, ← hpol, ← hpha]
  conv_rhs => rw [← hv]
  rfl

theorem modifyTurns_roleFields {p : Params} (h : ParamsOk p) : modifyTurns p roleFields = 2 := by
  rw [roleFields, modifyTurns_cons h (roleFields_modifiable p).spi]
  rfl

/-- The turns of CONSTRUCT, stage after stage, whatever its divider's value and its mode. -/
theorem constructTurns_eq (p : Params) (v : Byte) (m : BusMode) :
    constructTurns p = modifyTurns p roleFields + (modifyTurns p (period0Fields v) + (modifyTurns p (period1Fields v) +
      modifyTurns p (lastWord p .mEn (modeFields m)))) := by
  rw [modifyTurns_lastWord, ← Nat.add_assoc, ← Nat.add_assoc]
  rfl

theorem constructTurns_default {p : Params} (h : p.layout = .default) : constructTurns p = 8 := by
  simp only [constructTurns, modifyTurns, roleFields, period0Fields, period1Fields, modeFields, Params.offset, h, List.map]
  decide

/-- Where the divider has a value the turns of CONSTRUCT configure the engine and make the BusEngine. -/
theorem construct_run {s : State} {a : ConstructArgs} {v : Byte} (hwf : ParamsOk s.params) (hidle : s.hw.eng = .idle)
    (hr : s.host.running = none) (hv : clockDivider a.fSpi a.freq = some v) (rest : List Slot) :
    ∃ d, runFor (constructTurns s.params)
        (s.atStage a .role roleFields s.hw (hostTurns (constructTurns s.params) ++ rest) s.draws) =
      .next { s with
        hw := s.hw.constructed a.mode v, program := rest, draws := d,
        host := { s.host with
          engine := some { handle := a.handle, pinSet := a.pinSet, coreFreqHz := a.fCore, stale := false },
          ret := .busEngine } } := by
  have hbusy : s.hw.busy = false := Hw.not_busy_iff.mpr hidle
  rw [constructTurns_eq s.params v a.mode]
  obtain ⟨d1, hrole⟩ := stage_run_more (a := a) (st := .role) hwf (roleFields_modifiable _) (by simp [roleFields]) hbusy
    (fun u _ => by rw [constructNext, afterRole_some hv]) _ rest s.draws
  obtain ⟨d2, hperiod0⟩ := stage_run_more (a := a) (st := .period0 v) hwf (period0Fields_modifiable _ v)
    (by simp [period0Fields]) (H := s.hw.assign roleFields) hbusy (fun u _ => rfl) _ rest d1
  obtain ⟨d3, hperiod1⟩ := stage_run_more (a := a) (st := .period1) hwf (period1Fields_modifiable _ v)
    (by simp [period1Fields]) (H := (s.hw.assign roleFields).assign (period0Fields v)) hbusy
    (fun u hu => by rw [constructNext, hu]) _ rest d2
  obtain ⟨d, R, u, hu, hmode⟩ := stage_run (a := a) (st := .mode) hwf ((modeFields_modifiable _ a.mode).lastWord .mEn)
    (List.ne_nil_of_mem (mem_lastWord.mpr (List.mem_cons_self ..)))
    (H := ((s.hw.assign roleFields).assign (period0Fields v)).assign (period1Fields v)) hbusy rest d3
  refine ⟨d, ?_⟩
  rw [hrole, hperiod0, hperiod1, hmode, hu, Hw.assign_stages, constructNext, settle_done]
  exact congrArg _ (finish_running (s := s.withEngine (some ⟨a.handle, a.pinSet, a.fCore, false⟩)) hr _ rest d R _)

/-! CONSTRUCT with the divider out of range (R238). -/

/-- Without a divider's value CONSTRUCT is over after its first stage, and has assigned `ROLE`. -/
theorem construct_run_fails {s : State} {a : ConstructArgs} (hwf : ParamsOk s.params) (hidle : s.hw.eng = .idle)
    (hv : clockDivider a.fSpi a.freq = none) (rest : List Slot) :
    ∃ d R u, u = { s with hw := { s.hw with role := true }, program := rest, draws := d,
                          host := { s.host with running := R } } ∧
      runFor 2 (s.atStage a .role roleFields s.hw (hostTurns 2 ++ rest) s.draws) =
        .next (match s.params.failPolicy with
               | .error => u.finish (.err .frequencyOutOfRange)
               | .abort => u.endHost) := by
  obtain ⟨d, R, u, hu, hrun⟩ := stage_run (a := a) (st := .role) hwf (roleFields_modifiable _) (by simp [roleFields])
    (Hw.not_busy_iff.mpr hidle) rest s.draws
  have hpar : u.params = s.params := by rw [hu]
  rw [modifyTurns_roleFields hwf, constructNext, hpar] at hrun
  refine ⟨d, R, u, hu, hrun.trans ?_⟩
  cases s.params.failPolicy with
  | error => rw [afterRole_error hv]; rfl
  | abort => rw [afterRole_abort hv]; rfl

/-- The end of the host program leaves Layer C as it was before the command began, but for that end. -/
theorem endHost_running {s : State} (hr : s.host.running = none) (h : Hw) (rest : List Slot) (d : Nat) (R : Option Running) :
    ({ s with hw := h, program := rest, draws := d, host := { s.host with running := R } } : State).endHost =
      { s with hw := h, program := rest, draws := d, host := { s.host with ended := true } } := by
  simp only [State.endHost, ← hr]

/-- Settles O40: the first stage is all of the run, and the policy says how it ends. -/
theorem constructFailsBeforeThePeriods : Obligations.ConstructFailsBeforeThePeriods := by
  intro s a rest hf he hidle hwf hrange hp
  obtain ⟨-, hr⟩ := hostFree_iff.mp hf
  obtain ⟨d, R, u, rfl, hrun⟩ := construct_run_fails (State.wf_fifos hwf).1 hidle (clockDivider_none hrange) rest
  obtain ⟨t0, hbegin, ht0⟩ := exec_construct_run (k := 1) hf he hp hrun
  refine ⟨t0, d, hbegin, fun hpol => ?error, fun hpol => ?abort⟩
  case error =>
    rw [ht0, hpol]
    exact congrArg _ (finish_running hr _ rest d R _)
  case abort =>
    rw [ht0, hpol]
    exact congrArg _ (endHost_running hr _ rest d R)

/-! `M_EN` is written last, whatever happens between the accesses (R236). -/

/-- The engine leaves `M_EN`. -/
theorem EngineMoved.mEn {s t : State} (h : EngineMoved s t) : t.hw.mEn = s.hw.mEn := by
  rcases h.hw_frames_cases with ⟨hw, -⟩ | ⟨b, rest, -, hw, -⟩ | ⟨r, record, hw, -⟩
  · rw [hw]
  · rw [hw]
  · rcases Hw.pushRx_cases s.params.fifoDepth r s.hw with ⟨-, e⟩ | e <;> rw [hw, e]

/-- A step that leaves `M_EN`, Layer C and the parameters leaves CONSTRUCT where it is. -/
theorem State.constructing_congr {s t : State} (hm : t.hw.mEn = s.hw.mEn) (hh : t.host = s.host)
    (hp : t.params = s.params) (h : s.constructing = true) : t.constructing = true := by
  rw [State.constructing_iff] at h ⊢
  rwa [hm, hh, hp]

/-- A stage begun with `M_EN` 0 leaves it to the last write of step 3. -/
theorem State.constructing_begins {s : State} (a : ConstructArgs) (st : ConstructStage) {todo : List (Field × Word)}
    (he : s.hw.mEn = false) (hn : s.host.engine = none) (hm : Modifiable s.params todo)
    (hg : ∀ x ∈ todo, Field.guarded x.1 = true) (hl : todo.lookup .mEn = if st = .mode then some 1 else none)
    (hw : st = .mode → todo.Pairwise fun x y => s.params.together .mEn x.1 = true → s.params.together .mEn y.1 = true) :
    (s.withRunning (some { act := .construct a st (modifyOf todo), txn := none })).constructing = true := by
  refine State.constructing_iff.mpr ⟨he, hn, a, st, _, rfl, Modify.configures_of hm hg, Modify.enablesLast_iff.mpr ⟨?_, ?_, ?_⟩⟩
  · simpa [modifyOf] using hl
  · exact fun hs => hw (of_decide_eq_true hs)
  · intro _ _ _ _ hread
    cases hread

theorem roleFields_guarded : ∀ x ∈ roleFields, Field.guarded x.1 = true := by simp [roleFields, Field.guarded]

theorem period0Fields_guarded (v : Byte) : ∀ x ∈ period0Fields v, Field.guarded x.1 = true := by
  simp [period0Fields, Field.guarded]

theorem period1Fields_guarded (v : Byte) : ∀ x ∈ period1Fields v, Field.guarded x.1 = true := by
  simp [period1Fields, Field.guarded]

theorem modeFields_guarded (m : BusMode) : ∀ x ∈ modeFields m, Field.guarded x.1 = true := by
  simp [modeFields, Field.guarded]

/-- What a command has come to that leaves `M_EN` for its last write: still that, or over with `M_EN` 1 exactly when the BusEngine
exists. -/
def State.enabledLast (t : State) : Prop :=
  t.constructing = true ∨ t.host.running = none ∧ t.hw.mEn = t.host.engine.isSome

/-- After a stage the next one begins, or the command is over. -/
theorem constructNext_enabledLast {a : ConstructArgs} {st : ConstructStage} {s t : State} (he : s.hw.mEn = decide (st = .mode))
    (hn : s.host.engine = none) (h : settle (constructNext a st s).1 none (constructNext a st s).2 = .next t) :
    t.enabledLast := by
  cases st with
  | role =>
    rw [constructNext] at h
    cases hd : clockDivider a.fSpi a.freq with
    | some v =>
      rw [afterRole_some hd, settle_more] at h
      cases h
      exact .inl (State.constructing_begins a (.period0 v) he hn (period0Fields_modifiable _ v) (period0Fields_guarded v) rfl
        nofun)
    | none =>
      have hend : s.hw.mEn = s.host.engine.isSome := by rw [he, hn]; rfl
      cases hpol : s.params.failPolicy with
      | error =>
        rw [hpol, afterRole_error hd] at h
        cases h
        exact .inr ⟨rfl, hend⟩
      | abort =>
        rw [hpol, afterRole_abort hd] at h
        cases h
        exact .inr ⟨rfl, hend⟩
  | period0 v =>
    cases h
    exact .inl (State.constructing_begins a .period1 he hn (period1Fields_modifiable _ v) (period1Fields_guarded v) rfl
      nofun)
  | period1 =>
    cases h
    exact .inl (State.constructing_begins a .mode he hn ((modeFields_modifiable _ a.mode).lastWord .mEn)
      (fun x hx => modeFields_guarded a.mode x (mem_lastWord.mp hx)) (lookup_lastWord ..)
      (fun _ => lastWord_pairwise _ _ _))
  | mode =>
    cases h
    exact .inr ⟨rfl, he⟩

/-- A host turn of CONSTRUCT. -/
theorem advance_enabledLast {s t : State} (hp : ParamsOk s.params) (hc : s.constructing = true) (h : advance s = .next t) :
    t.enabledLast := by
  obtain ⟨he, hn, a, st, m, hr, hconf, hlast⟩ := State.constructing_iff.mp hc
  obtain ⟨-, q, u, hacc, hset⟩ := advance_eq_next hr h
  rw [construct_makesModify] at hacc
  obtain ⟨⟨x, w⟩, hmod, hx⟩ := andThen_eq_next.mp hacc
  obtain ⟨hh, hpar, hkept⟩ := modifyAccess_enablesLast hp he hconf hlast hmod
  have hn' : w.host.engine = none := by rw [hh, hn]
  cases x with
  | again m' =>
    obtain ⟨he', hconf', hlast'⟩ := hkept
    cases hx
    cases hset
    exact .inl (State.constructing_iff.mpr ⟨he', hn', a, st, m', rfl, by rwa [← hpar] at hconf', by rwa [← hpar] at hlast'⟩)
  | done =>
    have hx : constructNext a st w = (q, u) := Host.Outcome.next.inj hx
    exact constructNext_enabledLast hkept hn' (by rw [hx]; exact hset)

/-- A step of any agent but a RESET. -/
theorem step_enabledLast {s t : State} (hp : ParamsOk s.params) (hc : s.constructing = true) (h : step s = .next t)
    (hreset : resetNext s = false) : t.enabledLast := by
  have hrun : s.host.running ≠ none := by
    obtain ⟨-, -, a, st, m, hr, -⟩ := State.constructing_iff.mp hc
    rw [hr]; exact Option.some_ne_none _
  have hkind := run_kind hrun
  rw [h] at hkind
  generalize ho : Host.Outcome.next t = o at hkind
  cases hkind with
  | host p d => exact advance_enabledLast (s := { s with program := p, draws := d }) hp hc ho.symm
  | engine u hm =>
    cases ho
    exact .inl (State.constructing_congr hm.mEn hm.host hm.params hc)
  | tick u hw hh hpar =>
    cases ho
    exact .inl (State.constructing_congr (by rw [hw]; rfl) hh hpar hc)
  | reset u hnext => rw [hnext] at hreset; cases hreset

/-- CONSTRUCT begins, its first access being a read, with `M_EN` left to its last write. -/
theorem exec_construct_constructing {s t : State} {a : ConstructArgs} (hp : ParamsOk s.params) (he : s.hw.mEn = false)
    (h : exec (.construct a) s = .next t) : t.constructing = true := by
  rw [exec, execConstruct] at h
  obtain ⟨hf, h⟩ := asHost_eq_next h
  split at h
  case isFalse => cases h
  case isTrue hfree =>
    have hbegun := State.constructing_begins (s := s.withEngine none) a .role he rfl (roleFields_modifiable _) roleFields_guarded
      rfl nofun
    obtain ⟨t', ht', -, hr⟩ := start_construct_next (s := s.withEngine none) hp a
    rw [h] at ht'
    cases ht'
    exact (advance_enabledLast (s := (s.withEngine none).withRunning _) hp hbegun h).resolve_right fun hover => hr hover.1

/-- Settles O39: the run is that of the four stages; and every step of them leaves `M_EN` to the last write. -/
theorem constructConfiguresTheEngine : Obligations.ConstructConfiguresTheEngine := by
  refine ⟨fun p => constructTurns_default, fun s a rest hf he hidle hwf h0 h1 h2 hp => ?run,
    fun s t a hp he h => exec_construct_constructing (paramsOk hp) he h,
    fun s t hp hc h hreset => step_enabledLast (paramsOk hp) hc h hreset⟩
  case run =>
    have hok := (State.wf_fifos hwf).1
    obtain ⟨v, hv, hlen⟩ := clockDivider_in_range h0 h1 h2
    obtain ⟨d, hrun⟩ := construct_run hok hidle (hostFree_iff.mp hf).2 hv rest
    have hpos : constructTurns s.params = constructTurns s.params - 1 + 1 := by
      rw [constructTurns, modifyTurns_roleFields hok]; omega
    rw [hpos] at hrun
    obtain ⟨t0, hbegin, ht0⟩ := exec_construct_run hf he hp hrun
    exact ⟨t0, _, d, v, hbegin, ht0, hlen, Hw.constructed_operational a.mode v s.hw, rfl⟩

end Sys2Proof.Machine
end

section
/-! PROOFS. The transfer commands and the operations of their names (44_transfer R264 to R270, 45_transaction R302 to R305): what
each begins with, and its whole run under the schedule that lets each byte-step's frame happen. -/

namespace Sys2Proof.Machine

/-! One operation by itself. -/

/-- The two instructions that run an operation by itself: the command, and the transaction of the one operation. -/
inductive RunsAlone : Operation → Instr → Prop
  | read (b : Buf) : RunsAlone (.read b) (.read b)
  | opRead (b : Buf) : RunsAlone (.read b) (.opRead b)
  | write (b : Buf) : RunsAlone (.write b) (.write b)
  | opWrite (b : Buf) : RunsAlone (.write b) (.opWrite b)
  | transfer (r w : Buf) : RunsAlone (.transfer r w) (.transfer r w)
  | opTransfer (r w : Buf) : RunsAlone (.transfer r w) (.opTransfer r w)
  | transferInPlace (b : Buf) : RunsAlone (.transferInPlace b) (.transferInPlace b)
  | opTransferInPlace (b : Buf) : RunsAlone (.transferInPlace b) (.opTransferInPlace b)

theorem RunsAlone.ne_delay {op : Operation} {i : Instr} (h : RunsAlone op i) (d : Duration) : op ≠ .delay d := by
  cases h <;> nofun

/-- Either instruction begins as its operation does (R264 to R267, R302 to R305). -/
theorem RunsAlone.exec_eq {op : Operation} {i : Instr} (h : RunsAlone op i) {s : State} (hready : hostReady s = true) :
    exec i s = startXfer (beginOperation op s) s ∨ exec i s = startOperations [op] s := by
  cases h with
  | read _ | write _ | transfer _ _ | transferInPlace _ => exact .inl (asInstance_ready hready _)
  | opRead _ | opWrite _ | opTransfer _ _ | opTransferInPlace _ => exact .inr (asInstance_ready hready _)

/-- The transaction that an instruction runs its operation in: none, or one with nothing after the operation. -/
def LastOperation (txn : Option Txn) : Prop :=
  txn = none ∨ txn = some { rest := [], k := 0 }

/-- After such an operation its `Ok` goes to the caller. -/
theorem settle_ok_last {txn : Option Txn} (h : LastOperation txn) (s : State) :
    settle (.done .ok) txn s = .next (s.finish .ok) := by
  rcases h with rfl | rfl <;> rfl

/-- An operation that makes accesses begins with the first one. -/
theorem RunsAlone.exec_begins {op : Operation} {i : Instr} (h : RunsAlone op i) {s : State} (hready : hostReady s = true)
    {a : Activity} (hb : beginOperation op s = .next (some a)) :
    ∃ txn, LastOperation txn ∧ exec i s = advance (s.withRunning (some { act := a, txn := txn })) := by
  rcases h.exec_eq hready with e | e
  · exact ⟨none, .inl rfl, by rw [e, hb]; rfl⟩
  · exact ⟨some { rest := [], k := 0 }, .inr rfl, by rw [e, startOperations, nextOperation, hb, andThen_next]⟩

/-- The end of a command where none runs is its result. -/
theorem State.finish_free {s : State} (h : s.host.running = none) (r : Ret) : s.finish r = s.withRet r := by
  rw [State.finish, State.withRunning_self h]

/-- An operation that makes no access returns `Ok` at once (R270). -/
theorem RunsAlone.exec_done {op : Operation} {i : Instr} (h : RunsAlone op i) {s : State} (hready : hostReady s = true)
    (hb : beginOperation op s = .next none) : exec i s = .next (s.withRet .ok) := by
  obtain ⟨-, hr, -⟩ := hostReady_iff.mp hready
  rw [← State.finish_free hr]
  rcases h.exec_eq hready with e | e
  · rw [e, hb]; rfl
  · rw [e, startOperations, nextOperation, hb, nextOperation, andThen_next, advance_none rfl]

/-! Nothing to exchange (R270, R308). -/

theorem overlap_empty {r : Buf} (h : r.len.toNat = 0) (w : Buf) : overlap r w = false := by
  rw [overlap, decide_eq_false_iff_not]
  omega

/-- An operation with no byte-step to make begins nothing. -/
theorem beginOperation_none {op : Operation} (h : opSteps op = 0) (hd : ∀ d, op ≠ .delay d) (s : State) :
    beginOperation op s = .next none := by
  have hsteps : xferSteps (opXfer op) ≤ 0 := (opXfer_steps op ▸ h).le
  cases op with
  | read _ | write _ | transferInPlace _ => exact beginXfer_none hsteps
  | transfer r w =>
    rw [beginOperation, beginTransfer, overlap_empty (Nat.max_eq_zero_iff.mp h).1]
    exact beginXfer_none hsteps
  | delay d => exact absurd rfl (hd d)

/-- Settles O51: each command's operation has no byte-step to make, and the empty transaction has no operation. -/
theorem emptyCommandsReturnAtOnce : Obligations.EmptyCommandsReturnAtOnce := by
  intro s b c hready hb hc i hi
  have halone {op : Operation} (h : RunsAlone op i) (hsteps : opSteps op = 0) : exec i s = .next (s.withRet .ok) :=
    h.exec_done hready (beginOperation_none hsteps h.ne_delay s)
  simp only [List.mem_cons, List.not_mem_nil, or_false] at hi
  rcases hi with rfl | rfl | rfl | rfl | rfl | rfl | rfl | rfl | rfl
  · exact halone (.read b) (by simp [opSteps, hb])
  · exact halone (.write b) (by simp [opSteps, hb])
  · exact halone (.transfer b c) (by simp [opSteps, hb, hc])
  · exact halone (.transferInPlace b) (by simp [opSteps, hb])
  · exact halone (.opRead b) (by simp [opSteps, hb])
  · exact halone (.opWrite b) (by simp [opSteps, hb])
  · exact halone (.opTransfer b c) (by simp [opSteps, hb, hc])
  · exact halone (.opTransferInPlace b) (by simp [opSteps, hb])
  · obtain ⟨-, hr, -⟩ := hostReady_iff.mp hready
    rw [exec, execRunTransaction, asInstance_ready hready, startOperations, nextOperation, andThen_next, advance_none rfl,
      State.finish_free hr]

/-! The whole run of one operation (R264 to R267). -/

/-- The state in which an operation that is no delay has exchanged its bytes and returned `Ok` to the host: `rs` is what it
received, and nothing but the history, memory, the slots and the result has changed. -/
def State.exchanged (s : State) (op : Operation) (rs : List Byte) (rest : List Slot) (d : Nat) : State :=
  { s with frames := s.frames ++ frameList s.hw.snapshot (opSends op s.mem) rs, mem := opStores op rs s.mem,
           program := rest, draws := d, host := { s.host with ret := .ok } }

theorem readyClean_iff {s : State} : s.readyClean = true ↔
    hostReady s = true ∧ s.hw.operational = true ∧ s.hw.clean = true ∧ s.wf = true := by
  simp only [State.readyClean, Bool.and_eq_true, and_assoc]

/-- Host memory is in its canonical form at a start that R271 covers. -/
theorem readyClean_mem {s : State} (h : s.readyClean = true) : s.mem.wf = true := by
  obtain ⟨-, -, -, hwf⟩ := readyClean_iff.mp h
  obtain ⟨-, -, hmem⟩ := State.wf_iff.mp hwf
  exact hmem

/-- With the slots after a command's first access placed, the command begun is the command running with all its slots. -/
theorem hostTurn_afterStart {p : Params} {r : Byte} {rs : List Byte} (rest : List Slot) :
    .hostTurn :: (afterStart p (r :: rs) ++ rest) = bytesSchedule p (r :: rs) ++ rest := by
  have hturns : sendTurns p = sendTurns p - 1 + 1 := by have := sendTurns_ge p; omega
  rw [afterStart, bytesSchedule, byteSchedule, hturns]
  rfl

theorem bytesSchedule_length_pos (p : Params) (r : Byte) (rs : List Byte) : 0 < (bytesSchedule p (r :: rs)).length := by
  have h := congrArg List.length (hostTurn_afterStart (p := p) (r := r) (rs := rs) [])
  simp only [List.append_nil, List.length_cons] at h
  omega

/-- A command with a byte-step to make that comes to `v` under its whole schedule begins with the first access and comes to `v` under
the rest of it. -/
theorem begin_bytes {s v : State} {r : Byte} {rs : List Byte} {rest : List Slot} (R : Option Running)
    (hp : s.program = afterStart s.params (r :: rs) ++ rest)
    (hrun : runFor (bytesSchedule s.params (r :: rs)).length
      ((s.withRunning R).withProgram (bytesSchedule s.params (r :: rs) ++ rest)) = .next v) :
    ∃ t0, advance (s.withRunning R) = .next t0 ∧ runFor ((bytesSchedule s.params (r :: rs)).length - 1) t0 = .next v := by
  rw [← hostTurn_afterStart, ← hp, ← Nat.sub_add_cancel (bytesSchedule_length_pos s.params r rs)] at hrun
  exact begin_run hrun

/-- An operation that receives nothing stores nothing. -/
theorem opStores_nil (op : Operation) (m : Memory) : opStores op [] m = m := by
  cases op with
  | transfer r w => rw [opStores, List.take_nil]; rfl
  | _ => rfl

/-- An operation run by itself from a clean start exchanges its bytes, one frame for each, and returns `Ok`. -/
theorem RunsAlone.run {op : Operation} {i : Instr} (h : RunsAlone op i) (ho : opValid op = true) {s : State} {rs : List Byte}
    {rest : List Slot} (hs : s.readyClean = true) (hl : rs.length = opSteps op)
    (hp : s.program = afterStart s.params rs ++ rest) :
    ∃ t0 d, exec i s = .next t0 ∧
      runFor ((bytesSchedule s.params rs).length - 1) t0 = .next (s.exchanged op rs rest d) := by
  obtain ⟨hready, hop, hcl, hwf⟩ := readyClean_iff.mp hs
  obtain ⟨-, hr, -⟩ := hostReady_iff.mp hready
  cases rs with
  | nil =>
    refine ⟨_, s.draws, h.exec_done hready (beginOperation_none hl.symm h.ne_delay s), ?_⟩
    have hrest : s.program = rest := hp
    have hframes : frameList s.hw.snapshot (opSends op s.mem) [] = [] := List.zipWith_nil_right
    simp only [State.exchanged, hframes, opStores_nil, List.append_nil, ← hrest]
    rfl
  | cons r rs =>
    obtain ⟨hsink, hsource⟩ := opXfer_fits ho
    have hbegin : beginOperation op s = .next (some ((opXfer op).begun 0 s.mem none).act) := by
      rw [beginOperation_xfer ho h.ne_delay, beginXfer_next hsource (by rw [opXfer_steps, ← hl]; exact Nat.succ_pos _)]
      rfl
    obtain ⟨txn, hlast, he⟩ := h.exec_begins hready hbegin
    obtain ⟨R, d, hrun⟩ := xfer_run (opXfer op) (opXfer_separate ho) hsink hsource rs r 0
      ((s.withRunning (some ((opXfer op).begun 0 s.mem txn))).withProgram (bytesSchedule s.params (r :: rs) ++ rest)) txn rest
      (by rw [opXfer_steps, ← hl, Nat.zero_add]; rfl) hop hcl (State.wf_fifos hwf).1 rfl rfl
    rw [settle_ok_last hlast] at hrun
    obtain ⟨t0, ht0, hrun⟩ := begin_bytes _ hp hrun
    refine ⟨t0, d, he.trans ht0, hrun.trans ?_⟩
    have hsent := opXfer_sent op s.mem
    rw [← hl] at hsent
    rw [State.exchanged, ← hsent, ← opXfer_stores op hl]
    simp only [State.finish, State.withRunning, State.withRet, ← hr]
    rfl

/-! READ, WRITE, TRANSFER and TRANSFER_IN_PLACE (R264 to R267, R302 to R305). -/

theorem RunsAlone.of_mem {op : Operation} {i i₁ i₂ : Instr} (h₁ : RunsAlone op i₁) (h₂ : RunsAlone op i₂)
    (hi : i ∈ [i₁, i₂]) : RunsAlone op i := by
  rcases List.mem_pair.mp hi with rfl | rfl
  exacts [h₁, h₂]

/-- Settles O47: READ has no source, so what it sends is filler. -/
theorem readFillsItsBuffer : Obligations.ReadFillsItsBuffer := by
  intro s b rs rest hs hf hl hp i hi
  have hmem := readyClean_mem hs
  have halone : RunsAlone (.read b) i := .of_mem (.read b) (.opRead b) hi
  obtain ⟨t0, d, hbegin, hrun⟩ := halone.run hf hs hl hp
  refine ⟨t0, _, hbegin, hrun, rfl, rfl, rfl, rfl, ?_, storeBytes_holds b rs s.mem hmem hf hl.le,
    fun a ha => storeBytes_frame b rs s.mem _ hl.le a ha hmem hf hl.le⟩
  rw [hl]
  rfl

/-- Settles O48: WRITE has no sink, so it stores nothing. -/
theorem writeSendsItsBuffer : Obligations.WriteSendsItsBuffer := by
  intro s b ws rs rest hs hf hw hl hbytes hp i hi
  have halone : RunsAlone (.write b) i := .of_mem (.write b) (.opWrite b) hi
  have hsends : opSends (.write b) s.mem = ws := by rw [opSends, ← hw, bufBytesAt_holds hbytes]
  obtain ⟨t0, d, hbegin, hrun⟩ := halone.run hf hs hl hp
  exact ⟨t0, _, hbegin, hrun, rfl, rfl, rfl, rfl, rfl, by rw [State.exchanged, hsends]⟩

/-- Settles O49: what is sent past the write buffer is filler, and what is received past the read buffer is discarded. -/
theorem transferExchangesBuffers : Obligations.TransferExchangesBuffers := by
  intro s r w ws rs rest hs hfr hfw hov hw hbytes hl hp i hi
  have hmem := readyClean_mem hs
  have halone : RunsAlone (.transfer r w) i := .of_mem (.transfer r w) (.opTransfer r w) hi
  have hvalid : opValid (.transfer r w) = true := by rw [opValid, hfr, hfw, hov]; rfl
  have hsends : opSends (.transfer r w) s.mem = ws ++ List.replicate (rs.length - ws.length) 0x00 := by
    rw [opSends, ← hl, ← hw, bufBytesAt_holds hbytes]
    rfl
  have htake : (rs.take r.len.toNat).length ≤ r.len.toNat := List.length_take_le _ _
  obtain ⟨t0, d, hbegin, hrun⟩ := halone.run hvalid hs hl hp
  exact ⟨t0, _, hbegin, hrun, rfl, rfl, rfl, rfl, by rw [State.exchanged, hsends], storeBytes_holds r _ s.mem hmem hfr htake,
    fun a ha => storeBytes_frame r _ s.mem _ htake a ha hmem hfr htake⟩

/-- Settles O50: with one buffer for both ways, a byte is stored only where a byte has been sent. -/
theorem transferInPlaceReplacesItsBuffer : Obligations.TransferInPlaceReplacesItsBuffer := by
  intro s b ws rs rest hs hf hw hl hbytes hp i hi
  have hmem := readyClean_mem hs
  have halone : RunsAlone (.transferInPlace b) i := .of_mem (.transferInPlace b) (.opTransferInPlace b) hi
  have hsends : opSends (.transferInPlace b) s.mem = ws := by rw [opSends, ← hw, bufBytesAt_holds hbytes]
  obtain ⟨t0, d, hbegin, hrun⟩ := halone.run hf hs hl hp
  exact ⟨t0, _, hbegin, hrun, rfl, rfl, rfl, rfl, by rw [State.exchanged, hsends],
    storeBytes_holds b rs s.mem hmem hf hl.le, fun a ha => storeBytes_frame b rs s.mem _ hl.le a ha hmem hf hl.le⟩

end Sys2Proof.Machine
end

section
/-! PROOFS. Transfers stay balanced (R271): what is outstanding at each access of a byte-step, whoever moves between them. -/

namespace Sys2Proof.Machine

/-! What is outstanding. -/

theorem Hw.outstanding_eq_zero {h : Hw} : h.outstanding = 0 ↔ h.txf = [] ∧ h.eng = .idle ∧ h.rxf = [] := by
  cases he : h.eng <;> simp [Hw.outstanding, Hw.busy, he]

/-- A state is clean exactly when nothing is outstanding and no flag is set. -/
theorem Hw.clean_iff_outstanding {h : Hw} : h.clean = true ↔ h.outstanding = 0 ∧ h.noFlags = true := by
  rw [Hw.clean_iff, Hw.outstanding_eq_zero]
  tauto

/-- A FIFO holds no more than is outstanding. -/
theorem Hw.lengths_le_outstanding (h : Hw) : h.txf.length ≤ h.outstanding ∧ h.rxf.length ≤ h.outstanding := by
  unfold Hw.outstanding
  omega

theorem Hw.balancedAt_send {h : Hw} {p : PollPhase} : h.balancedAt .send p = true ↔ h.outstanding = 0 :=
  decide_eq_true_iff

theorem Hw.balancedAt_recv {h : Hw} {p : PollPhase} :
    h.balancedAt .recv p = true ↔ h.outstanding = 1 ∧ (p = .data → h.rxf ≠ []) := by
  simp [Hw.balancedAt, Decidable.imp_iff_not_or]

theorem Hw.balancedAt_le {h : Hw} {half : Half} {p : PollPhase} (hb : h.balancedAt half p = true) : h.outstanding ≤ 1 := by
  cases half with
  | send => exact (Hw.balancedAt_send.mp hb).le.trans (Nat.zero_le 1)
  | recv => exact (Hw.balancedAt_recv.mp hb).1.le

/-! Balanced states. -/

/-- What R271 asks of every state of such a command: the engine operational, no flag set, the parameters usable. -/
structure Steady (p : Params) (h : Hw) : Prop where
  operational : h.operational = true
  noFlags     : h.noFlags = true
  params      : Params.ok p = true

/-- What R271 asks of the running command: what is outstanding where it stands. -/
inductive BalancedRun (h : Hw) : Option Running → Prop
  | none : h.outstanding = 0 → BalancedRun h none
  | xfer (x : Xfer) (i : Nat) (w : Byte) (half : Half) (p : PollPhase) (txn : Option Txn) : h.balancedAt half p = true →
      BalancedRun h (some { act := .xfer x i w half p, txn := txn })
  | delay (n : DWord) (start : Option DWord) (c : CounterPhase) (t : Txn) : h.outstanding = 0 →
      BalancedRun h (some { act := .delay n start c, txn := some t })

theorem BalancedRun.outstanding_le {h : Hw} {r : Option Running} (hb : BalancedRun h r) : h.outstanding ≤ 1 := by
  cases hb with
  | none h0 | delay _ _ _ _ h0 => exact h0.le.trans (Nat.zero_le 1)
  | xfer _ _ _ _ _ _ hat => exact Hw.balancedAt_le hat

theorem State.balanced_iff {s : State} :
    s.balanced = true ↔ Steady s.params s.hw ∧ BalancedRun s.hw s.host.running := by
  have hsteady : Steady s.params s.hw ↔ (s.hw.operational && s.hw.noFlags && Params.ok s.params) = true := by
    simp only [Bool.and_eq_true, and_assoc]
    exact ⟨fun ⟨ho, hf, hp⟩ => ⟨ho, hf, hp⟩, fun ⟨ho, hf, hp⟩ => ⟨ho, hf, hp⟩⟩
  rw [State.balanced, Bool.and_eq_true, ← hsteady]
  refine and_congr_right fun _ => ?_
  generalize s.host.running = running
  constructor
  · intro h
    match running, h with
    | none, h => exact .none (of_decide_eq_true h)
    | some { act := .xfer x i w half p, txn := txn, stale := false }, h => exact .xfer x i w half p txn h
    | some { act := .delay n start c, txn := some t, stale := false }, h => exact .delay n start c t (of_decide_eq_true h)
  · intro h
    cases h with
    | none h0 | delay _ _ _ _ h0 => exact decide_eq_true h0
    | xfer _ _ _ _ _ _ hat => exact hat

/-! The operations a transaction goes on with. -/

/-- An operation that makes accesses begins with a send half, or with a delay. -/
theorem beginOperation_eq_some {op : Operation} {s : State} {a : Activity} (h : beginOperation op s = .next (some a)) :
    (∃ x i w, a = .xfer x i w .send .flags) ∨ ∃ d n, op = .delay d ∧ a = .delay n none .first := by
  have hxfer {x : Xfer} (h : beginXfer x 0 s = .next (some a)) : ∃ x i w, a = .xfer x i w .send .flags := by
    rcases beginXfer_eq_next h with ⟨h, -⟩ | ⟨w, -, h, -⟩
    · cases h
    · exact ⟨x, 0, w, Option.some.inj h⟩
  cases op with
  | read _ | write _ | transferInPlace _ => exact .inl (hxfer h)
  | transfer _ _ =>
    obtain ⟨-, h⟩ := beginTransfer_eq_next h
    exact .inl (hxfer h)
  | delay d => cases h; exact .inr ⟨d, _, rfl, rfl⟩

/-- An operation begun with nothing outstanding is balanced, and so is the end of the transaction. -/
theorem nextOperation_balanced {ops : List Operation} {k : Nat} {s t : State} (hs : Steady s.params s.hw)
    (h0 : s.hw.outstanding = 0) (h : nextOperation ops k s = .next t) : t.balanced = true := by
  induction ops generalizing k with
  | nil =>
    cases h
    exact State.balanced_iff.mpr ⟨hs, .none h0⟩
  | cons op ops ih =>
    rw [nextOperation] at h
    split at h
    next a hb =>
      cases h
      refine State.balanced_iff.mpr ⟨hs, ?_⟩
      rcases beginOperation_eq_some hb with ⟨x, i, w, rfl⟩ | ⟨-, n, -, rfl⟩
      · exact .xfer x i w .send .flags _ (Hw.balancedAt_send.mpr h0)
      · exact .delay n none .first _ h0
    next => exact ih h
    next => cases h
    next => cases h

/-! One access of a byte-step. -/

/-- With no flag set an access of a send poll but the last goes on with a send poll (R260, R262). -/
theorem sendAccess_unflagged {s : State} (h : ParamsOk s.params) (hf : s.hw.noFlags = true)
    (ht : s.hw.txf.length ≤ s.params.fifoDepth) (w : Byte) {p : PollPhase} (hp : p ≠ .data) :
    ∃ q d p', sendAccess w p s = .next (q, s.drawn d) ∧ afterSend q = .again .send p' := by
  obtain ⟨ho, hu, -, -⟩ := Hw.noFlags_iff.mp hf
  cases p with
  | flags =>
    obtain ⟨d, hd⟩ := sendAccess_flags h w
    refine ⟨_, d, if s.params.together .txovf .txudf then .count else .underflow, hd, ?_⟩
    rw [ho, hu]
    cases s.params.together .txovf .txudf <;> rfl
  | underflow =>
    obtain ⟨d, hd⟩ := sendAccess_underflow h w
    exact ⟨_, d, .count, hd, by rw [hu]; rfl⟩
  | count =>
    obtain ⟨d, hd⟩ := sendAccess_count h ht w
    refine ⟨_, d, if s.hw.txf.length = s.params.fifoDepth then .flags else .data, hd, ?_⟩
    split_ifs <;> rfl
  | data => exact absurd rfl hp

/-- With no flag set an access of a receive poll but the last goes on with a receive poll, and comes to the data port only where a
byte has been received (R261, R262). -/
theorem recvAccess_unflagged {s : State} (h : ParamsOk s.params) (hf : s.hw.noFlags = true)
    (hr : s.hw.rxf.length ≤ s.params.fifoDepth) {p : PollPhase} (hp : p ≠ .data) :
    ∃ q d p', recvAccess p s = .next (q, s.drawn d) ∧ afterRecv q = .again .recv p' ∧ (p' = .data → s.hw.rxf ≠ []) := by
  by_cases hrx : s.hw.rxf = []
  · obtain ⟨q, d, p', ha, hq, hp'⟩ := recvAccess_spins h hf hrx hp
    exact ⟨q, d, p', ha, hq, fun e => absurd e hp'⟩
  obtain ⟨-, -, ho, hu⟩ := Hw.noFlags_iff.mp hf
  cases p with
  | flags =>
    obtain ⟨d, hd⟩ := recvAccess_flags h
    refine ⟨_, d, if s.params.together .rxovf .rxudf then .count else .underflow, hd, ?_, fun _ => hrx⟩
    rw [ho, hu]
    cases s.params.together .rxovf .rxudf <;> rfl
  | underflow =>
    obtain ⟨d, hd⟩ := recvAccess_underflow h
    exact ⟨_, d, .count, hd, by rw [hu]; rfl, fun _ => hrx⟩
  | count =>
    obtain ⟨d, hd⟩ := recvAccess_count h hr
    exact ⟨_, d, .data, hd, by rw [if_neg hrx]; rfl, fun _ => hrx⟩
  | data => exact absurd rfl hp

/-- Where an access of a byte-step leaves what is outstanding: right for the next access, or with the byte all of it answered. -/
inductive ByteBalanced (h : Hw) : ByteProgress → Prop
  | again (half : Half) (p : PollPhase) : h.balancedAt half p = true → ByteBalanced h (.again half p)
  | byte (b : Byte) : h.outstanding = 0 → ByteBalanced h (.byte b)

/-- A byte pushed where there is room is one more outstanding (R142, R176). -/
theorem Hw.outstanding_pushTx_of_room {h : Hw} {d : Nat} (hlt : h.txf.length < d) (b : Byte) :
    (h.pushTx d b).outstanding = h.outstanding + 1 ∧ (h.pushTx d b).noFlags = h.noFlags ∧
      (h.pushTx d b).operational = h.operational := by
  rw [Hw.pushTx_room b hlt]
  refine ⟨?_, rfl, rfl⟩
  have hout := Hw.outstanding_of_eng_eq (h := h) (h' := { h with txf := h.txf ++ [b] }) rfl
  simp only [List.length_append, List.length_singleton] at hout
  omega

/-- A byte popped is one fewer outstanding (R144, R176). -/
theorem Hw.outstanding_popRx_of_cons {h : Hw} {b : Byte} {rest : List Byte} (hr : h.rxf = b :: rest) :
    h.popRx.2.outstanding + 1 = h.outstanding ∧ h.popRx.2.noFlags = h.noFlags ∧
      h.popRx.2.operational = h.operational := by
  rw [Hw.popRx_cons hr]
  refine ⟨?_, rfl, rfl⟩
  have hout := Hw.outstanding_of_eng_eq (h := h) (h' := { h with rxf := rest }) rfl
  simp only [hr, List.length_cons] at hout
  dsimp only
  omega

theorem byteAccess_send {w : Byte} {p : PollPhase} {s t : State} {q : PollStep} (h : sendAccess w p s = .next (q, t)) :
    byteAccess w .send p s = .next (afterSend q, t) := by
  rw [byteAccess, h, andThen_next]

theorem byteAccess_recv {w : Byte} {p : PollPhase} {s t : State} {q : PollStep} (h : recvAccess p s = .next (q, t)) :
    byteAccess w .recv p s = .next (afterRecv q, t) := by
  rw [byteAccess, h, andThen_next]

/-- Each access of a balanced byte-step answers and keeps it balanced: the push and the pop always succeed, and no poll finds a
flag. -/
theorem byteAccess_balanced {s : State} (hs : Steady s.params s.hw) {half : Half} {p : PollPhase}
    (hb : s.hw.balancedAt half p = true) (w : Byte) :
    ∃ q u, byteAccess w half p s = .next (q, u) ∧ Steady u.params u.hw ∧ ByteBalanced u.hw q := by
  have hok := paramsOk hs.params
  obtain ⟨htx, hrx⟩ := s.hw.lengths_le_outstanding
  have hroom : s.hw.outstanding ≤ s.params.fifoDepth := (Hw.balancedAt_le hb).trans hok.depth_pos
  cases half with
  | send =>
    have h0 := Hw.balancedAt_send.mp hb
    by_cases hp : p = .data
    · subst hp
      obtain ⟨hout, hflags, hop⟩ := Hw.outstanding_pushTx_of_room (htx.trans_lt (h0.trans_lt hok.depth_pos)) w
      exact ⟨_, _, byteAccess_send (sendAccess_data hok w), ⟨hop.trans hs.operational, hflags.trans hs.noFlags, hs.params⟩,
        .again .recv .flags (Hw.balancedAt_recv.mpr ⟨hout.trans (by rw [h0]), nofun⟩)⟩
    · obtain ⟨q, d, p', ha, hq⟩ := sendAccess_unflagged hok hs.noFlags (htx.trans hroom) w hp
      exact ⟨_, s.drawn d, hq ▸ byteAccess_send ha, hs, .again .send p' (Hw.balancedAt_send.mpr h0)⟩
  | recv =>
    obtain ⟨h1, hdata⟩ := Hw.balancedAt_recv.mp hb
    by_cases hp : p = .data
    · subst hp
      obtain ⟨b, rest, hcons⟩ := List.exists_cons_of_ne_nil (hdata rfl)
      obtain ⟨hout, hflags, hop⟩ := Hw.outstanding_popRx_of_cons hcons
      exact ⟨_, _, byteAccess_recv (recvAccess_data hok), ⟨hop.trans hs.operational, hflags.trans hs.noFlags, hs.params⟩,
        .byte _ (Nat.succ.inj (hout.trans h1))⟩
    · obtain ⟨q, d, p', ha, hq, hdata'⟩ := recvAccess_unflagged hok hs.noFlags (hrx.trans hroom) hp
      exact ⟨_, s.drawn d, hq ▸ byteAccess_recv ha, hs, .again .recv p' (Hw.balancedAt_recv.mpr ⟨h1, hdata'⟩)⟩

/-! A host turn. -/

/-- Where an access of a transfer or of a transaction's delay leaves what is outstanding. -/
inductive ProgressBalanced (h : Hw) (txn : Option Txn) : Progress → Prop
  | more (a : Activity) : BalancedRun h (some { act := a, txn := txn }) → ProgressBalanced h txn (.more a)
  | done (r : Ret) : h.outstanding = 0 → ProgressBalanced h txn (.done r)

theorem xferAccess_balanced {s u : State} {q : Progress} (hs : Steady s.params s.hw) {x : Xfer} {i : Nat} {w : Byte} {half : Half}
    {p : PollPhase} (hb : s.hw.balancedAt half p = true) (txn : Option Txn)
    (ha : xferAccess x i w half p s = .next (q, u)) : Steady u.params u.hw ∧ ProgressBalanced u.hw txn q := by
  obtain ⟨y, v, hy, hv, hbyte⟩ := byteAccess_balanced hs hb w
  rw [xferAccess, hy, andThen_next] at ha
  cases hbyte with
  | again half' p' hat =>
    cases ha
    exact ⟨hv, .more _ (.xfer x i w half' p' txn hat)⟩
  | byte b h0 =>
    obtain ⟨v', hstore, ha⟩ := andThen_eq_next.mp ha
    obtain ⟨o, hbegin, ha⟩ := andThen_eq_next.mp ha
    cases ha
    obtain ⟨hhw, hpar⟩ : u.hw = v.hw ∧ u.params = v.params := by
      rcases xferStore_eq_next hstore with ⟨rfl, -⟩ | ⟨-, -, rfl⟩ <;> exact ⟨rfl, rfl⟩
    rw [hhw, hpar]
    rcases beginXfer_eq_next hbegin with ⟨rfl, -⟩ | ⟨w', -, rfl, -⟩
    · exact ⟨hv, .done _ h0⟩
    · exact ⟨hv, .more _ (.xfer x (i + 1) w' .send .flags txn (Hw.balancedAt_send.mpr h0))⟩

theorem delayProgress_balanced {h : Hw} (h0 : h.outstanding = 0) (n : DWord) (start : Option DWord) (v : DWord) (t : Txn) :
    ProgressBalanced h (some t) (delayProgress n start v) := by
  cases start with
  | none => exact .more _ (.delay n (some v) .first t h0)
  | some st =>
    rw [delayProgress]
    split_ifs
    · exact .done _ h0
    · exact .more _ (.delay n (some st) .first t h0)

theorem access_balanced {s u : State} {q : Progress} {r : Running} (hs : Steady s.params s.hw)
    (hb : BalancedRun s.hw (some r)) (ha : access r.act s = .next (q, u)) :
    Steady u.params u.hw ∧ ProgressBalanced u.hw r.txn q := by
  cases hb with
  | xfer x i w half p txn hat => exact xferAccess_balanced hs hat txn ha
  | delay n start c t h0 =>
    rw [delay_readsCounter] at ha
    split at ha <;> cases ha
    · exact ⟨hs, .more _ (.delay n start _ t h0)⟩
    · exact ⟨hs, delayProgress_balanced h0 n start _ t⟩

theorem settle_balanced {s t : State} {txn : Option Txn} {q : Progress} (hs : Steady s.params s.hw)
    (hq : ProgressBalanced s.hw txn q) (h : settle q txn s = .next t) : t.balanced = true := by
  cases hq with
  | more a hrun =>
    cases h
    exact State.balanced_iff.mpr ⟨hs, hrun⟩
  | done r h0 =>
    simp only [settle, commandDone] at h
    split at h
    · cases h
      exact State.balanced_iff.mpr ⟨hs, .none h0⟩
    · cases h
      exact State.balanced_iff.mpr ⟨hs, .none h0⟩
    · exact nextOperation_balanced hs h0 h

/-- A host turn keeps a state balanced. -/
theorem advance_balanced {s t : State} (hb : s.balanced = true) (h : advance s = .next t) : t.balanced = true := by
  obtain ⟨hs, hrun⟩ := State.balanced_iff.mp hb
  cases hr : s.host.running with
  | none =>
    rw [advance_none hr] at h
    cases h
    exact hb
  | some r =>
    obtain ⟨-, q, u, ha, h⟩ := advance_eq_next hr h
    obtain ⟨hu, hq⟩ := access_balanced hs (hr ▸ hrun) ha
    exact settle_balanced hu hq h

/-! The engine's part of a step. -/

/-- With no more outstanding than the receive FIFO has room for, the engine loses none of it, sets no flag and takes back no byte
received. -/
theorem EngineMoved.outstanding {s t : State} (h : EngineMoved s t) (hroom : s.hw.outstanding ≤ s.params.fifoDepth) :
    t.hw.outstanding = s.hw.outstanding ∧ t.hw.noFlags = s.hw.noFlags ∧ s.hw.rxf <+: t.hw.rxf := by
  rcases h.step with ⟨hw, -⟩ | ⟨r, hw, -⟩
  · rw [hw, Hw.outstanding_frameStart]
    rcases s.hw.frameStart_cases with e | ⟨b, rest, -, -, -, e⟩ <;> rw [e] <;> exact ⟨rfl, rfl, List.prefix_rfl⟩
  · cases he : s.hw.eng with
    | idle =>
      rw [hw, State.frameComplete_idle r he]
      exact ⟨rfl, rfl, List.prefix_rfl⟩
    | shifting b snap =>
      have hout : s.hw.outstanding = s.hw.txf.length + 1 + s.hw.rxf.length := by simp [Hw.outstanding, Hw.busy, he]
      rw [hw, State.frameComplete_shifting r he, Hw.pushRx_room r (by omega)]
      refine ⟨?_, rfl, List.prefix_append _ _⟩
      rw [hout]
      simp only [Hw.outstanding, Hw.busy, Bool.false_eq_true, if_false, List.length_append, List.length_singleton]
      omega

theorem Hw.balancedAt_of_prefix {h h' : Hw} {half : Half} {p : PollPhase} (ho : h'.outstanding = h.outstanding)
    (hr : h.rxf <+: h'.rxf) (hb : h.balancedAt half p = true) : h'.balancedAt half p = true := by
  cases half with
  | send => exact Hw.balancedAt_send.mpr (ho.trans (Hw.balancedAt_send.mp hb))
  | recv =>
    obtain ⟨h1, hdata⟩ := Hw.balancedAt_recv.mp hb
    exact Hw.balancedAt_recv.mpr ⟨ho.trans h1, fun hp hnil => hdata hp (List.prefix_nil.mp (hnil ▸ hr))⟩

/-- What a change of Layer H leaves balanced: one that neither adds nor takes what is outstanding, nor takes back a byte received. -/
theorem BalancedRun.of_prefix {h h' : Hw} {r : Option Running} (hb : BalancedRun h r) (ho : h'.outstanding = h.outstanding)
    (hr : h.rxf <+: h'.rxf) : BalancedRun h' r := by
  cases hb with
  | none h0 => exact .none (ho.trans h0)
  | xfer x i w half p txn hat => exact .xfer x i w half p txn (Hw.balancedAt_of_prefix ho hr hat)
  | delay n start c t h0 => exact .delay n start c t (ho.trans h0)

/-- The engine keeps a state balanced. -/
theorem EngineMoved.balanced {s t : State} (h : EngineMoved s t) (hb : s.balanced = true) : t.balanced = true := by
  obtain ⟨hs, hrun⟩ := State.balanced_iff.mp hb
  obtain ⟨hout, hflags, hrx⟩ := h.outstanding (hrun.outstanding_le.trans (paramsOk hs.params).depth_pos)
  rw [State.balanced_iff, h.params, h.host]
  exact ⟨⟨h.operational.trans hs.operational, hflags.trans hs.noFlags, hs.params⟩, hrun.of_prefix hout hrx⟩

/-! The statement. -/

/-- A step of any agent but a RESET keeps a state balanced. -/
theorem step_balanced {s t : State} (hb : s.balanced = true) (hr : s.host.running ≠ none) (h : step s = .next t)
    (hn : resetNext s = false) : t.balanced = true := by
  have hkind := run_kind hr
  rw [h] at hkind
  generalize ho : Host.Outcome.next t = o at hkind
  cases hkind with
  | host p d => exact advance_balanced (s := { s with program := p, draws := d }) hb ho.symm
  | engine u hm => cases ho; exact hm.balanced hb
  | tick u hw hh hp =>
    cases ho
    obtain ⟨⟨hop, hf, hok⟩, hrun⟩ := State.balanced_iff.mp hb
    rw [State.balanced_iff, hw, hh, hp]
    exact ⟨⟨hop, hf, hok⟩, hrun.of_prefix rfl List.prefix_rfl⟩
  | reset u hreset => rw [hreset] at hn; cases hn

theorem startOperations_balanced {ops : List Operation} {s t : State} (hs : Steady s.params s.hw) (h0 : s.hw.outstanding = 0)
    (h : startOperations ops s = .next t) : t.balanced = true := by
  obtain ⟨u, hu, h⟩ := andThen_eq_next.mp h
  exact advance_balanced (nextOperation_balanced hs h0 hu) h

theorem RunsAlone.exec_balanced {op : Operation} {i : Instr} (hi : RunsAlone op i) {s t : State} (hready : hostReady s = true)
    (hs : Steady s.params s.hw) (h0 : s.hw.outstanding = 0) (h : exec i s = .next t) : t.balanced = true := by
  rcases hi.exec_eq hready with e | e
  · rw [e] at h
    obtain ⟨o, ho, h⟩ := andThen_eq_next.mp h
    cases o with
    | none => cases h; exact State.balanced_iff.mpr ⟨hs, .none h0⟩
    | some a =>
      rcases beginOperation_eq_some ho with ⟨x, j, w, rfl⟩ | ⟨d, n, rfl, -⟩
      · refine advance_balanced (s := s.withRunning (some { act := .xfer x j w .send .flags, txn := none })) ?_ h
        exact State.balanced_iff.mpr ⟨hs, .xfer x j w .send .flags none (Hw.balancedAt_send.mpr h0)⟩
      · exact absurd rfl (hi.ne_delay d)
  · exact startOperations_balanced hs h0 (e ▸ h)

/-- Settles O54: a balanced state has at most one byte outstanding; a command begins with nothing outstanding, and every agent's move
keeps what is outstanding where the byte-step stands. -/
theorem transfersStayBalanced : Obligations.TransfersStayBalanced := by
  refine ⟨fun s hb => ?bounds, fun s t i hready hop hcl hok hi h => ?begins, fun s t hb hr h hn => step_balanced hb hr h hn⟩
  case bounds =>
    obtain ⟨hs, hrun⟩ := State.balanced_iff.mp hb
    refine ⟨hrun.outstanding_le, hs.noFlags, fun hr => ?_⟩
    rw [hr] at hrun
    cases hrun with
    | none h0 => exact Hw.clean_iff_outstanding.mpr ⟨h0, hs.noFlags⟩
  case begins =>
    obtain ⟨h0, hf⟩ := Hw.clean_iff_outstanding.mp hcl
    have hs : Steady s.params s.hw := ⟨hop, hf, hok⟩
    have halone {op : Operation} (hi : RunsAlone op i) : t.balanced = true := hi.exec_balanced hready hs h0 h
    rcases hi with ⟨b, rfl | rfl | rfl | rfl | rfl | rfl⟩ | ⟨r, w, rfl | rfl⟩ | ⟨ops, rfl⟩
    · exact halone (.read b)
    · exact halone (.write b)
    · exact halone (.transferInPlace b)
    · exact halone (.opRead b)
    · exact halone (.opWrite b)
    · exact halone (.opTransferInPlace b)
    · exact halone (.transfer r w)
    · exact halone (.opTransfer r w)
    · obtain ⟨-, h⟩ := asInstance_eq_next h
      exact startOperations_balanced hs h0 h

end Sys2Proof.Machine
end

section
/-! PROOFS. BYTE_STEP and its spins (R262, R263), a flag found set (R269, R329, R330), and FLUSH (R268). -/

namespace Sys2Proof.Machine

/-! The byte-step (R262, R263). -/

/-- A byte-step whose poll goes on, goes on. -/
theorem ByteSteps.Lawful.access_again {c : ByteSteps} (hc : c.Lawful) {half half' : Half} {p p' : PollPhase} {s t : State}
    (h : byteAccess c.w half p s = .next (.again half' p', t)) :
    access (c.act half p) s = .next (.more (c.act half' p'), t) := by
  rw [hc, h, andThen_next]

/-- A byte-step whose poll finds a flag ends with the error. -/
theorem ByteSteps.Lawful.access_error {c : ByteSteps} (hc : c.Lawful) {half : Half} {p : PollPhase} {s t : State} {e : Err}
    (h : byteAccess c.w half p s = .next (.error e, t)) : access (c.act half p) s = .next (.done (.err e), t) := by
  rw [hc, h, andThen_next]

/-- A read of the count that finds the transmit FIFO full begins the send poll again (R260, R262). -/
theorem ByteSteps.Lawful.send_spins {c : ByteSteps} (hc : c.Lawful) {s : State} {txn : Option Txn} (h : ParamsOk s.params)
    (hfull : s.hw.txf.length = s.params.fifoDepth)
    (hr : s.host.running = some { act := c.act .send .count, txn := txn }) :
    ∃ d, advance s = .next ((s.drawn d).withRunning (some { act := c.act .send .flags, txn := txn })) := by
  obtain ⟨d, hd⟩ := sendAccess_count h hfull.le c.w
  rw [if_pos hfull] at hd
  exact ⟨d, by rw [advance_some hr rfl, hc.access_again (byteAccess_send hd)]; rfl⟩

/-- A read of the count that finds nothing received begins the receive poll again (R261, R262). -/
theorem ByteSteps.Lawful.recv_spins {c : ByteSteps} (hc : c.Lawful) {s : State} {txn : Option Txn} (h : ParamsOk s.params)
    (hempty : s.hw.rxf = []) (hr : s.host.running = some { act := c.act .recv .count, txn := txn }) :
    ∃ d, advance s = .next ((s.drawn d).withRunning (some { act := c.act .recv .flags, txn := txn })) := by
  obtain ⟨d, hd⟩ := recvAccess_count h (by rw [hempty]; exact Nat.zero_le _)
  rw [if_pos hempty] at hd
  exact ⟨d, by rw [advance_some hr rfl, hc.access_again (byteAccess_recv hd)]; rfl⟩

theorem exec_byteStep {s : State} (h : hostReady s = true) (w : Byte) :
    exec (.byteStep w) s = start (.byteStep w .send .flags) s :=
  asInstance_ready h _

/-- Settles O45: the run of one byte-step, and the two reads of a count that begin a poll again. -/
theorem byteStepSpinsAndExchangesOneByte : Obligations.ByteStepSpinsAndExchangesOneByte := by
  refine ⟨fun s w r rest hs hp => ?exchanges, fun s x i w txn hwf act hact => ?spins⟩
  case exchanges =>
    obtain ⟨hready, hop, hcl, hwf⟩ := readyClean_iff.mp hs
    obtain ⟨-, hr, -⟩ := hostReady_iff.mp hready
    obtain ⟨d, hrun⟩ := ByteSteps.run (byteStep_lawful w) (State.wf_fifos hwf).1 (txn := none) (fr := s.frames) hop hcl r rest
      s.draws
    rw [andThen_next, settle_done] at hrun
    obtain ⟨t0, hbegin, hrun⟩ := begin_bytes (some { act := .byteStep w .send .flags, txn := none }) hp
      (by rw [bytesSchedule, bytesSchedule, List.append_nil]; exact hrun)
    rw [exec_byteStep hready]
    refine ⟨t0, d, hbegin, hrun.trans (congrArg _ ?_)⟩
    simp only [ByteSteps.at, State.finish, State.withRunning, State.withRet, ← hr]
  case spins =>
    obtain ⟨hok, -⟩ := State.wf_fifos hwf
    rcases List.mem_pair.mp hact with rfl | rfl
    · exact ⟨(byteStep_lawful w).send_spins hok, (byteStep_lawful w).recv_spins hok⟩
    · exact ⟨(xfer_lawful x i w).send_spins hok, (xfer_lawful x i w).recv_spins hok⟩

/-! A flag found set (R269, R329, R330). -/

section

variable {s : State} (h : ParamsOk s.params)

include h

/-- The send poll tests overflow first (R260). -/
theorem sendAccess_txovf (ho : s.hw.txovf = true) (w : Byte) :
    ∃ d, sendAccess w .flags s = .next (.result (.err .txOverflow), s.drawn d) := by
  obtain ⟨d, hd⟩ := sendAccess_flags h w
  exact ⟨d, by rw [hd, ho]; rfl⟩

/-- The send poll tests underflow in the read of its flag's word (R260). -/
theorem sendAccess_txudf (ho : s.hw.txovf = false) (hu : s.hw.txudf = true) (w : Byte) :
    ∃ d, sendAccess w (if s.params.together .txovf .txudf then .flags else .underflow) s =
      .next (.result (.err .txUnderflow), s.drawn d) := by
  cases htog : s.params.together .txovf .txudf with
  | true =>
    obtain ⟨d, hd⟩ := sendAccess_flags h w
    exact ⟨d, by rw [if_pos rfl, hd, ho, hu, htog]; rfl⟩
  | false =>
    obtain ⟨d, hd⟩ := sendAccess_underflow h w
    exact ⟨d, by rw [if_neg (by decide), hd, hu]; rfl⟩

/-- The receive poll tests overflow first (R261). -/
theorem recvAccess_rxovf (ho : s.hw.rxovf = true) :
    ∃ d, recvAccess .flags s = .next (.result (.err .rxOverflow), s.drawn d) := by
  obtain ⟨d, hd⟩ := recvAccess_flags h
  exact ⟨d, by rw [hd, ho]; rfl⟩

/-- The receive poll tests underflow in the read of its flag's word (R261). -/
theorem recvAccess_rxudf (ho : s.hw.rxovf = false) (hu : s.hw.rxudf = true) :
    ∃ d, recvAccess (if s.params.together .rxovf .rxudf then .flags else .underflow) s =
      .next (.result (.err .rxUnderflow), s.drawn d) := by
  cases htog : s.params.together .rxovf .rxudf with
  | true =>
    obtain ⟨d, hd⟩ := recvAccess_flags h
    exact ⟨d, by rw [if_pos rfl, hd, ho, hu, htog]; rfl⟩
  | false =>
    obtain ⟨d, hd⟩ := recvAccess_underflow h
    exact ⟨d, by rw [if_neg (by decide), hd, hu]; rfl⟩

end

/-- The command `act` hands an error of its poll `acc` up to its caller at the access that found it. -/
def HandsUp (acc : PollPhase → State → Out (PollStep × State)) (act : PollPhase → Activity) : Prop :=
  ∀ p e s t, acc p s = .next (.result (.err e), t) → access (act p) s = .next (.done (.err e), t)

theorem Polls.handsUp {acc : PollPhase → State → Out (PollStep × State)} {mk : PollPhase → Activity}
    (h : Polls acc mk fun q s => .next (pollProgress mk q, s)) : HandsUp acc mk := by
  intro p e s t ha
  rw [h.access, ha]
  rfl

theorem ByteSteps.Lawful.send_handsUp {c : ByteSteps} (hc : c.Lawful) : HandsUp (sendAccess c.w) (c.act .send) :=
  fun _ _ _ _ ha => hc.access_error (byteAccess_send ha)

theorem xfer_send_handsUp (x : Xfer) (i : Nat) (w : Byte) : HandsUp (sendAccess w) (.xfer x i w .send) :=
  (xfer_lawful x i w).send_handsUp

theorem ByteSteps.Lawful.recv_handsUp {c : ByteSteps} (hc : c.Lawful) : HandsUp recvAccess (c.act .recv) :=
  fun _ _ _ _ ha => hc.access_error (byteAccess_recv ha)

/-- The host turn that finds the flag raises the error past the command and its transaction (R330). -/
theorem HandsUp.advance_raises {acc : PollPhase → State → Out (PollStep × State)} {act : PollPhase → Activity}
    (h : HandsUp acc act) {s : State} {p : PollPhase} {txn : Option Txn} {e : Err}
    (hr : s.host.running = some { act := act p, txn := txn })
    (ha : ∃ d, acc p s = .next (.result (.err e), s.drawn d)) :
    ∃ d, advance s = .next ((s.drawn d).raise e) := by
  obtain ⟨d, ha⟩ := ha
  exact ⟨d, by rw [advance_some hr rfl, h p e s _ ha, andThen_next, settle_error]⟩

/-- All that it leaves besides is the free values used up. -/
theorem HandsUp.advance_error {acc : PollPhase → State → Out (PollStep × State)} {act : PollPhase → Activity}
    (h : HandsUp acc act) {s : State} {p : PollPhase} {txn : Option Txn} {e : Err}
    (hr : s.host.running = some { act := act p, txn := txn })
    (ha : ∃ d, acc p s = .next (.result (.err e), s.drawn d)) :
    ∃ d, advance s = .next { s with draws := d, host := { s.host with running := none, ret := .err e } } := by
  obtain ⟨d, hd⟩ := h.advance_raises hr ha
  exact ⟨s.draws + d, hd⟩

/-- A transfer of one buffer begun with `TXOVF` set fails at its first read (R269). -/
theorem RunsAlone.exec_txovf {op : Operation} {i : Instr} (hi : RunsAlone op i) {s : State} (hready : hostReady s = true)
    (h : ParamsOk s.params) (hvalid : opValid op = true) (hpos : 0 < opSteps op) (ho : s.hw.txovf = true) :
    ∃ d, exec i s = .next ((s.drawn d).withRet (.err .txOverflow)) := by
  obtain ⟨-, hr, -⟩ := hostReady_iff.mp hready
  obtain ⟨-, hsource⟩ := opXfer_fits hvalid
  have hbegin := beginOperation_xfer hvalid hi.ne_delay s
  rw [beginXfer_next hsource (by rwa [opXfer_steps])] at hbegin
  obtain ⟨txn, -, he⟩ := hi.exec_begins hready hbegin
  have hup := xfer_send_handsUp (opXfer op) 0 ((opXfer op).byteAt s.mem 0)
  have hflag (R : Option Running) := sendAccess_txovf (s := s.withRunning R) h ho ((opXfer op).byteAt s.mem 0)
  obtain ⟨d, hd⟩ := hup.advance_raises (State.withRunning_host_running s _) (hflag (some _)) (txn := txn)
  exact ⟨d, he.trans (hd.trans (congrArg _ (State.finish_free (s := s.drawn d) hr _)))⟩

/-- Settles O53: the reads of the flags find them, and each command that polls hands the error up. -/
theorem errorsEndTheCommandAtOnce : Obligations.ErrorsEndTheCommandAtOnce := by
  intro s hwf
  obtain ⟨hok, -⟩ := State.wf_fifos hwf
  refine ⟨fun act txn hact => ?send, fun act txn hact => ?recv, fun b hready hf hlen ho i hi => ?begun⟩
  case send =>
    obtain ⟨w, h⟩ : ∃ w, HandsUp (sendAccess w) act := by
      rcases hact with ⟨w, rfl⟩ | ⟨w, rfl⟩ | ⟨x, j, w, rfl⟩
      · exact ⟨w, (trySend_polls w).handsUp⟩
      · exact ⟨w, (byteStep_lawful w).send_handsUp⟩
      · exact ⟨w, xfer_send_handsUp x j w⟩
    exact ⟨fun ho hr => h.advance_error hr (sendAccess_txovf hok ho w),
      fun ho hu hr => h.advance_error hr (sendAccess_txudf hok ho hu w)⟩
  case recv =>
    have h : HandsUp recvAccess act := by
      rcases hact with rfl | ⟨w, rfl⟩ | ⟨x, j, w, rfl⟩
      · exact tryRecv_polls.handsUp
      · exact (byteStep_lawful w).recv_handsUp
      · exact (xfer_lawful x j w).recv_handsUp
    exact ⟨fun ho hr => h.advance_error hr (recvAccess_rxovf hok ho),
      fun ho hu hr => h.advance_error hr (recvAccess_rxudf hok ho hu)⟩
  case begun =>
    have hpos : 0 < b.len.toNat := Nat.pos_of_ne_zero fun h0 => hlen (BitVec.eq_of_toNat_eq h0)
    have hfails {op : Operation} (hop : RunsAlone op i) (hvalid : opValid op = true) (hsteps : 0 < opSteps op) :
        ∃ d, exec i s = .next ((s.drawn d).withRet (.err .txOverflow)) := hop.exec_txovf hready hok hvalid hsteps ho
    simp only [List.mem_cons, List.not_mem_nil, or_false] at hi
    rcases hi with rfl | rfl | rfl | rfl | rfl | rfl
    · exact hfails (.read b) hf hpos
    · exact hfails (.write b) hf hpos
    · exact hfails (.transferInPlace b) hf hpos
    · exact hfails (.opRead b) hf hpos
    · exact hfails (.opWrite b) hf hpos
    · exact hfails (.opTransferInPlace b) hf hpos

/-! FLUSH (R268). -/

theorem exec_flush {s : State} (h : hostReady s = true) : exec .flush s = start .flush s :=
  asInstance_ready h _

/-- A read of FLUSH with a frame in flight begins the next one. -/
theorem advance_flush_busy {s : State} {txn : Option Txn} (h : ParamsOk s.params) (hb : s.hw.busy = true)
    (hr : s.host.running = some { act := .flush, txn := txn }) :
    ∃ d, advance s = .next ((s.drawn d).withRunning (some { act := .flush, txn := txn })) := by
  obtain ⟨d, hd⟩ := flushAccess h
  exact ⟨d, by rw [advance_some hr rfl, hd, hb]; rfl⟩

/-- A read of FLUSH with the engine idle ends it. -/
theorem advance_flush_idle {s : State} (h : ParamsOk s.params) (hb : s.hw.busy = false)
    (hr : s.host.running = some { act := .flush, txn := none }) :
    ∃ d, advance s = .next ((s.drawn d).finish .ok) := by
  obtain ⟨d, hd⟩ := flushAccess h
  exact ⟨d, by rw [advance_some hr rfl, hd, hb]; rfl⟩

/-- FLUSH ends with the host turn after the end of the frame. -/
theorem runFor_frame_flush {s : State} {b r : Byte} {snap : Snapshot} {rest : List Slot} (h : ParamsOk s.params)
    (he : s.hw.eng = .shifting b snap) (hr : s.host.running = some { act := .flush, txn := none })
    (hp : s.program = .code .K (encode (.frameComplete r)) :: .hostTurn :: rest) :
    ∃ d, runFor 2 s = .next ((((s.frameComplete r).withProgram rest).drawn d).finish .ok) := by
  have hstep := step_frameComplete hp
  rw [State.frameComplete_shifting r (by exact he)] at hstep
  rw [runFor_step hstep, runFor_one, step_hostTurn rfl, State.frameComplete_shifting r he]
  exact advance_flush_idle h rfl hr

/-- Settles O52: each access of FLUSH is one read of BUSY. -/
theorem flushWaitsForTheEngine : Obligations.FlushWaitsForTheEngine := by
  intro s hready hwf
  obtain ⟨hok, -⟩ := State.wf_fifos hwf
  obtain ⟨-, hr, -⟩ := hostReady_iff.mp hready
  rw [exec_flush hready]
  refine ⟨fun he => ?idle, fun he => ?busy⟩
  case idle =>
    obtain ⟨d, hd⟩ := flushAccess (s := s.withRunning (some { act := .flush, txn := none })) hok
    rw [State.withRunning_hw, Hw.not_busy_iff.mpr he] at hd
    exact ⟨d, start_done hr hd⟩
  case busy =>
    have hb : s.hw.busy = true := by rwa [← Bool.not_eq_false, Hw.not_busy_iff]
    obtain ⟨d, hbegin⟩ := advance_flush_busy (s := s.withRunning (some { act := .flush, txn := none })) hok hb rfl
    refine ⟨d, hbegin, fun rest hp => ?waits, fun r rest hp => ?ends⟩
    case waits =>
      obtain ⟨d', hturn⟩ := advance_flush_busy (txn := none)
        (s := ((s.drawn d).withRunning (some { act := .flush, txn := none })).withProgram rest) hok hb rfl
      refine ⟨d + d', ?_⟩
      rw [runFor_one, step_hostTurn (by exact hp), hturn]
      simp only [State.drawn, State.withRunning, State.withProgram, Nat.add_assoc]
    case ends =>
      obtain ⟨b, snap, hs⟩ := Hw.busy_iff.mp hb
      obtain ⟨d', hturns⟩ :=
        runFor_frame_flush (s := (s.drawn d).withRunning (some { act := .flush, txn := none })) hok hs rfl hp
      refine ⟨_, hturns, ?_, rfl, ?_⟩
      · rw [State.frameComplete_shifting r (by exact hs)]
        simp only [State.finish, State.withRunning, State.withRet, State.withProgram, State.drawn, ← hr]
      · rw [exec, execFrameComplete, State.frameComplete_shifting r hs, State.frameComplete_shifting r (by exact hs)]
        rfl

end Sys2Proof.Machine
end

section
/-! PROOFS. A transaction's whole run (45_transaction R301, R306, R310): each operation under its own slots, then the next one. -/

namespace Sys2Proof.Machine

/-! What an operation begins with. -/

/-- An operation to run either has nothing to do, or begins with a first access. -/
theorem beginOperation_cases {op : Operation} (ho : opValid op = true) (s : State) :
    beginOperation op s = .next none ∧ opSteps op = 0 ∧ (∀ d, op ≠ .delay d) ∨
      ∃ a, beginOperation op s = .next (some a) := by
  by_cases hd : ∃ d, op = .delay d
  · obtain ⟨d, rfl⟩ := hd
    exact .inr ⟨_, rfl⟩
  · rw [not_exists] at hd
    rcases Nat.eq_zero_or_pos (opSteps op) with h0 | hpos
    · exact .inl ⟨beginOperation_none h0 hd s, h0, hd⟩
    · refine .inr ⟨_, (beginOperation_xfer ho hd s).trans (beginXfer_next (opXfer_fits ho).2 ?_)⟩
      rwa [opXfer_steps]

theorem nextOperation_skips {op : Operation} {s : State} (h : beginOperation op s = .next none) (ops : List Operation) (k : Nat) :
    nextOperation (op :: ops) k s = nextOperation ops (k + 1) s := by
  rw [nextOperation, h]

theorem nextOperation_begins {op : Operation} {s : State} {a : Activity} (h : beginOperation op s = .next (some a))
    (ops : List Operation) (k : Nat) :
    nextOperation (op :: ops) k s = .next (s.withRunning (some { act := a, txn := some { rest := ops, k := k } })) := by
  rw [nextOperation, h]

/-- The choice of the next operation uses up no slot. -/
theorem nextOperation_keeps_program {ops : List Operation} {k : Nat} {s t : State} (h : nextOperation ops k s = .next t) :
    t.program = s.program := by
  obtain ⟨g, rfl⟩ := nextOperation_eq_next h
  rfl

theorem State.withProgram_self {s : State} {P : List Slot} (h : s.program = P) : s.withProgram P = s := by
  rw [← h]
  rfl

/-- An operation that is no delay and receives nothing needs no slot. -/
theorem opSchedule_nothing (p : Params) (hz : Word) {op : Operation} (hd : ∀ d, op ≠ .delay d) :
    opSchedule p hz op [] = [] := by
  cases op with
  | delay d => exact absurd rfl (hd d)
  | read _ | write _ | transfer _ _ | transferInPlace _ => rfl

/-! The slots of a list of operations begin with the host's turn. -/

/-- No slots at all, or the host's turn first. -/
def HostFirst (l : List Slot) : Prop :=
  l = [] ∨ ∃ l', l = .hostTurn :: l'

theorem HostFirst.append {l l' : List Slot} (h : HostFirst l) (h' : HostFirst l') : HostFirst (l ++ l') := by
  rcases h with rfl | ⟨m, rfl⟩
  · exact h'
  · exact .inr ⟨_, rfl⟩

theorem hostFirst_hostTurns {n : Nat} (h : 0 < n) (l : List Slot) : HostFirst (hostTurns n ++ l) := by
  obtain ⟨m, rfl⟩ := Nat.exists_eq_add_one_of_ne_zero h.ne'
  exact .inr ⟨_, rfl⟩

theorem counterTurns_pos (p : Params) : 0 < counterTurns p := by
  unfold counterTurns
  split <;> decide

theorem hostFirst_bytesSchedule (p : Params) (rs : List Byte) : HostFirst (bytesSchedule p rs) := by
  have hturns := sendTurns_ge p
  cases rs with
  | nil => exact .inl rfl
  | cons r rs =>
    rw [bytesSchedule, byteSchedule, List.append_assoc]
    exact hostFirst_hostTurns (by omega) _

theorem hostFirst_opSchedule (p : Params) (hz : Word) (op : Operation) (rs : List Byte) : HostFirst (opSchedule p hz op rs) := by
  cases op with
  | delay d => exact hostFirst_hostTurns (counterTurns_pos p) _
  | read _ | write _ | transfer _ _ | transferInPlace _ => exact hostFirst_bytesSchedule p rs

theorem hostFirst_opsSchedule (p : Params) (hz : Word) (ops : List Operation) (rs : List Byte) :
    HostFirst (opsSchedule p hz ops rs) := by
  induction ops generalizing rs with
  | nil => exact .inl rfl
  | cons op ops ih => exact (hostFirst_opSchedule p hz op _).append (ih _)

/-! The state in which a list of operations has ended. -/

/-- The operations have run in order and the transaction has returned `Ok`: `rs` is what they received, and nothing but the counter,
the history, memory, the slots and the result has changed. -/
def opsEnd (hz : Word) (ops : List Operation) (rs : List Byte) (rest : List Slot) (d : Nat) (s : State) : State :=
  { s with hw := { s.hw with cycle := s.hw.cycle + BitVec.ofNat 64 (opsTicks hz ops) },
           frames := s.frames ++ frameList s.hw.snapshot (opsSend ops rs s.mem) rs,
           mem := opsStore ops rs s.mem, program := rest, draws := d,
           host := { s.host with running := none, ret := .ok } }

/-- An operation with nothing to do ends where it begins. -/
theorem opEnd_nothing (hz : Word) {op : Operation} (hd : ∀ d, op ≠ .delay d) (s : State) :
    opEnd hz op [] s.program s.draws s = s := by
  have hticks : opTicks hz op = 0 := by
    cases op with
    | delay d => exact absurd rfl (hd d)
    | read _ | write _ | transfer _ _ | transferInPlace _ => rfl
  simp only [opEnd, hticks, opStores_nil, frameList, List.zipWith_nil_right, List.append_nil, BitVec.add_zero]

/-- The frames of one operation, then those of the others. -/
theorem frameList_append (snap : Snapshot) {txs : List Byte} {n : Nat} (rs txs' : List Byte) (h : txs.length = n)
    (hn : n ≤ rs.length) :
    frameList snap (txs ++ txs') rs = frameList snap txs (rs.take n) ++ frameList snap txs' (rs.drop n) := by
  have hlen : txs.length = (rs.take n).length := by rw [List.length_take, Nat.min_eq_left hn, h]
  rw [frameList, frameList, frameList, ← List.zipWith_append hlen, List.take_append_drop]

/-- The end of the operations after the first, from the end of the first, is the end of them all (R301). -/
theorem opsEnd_opEnd (hz : Word) {op : Operation} (ops : List Operation) {rs : List Byte} (hn : opSteps op ≤ rs.length)
    (rest rest' : List Slot) (d d' : Nat) (s : State) :
    opsEnd hz ops (rs.drop (opSteps op)) rest d (opEnd hz op (rs.take (opSteps op)) rest' d' s) =
      opsEnd hz (op :: ops) rs rest d s := by
  have hframes := frameList_append s.hw.snapshot rs
    (opsSend ops (rs.drop (opSteps op)) (opStores op (rs.take (opSteps op)) s.mem)) (opSends_length op s.mem) hn
  simp only [opsEnd, opEnd, opsTicks, opsSend, opsStore, hframes, BitVec.ofNat_add, BitVec.add_assoc, List.append_assoc]
  rfl

/-! The whole run. -/

/-- From a clean start the operations run in the order listed, each under its own slots, and the last one hands over to `Ok`. -/
theorem operations_run {hz : Word} (ops : List Operation) : ∀ {rs : List Byte} {s : State} (k : Nat) (rest : List Slot),
    ops.all opValid = true → s.hw.operational = true → s.hw.clean = true → ParamsOk s.params → embeddedHz s = hz →
    rs.length = opsSteps ops →
    ∃ t d, nextOperation ops k s = .next t ∧
      runFor (opsSchedule s.params hz ops rs).length (t.withProgram (opsSchedule s.params hz ops rs ++ rest)) =
        .next (opsEnd hz ops rs rest d s) := by
  induction ops with
  | nil =>
    intro rs s k rest _ _ _ _ _ hl
    obtain rfl : rs = [] := List.length_eq_zero_iff.mp hl
    refine ⟨s.finish .ok, s.draws, rfl, ?_⟩
    simp only [opsEnd, opsTicks, opsSend, opsStore, frameList, List.zipWith_nil_right, List.append_nil, BitVec.add_zero]
    rfl
  | cons op ops ih =>
    intro rs s k rest hv hop hcl hp hhz hl
    rw [List.all_cons, Bool.and_eq_true] at hv
    obtain ⟨hvalid, hvalids⟩ := hv
    have hn : opSteps op ≤ rs.length := hl ▸ Nat.le_add_right _ _
    have hdrop : (rs.drop (opSteps op)).length = opsSteps ops := by rw [List.length_drop, hl, opsSteps, Nat.add_sub_cancel_left]
    have htake : (rs.take (opSteps op)).length = opSteps op := by rw [List.length_take, Nat.min_eq_left hn]
    rcases beginOperation_cases hvalid s with ⟨hnone, h0, hd⟩ | ⟨a, hsome⟩
    case inl =>
      obtain ⟨t, d, hnext, hrun⟩ := ih (k + 1) rest hvalids hop hcl hp hhz hdrop
      have hends := opsEnd_opEnd hz ops hn rest s.program d s.draws s
      rw [h0, List.take_zero, opEnd_nothing hz hd] at hends
      refine ⟨t, d, (nextOperation_skips hnone ops k).trans hnext, ?_⟩
      rw [opsSchedule, h0, List.take_zero, opSchedule_nothing _ hz hd, List.nil_append, ← hends, ← h0]
      exact hrun
    case inr =>
      obtain ⟨r, R, d, hr, hrun⟩ := operation_run hvalid hop hcl hp hhz htake hsome (some { rest := ops, k := k })
        (opsSchedule s.params hz ops (rs.drop (opSteps op)) ++ rest)
      obtain ⟨t, d', hnext, hrest⟩ := ih (k + 1) rest
        (s := opEnd hz op (rs.take (opSteps op)) (opsSchedule s.params hz ops (rs.drop (opSteps op)) ++ rest) d s)
        hvalids hop hcl hp hhz hdrop
      have hhands (u : State) : settle (.done r) (some { rest := ops, k := k }) u = nextOperation ops (k + 1) u := by
        rcases hr with rfl | ⟨rfl, -⟩ <;> rfl
      rw [hhands, nextOperation_running, hnext] at hrun
      refine ⟨_, d', nextOperation_begins hsome ops k, ?_⟩
      rw [opsSchedule, List.append_assoc, List.length_append, runFor_add hrun, ← opsEnd_opEnd hz ops hn]
      have hprog : t.program = opsSchedule s.params hz ops (rs.drop (opSteps op)) ++ rest := nextOperation_keeps_program hnext
      rw [← State.withProgram_self hprog]
      exact hrest

/-- Settles O55: the step that begins the transaction makes the first access of its first operation with one to make, and the
slots after it are those of all the operations but for that host turn. -/
theorem transactionsRunInOrder : Obligations.TransactionsRunInOrder := by
  intro s e ops rs rest hs he hv hl hp
  obtain ⟨hready, hop, hcl, hwf⟩ := readyClean_iff.mp hs
  obtain ⟨-, hr, -⟩ := hostReady_iff.mp hready
  have hhz : embeddedHz s = e.coreFreqHz := by rw [embeddedHz, he]
  obtain ⟨t, d, hnext, hrun⟩ := operations_run ops 0 rest hv hop hcl (State.wf_fifos hwf).1 hhz hl
  have hexec : exec (.runTransaction ops) s = advance t := by
    rw [exec, execRunTransaction, asInstance_ready hready, startOperations, hnext, andThen_next]
  have hprog := (nextOperation_keeps_program hnext).trans hp
  suffices h : ∃ t0, advance t = .next t0 ∧ runFor ((opsSchedule s.params e.coreFreqHz ops rs).length - 1) t0 =
      .next (opsEnd e.coreFreqHz ops rs rest d s) by
    obtain ⟨t0, hbegin, hends⟩ := h
    refine ⟨t0, d, hexec.trans hbegin, hends.trans ?_⟩
    simp only [opsEnd, ← hr]
  rcases hostFirst_opsSchedule s.params e.coreFreqHz ops rs with hnil | ⟨l, hcons⟩
  case inl =>
    rw [hnil] at hrun hprog ⊢
    rw [State.withProgram_self (P := [] ++ rest) hprog] at hrun
    cases hrun
    exact ⟨_, advance_none rfl, rfl⟩
  case inr =>
    rw [hcons] at hrun hprog ⊢
    rw [List.cons_append, show l ++ rest = t.program from hprog.symm] at hrun
    exact begin_run hrun

end Sys2Proof.Machine
end

section
/-! PROOFS. The recovery sequence (60_exceptions R331): what each access of CLEAR_FIFOS leaves to clear, how FLUSH ends, and that the
sequence writes no word that holds `TXD`, whatever the engine and the counter do meanwhile. -/

namespace Sys2Proof.Machine

/-- A step of any agent but a RESET while a command runs: a host turn, the engine's part, or a tick. -/
theorem step_running_cases {s t : State} (hr : s.host.running ≠ none) (h : step s = .next t) (hreset : resetNext s = false) :
    (∃ p d, advance { s with program := p, draws := d } = .next t) ∨ EngineMoved s t ∨
      t.hw = s.hw.tick ∧ t.host = s.host := by
  have hkind := run_kind hr
  rw [h] at hkind
  generalize ho : Host.Outcome.next t = o at hkind
  cases hkind with
  | host p d => exact .inl ⟨p, d, rfl⟩
  | engine u hm => cases ho; exact .inr (.inl hm)
  | tick u hw hh _ => cases ho; exact .inr (.inr ⟨hw, hh⟩)
  | reset u hnext => rw [hnext] at hreset; cases hreset

/-! The two sides of Layer H, cleared (R177, R178). -/

/-- The transmit side as `TXCLR` leaves it (R177). -/
def Hw.txCleared (h : Hw) : Prop :=
  h.txf = [] ∧ h.txovf = false ∧ h.txudf = false

/-- The receive side as `RXCLR` leaves it (R178). -/
def Hw.rxCleared (h : Hw) : Prop :=
  h.rxf = [] ∧ h.rxovf = false ∧ h.rxudf = false

/-- With both sides cleared and the engine idle the state is clean (R271). -/
theorem Hw.clean_of_cleared {h : Hw} (htx : h.txCleared) (hrx : h.rxCleared) (he : h.eng = .idle) : h.clean = true := by
  obtain ⟨htxf, htxovf, htxudf⟩ := htx
  obtain ⟨hrxf, hrxovf, hrxudf⟩ := hrx
  exact Hw.clean_iff.mpr ⟨htxf, hrxf, he, Hw.noFlags_iff.mpr ⟨htxovf, htxudf, hrxovf, hrxudf⟩⟩

/-- A trigger that a write fires stands in the word with its bit 1 (R34, R35). -/
theorem firesTrigger_iff {p : Params} {f g : Field} {w : Word} :
    firesTrigger p g (f, w) = true ↔ g ∈ p.wordOf f ∧ (p.get g w).getLsbD 0 = true := by
  rw [firesTrigger, Bool.and_eq_true, Params.mem_wordOf]

/-- A trigger that a `RegModify` is asked to fire is fired by the write of its word, whatever was read before (R151). -/
theorem firesTrigger_modifyWord {p : Params} (h : ParamsOk p) {todo : List (Field × Word)} (hm : Modifiable p todo) {f g : Field}
    (ht : p.together f g = true) (hl : todo.lookup g = some 1) (v : Word) :
    firesTrigger p g (f, Modify.word p f todo v) = true := by
  refine firesTrigger_iff.mpr ⟨Params.mem_wordOf.mpr ht, ?_⟩
  rw [get_modifyWord h hm ht, hl, Option.getD_some]
  rfl

/-- A write that fires `TXCLR` clears the transmit side, and one of a word without `TXD` leaves it cleared. -/
theorem regWrite_txCleared {f : Field} {w : Word} {s t : State} (hw : regWrite f w s = .next t)
    (hd : s.params.together f .txd = false) (hc : firesTrigger s.params .txclr (f, w) = true ∨ s.hw.txCleared) :
    t.hw.txCleared := by
  obtain ⟨-, -, -, -, rfl⟩ := regWrite_eq_next.mp hw
  refine Hw.storeU_prop (q := Hw.txCleared) ?_ fun _ hq => hq
  have htxd : Field.txd ∉ s.params.wordOf f := by rw [Params.mem_wordOf, hd]; exact Bool.false_ne_true
  rw [Hw.txCleared, writeFields_txf _ _ htxd, writeFields_txovf _ _ htxd, writeFields_txudf]
  rcases hc with hfires | ⟨htxf, htxovf, htxudf⟩
  · simp only [if_pos (firesTrigger_iff.mp hfires), and_self]
  · simp only [htxf, htxovf, htxudf, ite_self, and_self]

/-- A write that fires `RXCLR` clears the receive side. -/
theorem regWrite_rxCleared {f : Field} {w : Word} {s t : State} (hw : regWrite f w s = .next t)
    (hf : firesTrigger s.params .rxclr (f, w) = true) : t.hw.rxCleared := by
  obtain ⟨-, -, -, -, rfl⟩ := regWrite_eq_next.mp hw
  refine Hw.storeU_prop (q := Hw.rxCleared) ?_ fun _ hq => hq
  rw [Hw.rxCleared, writeFields_rxf, writeFields_rxovf, writeFields_rxudf]
  simp only [if_pos (firesTrigger_iff.mp hf), and_self]

/-! CLEAR_FIFOS (R240). -/

/-- What CLEAR_FIFOS has still to write: both triggers, or `RXCLR` alone once the transmit side is cleared. Where a `LAYOUT` puts the
triggers in two words, that `TXCLR`'s comes first is the model's choice (log 28). -/
inductive ClearLeft (h : Hw) : List (Field × Word) → Prop where
  | both : ClearLeft h clearFields
  | rx : h.txCleared → ClearLeft h [(.rxclr, 1)]

theorem State.clearing_iff {s : State} : s.clearing = true ↔
    ∃ m, s.host.running = some { act := .clearFifos m, txn := none } ∧ ClearLeft s.hw m.todo := by
  have hleft (m : Modify) : (decide (m.todo = clearFields) ||
      decide (m.todo = [(.rxclr, 1)]) && s.hw.txf.isEmpty && !s.hw.txovf && !s.hw.txudf) = true ↔ ClearLeft s.hw m.todo := by
    simp only [Bool.or_eq_true, Bool.and_eq_true, decide_eq_true_eq, List.isEmpty_iff, Bool.not_eq_true', and_assoc]
    constructor
    · rintro (e | ⟨e, hc⟩) <;> rw [e]
      · exact .both
      · exact .rx hc
    · intro h
      generalize m.todo = todo at h
      cases h with
      | both => exact .inl rfl
      | rx hc => exact .inr ⟨rfl, hc⟩
  unfold State.clearing
  constructor
  · intro h
    split at h
    case h_1 m hr => exact ⟨m, hr, (hleft m).mp h⟩
    case h_2 => cases h
  · rintro ⟨m, hr, h⟩
    rw [hr]
    exact (hleft m).mpr h

theorem State.clearing_running {s : State} (h : s.clearing = true) : s.host.running ≠ none := by
  obtain ⟨m, hr, -⟩ := State.clearing_iff.mp h
  rw [hr]
  exact Option.some_ne_none _

/-- It depends on the transmit side alone. -/
theorem ClearLeft.mono {h h' : Hw} {todo : List (Field × Word)} (hc : ClearLeft h todo) (ht : h.txCleared → h'.txCleared) :
    ClearLeft h' todo := by
  cases hc with
  | both => exact .both
  | rx htx => exact .rx (ht htx)

/-- What is left to write is never nothing, and a `RegModify` may be asked for it. -/
theorem ClearLeft.modifiable {h : Hw} {todo : List (Field × Word)} (hc : ClearLeft h todo) (p : Params) :
    ∃ x rest, todo = x :: rest ∧ Modifiable p (x :: rest) := by
  cases hc with
  | both => exact ⟨_, _, rfl, clearFields_modifiable p⟩
  | rx _ => exact ⟨_, _, rfl, (clearFields_modifiable p).filter fun x => decide (x.1 = .rxclr)⟩

/-- The write of a `RegModify`'s word, and the fields outside it that are left (R151). -/
theorem modifyAccess_some {x : Field × Word} {rest : List (Field × Word)} {v : Word} {s t : State} {q : ModifyStep}
    (h : modifyAccess { todo := x :: rest, read := some v } s = .next (q, t)) :
    regWrite x.1 (Modify.word s.params x.1 (x :: rest) v) s = .next t ∧
      q = if (rest.filter fun y => !s.params.together x.1 y.1).isEmpty then .done
        else .again { todo := rest.filter fun y => !s.params.together x.1 y.1, read := none } := by
  obtain ⟨u, hw, h⟩ := andThen_eq_next.mp h
  generalize (rest.filter fun y => !s.params.together x.1 y.1) = left at *
  cases left <;> (cases h; exact ⟨hw, rfl⟩)

/-- One access of CLEAR_FIFOS: a read leaves everything, and a write fires every trigger that is left and stands in its word. -/
theorem modifyAccess_clears {s t : State} {m : Modify} {q : ModifyStep} (hp : ParamsOk s.params) (hc : ClearLeft s.hw m.todo)
    (h : modifyAccess m s = .next (q, t)) :
    match q with
    | .again m' => ClearLeft t.hw m'.todo
    | .done => t.hw.txCleared ∧ t.hw.rxCleared := by
  obtain ⟨todo, rd⟩ := m
  cases rd with
  | none =>
    obtain ⟨x, rest, rfl, hm⟩ := hc.modifiable s.params
    obtain ⟨d, hread⟩ := modifyAccess_read hp hm
    rw [hread] at h
    cases h
    exact hc
  | some v =>
    have hfires {f g : Field} (hg : s.params.together f g = true) (hl : todo.lookup g = some 1) :
        firesTrigger s.params g (f, Modify.word s.params f todo v) = true := by
      obtain ⟨x, rest, rfl, hm⟩ := hc.modifiable s.params
      exact firesTrigger_modifyWord hp hm hg hl v
    cases hc with
    | both =>
      obtain ⟨hw, hq⟩ := modifyAccess_some h
      have htx : t.hw.txCleared := regWrite_txCleared hw (hp.not_txd rfl nofun) (.inl (hfires (hp.together_self rfl) rfl))
      cases htog : s.params.together .txclr .rxclr with
      | true =>
        have hdone : q = .done := by simpa [htog] using hq
        subst hdone
        exact ⟨htx, regWrite_rxCleared hw (hfires htog rfl)⟩
      | false =>
        have hagain : q = .again { todo := [(.rxclr, 1)], read := none } := by simpa [htog] using hq
        subst hagain
        exact .rx htx
    | rx htx =>
      obtain ⟨hw, hq⟩ := modifyAccess_some h
      have hself : s.params.together .rxclr .rxclr = true := hp.together_self rfl
      have hdone : q = .done := by simpa [hself] using hq
      subst hdone
      exact ⟨regWrite_txCleared hw (hp.not_txd rfl nofun) (.inr htx), regWrite_rxCleared hw (hfires hself rfl)⟩

/-- What a step of CLEAR_FIFOS comes to: it goes on, or it is over with both sides cleared and the engine as it was. -/
def State.clearsOn (s t : State) : Prop :=
  t.clearing = true ∨ t.host.running = none ∧ t.hw.txCleared ∧ t.hw.rxCleared ∧ t.hw.eng = s.hw.eng

/-- A host turn of CLEAR_FIFOS. -/
theorem advance_clearsOn {s t : State} (hp : ParamsOk s.params) (hc : s.clearing = true) (h : advance s = .next t) :
    s.clearsOn t := by
  obtain ⟨m, hr, hleft⟩ := State.clearing_iff.mp hc
  have heng : t.hw.eng = s.hw.eng := (advance_moved h).hw.cycle_eng.2
  obtain ⟨-, q, u, hacc, hset⟩ := advance_eq_next hr h
  rw [clearFifos_makesModify] at hacc
  obtain ⟨⟨x, w⟩, hmod, hx⟩ := andThen_eq_next.mp hacc
  have hclears := modifyAccess_clears hp hleft hmod
  cases x with
  | again m' =>
    cases hx
    cases hset
    exact .inl (State.clearing_iff.mpr ⟨m', rfl, hclears⟩)
  | done =>
    cases hx
    cases hset
    exact .inr ⟨rfl, hclears.1, hclears.2, heng⟩

/-- The engine leaves an empty transmit FIFO empty, and with it an idle engine idle (R171). -/
theorem EngineMoved.txf_nil {s t : State} (h : EngineMoved s t) (ht : s.hw.txf = []) :
    t.hw.txf = [] ∧ (s.hw.eng = .idle → t.hw.eng = .idle) := by
  rcases h.hw_frames_cases with ⟨hw, -⟩ | ⟨b, rest, hcons, -⟩ | ⟨r, record, hw, -⟩
  · rw [hw]; exact ⟨ht, id⟩
  · rw [ht] at hcons; cases hcons
  · rcases Hw.pushRx_cases s.params.fifoDepth r s.hw with ⟨-, e⟩ | e <;> (rw [hw, e]; exact ⟨ht, fun _ => rfl⟩)

/-- The engine leaves the transmit side cleared (R171, R173). -/
theorem EngineMoved.txCleared {s t : State} (h : EngineMoved s t) (hc : s.hw.txCleared) : t.hw.txCleared := by
  obtain ⟨htxf, htxovf, htxudf⟩ := hc
  obtain ⟨eovf, eudf, -⟩ := h.flags
  exact ⟨(h.txf_nil htxf).1, eovf.trans htxovf, eudf.trans htxudf⟩

/-- A step of any agent but a RESET while CLEAR_FIFOS runs. -/
theorem step_clearsOn {s t : State} (hp : ParamsOk s.params) (hc : s.clearing = true) (h : step s = .next t)
    (hreset : resetNext s = false) : s.clearsOn t := by
  obtain ⟨m, hr, hleft⟩ := State.clearing_iff.mp hc
  rcases step_running_cases (s.clearing_running hc) h hreset with ⟨P, d, hturn⟩ | hm | ⟨hw, hh⟩
  · exact advance_clearsOn (s := { s with program := P, draws := d }) hp hc hturn
  · exact .inl (State.clearing_iff.mpr ⟨m, by rw [hm.host, hr], hleft.mono hm.txCleared⟩)
  · exact .inl (State.clearing_iff.mpr ⟨m, by rw [hh, hr], by rw [hw]; exact hleft.mono id⟩)

/-- CLEAR_FIFOS begins, its first access being a read. -/
theorem exec_clearFifos_clearing {s t : State} (hp : ParamsOk s.params) (h : exec .clearFifos s = .next t) :
    t.clearing = true := by
  obtain ⟨-, h⟩ := asInstance_eq_next h
  obtain ⟨d, hread⟩ := modifyAccess_read (s := s.withRunning (some { act := .clearFifos (modifyOf clearFields), txn := none })) hp
    (clearFields_modifiable _)
  rw [start_eq, clearFifos_makesModify, show modifyAccess (modifyOf clearFields) _ = _ from hread] at h
  cases h
  exact State.clearing_iff.mpr ⟨_, rfl, .both⟩

/-! FLUSH (R268). -/

theorem State.flushing_iff {s : State} :
    s.flushing = true ↔ ∃ stale, s.host.running = some { act := .flush, txn := none, stale := stale } := by
  unfold State.flushing
  constructor
  · intro h
    split at h
    case h_1 stale hr => exact ⟨stale, hr⟩
    case h_2 => cases h
  · rintro ⟨stale, hr⟩
    rw [hr]

theorem State.flushing_running {s : State} (h : s.flushing = true) : s.host.running ≠ none := by
  obtain ⟨stale, hr⟩ := State.flushing_iff.mp h
  rw [hr]
  exact Option.some_ne_none _

/-- A read of FLUSH goes on, or ends it with the engine idle. -/
theorem advance_flushing {s t : State} (hp : ParamsOk s.params) (hf : s.flushing = true) (h : advance s = .next t) :
    t.flushing = true ∨ t.host.running = none ∧ t.hw.eng = .idle := by
  obtain ⟨stale, hr⟩ := State.flushing_iff.mp hf
  obtain ⟨rfl, -⟩ := advance_eq_next hr h
  cases hb : s.hw.busy with
  | true =>
    obtain ⟨d, hd⟩ := advance_flush_busy hp hb hr
    rw [hd] at h
    cases h
    exact .inl rfl
  | false =>
    obtain ⟨d, hd⟩ := advance_flush_idle hp hb hr
    rw [hd] at h
    cases h
    exact .inr ⟨rfl, Hw.not_busy_iff.mp hb⟩

/-- A step of any agent but a RESET while FLUSH runs. -/
theorem step_flushing {s t : State} (hp : ParamsOk s.params) (hf : s.flushing = true) (h : step s = .next t)
    (hreset : resetNext s = false) : t.flushing = true ∨ t.host.running = none ∧ t.hw.eng = .idle := by
  obtain ⟨stale, hr⟩ := State.flushing_iff.mp hf
  rcases step_running_cases (s.flushing_running hf) h hreset with ⟨P, d, hturn⟩ | hm | ⟨-, hh⟩
  · exact advance_flushing (s := { s with program := P, draws := d }) hp hf hturn
  · exact .inl (State.flushing_iff.mpr ⟨stale, by rw [hm.host, hr]⟩)
  · exact .inl (State.flushing_iff.mpr ⟨stale, by rw [hh, hr]⟩)

/-- FLUSH that ends with its first read finds the engine idle. -/
theorem exec_flush_idle {s t : State} (hp : ParamsOk s.params) (h : exec .flush s = .next t) (hr : t.host.running = none) :
    t.hw.eng = .idle := by
  obtain ⟨-, h⟩ := asInstance_eq_next h
  have hturn := advance_flushing (s := s.withRunning (some { act := .flush, txn := none })) hp rfl h
  exact (hturn.resolve_left fun hf => t.flushing_running hf hr).2

/-! Nothing is pushed by the sequence. -/

/-- The sequence runs nothing, FLUSH or CLEAR_FIFOS. -/
theorem State.recovering_running {s : State} (h : s.recovering = true) :
    s.host.running = none ∨ s.flushing = true ∨ s.clearing = true := by
  rw [State.recovering, Bool.and_eq_true] at h
  simpa [or_assoc] using h.1

/-- The instructions of the sequence are those of the other agents, CLEAR_FIFOS and FLUSH. -/
theorem State.recovering_instr {s u : State} {i : Instr} (h : s.recovering = true) (hf : fetch s = .instr i u) :
    autonomous i = true ∨ i = .clearFifos ∨ i = .flush := by
  rw [State.recovering, hf, Bool.and_eq_true] at h
  simpa [or_assoc] using h.2

/-- No agent but the host writes a register. -/
theorem rowWrite_autonomous {i : Instr} (h : autonomous i = true) : rowWrite i = none := by
  cases i with
  | frameStart | frameComplete _ | tick | reset => rfl
  | _ => cases h

/-- The only words that the running command writes are those of the triggers. -/
theorem State.recovering_write {s : State} (h : s.recovering = true) {x : Field × Word} (hw : s.write = some x) :
    x.1 = .txclr ∨ x.1 = .rxclr := by
  rcases s.recovering_running h with hr | hf | hc
  · rw [State.write, hr] at hw; cases hw
  · obtain ⟨stale, hr⟩ := State.flushing_iff.mp hf
    rw [State.write, hr] at hw; cases hw
  · obtain ⟨⟨todo, rd⟩, hr, hleft⟩ := State.clearing_iff.mp hc
    rw [State.write, hr] at hw
    cases rd with
    | none => cases hleft <;> cases hw
    | some v =>
      cases hleft with
      | both => cases hw; exact .inl rfl
      | rx _ => cases hw; exact .inr rfl

/-- The only words that a step of the sequence writes are those of the triggers. -/
theorem nextWrite_recovering {s : State} (h : s.recovering = true) {x : Field × Word} (hw : nextWrite s = some x) :
    x.1 = .txclr ∨ x.1 = .rxclr := by
  unfold nextWrite at hw
  split at hw
  case h_1 i u hf =>
    have hnone : rowWrite i = none := by
      rcases s.recovering_instr h hf with ha | rfl | rfl
      · exact rowWrite_autonomous ha
      · rfl
      · rfl
    rw [hnone] at hw
    cases hw
  case h_2 u hf =>
    obtain ⟨-, -, hhost, -, hparams⟩ := fetch_turn hf
    have hsame : u.write = s.write := by rw [State.write, State.write, hhost, hparams]
    exact s.recovering_write h (hsame ▸ hw)
  case h_3 => cases hw

/-- A host access pushes nothing where the word it writes does not hold `TXD` (R142). -/
theorem Touch.txf_nil {p : Params} {wr : Option (Field × Word)} {h h' : Hw} (t : Touch p wr h h')
    (hd : ∀ x, wr = some x → p.together x.1 .txd = false) (ht : h.txf = []) : h'.txf = [] := by
  cases t with
  | same => exact ht
  | write f w hwr _ =>
    have htxd : Field.txd ∉ p.wordOf f := by rw [Params.mem_wordOf, hd _ hwr]; exact Bool.false_ne_true
    refine Hw.storeU_prop (q := fun x => x.txf = []) ?_ fun _ hq => hq
    rw [writeFields_txf _ _ htxd, ht, ite_self]
  | pop => unfold Hw.popRx; split <;> exact ht

/-- A step of the sequence leaves an empty transmit FIFO empty, and with it an idle engine idle. -/
theorem step_recovering {s t : State} (hp : ParamsOk s.params) (hr : s.recovering = true) (h : step s = .next t)
    (hreset : resetNext s = false) (ht : s.hw.txf = []) : t.hw.txf = [] ∧ (s.hw.eng = .idle → t.hw.eng = .idle) := by
  cases step_kind h with
  | host hm _ _ =>
    have hd (x : Field × Word) (hx : nextWrite s = some x) : s.params.together x.1 .txd = false := by
      rcases nextWrite_recovering hr hx with e | e <;> (rw [e]; exact hp.not_txd rfl nofun)
    exact ⟨hm.hw.txf_nil hd ht, fun he => hm.hw.cycle_eng.2.trans he⟩
  | engine hm _ _ => exact hm.txf_nil ht
  | tick hw _ _ _ _ _ _ => rw [hw]; exact ⟨ht, id⟩
  | reset p _ hnext => rw [hnext] at hreset; cases hreset

/-- Settles O60: a step of CLEAR_FIFOS or FLUSH goes on with the command or ends it as R331 says, and with the transmit FIFO empty no
step of the sequence fills it or starts a frame. -/
theorem recoverySequenceEndsClean : Obligations.RecoverySequenceEndsClean := by
  intro s t hok h hreset
  have hp := paramsOk hok
  refine ⟨fun u hf => ?begins, fun hc => ?clears, fun hr ht => step_recovering hp hr h hreset ht, fun u hf hr => ?flushes,
    fun hf => ?waits⟩
  case begins =>
    obtain ⟨⟨P, rfl⟩, -⟩ := fetch_instr hf
    rw [step_instr hf] at h
    exact exec_clearFifos_clearing (s := s.withProgram P) hp h
  case clears =>
    have hstep := step_clearsOn hp hc h hreset
    refine ⟨fun hr => hstep.resolve_right fun hover => hr hover.1, fun hr => ?_⟩
    obtain ⟨-, htx, hrx, heng⟩ := hstep.resolve_left fun hgoes => t.clearing_running hgoes hr
    exact ⟨htx.1, fun _ he => Hw.clean_of_cleared htx hrx (heng.trans he)⟩
  case flushes =>
    obtain ⟨⟨P, rfl⟩, -⟩ := fetch_instr hf
    rw [step_instr hf] at h
    exact exec_flush_idle (s := s.withProgram P) hp h hr
  case waits =>
    have hstep := step_flushing hp hf h hreset
    exact ⟨fun hr => hstep.resolve_right fun hover => hr hover.1,
      fun hr => (hstep.resolve_left fun hgoes => t.flushing_running hgoes hr).2⟩

end Sys2Proof.Machine
end

section
/-! PROOFS. What the clock divider guarantees about the clock it generates (R377), and what the host reads after a reset event
(R363). -/

namespace Sys2Proof.Machine

/-! The generated clock (R377). -/

/-- A CLOCK_DIVIDER that returns a value returns the divider's. -/
theorem clockDivider_of_exec {s t : State} {src f : Word} {v : Byte} (h : exec (.clockDivider src f) s = .next t)
    (hret : t.host.ret = .okByte v) : clockDivider src f = some v := by
  obtain ⟨hf, -⟩ := asHost_eq_next (show execClockDivider src f s = .next t from h)
  cases hd : clockDivider src f with
  | none =>
    rw [exec_clockDivider_none hf hd] at h
    cases h
    cases hret
  | some x =>
    rw [exec_clockDivider_some hf hd] at h
    cases h
    cases hret
    rfl

/-- Settles O38: the length `v + 1` is the quotient of `F` by `2 f` rounded down, so `F` lies between that many times `2 f` and one
time more. -/
theorem generatedClockIsNeverSlower : Obligations.GeneratedClockIsNeverSlower := by
  intro s t src f v h hret
  obtain ⟨hf0, hlen⟩ := clockDivider_eq_some (clockDivider_of_exec h hret)
  have hpos : 0 < 2 * f.toNat :=
    Nat.mul_pos two_pos (Nat.pos_of_ne_zero fun h0 => hf0 (BitVec.eq_of_toNat_eq h0))
  constructor
  · calc f.toNat * (2 * (v.toNat + 1)) = 2 * f.toNat * (src.toNat / (2 * f.toNat)) := by rw [hlen]; ring
      _ ≤ src.toNat := Nat.mul_div_le _ _
  · calc src.toNat < 2 * f.toNat * (src.toNat / (2 * f.toNat) + 1) := Nat.lt_mul_div_succ _ hpos
      _ = f.toNat * (2 * (v.toNat + 2)) := by rw [← hlen]; ring

/-! After a reset event (R363). -/

/-- A reset event ends no host program and begins no command, so a free host stays free. -/
theorem hostFree_resetEvent {s : State} (h : hostFree s = true) : hostFree s.resetEvent = true := by
  obtain ⟨hended, hrun⟩ := hostFree_iff.mp h
  exact hostFree_iff.mpr ⟨hended, congrArg (Option.map _) hrun⟩

/-- Bits of a word are 0 together where each of them is. -/
theorem extractLsb'_eq_zero_iff {w : Word} {lo n : Nat} : w.extractLsb' lo n = 0 ↔ ∀ i < n, w.getLsbD (lo + i) = false := by
  refine ⟨fun h i hi => ?_, fun h => BitVec.eq_of_getLsbD_eq fun i hi => ?_⟩
  · have e := congrArg (BitVec.getLsbD · i) h
    simpa [hi] using e
  · simp [hi, h i hi]

/-- The counts read with both FIFOs empty, the transmit one in the sense of `TXCNT_SENSE` (R140). -/
theorem exec_rdFifo1_empty {s : State} (hf : hostFree s = true) (hl : s.params.layout = .default)
    (hok : Params.ok s.params = true) (htx : s.hw.txf = []) (hrx : s.hw.rxf = []) :
    ∃ w, exec .rdFifo1 s = .next (s.withRet (.word w)) ∧ (w.extractLsb' 8 3).toNat = 0 ∧
      (s.params.txcntSense = .occupancy → (w.extractLsb' 0 3).toNat = 0) ∧
      (s.params.txcntSense = .free → (w.extractLsb' 0 3).toNat = s.params.fifoDepth) := by
  have h := defaultWord_of_ok hl hok .txcnt
  have hdepth : s.params.fifoDepth < 2 ^ 3 := cntBits_default hl hok ▸ (paramsOk hok).depth_lt
  have hroom : s.hw.txf.length ≤ s.params.fifoDepth := by rw [htx]; exact Nat.zero_le _
  have htxcnt : ((s.wordAt .txcnt).extractLsb' 0 3).toNat = s.hw.txCount s.params :=
    h.count_wordAt (g := .txcnt) rfl (by decide) rfl (Nat.lt_of_le_of_lt (txCount_le hroom) hdepth)
  have hrxcnt : ((s.wordAt .txcnt).extractLsb' 8 3).toNat = s.hw.rxf.length :=
    h.count_wordAt (g := .rxcnt) rfl (by decide) rfl (by rw [hrx]; decide)
  refine ⟨s.wordAt .txcnt, (storedWord_counts hl).readRow_next hf, by rw [hrxcnt, hrx]; rfl, fun hsense => ?_, fun hsense => ?_⟩
  · rw [htxcnt, Hw.txCount, hsense, htx]; rfl
  · rw [htxcnt, Hw.txCount, hsense, htx]; rfl

/-- Settles O10: the reset event leaves the default record's values in Layer H and the host free, and each read shows them at their
bits. -/
theorem readsAfterResetShowTheResetState : Obligations.ReadsAfterResetShowTheResetState := by
  intro s t hrecord hl hok hfree h
  cases h
  have hf := hostFree_resetEvent hfree
  obtain ⟨hrole, hmEn, hsEn, hcpol, hcpha, hcont, hfsize, hbitord, htxovf, htxudf, hrxovf, hrxudf, htxf, hrxf, heng⟩ :=
    hrecord ▸ s.resetHw_record
  refine ⟨?config, ?busy, ?flags, exec_rdFifo1_empty hf hl hok htxf hrxf, ?rxdata⟩
  case config =>
    obtain ⟨⟨w, hread, b0, b1, b2, b4, b5, b6, b9, b10, -⟩, -⟩ := configurationReadsItsFields s.resetEvent hf hl
    have hsize := extractLsb'_eq_zero_iff.mp (b2.trans hfsize)
    refine ⟨w, hread, extractLsb'_eq_zero_iff.mpr fun i hi => ?_, b9.trans hcont, b10.trans hrole⟩
    interval_cases i
    · exact b0.trans hmEn
    · exact b1.trans hsEn
    · exact hsize 0 (by decide)
    · exact hsize 1 (by decide)
    · exact b4.trans hcpol
    · exact b5.trans hcpha
    · exact b6.trans hbitord
  case busy =>
    obtain ⟨w, hread, hbit, -⟩ := busyReadsTheEngine s.resetEvent hf hl
    exact ⟨w, _, hread, rfl, Bool.eq_false_iff.mpr fun hset => hbit.mp hset heng⟩
  case flags =>
    obtain ⟨w, hread, b2, b3, b4, b5, b6, b7, -⟩ := fifoFlagsReadWithoutClearing s.resetEvent hf hl
    refine ⟨w, hread, extractLsb'_eq_zero_iff.mpr fun i hi => ?_⟩
    interval_cases i
    · exact b2
    · exact b3
    · exact b4.trans htxovf
    · exact b5.trans htxudf
    · exact b6.trans hrxovf
    · exact b7.trans hrxudf
  case rxdata =>
    obtain ⟨w, -, hempty, -⟩ := receiveReadPopsOrUnderflows s.resetEvent hf hl
    exact ⟨_, (hempty hrxf).1, rfl⟩

end Sys2Proof.Machine
end
